-- ==== Sys2Proof/Word.lean ====
section
/-! DEFINITION. The number formats of the LW220 (spec/00_scope.md, 6.1 and 6.2): whole numbers are plain `Nat`,
bytes on the wall bus and in the configuration memory are bit vectors, and a sum of amounts that would pass
16,777,215 is held there. -/

namespace Sys2Proof

/-- One byte of a frame's payload or of the configuration memory image (12, opening paragraph). -/
abbrev Byte := BitVec 8

/-- The largest amount or value the device holds (00, 6.1: "held at 16,777,215"). -/
def maxAmount : Nat := 16777215

/-- An amount held at 16,777,215 (00, 6.1). -/
def sat24 (n : Nat) : Nat := min n maxAmount

/-- A two-byte figure held at its upper limit of 65,535 (R171 for the shift totals). -/
def sat16 (n : Nat) : Nat := min n 65535

end Sys2Proof
end

