-- ==== Sys2Proof/Syntax.lean ====
section
/-! DEFINITION. The steps of the LW220 as syntax: one constructor of `Instr` for each row of
spec/opcode_table.json (27 commands of a console, then the frame, timer, sensor and start-up events), with the
figures each one brings to the lane. Operands are plain numbers; `WellFormed.lean` says which of them a frame,
a sensor or a converter can carry. -/

namespace Sys2Proof

/-- The two measurement channels (section 2): P on the pick transport, Q in the deposit throat. -/
inductive ChannelId
  | p
  | q
  deriving DecidableEq, Repr, Inhabited

/-- The lane states, in the order of the table of section 11.1. -/
inductive LaneState
  | starting
  | configFault
  | recovery
  | closed
  | opened
  | waking
  | night
  | lockdown
  deriving DecidableEq, Repr, Inhabited

/-- The alarm summary of R129. -/
inductive AlarmSummary
  | none
  | duress
  | attack
  deriving DecidableEq, Repr, Inhabited

/-- The kinds of an INTENT (R124). -/
inductive IntentKind
  | dispense
  | deposit
  deriving DecidableEq, Repr, Inhabited

/-- The command kinds of R157, and a kind byte that names none of them (R180). A REPLY has the command's kind. -/
inductive CmdKind
  | dispense
  | cancel
  | depositOpen
  | depositCloseThroat
  | depositAccept
  | depositReturn
  | calibrate
  | cassetteLoad
  | cassetteUnload
  | clearPurge
  | depositCassetteExchange
  | bind
  | unbind
  | query
  | queryZonesClear
  | laneOpen
  | laneClose
  | laneNight
  | clearJam
  | clearFaults
  | clearCause
  | binServiceOpen
  | binServiceClose
  | alarmClear
  | shiftClose
  | resetLane
  | unknown (kind : Nat)
  deriving DecidableEq, Repr, Inhabited

/-- What every COMMAND addressed to the lane carries (R180, R181): its source station, its command tag and the
RETRY flag. -/
structure Header where
  src   : Nat
  tag   : Nat
  retry : Bool
  deriving DecidableEq, Repr, Inhabited

/-- The request of a DISPENSE (12.2): an amount, or a list of pairs of denomination and count. -/
inductive Request
  | amount (n : Nat)
  | pairs (l : List (Nat × Nat))
  deriving DecidableEq, Repr, Inhabited

/-- The figures of a POSITION (R129, 12.2). -/
structure PositionFigures where
  held      : Nat
  cap       : Nat
  laneState : LaneState
  summary   : AlarmSummary
  vehicle   : Bool
  slots     : Nat
  deriving DecidableEq, Repr, Inhabited

/-- The frames of a peer that no other row names, by what they show of the sender (R117). A COMMAND here is one
for another station or for all (R180); an answer is one not addressed to this lane (R160). -/
inductive OtherFrame
  | command
  | presence
  | answer
  | ask
  | reply
  | notice
  deriving DecidableEq, Repr, Inhabited

/-- What the lane board shows the device at a reset: whether the retention memory is intact (R193), the five
station straps as a number (12.4), the bytes the configuration memory gives (`none` where it does not
acknowledge, R186) and the presence switches of C1 to C4 (`true`: closed; R14). -/
structure Board where
  retentionOk : Bool
  straps      : Nat
  image       : Option (List Byte)
  presence    : List Bool
  deriving DecidableEq, Repr, Inhabited

/-- The sensors of the capture path (R112); `true` reads occupied. -/
structure CaptureSensors where
  slot    : Bool
  length  : Bool
  drop    : Bool
  retract : Bool
  deriving DecidableEq, Repr, Inhabited

/-- The sensors read at the mechanics check of STARTING (R185, step 6). -/
structure StartSensors where
  capture : CaptureSensors
  stacker : Bool
  pocket  : Bool
  escrow  : Bool
  deriving DecidableEq, Repr, Inhabited

/-- The steps of the part, one constructor for each row of spec/opcode_table.json, in the table's order. `raws` are
the raw converter samples that the channel of the row, or the one whose window is open, has taken since its previous
step, oldest first, none where a row is given without them; cassettes, zones and slots carry the numbers the manual
prints (C1 = 1, Z1 = 1, A0 = 0). -/
inductive Instr
  -- commands of a console
  | dispense (h : Header) (req : Request)
  | cancel (h : Header)
  | depositOpen (h : Header)
  | depositCloseThroat (h : Header) (raws : List Nat)
  | depositAccept (h : Header) (raws : List Nat)
  | depositReturn (h : Header) (raws : List Nat)
  | calibrate (h : Header) (channel k cassette : Nat) (pocketOccupied : Bool)
  | cassetteLoad (h : Header) (slot den count : Nat)
  | cassetteUnload (h : Header) (slot : Nat)
  | clearPurge (h : Header)
  | depositCassetteExchange (h : Header)
  | bind (h : Header)
  | unbind (h : Header)
  | query (h : Header) (record index : Nat)
  | queryZonesClear (h : Header)
  | laneOpen (h : Header)
  | laneClose (h : Header)
  | laneNight (h : Header)
  | clearJam (h : Header) (stackerOccupied escrowOccupied : Bool)
  | clearFaults (h : Header)
  | clearCause (h : Header)
  | binServiceOpen (h : Header)
  | binServiceClose (h : Header) (binPresent : Bool)
  | alarmClear (h : Header) (latch : Nat)
  | shiftClose (h : Header)
  | resetLane (h : Header)
  | unknownCommand (h : Header) (kind : CmdKind)
  -- frames of other stations, and the ends of the lane's own
  | approvalAnswer (src slot ask verdict kind amount : Nat)
  | peerPosition (src : Nat) (p : PositionFigures)
  | peerIntent (src amount : Nat)
  | peerAlarm (src dst : Nat) (summary : AlarmSummary)
  | peerFrame (src : Nat) (f : OtherFrame)
  | duplicateStation
  | frameComplained
  | intentCompletion
  | ownFrameCompleted (b : Board)
  | querySegmentCompleted
  | transmissionComplained (b : Board)
  | arbitrationLost
  | idlePoint
  -- timers
  | positionPeriod
  | peerStale (station : Nat)
  | intentSpacingEnd
  | dispenseCeilingTimeout
  | depositCeilingTimeout
  | approvalTimeout (slot : Nat)
  | dispenseTakeTimeout
  | returnTakeTimeout
  | clearanceTakeTimeout
  | calibrationTakeTimeout (raws : List Nat := [])
  | dispenseTaken
  | returnTaken
  | refusedNotesTaken
  | clearanceTaken
  | calibrationNoteTaken
  | throatIdleTimeout (raws : List Nat)
  | pickMiss (raws : List Nat)
  | zeroCaptureStall (ch : ChannelId)
  | pickJam (raws : List Nat := [])
  | stackerPurgeJam
  | presentJam
  | stackerReversalJam
  | depositJam (raws : List Nat := [])
  | retractJam
  | envelopeJam (mm : Nat)
  | recoveryPurgeJam
  | recoveryStackingJam
  | wakingEnd (c : CaptureSensors)
  -- alarm loops and the wall alarm line
  | zoneScan (readings : List Nat) (asserted : Bool) (raws : List Nat := [])
  | zoneChange (zone : Nat) (pocketOccupied : Bool) (raws : List Nat := [])
  | troubleCleared (zone : Nat)
  | zoneRestored (zone : Nat) (pocketOccupied : Bool) (raws : List Nat := [])
  | wallLineRecognised
  | wallLineReleased
  -- the measurement channels
  | zeroCaptureDone (ch : ChannelId) (raws : List Nat)
  | runStart (ch : ChannelId) (raws : List Nat) (first : Nat)
  | runEnd (ch : ChannelId) (raws : List Nat)
  | runCutOff (ch : ChannelId) (raws : List Nat)
  -- sensors of the dispenser, the throat and the pocket
  | stackerCountIn (raws : List Nat)
  | escrowPush (raws : List Nat)
  | refusedNoteAtPocket (raws : List Nat)
  | noteStacked (escrowClear : Bool)
  | returnBundleInPocket
  | presentMovementEnd
  | purgeMovementEnd
  | stackerReversalEnd
  | returnReversalEnd
  | calibrationNoteAtPocket
  | retractMovementEnd
  -- the capture path
  | envelopeArrival
  | envelopeWithdrawn
  | envelopeClearsSlot
  | lengthSensorReached
  | envelopeTooLong
  | lengthMeasured (mm : Nat)
  | thicknessTrip (mm : Nat)
  | imprintStart
  | envelopeDrop
  | envelopeReversalEnd
  | returnedEnvelopeCleared
  | binServiceOpened
  -- presence switches
  | cassetteRemoved (cassette : Nat)
  | cassetteReseated (cassette : Nat)
  -- the lane state
  | pendingRequestApplied
  | lockdownExit
  | recoveryEnd
  | powerOn (b : Board)
  | supplyDip (b : Board)
  | resetLine (b : Board)
  | mechanicsCheck (x : StartSensors)
  | tailEnd (ch : ChannelId) (raws : List Nat)
  deriving DecidableEq, Repr

end Sys2Proof
end

