-- ==== Sys2Proof/Config.lean ====
section
/-! DEFINITION. What the spec leaves open, as constants with no body: nothing can be proved of their values.
(The device's own CONFIGURATION, read from its memory at start, is state: `Machine.Configuration`.) -/

namespace Sys2Proof

/-- FREE VALUE (DESIGN CHOICE, notes/assumptions/5.md). A count whose range ends at 65,535 and for which no rule says
what happens past that end: the deposit session's refused count (section 4.1, R80) and a cassette's reject estimate
charged since load (section 1.2, R10). The argument is the model's own counter `State.free`. -/
opaque Config.freeCount : Nat → Nat

/-- FREE VALUE (DESIGN CHOICE, notes/assumptions/6.md). The class of a note drawn from a cassette that was removed AND
reseated while the note was being measured, so that its record names no denomination and no nominal length exists for
the check of R29: whether that check passes. The argument is the model's own counter `State.free`. -/
opaque Config.freeLengthGood : Nat → Bool

/-- FREE VALUE (DESIGN CHOICE, notes/assumptions/6.md). The face value booked for an accepted note (R56, "the face
value at load of the last cassette") when that cassette was removed and reseated before the stacker sensor counted the
note in, so that its record no longer has one. The argument is the model's own counter `State.free`. -/
opaque Config.freeFace : Nat → Nat

/-- FREE VALUE (DESIGN CHOICE, notes/assumptions/22.md). What the configuration memory gives (R186, R194) at a reset of
kind COMMANDED whose APPROVAL_CLOSED was dropped from a full queue (R178, R192): the row at which that happens shows no
board, and the memory may have been rewritten, or fallen silent, since the lane last read it. The argument is the
model's own counter `State.free`. -/
opaque Config.freeImage : Nat → Option (List Byte)

end Sys2Proof
end

