-- ==== Sys2Proof/Machine/State.lean ====
section
/-! DEFINITION. Everything the spec gives the LW220 to hold, as plain data. Each structure is one block's part of
section 3's diagram (spec/00_scope.md); the default of every field is its value right after a reset at which
retention was lost, so that `State.reset` is the structure with no field given. INVENTORY.md lists each field with
the rule that names it. Lists of fixed length (denominations, cassettes, zones, peers, slots) are indexed from 0. -/

namespace Sys2Proof.Machine

/-- Why the block stops. The spec gives every step an effect or none, so no meaning of this model stops. -/
inductive Fault
  /-- Raised by no meaning and by no step: the type of a fault must have a name (safe). -/
  | unraised
  deriving DecidableEq, Repr, Inhabited

/-- Why a command has no meaning. -/
inductive Refusal
  /-- Raised by an arm of `exec` whose row has no meaning yet; no arm raises it now (safe). -/
  | notModelled (mnemonic : String)
  deriving DecidableEq, Repr, Inhabited

/-! ### Configuration, denominations and cassettes (chapters 1 and 12.3) -/

/-- Loop types (R132), in the order of the codes of 12.3. -/
inductive ZoneType
  | unused
  | duress
  | attack
  | door
  | bin
  | vehicle
  deriving DecidableEq, Repr, Inhabited

/-- The items of the configuration memory that no table of another block holds (12.3). -/
structure Configuration where
  wallCeiling      : Nat := 0
  laneCap          : Nat := 0
  defaultPeerCap   : Nat := 0
  /-- Bit n is set for station n. -/
  expected         : Nat := 0
  s1               : Nat := 0
  duressLimit      : Nat := 0
  depositAllowance : Nat := 0
  /-- Seconds. -/
  takeTimeout      : Nat := 0
  /-- Seconds. -/
  approvalTimeout  : Nat := 0
  gainP            : Nat := 0
  gainQ            : Nat := 0
  captureBand      : Nat := 0
  deriving DecidableEq, Repr, Inhabited

/-- One entry of the denomination table (section 1.1): five configured fields and three learned, retained ones. -/
structure Denom where
  used      : Bool := false
  face      : Nat := 0
  nomLength : Nat := 0
  window    : Nat := 0
  nomThick  : Nat := 0
  ref       : Nat := 0
  restart   : Nat := 0
  basis     : Nat := 0
  deriving DecidableEq, Repr, Inhabited

/-- The states of a cassette (section 1.2). -/
inductive CassetteState
  | unloaded
  | active
  | low
  | empty
  | suspect
  | removed
  deriving DecidableEq, Repr, Inhabited

/-- One cassette record (section 1.2). -/
structure Cassette where
  st        : CassetteState := .unloaded
  denom     : Option Nat := none
  face      : Option Nat := none
  count     : Nat := 0
  loaded    : Nat := 0
  accepted  : Nat := 0
  rejectEst : Nat := 0
  setpoint  : Nat := 0
  ref       : Nat := 20
  restart   : Nat := 0
  misses    : Nat := 0
  deriving DecidableEq, Repr, Inhabited

/-- The purge tray record (section 1.7). -/
structure PurgeTray where
  total       : Nat := 0
  perCassette : List Nat := List.replicate 4 0
  notes       : Nat := 0
  value       : Nat := 0
  full        : Bool := false
  deriving DecidableEq, Repr, Inhabited

/-- The deposit cassette record (section 1.8). -/
structure DepositCassette where
  count        : Nat := 0
  perCount     : List Nat := List.replicate 8 0
  perValue     : List Nat := List.replicate 8 0
  unconfCount  : Nat := 0
  unconfValue  : Nat := 0
  unidentified : Nat := 0
  deriving DecidableEq, Repr, Inhabited

/-- An approval slot as the asking block enters it in its record (R158): the slot's number and the ask number it had at
the taking. -/
structure SlotRef where
  slot : Nat
  ask  : Nat
  deriving DecidableEq, Repr, Inhabited

/-- A CASSETTE_LOAD waiting for approval (R4, R5). -/
structure LoadWait where
  slot     : SlotRef
  tag      : Nat
  cassette : Nat
  den      : Nat
  count    : Nat
  deriving DecidableEq, Repr, Inhabited

/-- A DEPOSIT_CASSETTE_EXCHANGE waiting for approval (R19). -/
structure ExchangeWait where
  slot : SlotRef
  tag  : Nat
  deriving DecidableEq, Repr, Inhabited

/-- The cassette unit (section 3). -/
structure CassetteUnit where
  denoms    : List Denom := List.replicate 8 {}
  cassettes : List Cassette := List.replicate 4 {}
  purge     : PurgeTray := {}
  deposit   : DepositCassette := {}
  loads     : List LoadWait := []
  exchange  : Option ExchangeWait := none
  deriving DecidableEq, Repr, Inhabited

/-! ### Measurement channels (chapter 2) -/

/-- Note classes, in the order of severity of section 2.5. -/
inductive NoteClass
  | overlap
  | multi
  | double
  | thin
  | length
  | unclassified
  | single
  deriving DecidableEq, Repr, Inhabited

/-- What an open window holds (R21 to R24): a gap with its sample count and sum of raw values; a run with the
corrected values up to its last present sample and the raw values of the non-present samples since, both newest
first; or the tail of a cut run with the raw values of its trailing non-present samples. -/
inductive Flow
  | none
  | gap (count sum : Nat)
  | run (cs trail : List Nat)
  | tail (trail : List Nat)
  deriving DecidableEq, Repr, Inhabited

/-- The measured note record (section 2.4). -/
structure NoteRecord where
  n        : Nat
  length   : Nat
  c        : Option Nat
  t        : Option Nat
  ref      : Option Nat
  q        : Option Nat
  den      : Option Nat
  cls      : NoteClass
  fragment : Bool
  cutOff   : Bool
  deriving DecidableEq, Repr, Inhabited

/-- One channel (section 2.1). `capturing` says that a zero capture runs (R34). -/
structure Channel where
  zero      : Option Nat := none
  gain      : Nat := 0
  gainBasis : Nat := 0
  drift     : Nat := 0
  lost      : Bool := false
  window    : Bool := false
  flow      : Flow := .none
  capturing : Bool := false
  last      : Option NoteRecord := none
  deriving DecidableEq, Repr, Inhabited

/-- The calibration in progress (R40 to R43). `waiting`: the gate or the throat is open and no run has started.
`stacking`: lockdown stacks the note (R42). -/
inductive CalPhase
  | none
  | zeroCapture
  | waiting
  | running
  | tail
  | toPocket
  | inPocket
  | retracting
  | stacking
  deriving DecidableEq, Repr, Inhabited

/-- Outcomes of a calibration (R41, R42). -/
inductive CalOutcome
  | zeroFault
  | jam
  | calFailed
  | calibrated
  | lockdown
  deriving DecidableEq, Repr, Inhabited

/-- The calibration record (R40); `takeMs` is its take timer in ms, `locked` says that lockdown came before the
record was classified (R41, R42). -/
structure Calibration where
  phase      : CalPhase := .none
  channel    : ChannelId := .p
  k          : Nat := 0
  cassette   : Nat := 0
  tag        : Nat := 0
  takeMs     : Option Nat := none
  outcome    : Option CalOutcome := none
  c          : Option Nat := none
  gainBefore : Nat := 0
  gainAfter  : Nat := 0
  locked     : Bool := false
  deriving DecidableEq, Repr, Inhabited

/-! ### The dispense engine (chapter 3) -/

/-- Engine states (section 3.1). PLANNING is entered and left within one DISPENSE (R50). -/
inductive DispState
  | idle
  | planning
  | awaitApproval
  | awaitCeiling
  | zeroCapture
  | picking
  | purging
  | presenting
  | retracting
  deriving DecidableEq, Repr, Inhabited

/-- Outcomes, in the order of the table of R72. -/
inductive DispOutcome
  | clampedZero
  | noMix
  | declined
  | expired
  | ceilingTimeout
  | cancelled
  | short
  | rejectLimit
  | purgeFull
  | zeroFault
  | jam
  | taken
  | retracted
  | lockdown
  deriving DecidableEq, Repr, Inhabited

/-- One pair of the plan with its picked count (section 3.1). -/
structure PlanPair where
  den    : Nat
  count  : Nat
  picked : Nat
  deriving DecidableEq, Repr, Inhabited

/-- Where the pick in progress stands (R55 to R59): the gate is open and no run has started; a run is in progress;
accepted notes are on their way to the stacker sensor, with no note under the channel; a cut-off note's tail has not
ended. -/
inductive PickPhase
  | none
  | gateOpen
  | running
  | toStacker
  | tail
  deriving DecidableEq, Repr, Inhabited

/-- The stacker movement in progress (R62, R64, R70). -/
inductive StackerMove
  | none
  | purge
  | present
  | reverse
  deriving DecidableEq, Repr, Inhabited

/-- The dispense engine and its record (section 3.1). The reservation is held in `HeldCash`. `outcome` is absent until
the dispense ends or is stranded (R72); `decided` is the outcome that an ending still under way will write (R62, R68,
R70), and `stop` the one with which picking stops at the next note boundary (R57, R69, R70). `owed` counts the accepted
notes that the stacker sensor has not counted in yet (R56); timers count ms. -/
structure Dispense where
  st             : DispState := .idle
  console        : Nat := 0
  tag            : Nat := 0
  request        : Option Request := none
  duress         : Bool := false
  plan           : List PlanPair := []
  planValue      : Nat := 0
  pair           : Nat := 0
  lastCassette   : Option Nat := none
  stackerNotes   : Nat := 0
  stackerValue   : Nat := 0
  presentedNotes : Nat := 0
  presentedValue : Nat := 0
  rejects        : Nat := 0
  slot           : Option SlotRef := none
  takeMs         : Option Nat := none
  ceilingMs      : Option Nat := none
  outcome        : Option DispOutcome := none
  stranded       : Bool := false
  decided        : Option DispOutcome := none
  pick           : PickPhase := .none
  owed           : Nat := 0
  stop           : Option DispOutcome := none
  move           : StackerMove := .none
  deriving DecidableEq, Repr, Inhabited

/-! ### The deposit engine (chapter 4) -/

/-- Session states (section 4.1). -/
inductive DepState
  | closed
  | awaitCeiling
  | zeroCapture
  | feeding
  | holding
  | awaitApproval
  | stacking
  | returning
  | returnPresented
  | returnRetracting
  deriving DecidableEq, Repr, Inhabited

/-- Outcomes, in the order of the table of R92. -/
inductive DepOutcome
  | ceilingTimeout
  | cancelled
  | zeroFault
  | jam
  | stacked
  | returnedTaken
  | returnedRetracted
  | securedUnconfirmed
  | lockdown
  deriving DecidableEq, Repr, Inhabited

/-- An escrow entry (section 4.1). -/
structure EscrowEntry where
  den   : Nat
  face  : Nat
  thick : Nat
  deriving DecidableEq, Repr, Inhabited

/-- The refusal clearance (R83). -/
inductive Clearance
  | none
  | opened
  | retracting
  deriving DecidableEq, Repr, Inhabited

/-- A DEPOSIT_ACCEPT that waits for the throat to close (R84), and whether the duress latch was set when it was taken:
it then needs no approval (R144). -/
structure WaitingAccept where
  header : Header
  duress : Bool := false
  deriving DecidableEq, Repr, Inhabited

/-- What waits for the throat to close (R82): a return that has been taken (R87), and the accepts that are decided
when the session would enter HOLDING, oldest first (R84). -/
structure Closing where
  giveBack : Bool := false
  accepts  : List WaitingAccept := []
  deriving DecidableEq, Repr, Inhabited

/-- The escrow movement in progress (R86, R87, R91). -/
inductive EscrowMove
  | none
  | stacking
  | toPocket
  | reversing
  deriving DecidableEq, Repr, Inhabited

/-- The deposit engine and its record (section 4.1). The escrow is oldest first: its top is the last entry. The
reservation is held in `HeldCash`. `outcome` is absent until the session ends, and `decided` is the outcome that a
retract under way will write (R91); `closing` is present while the throat closes; `toEscrow` and `toPocket` are the
classified notes between the diverter and their sensor (R79, R80); `securing` says that lockdown secures the session
(R91) and `unconfirmed` counts the notes it has stacked so; timers count ms. -/
structure Deposit where
  st             : DepState := .closed
  console        : Nat := 0
  tag            : Nat := 0
  asked          : Nat := 0
  escrow         : List EscrowEntry := []
  limit          : Nat := 0
  clamp          : Bool := false
  limitNotice    : Bool := false
  refused        : Nat := 0
  pocketRefusals : Nat := 0
  clearance      : Clearance := .none
  throatHeld     : Nat := 0
  presentedNotes : Nat := 0
  presentedValue : Nat := 0
  stackedNotes   : Nat := 0
  stackedValue   : Nat := 0
  stackedPer     : List Nat := List.replicate 8 0
  slot           : Option SlotRef := none
  acceptTag      : Nat := 0
  takeMs         : Option Nat := none
  idleMs         : Option Nat := none
  ceilingMs      : Option Nat := none
  outcome        : Option DepOutcome := none
  decided        : Option DepOutcome := none
  closing        : Option Closing := none
  toEscrow       : List EscrowEntry := []
  toPocket       : Nat := 0
  move           : EscrowMove := .none
  securing       : Bool := false
  unconfirmed    : Nat := 0
  deriving DecidableEq, Repr, Inhabited

/-! ### The capture unit (chapter 5) -/

/-- Transport states (section 5.1). -/
inductive TransportState
  | idle
  | carryingEnvelope
  | carryingRetract
  | stopped
  deriving DecidableEq, Repr, Inhabited

/-- Who asks for a retract (section 5.1). -/
inductive Requester
  | dispense
  | deposit
  | calibration
  | recovery
  deriving DecidableEq, Repr, Inhabited

/-- The kinds of a bundle (section 5.1). -/
inductive BundleKind
  | dispense
  | depositReturn
  deriving DecidableEq, Repr, Inhabited

/-- The retract request record (section 5.1). -/
structure RetractRequest where
  requester : Requester
  kind      : BundleKind
  tag       : Option Nat
  count     : Nat
  value     : Nat
  blocked   : Bool
  granted   : Bool
  deriving DecidableEq, Repr, Inhabited

/-- A bundle of the retract compartment (R96). -/
structure Bundle where
  kind       : BundleKind
  tag        : Option Nat
  count      : Nat
  value      : Nat
  startCount : Nat
  laneTime   : Nat
  unverified : Bool
  deriving DecidableEq, Repr, Inhabited

/-- A journal entry (R103). -/
structure JournalEntry where
  seq        : Nat
  startCount : Nat
  laneTime   : Nat
  length     : Nat
  bound      : Option Nat
  deriving DecidableEq, Repr, Inhabited

/-- Bin service states (section 5.8). -/
inductive BinState
  | none
  | awaitApproval
  | opening
  | opened
  deriving DecidableEq, Repr, Inhabited

/-- The stages of an envelope movement, in the order of the table of R104. -/
inductive EnvelopeStage
  | drawingIn
  | measuring
  | imprinting
  | reversing
  deriving DecidableEq, Repr, Inhabited

/-- Outcomes of a refused envelope (R100). -/
inductive EnvelopeRefusal
  | length
  | thick
  deriving DecidableEq, Repr, Inhabited

/-- The envelope in the transport (R100 to R104): its stage, the length counted, whether it passed the length
check, the number printed on it, why it was refused and whether it has cleared the slot sensor. -/
structure EnvelopeMove where
  stage   : EnvelopeStage := .drawingIn
  mm      : Nat := 0
  passed  : Bool := false
  seq     : Option Nat := none
  refusal : Option EnvelopeRefusal := none
  cleared : Bool := false
  deriving DecidableEq, Repr, Inhabited

/-- The capture unit (section 5.1). -/
structure Capture where
  transport : TransportState := .idle
  jam       : Bool := false
  shutter   : Bool := false
  waiting   : Bool := false
  returned  : Bool := false
  retract   : Option RetractRequest := none
  bin       : BinState := .none
  binSlot   : Option SlotRef := none
  journal   : List JournalEntry := []
  lastSeq   : Nat := 0
  bundles   : List Bundle := []
  envelope  : Option EnvelopeMove := none
  deriving DecidableEq, Repr, Inhabited

/-! ### Held cash and the peer view (chapter 6) -/

/-- H and its two reservations (section 6.1). -/
structure HeldCash where
  h        : Nat := 0
  dispense : Nat := 0
  deposit  : Nat := 0
  deriving DecidableEq, Repr, Inhabited

/-- The kind of a station (R117). -/
inductive PeerKind
  | lane
  | console
  deriving DecidableEq, Repr, Inhabited

/-- The status of a peer view entry (section 6.2). -/
inductive PeerStatus
  | empty
  | awaited
  | live
  | stale
  deriving DecidableEq, Repr, Inhabited

/-- One peer view entry (section 6.2). -/
structure PeerEntry where
  kind      : Option PeerKind := none
  status    : PeerStatus := .empty
  held      : Nat := 0
  cap       : Nat := 0
  known     : Bool := false
  laneState : Option LaneState := none
  announced : Option Nat := none
  summary   : AlarmSummary := .none
  vehicle   : Option Bool := none
  slots     : Option Nat := none
  age       : Nat := 0
  deriving DecidableEq, Repr, Inhabited

/-- The phases of an intent request (section 6.4). -/
inductive IntentPhase
  | queued
  | heldBack
  deriving DecidableEq, Repr, Inhabited

/-- The intent request record (section 6.4); the requester is the engine of the kind. `refusedAt` is the lane time
in ms of the last refusal; `spacingMs` is what remains of the 100 ms after it (R127). -/
structure IntentRequest where
  kind      : IntentKind
  amount    : Nat
  phase     : IntentPhase := .queued
  refusedAt : Option Nat := none
  refusals  : Nat := 0
  spacingMs : Nat := 0
  deriving DecidableEq, Repr, Inhabited

/-- The peer view unit (sections 6.1 to 6.6). `kept` is what the retention memory holds of `held`. -/
structure PeerView where
  held      : HeldCash := {}
  kept      : HeldCash := {}
  entries   : List PeerEntry := List.replicate 31 {}
  request   : Option IntentRequest := none
  orphan    : Bool := false
  duplicate : Bool := false
  periodMs  : Nat := 500
  deriving DecidableEq, Repr, Inhabited

/-! ### The alarm unit (chapter 7) -/

/-- Bands of a loop reading (section 7.2). -/
inductive Band
  | short
  | normal
  | active
  | opened
  deriving DecidableEq, Repr, Inhabited

/-- An integrated state (section 7.1). -/
inductive ZoneState
  | unknown
  | quiet
  | active
  deriving DecidableEq, Repr, Inhabited

/-- One zone record (section 7.1). A candidate is `some .quiet` or `some .active`. -/
structure Zone where
  type      : ZoneType := .unused
  report    : Bool := false
  band      : Option Band := none
  candidate : Option ZoneState := none
  count     : Nat := 0
  state     : ZoneState := .unknown
  trouble   : Bool := false
  restore   : Nat := 0
  frozen    : Bool := false
  hold      : Nat := 0
  changed   : Bool := false
  deriving DecidableEq, Repr, Inhabited

/-- The two latches (R140), as ALARM_CLEAR names them. -/
inductive Latch
  | duress
  | attack
  deriving DecidableEq, Repr, Inhabited

/-- The alarm unit (section 7.1). -/
structure Alarm where
  zones       : List Zone := List.replicate 12 {}
  duress      : Bool := false
  attack      : Bool := false
  drive       : Bool := false
  recognised  : Bool := false
  asserted    : Nat := 0
  released    : Nat := 0
  duressClear : Option SlotRef := none
  attackClear : Option SlotRef := none
  deriving DecidableEq, Repr, Inhabited

/-! ### The approval unit (chapter 8) -/

/-- Operation kinds, in the order of section 8.3. -/
inductive OpKind
  | dispense
  | depositAccept
  | cassetteLoad
  | binService
  | alarmClear
  | depositCassetteExchange
  | resetLane
  deriving DecidableEq, Repr, Inhabited

/-- One approval slot (section 8.3): WAITING while `kind` is present, FREE otherwise. -/
structure ApprovalSlot where
  kind        : Option OpKind := none
  amount      : Option Nat := none
  requester   : Option Nat := none
  ask         : Nat := 0
  timeAsked   : Option Nat := none
  remainingMs : Option Nat := none
  deriving DecidableEq, Repr, Inhabited

/-- The approval unit: the four slots and the binding record (sections 8.1, 8.3). -/
structure Approval where
  slots         : List ApprovalSlot := List.replicate 4 {}
  bound         : Option Nat := none
  bindTime      : Option Nat := none
  unbindPending : Bool := false
  deriving DecidableEq, Repr, Inhabited

/-! ### The fault unit (chapter 9) -/

/-- Fault kinds, in the order of the table of section 9.1. -/
inductive FaultKind
  | pickMiss
  | noteReject
  | zeroDrift
  | busComplained
  | txOverflow
  | unexpectedAnswer
  | selfApproval
  | configClamped
  | cassetteSuspect
  | purgeFull
  | zeroLost
  | zeroUnstable
  | dispenserJam
  | depositJam
  | captureJam
  | retractBlocked
  | duplicateStation
  | retentionLost
  deriving DecidableEq, Repr, Inhabited

/-- The operation a fault names (section 9.1). -/
inductive FaultOp
  | none
  | dispense
  | deposit
  | envelope
  | retract
  | recovery
  | calibrate
  deriving DecidableEq, Repr, Inhabited

/-- The cassette or channel a fault names (section 9.1). -/
inductive FaultPlace
  | cassette (c : Nat)
  | channel (ch : ChannelId)
  deriving DecidableEq, Repr, Inhabited

/-- What a raising writes when it latches (R166). -/
structure FaultReport where
  kind       : FaultKind
  laneState  : LaneState
  op         : FaultOp
  place      : Option FaultPlace
  station    : Option Nat
  startCount : Nat
  laneTime   : Nat
  deriving DecidableEq, Repr, Inhabited

/-- The state of the first-fault record (section 9.2). -/
inductive FaultHold
  | empty
  | soft
  | hard
  deriving DecidableEq, Repr, Inhabited

/-- The shift totals (section 9.6). -/
structure ShiftTotals where
  openStart    : Nat := 0
  openTime     : Nat := 0
  dispValue    : Nat := 0
  dispNotes    : List Nat := List.replicate 8 0
  depNotes     : Nat := 0
  depValue     : Nat := 0
  unconfNotes  : Nat := 0
  unconfValue  : Nat := 0
  envelopes    : Nat := 0
  bundles      : Nat := 0
  retractValue : Nat := 0
  deriving DecidableEq, Repr, Inhabited

/-- The closed-shift record (section 9.7) when it HOLDS a shift. -/
structure ClosedShift where
  totals     : ShiftTotals
  closeStart : Nat
  closeTime  : Nat
  closedBy   : Nat
  txnOpen    : Bool
  deriving DecidableEq, Repr, Inhabited

/-- The fault unit (section 3): eighteen flags, the first-fault record, the SECOND flag and the totals. -/
structure FaultUnit where
  flags   : List Bool := List.replicate 18 false
  hold    : FaultHold := .empty
  latched : Option FaultReport := none
  second  : Bool := false
  shift   : ShiftTotals := {}
  closed  : Option ClosedShift := none
  deriving DecidableEq, Repr, Inhabited

/-! ### The bus interface unit (chapter 10) -/

/-- The classes the LW220 sends (table of chapter 10). -/
inductive FrameClass
  | alarm
  | approval
  | intent
  | command
  | reply
  | notice
  | position
  | presence
  deriving DecidableEq, Repr, Inhabited

/-- Notice kinds, in the order of the table of R183. -/
inductive NoticeKind
  | completion
  | depositStatus
  | escrowLimit
  | cassetteLow
  | cassetteEmpty
  | cassetteUnloaded
  | cassetteRemoved
  | purgeCleared
  | envelopeCaptured
  | envelopeRefused
  | envelopeJammed
  | binServiceClosed
  | zoneTrouble
  | zoneRestored
  | vehicleChange
  | unbound
  | approvalClosed
  | fault
  | shiftClosed
  deriving DecidableEq, Repr, Inhabited

/-- The kind of a frame within its class (chapter 10). -/
inductive FrameKind
  | zone (t : ZoneType)
  | ask
  | intent (k : IntentKind)
  | reply (k : CmdKind)
  | notice (k : NoticeKind)
  | position
  deriving DecidableEq, Repr, Inhabited

/-- A frame of the lane's own (table of chapter 10); POSITION and INTENT are filled at the start of each
transmission (R124, R129). -/
structure Frame where
  cls        : FrameClass
  dst        : Nat
  more       : Bool
  retry      : Bool
  redirected : Bool
  kind       : FrameKind
  tag        : Nat
  payload    : List Byte
  deriving DecidableEq, Repr, Inhabited

/-- Who is told how a frame ended (R175, R177, R178, R192). -/
inductive Owner
  | nobody
  | intent
  | position
  | ask (slot : Nat)
  | querySegment
  | resetNotice
  deriving DecidableEq, Repr, Inhabited

/-- One entry of the transmit queue (section 10.2). `carried` is the amount an INTENT carries (R124, R125);
`orphan` marks the INTENT of a withdrawn request (R128). -/
structure TxEntry where
  frame      : Frame
  owner      : Owner := .nobody
  complaints : Nat := 0
  inTx       : Bool := false
  carried    : Nat := 0
  orphan     : Bool := false
  deriving DecidableEq, Repr, Inhabited

/-- The reply buffer while it holds a QUERY series (R182): the segments not yet queued, each with its MORE flag. -/
structure ReplySeries where
  dst  : Nat
  tag  : Nat
  rest : List (Bool × List Byte)
  deriving DecidableEq, Repr, Inhabited

/-- One entry of the reply memory (R181). -/
structure ReplyEntry where
  src   : Nat
  tag   : Nat
  kind  : CmdKind
  frame : Frame
  deriving DecidableEq, Repr, Inhabited

/-- The bus interface unit (section 10.2). The reply memory is kept with the entry written longest ago first; `part`
says that the lane takes part on the medium, from the first idle point after STARTING (R176). -/
structure Bus where
  queue    : List TxEntry := []
  reportNo : Nat := 0
  series   : Option ReplySeries := none
  memory   : List ReplyEntry := []
  part     : Bool := false
  deriving DecidableEq, Repr, Inhabited

/-! ### The lane state unit (chapter 11) -/

/-- Mechanics power (R184). -/
inductive Power
  | off
  | warming
  | on
  deriving DecidableEq, Repr, Inhabited

/-- Reset kinds (section 11.6). -/
inductive ResetKind
  | powerOn
  | supplyDip
  | resetLine
  | commanded
  | backupLost
  deriving DecidableEq, Repr, Inhabited

/-- The reset cause record (R191). -/
structure ResetCause where
  powerOn    : Bool := true
  supplyDip  : Bool := false
  resetLine  : Bool := false
  commanded  : Bool := false
  backupLost : Bool := true
  last       : ResetKind := .powerOn
  clearStart : Nat := 0
  clearTime  : Nat := 0
  deriving DecidableEq, Repr, Inhabited

/-- One recovery move (R187): not started or ended; running; refused for want of room; jammed. -/
inductive RecoveryMove
  | none
  | running
  | noRoom
  | jammed
  deriving DecidableEq, Repr, Inhabited

/-- The recovery in progress (R187). `stackerValue` is the value of the stacker purge. -/
structure Recovery where
  active       : Bool := false
  stacker      : RecoveryMove := .none
  pocket       : RecoveryMove := .none
  escrow       : RecoveryMove := .none
  stackerValue : Nat := 0
  deriving DecidableEq, Repr, Inhabited

/-- The lane state unit (R184, section 7.1, R191, R192). Lane time is kept in ms. `resetDue` says that the
APPROVAL_CLOSED of an approved RESET_LANE has ended on the medium (R192). -/
structure Lane where
  state       : LaneState := .starting
  pending     : Option LaneState := none
  target      : Option LaneState := none
  power       : Power := .off
  startCount  : Nat := 0
  timeMs      : Nat := 0
  station     : Nat := 0
  release     : Bool := false
  unpowered   : Bool := false
  resetWait   : Option SlotRef := none
  resetDue    : Bool := false
  cause       : ResetCause := {}
  recovery    : Recovery := {}
  deriving DecidableEq, Repr, Inhabited

/-! ### Drives of the lane-side lines -/

/-- What the device drives on the lane-side lines (12.5): shutters and gates (`true`: open), transports (`true`:
running), diverters, and the bin lock. -/
structure Drives where
  pocketShutter   : Bool := false
  throatGate      : Bool := false
  pickGate        : Option Nat := none
  pickTransport   : Bool := false
  throatTransport : Bool := false
  /-- `true`: toward the stacker; `false`: toward the purge tray. -/
  toStacker       : Bool := false
  /-- `true`: toward the escrow; `false`: toward the pocket. -/
  toEscrow        : Bool := false
  /-- `true`: the envelope path; `false`: the retract path. -/
  envelopePath    : Bool := false
  binUnlocked     : Bool := false
  deriving DecidableEq, Repr, Inhabited

/-- The whole lane controller. `dispenserJam` and `throatJam` are the jammed marks of R59; `board` is what the lane
board last showed the device, the presence switches among it; `free` counts the free values drawn (the model's own)
and `pending` is the model's queue of steps that wait. -/
structure State where
  config       : Configuration := {}
  cash         : CassetteUnit := {}
  chP          : Channel := {}
  chQ          : Channel := {}
  cal          : Calibration := {}
  disp         : Dispense := {}
  dispenserJam : Bool := false
  dep          : Deposit := {}
  throatJam    : Bool := false
  capture      : Capture := {}
  peer         : PeerView := {}
  alarm        : Alarm := {}
  approval     : Approval := {}
  fault        : FaultUnit := {}
  bus          : Bus := {}
  lane         : Lane := {}
  drives       : Drives := {}
  board        : Board := ⟨false, 0, none, [false, false, false, false]⟩
  free         : Nat := 0
  pending      : List Instr := []
  deriving DecidableEq, Repr, Inhabited

/-- The machine right after a reset (R184, R193): STARTING, every volatile record at its reset value and every
retained record at its initial value, and nothing waiting. POWER_ON then makes the start-up of R185. -/
def State.reset : State := {}

end Sys2Proof.Machine
end

