-- ==== Sys2Proof/Machine/Operands.lean ====
section
/-! DEFINITION. The forms in which figures come in and go out: bytes on the wall bus (chapter 12), the positions by
which enumerations are carried, arithmetic of section 6.2, and the configuration memory image (12.3, R186, R194). -/

namespace Sys2Proof.Machine

/-! ### Arithmetic (00, 6.2) -/

/-- Round half up of `n / d` (00, 6.2): half the divisor, truncated, is added to the dividend. -/
def roundDiv (n d : Nat) : Nat := (n + d / 2) / d

/-- "Clamped to a..b" (00, 6.2). -/
def clampTo (a b n : Nat) : Nat := if n < a then a else if n > b then b else n

/-- |a − b|. -/
def absDiff (a b : Nat) : Nat := (a - b) + (b - a)

/-- Apply `f` to the entry at `i`, if there is one. -/
def modifyAt {α : Type} (l : List α) (i : Nat) (f : α → α) : List α := l.modify i f

/-- The entry at `i` of a list of counts, 0 past its end. -/
def countAt (l : List Nat) (i : Nat) : Nat := l.getD i 0

/-- The first reason of a table of checks that applies (R45, R75 and the other tables of checks). -/
def firstOf {α : Type} : List (Bool × α) → Option α
  | [] => none
  | (b, r) :: rest => if b then some r else firstOf rest

/-! ### Bytes (chapter 12, opening paragraph) -/

/-- `v` in `w` bytes, most significant first. -/
def be : Nat → Nat → List Byte
  | 0, _ => []
  | w + 1, v => BitVec.ofNat 8 (v / 256 ^ w) :: be w v

/-- A figure that may be absent: all ones in its field width (R180). -/
def beOpt (w : Nat) : Option Nat → List Byte
  | none => List.replicate w 0xFF#8
  | some v => be w v

/-- A flag of range "set, clear" (or "yes, no"), carried by its position (R180; DESIGN CHOICE,
notes/assumptions/9.md). -/
def beFlag (b : Bool) : List Byte := be 1 (if b then 1 else 2)

/-- The number that a list of bytes spells, most significant first. -/
def ofBytes (l : List Byte) : Nat := l.foldl (fun acc b => acc * 256 + b.toNat) 0

/-- The `w` bytes at offset `o` of an image, as a number. -/
def field (l : List Byte) (o w : Nat) : Nat := ofBytes ((l.drop o).take w)

/-! ### Positions of enumerations (R180: counted from 1; DESIGN CHOICE, notes/assumptions/9.md) -/

def laneStatePos : LaneState → Nat
  | .starting => 1 | .configFault => 2 | .recovery => 3 | .closed => 4
  | .opened => 5 | .waking => 6 | .night => 7 | .lockdown => 8

/-- A pending request is one of OPEN, CLOSED and NIGHT, and the WAKING target OPEN or CLOSED (R184): each by its position
in that list (R180). No request names another state. -/
def laneRequestPos : LaneState → Nat
  | .opened => 1 | .closed => 2 | .night => 3
  | .starting | .configFault | .recovery | .waking | .lockdown => 0

def summaryPos : AlarmSummary → Nat
  | .none => 1 | .duress => 2 | .attack => 3

def zoneTypePos : ZoneType → Nat
  | .duress => 1 | .attack => 2 | .door => 3 | .bin => 4 | .vehicle => 5 | .unused => 6

def bandPos : Band → Nat
  | .short => 1 | .normal => 2 | .active => 3 | .opened => 4

def zoneStatePos : ZoneState → Nat
  | .unknown => 1 | .quiet => 2 | .active => 3

def cassetteStatePos : CassetteState → Nat
  | .unloaded => 1 | .active => 2 | .low => 3 | .empty => 4 | .suspect => 5 | .removed => 6

def noteClassPos : NoteClass → Nat
  | .overlap => 1 | .multi => 2 | .double => 3 | .thin => 4 | .length => 5 | .unclassified => 6 | .single => 7

def channelPos : ChannelId → Nat
  | .p => 1 | .q => 2

def intentPos : IntentKind → Nat
  | .dispense => 1 | .deposit => 2

/-- An operation kind: section 8.3 lists the kinds in two orders, the range of the slot's field and the table of asks;
the position in the field's range is sent (DESIGN CHOICE, notes/assumptions/9.md). -/
def opKindPos : OpKind → Nat
  | .dispense => 1 | .depositAccept => 2 | .cassetteLoad => 3 | .binService => 4
  | .alarmClear => 5 | .depositCassetteExchange => 6 | .resetLane => 7

def faultKindIdx : FaultKind → Nat
  | .pickMiss => 0 | .noteReject => 1 | .zeroDrift => 2 | .busComplained => 3 | .txOverflow => 4
  | .unexpectedAnswer => 5 | .selfApproval => 6 | .configClamped => 7 | .cassetteSuspect => 8
  | .purgeFull => 9 | .zeroLost => 10 | .zeroUnstable => 11 | .dispenserJam => 12 | .depositJam => 13
  | .captureJam => 14 | .retractBlocked => 15 | .duplicateStation => 16 | .retentionLost => 17

def faultOpPos : FaultOp → Nat
  | .none => 1 | .dispense => 2 | .deposit => 3 | .envelope => 4 | .retract => 5 | .recovery => 6 | .calibrate => 7

/-- C1 to C4 are 1 to 4, P is 5 and Q is 6 (section 9.2: "C1 to C4, P or Q"). -/
def placePos : FaultPlace → Nat
  | .cassette c => c + 1
  | .channel .p => 5
  | .channel .q => 6

def dispStatePos : DispState → Nat
  | .idle => 1 | .planning => 2 | .awaitApproval => 3 | .awaitCeiling => 4 | .zeroCapture => 5
  | .picking => 6 | .purging => 7 | .presenting => 8 | .retracting => 9

def dispOutcomePos : DispOutcome → Nat
  | .clampedZero => 1 | .noMix => 2 | .declined => 3 | .expired => 4 | .ceilingTimeout => 5 | .cancelled => 6
  | .short => 7 | .rejectLimit => 8 | .purgeFull => 9 | .zeroFault => 10 | .jam => 11 | .taken => 12
  | .retracted => 13 | .lockdown => 14

def depStatePos : DepState → Nat
  | .closed => 1 | .awaitCeiling => 2 | .zeroCapture => 3 | .feeding => 4 | .holding => 5
  | .awaitApproval => 6 | .stacking => 7 | .returning => 8 | .returnPresented => 9 | .returnRetracting => 10

def depOutcomePos : DepOutcome → Nat
  | .ceilingTimeout => 1 | .cancelled => 2 | .zeroFault => 3 | .jam => 4 | .stacked => 5
  | .returnedTaken => 6 | .returnedRetracted => 7 | .securedUnconfirmed => 8 | .lockdown => 9

def clearancePos : Clearance → Nat
  | .none => 1 | .opened => 2 | .retracting => 3

def calOutcomePos : CalOutcome → Nat
  | .zeroFault => 1 | .jam => 2 | .calFailed => 3 | .calibrated => 4 | .lockdown => 5

def transportPos : TransportState → Nat
  | .idle => 1 | .carryingEnvelope => 2 | .carryingRetract => 3 | .stopped => 4

def requesterPos : Requester → Nat
  | .dispense => 1 | .deposit => 2 | .calibration => 3 | .recovery => 4

def bundleKindPos : BundleKind → Nat
  | .dispense => 1 | .depositReturn => 2

def binStatePos : BinState → Nat
  | .none => 1 | .awaitApproval => 2 | .opening => 3 | .opened => 4

def envelopeStagePos : EnvelopeStage → Nat
  | .drawingIn => 1 | .measuring => 2 | .imprinting => 3 | .reversing => 4

def envelopeRefusalPos : EnvelopeRefusal → Nat
  | .length => 1 | .thick => 2

def peerKindPos : PeerKind → Nat
  | .lane => 1 | .console => 2

def peerStatusPos : PeerStatus → Nat
  | .empty => 1 | .awaited => 2 | .live => 3 | .stale => 4

def intentPhasePos : IntentPhase → Nat
  | .queued => 1 | .heldBack => 2

def powerPos : Power → Nat
  | .off => 1 | .warming => 2 | .on => 3

def resetKindPos : ResetKind → Nat
  | .powerOn => 1 | .supplyDip => 2 | .resetLine => 3 | .commanded => 4 | .backupLost => 5

def faultHoldPos : FaultHold → Nat
  | .empty => 1 | .soft => 2 | .hard => 3

def latchPos : Latch → Nat
  | .duress => 1 | .attack => 2

/-- A frame class as its number, 0 strongest (table of chapter 10). -/
def classNum : FrameClass → Nat
  | .alarm => 0 | .approval => 1 | .intent => 2 | .command => 3
  | .reply => 4 | .notice => 5 | .position => 6 | .presence => 7

/-- A command kind as its position in the table of R157; an unknown one is the byte it came as (DESIGN CHOICE,
notes/assumptions/9.md). -/
def cmdKindPos : CmdKind → Nat
  | .dispense => 1 | .cancel => 2 | .depositOpen => 3 | .depositCloseThroat => 4 | .depositAccept => 5
  | .depositReturn => 6 | .calibrate => 7 | .cassetteLoad => 8 | .cassetteUnload => 9 | .clearPurge => 10
  | .depositCassetteExchange => 11 | .bind => 12 | .unbind => 13 | .query => 14 | .queryZonesClear => 15
  | .laneOpen => 16 | .laneClose => 17 | .laneNight => 18 | .clearJam => 19 | .clearFaults => 20
  | .clearCause => 21 | .binServiceOpen => 22 | .binServiceClose => 23 | .alarmClear => 24 | .shiftClose => 25
  | .resetLane => 26 | .unknown k => k

/-- A notice kind as its position in the table of R183. -/
def noticeKindPos : NoticeKind → Nat
  | .completion => 1 | .depositStatus => 2 | .escrowLimit => 3 | .cassetteLow => 4 | .cassetteEmpty => 5
  | .cassetteUnloaded => 6 | .cassetteRemoved => 7 | .purgeCleared => 8 | .envelopeCaptured => 9
  | .envelopeRefused => 10 | .envelopeJammed => 11 | .binServiceClosed => 12 | .zoneTrouble => 13
  | .zoneRestored => 14 | .vehicleChange => 15 | .unbound => 16 | .approvalClosed => 17 | .fault => 18
  | .shiftClosed => 19

/-- The kind byte of a frame (12.2). A zone's report carries the position of its type in R132, and ASK comes before
ANSWER: no list of the spec numbers them (DESIGN CHOICE, notes/assumptions/9.md). -/
def frameKindByte : FrameKind → Nat
  | .zone t => zoneTypePos t
  | .ask => 1
  | .intent k => intentPos k
  | .reply k => cmdKindPos k
  | .notice k => noticeKindPos k
  | .position => 0

/-! ### CRC-16 (12.1) -/

/-- One bit of x^16 + x^12 + x^5 + 1, data most significant bit first. -/
def crcBit (reg : BitVec 16) (b : Bool) : BitVec 16 :=
  if (reg.msb != b) then (reg <<< 1) ^^^ 0x1021#16 else reg <<< 1

/-- One byte, most significant bit first. -/
def crcByte (reg : BitVec 16) (b : Byte) : BitVec 16 :=
  [7, 6, 5, 4, 3, 2, 1, 0].foldl (fun r i => crcBit r (b.getLsbD i)) reg

/-- CRC-16 of a list of bytes: the register starts at all ones and is not inverted (12.1). -/
def crc16 (l : List Byte) : BitVec 16 := l.foldl crcByte 0xFFFF#16

/-! ### A frame on the medium (12.1) -/

/-- The claim: the class in bits 7 to 5, the source station in bits 4 to 0. -/
def claimByte (cls : FrameClass) (station : Nat) : Nat := classNum cls * 32 + station

/-- Flags and destination: MORE bit 7, RETRY bit 6, REDIRECTED bit 5, the destination in bits 4 to 0. -/
def destinationByte (f : Frame) : Nat :=
  (if f.more then 128 else 0) + (if f.retry then 64 else 0) + (if f.redirected then 32 else 0) + f.dst

/-- The fields of a frame of the lane's own from the claim to the payload. -/
def frameFields (station : Nat) (f : Frame) : List Byte :=
  be 1 (claimByte f.cls station) ++ be 1 (destinationByte f) ++ be 1 (frameKindByte f.kind) ++ be 1 f.tag ++
    be 1 f.payload.length ++ f.payload

/-- A frame as its sender puts it on the medium, up to the complaint slot: the fields and their CRC-16. -/
def frameBytes (station : Nat) (f : Frame) : List Byte :=
  frameFields station f ++ be 2 (crc16 (frameFields station f)).toNat

/-- The check every station makes of a frame received (R175): the payload length and the CRC-16. -/
def frameChecks (l : List Byte) : Bool :=
  let n := field l 4 1
  n ≤ 16 && l.length == n + 7 && (crc16 (l.take (n + 5))).toNat == field l (n + 5) 2

/-! ### The configuration memory image (12.3, R186, R194) -/

/-- What a good read gives: the items, the configured fields of the denominations, the setpoints and the zones, and
whether any figure had to be clamped. -/
structure ImageItems where
  config    : Configuration
  denoms    : List Denom
  setpoints : List Nat
  zones     : List (ZoneType × Bool)
  clamped   : Bool
  deriving DecidableEq, Repr, Inhabited

/-- A figure clamped to its range, and whether the clamp changed it. -/
def clampFlag (a b n : Nat) : Nat × Bool := (clampTo a b n, clampTo a b n != n)

/-- Entry D`i` of the image: eight bytes from offset 29 + 8i (12.3), each field clamped to its range (R1). -/
def imageDenom (l : List Byte) (i : Nat) : Denom × Bool :=
  let o := 29 + 8 * i
  let face := clampFlag 1 10000 (field l (o + 1) 2)
  let len := clampFlag 600 2000 (field l (o + 3) 2)
  let win := clampFlag 5 100 (field l (o + 5) 1)
  let thick := clampFlag 20 400 (field l (o + 6) 2)
  ({ used := field l o 1 != 0, face := face.1, nomLength := len.1, window := win.1, nomThick := thick.1 },
    face.2 || len.2 || win.2 || thick.2)

/-- The type a zone code names; 6 and 7 are taken as UNUSED and count as a clamp (R194). -/
def zoneTypeOf : Nat → ZoneType × Bool
  | 0 => (.unused, false)
  | 1 => (.duress, false)
  | 2 => (.attack, false)
  | 3 => (.door, false)
  | 4 => (.bin, false)
  | 5 => (.vehicle, false)
  | _ => (.unused, true)

/-- Zone Z`i+1`: bit 7 report enable, bits 2 to 0 type; bits 6 to 3 are ignored (R194). -/
def imageZone (l : List Byte) (i : Nat) : (ZoneType × Bool) × Bool :=
  let b := field l (101 + i) 1
  let t := zoneTypeOf (b % 8)
  ((t.1, b.testBit 7), t.2)

/-- The image decoded and clamped, the items that depend on others in the order of R186. -/
def decodeImage (l : List Byte) : ImageItems :=
  let w := clampFlag 1 16000000 (field l 0 3)
  let laneCap := clampFlag 0 w.1 (field l 3 3)
  let peerCap := clampFlag 0 w.1 (field l 6 3)
  let s1 := clampFlag 0 w.1 (field l 13 3)
  let duress := clampFlag 0 laneCap.1 (field l 16 3)
  let allowance := clampFlag 1 (max 1 laneCap.1) (field l 19 3)
  let take := clampFlag 5 90 (field l 22 1)
  let approval := clampFlag 5 120 (field l 23 1)
  let gp := clampFlag 1 8191 (field l 24 2)
  let gq := clampFlag 1 8191 (field l 26 2)
  let band := clampFlag 4 255 (field l 28 1)
  let denoms := (List.range 8).map (imageDenom l)
  let setpoints := (List.range 4).map fun i => clampFlag 0 2500 (field l (93 + 2 * i) 2)
  let zones := (List.range 12).map (imageZone l)
  { config :=
      { wallCeiling := w.1, laneCap := laneCap.1, defaultPeerCap := peerCap.1,
        expected := field l 9 4 % 2 ^ 31, s1 := s1.1, duressLimit := duress.1, depositAllowance := allowance.1,
        takeTimeout := take.1, approvalTimeout := approval.1, gainP := gp.1, gainQ := gq.1, captureBand := band.1 },
    denoms := denoms.map (·.1), setpoints := setpoints.map (·.1), zones := zones.map (·.1),
    clamped := w.2 || laneCap.2 || peerCap.2 || s1.2 || duress.2 || allowance.2 || take.2 || approval.2 || gp.2
      || gq.2 || band.2 || denoms.any (·.2) || setpoints.any (·.2) || zones.any (·.2) }

/-- The configuration read of R186 and R194: it fails on straps of 31, on a memory that does not acknowledge and
on a CRC-16 over offsets 0 to 112 that differs from offsets 113 and 114. -/
def readConfiguration (b : Board) : Option ImageItems :=
  match b.image with
  | none => none
  | some l =>
      if b.straps < 31 && l.length == 115 && (crc16 (l.take 113)).toNat == field l 113 2 then some (decodeImage l)
      else none

end Sys2Proof.Machine
end

