-- ==== Sys2Proof/Machine/Flags.lean ====
section
/-! DEFINITION. The fault flags, the first-fault record and the SECOND flag (R165, R166), the shift totals' credits
(R171), and the other status flags every block reads. -/

namespace Sys2Proof.Machine

/-- The lane time in seconds (R184). -/
def laneTime (s : State) : Nat := s.lane.timeMs / 1000

/-- A transaction is open (R156, R184). -/
def txnOpen (s : State) : Bool := s.disp.st != .idle || s.dep.st != .closed || s.cal.phase != .none

/-- The alarm summary of R129. -/
def alarmSummary (a : Alarm) : AlarmSummary := if a.attack then .attack else if a.duress then .duress else .none

/-- A station is the bound console (R157). -/
def isBound (s : State) (src : Nat) : Bool := s.approval.bound == some src

/-- The class of a fault kind is hard (table of section 9.1). -/
def isHard : FaultKind → Bool
  | .pickMiss | .noteReject | .zeroDrift | .busComplained | .txOverflow | .unexpectedAnswer | .selfApproval
  | .configClamped => false
  | .cassetteSuspect | .purgeFull | .zeroLost | .zeroUnstable | .dispenserJam | .depositJam | .captureJam
  | .retractBlocked | .duplicateStation | .retentionLost => true

/-- What a raising names (section 9.1), with the lane state, start count and lane time of the moment (R166). -/
def faultReport (kind : FaultKind) (op : FaultOp) (place : Option FaultPlace) (station : Option Nat) (s : State) :
    FaultReport :=
  { kind, laneState := s.lane.state, op, place, station, startCount := s.lane.startCount, laneTime := laneTime s }

/-- The first-fault record after an incoming fault (table of R166). -/
def latchFault (r : FaultReport) (u : FaultUnit) : FaultUnit :=
  match u.hold, isHard r.kind with
  | .empty, false => { u with hold := .soft, latched := some r }
  | .empty, true => { u with hold := .hard, latched := some r }
  | .soft, false => u
  | .soft, true => { u with hold := .hard, latched := some r }
  | .hard, false => u
  | .hard, true => { u with second := true }

/-- A fault's flag is set, then the record is decided (R165, first two steps). -/
def recordFault (r : FaultReport) (s : State) : State :=
  { s with fault := latchFault r { s.fault with flags := s.fault.flags.set (faultKindIdx r.kind) true } }

/-- A soft fault is raised: it queues no notice (R168). -/
def raiseSoft (kind : FaultKind) (op : FaultOp) (place : Option FaultPlace) (station : Option Nat) (s : State) :
    State :=
  recordFault (faultReport kind op place station s) s

/-- Change the shift totals (R171). -/
def modShift (f : ShiftTotals → ShiftTotals) (s : State) : State :=
  { s with fault := { s.fault with shift := f s.fault.shift } }

/-- The next free value of the model's own counter (DESIGN CHOICE, notes/assumptions/5.md, 6.md). -/
def drawFree (s : State) : State := { s with free := s.free + 1 }

/-- A sum in a two-byte count: past 65,535 the spec states no result, and the figure is a free value. -/
def freeSum (s : State) (a b : Nat) : Nat := if a + b ≤ 65535 then a + b else Config.freeCount s.free

end Sys2Proof.Machine
end

