-- ==== Sys2Proof/Machine/Ops.lean ====
section
/-! DEFINITION. The operations every block uses: the transmit queue and the reports (chapter 10), hard faults (R168),
POSITION requests and H (chapter 6), intent requests (R124 to R128), the peer view (R117 to R122), approval slots
(chapter 8), the binding (R156), replies (R180, R181), the slot shutter (R98) and changes of the lane state (R184). -/

namespace Sys2Proof.Machine

/-! ### The transmit queue (R177, R178) -/

/-- Change the bus interface unit. -/
def modBus (f : Bus → Bus) (s : State) : State := { s with bus := f s.bus }

/-- Change the peer view unit. -/
def modPeer (f : PeerView → PeerView) (s : State) : State := { s with peer := f s.peer }

/-- A refusal recorded in the intent request (R126): the time, the count held at 255, HELD_BACK and the 100 ms. -/
def holdBack (timeMs : Nat) (r : IntentRequest) : IntentRequest :=
  { r with phase := .heldBack, refusedAt := some timeMs, refusals := min 255 (r.refusals + 1), spacingMs := 100 }

/-- The owner of a frame is told that it was discarded, removed or dropped (R177, R178): an INTENT is a refusal
without a POSITION (R126), the INTENT of a withdrawn request clears the orphan mark (R128), a QUERY segment ends its
series (R182) and the notice of an approved RESET_LANE makes the reset due (R192). -/
def frameLost (e : TxEntry) (s : State) : State :=
  match e.owner with
  | .intent =>
      if e.orphan then modPeer (fun p => { p with orphan := false }) s
      else modPeer (fun p => { p with request := p.request.map (holdBack s.lane.timeMs) }) s
  | .querySegment => modBus (fun b => { b with series := none }) s
  | .resetNotice => { s with lane := { s.lane with resetDue := true } }
  | .nobody | .position | .ask _ => s

/-- The frames waiting for an idle point (R177). -/
def isPending (e : TxEntry) : Bool := !e.inTx

/-- The weakest class among the pending frames, as its number (R178). -/
def weakestPending (q : List TxEntry) : Nat :=
  (q.filter isPending).foldl (fun m e => max m (classNum e.frame.cls)) 0

/-- A pending frame of class number `w`. -/
def pendingOfClass (w : Nat) (e : TxEntry) : Bool := isPending e && classNum e.frame.cls == w

/-- A frame is handed to the BIU (R177). At 16 entries TX_OVERFLOW is raised and either the newest pending frame of
the weakest class gives way or the new frame is dropped (R178). -/
def enqueue (e : TxEntry) (s : State) : State :=
  if s.bus.queue.length < 16 then modBus (fun b => { b with queue := b.queue ++ [e] }) s
  else
    let w := weakestPending s.bus.queue
    let s1 := raiseSoft .txOverflow .none none none s
    match s.bus.queue.reverse.find? (pendingOfClass w) with
    | some old =>
        if classNum e.frame.cls < w then
          frameLost old
            (modBus (fun b => { b with queue := (b.queue.reverse.eraseP (pendingOfClass w)).reverse ++ [e] }) s1)
        else frameLost e s1
    | none => frameLost e s1

/-- A record or report cut into segments of up to 15 bytes, each with its number in front and its MORE flag
(R182, R183). The first argument bounds the number of segments. -/
def segments : Nat → Nat → List Byte → List (Bool × List Byte)
  | 0, _, _ => []
  | fuel + 1, k, l =>
      if l.length ≤ 15 then [(false, be 1 k ++ l)]
      else (true, be 1 k ++ l.take 15) :: segments fuel (k + 1) (l.drop 15)

/-- A report's payloads: one frame without a segment number where it fits 16 bytes, a series otherwise (R183). -/
def reportPayloads (content : List Byte) : List (Bool × List Byte) :=
  if content.length ≤ 16 then [(false, content)] else segments content.length 0 content

/-- A frame of the lane's own without the RETRY flag. -/
def plainFrame (cls : FrameClass) (dst : Nat) (more redirected : Bool) (kind : FrameKind) (tag : Nat)
    (payload : List Byte) : Frame :=
  { cls, dst, more, retry := false, redirected, kind, tag, payload }

/-- A NOTICE or ALARM is queued under the next report number (R183). -/
def report (cls : FrameClass) (kind : FrameKind) (dst : Nat) (redirected : Bool) (owner : Owner)
    (content : List Byte) (s : State) : State :=
  (reportPayloads content).foldl
    (fun t p => enqueue { frame := plainFrame cls dst p.1 redirected kind s.bus.reportNo p.2, owner } t)
    (modBus (fun b => { b with reportNo := (b.reportNo + 1) % 256 }) s)

/-- A NOTICE to all stations. -/
def noticeAll (kind : NoticeKind) (content : List Byte) (s : State) : State :=
  report .notice (.notice kind) 31 false .nobody content s

/-- The peer view entry of a station; one that is no station has the empty entry. -/
def peerEntry (s : State) (n : Nat) : PeerEntry := s.peer.entries.getD n {}

/-- Where a report goes that is addressed to the bound console if one is bound and not STALE, and to all stations
with REDIRECTED otherwise (R183). -/
def boundTarget (s : State) : Nat × Bool :=
  match s.approval.bound with
  | some b => if (peerEntry s b).status == .stale then (31, true) else (b, false)
  | none => (31, true)

/-- A NOTICE to the bound console, or to all stations (R183). -/
def noticeBound (kind : NoticeKind) (content : List Byte) (s : State) : State :=
  report .notice (.notice kind) (boundTarget s).1 (boundTarget s).2 .nobody content s

/-! ### Hard faults (R165, R168) -/

/-- The content of a NOTICE FAULT (12.2); the effect is LATCHED or SECOND (R168). -/
def faultContent (r : FaultReport) (before : FaultHold) : List Byte :=
  be 1 (faultKindIdx r.kind + 1) ++ be 1 2 ++ be 1 (laneStatePos r.laneState) ++ be 1 (faultOpPos r.op) ++
    beOpt 1 (r.place.map placePos) ++ beOpt 1 r.station ++ be 2 r.startCount ++ be 4 r.laneTime ++
    be 1 (if before == .hard then 2 else 1)

/-- A hard fault is raised: flag, record, then the notice (R165, R168). -/
def raiseHard (kind : FaultKind) (op : FaultOp) (place : Option FaultPlace) (station : Option Nat) (s : State) :
    State :=
  let r := faultReport kind op place station s
  noticeAll .fault (faultContent r s.fault.hold) (recordFault r s)

/-! ### POSITION and H (R113 to R115, R129, R130) -/

/-- A VEHICLE zone's integrated state is ACTIVE (R129). -/
def vehiclePresent (a : Alarm) : Bool := a.zones.any fun z => z.type == .vehicle && z.state == .active

/-- The number of slots WAITING (R129). -/
def slotsInUse (a : Approval) : Nat := (a.slots.filter fun x => x.kind.isSome).length

/-- The lane state a POSITION announces (R129, R131). -/
def announcedState (s : State) : LaneState := if s.peer.duplicate then .configFault else s.lane.state

/-- The figures of a POSITION, filled at the start of its transmission (R129). -/
def positionPayload (s : State) : List Byte :=
  let cf := s.lane.state == .configFault
  be 3 (if cf then s.peer.kept.h else s.peer.held.h) ++ be 3 (if cf then s.peer.kept.h else s.config.laneCap) ++
    be 1 (laneStatePos (announcedState s)) ++ be 1 (summaryPos (alarmSummary s.alarm)) ++
    beFlag (vehiclePresent s.alarm) ++ be 1 (slotsInUse s.approval)

/-- A POSITION as it waits in the queue. -/
def positionFrame : TxEntry :=
  { frame := plainFrame .position 31 false false .position 0 [], owner := .position }

/-- A pending POSITION stands in the queue (R130). -/
def positionPending (q : List TxEntry) : Bool := q.any fun e => isPending e && e.owner == .position

/-- A POSITION is asked for (R130): the period restarts, and a pending one satisfies the request. None is sent
during STARTING (R114). -/
def askPosition (s : State) : State :=
  if s.lane.state == .starting then s
  else
    let s := modPeer (fun p => { p with periodMs := 500 }) s
    if positionPending s.bus.queue then s else enqueue positionFrame s

/-- What an entry contributes to the wall sum (R120). -/
def countedValue (defaultCap : Nat) (e : PeerEntry) : Nat :=
  match e.status with
  | .empty => 0
  | .awaited => defaultCap
  | .live => if e.kind == some .lane then e.held else 0
  | .stale =>
      if e.kind == some .lane then
        if e.laneState == some .night && e.announced == some 0 then 0 else e.cap
      else 0

/-- The wall sum: H plus the counted values of every entry but the lane's own, held at 16,777,215 (R120). -/
def wallSum (s : State) : Nat :=
  sat24 (s.peer.held.h +
    ((s.peer.entries.eraseIdx s.lane.station).map (countedValue s.config.defaultPeerCap)).sum)

/-- The frame of an INTENT, filled at the start of each transmission (R124). -/
def intentFrame (kind : IntentKind) : TxEntry :=
  { frame := plainFrame .intent 31 false false (.intent kind) 0 [], owner := .intent }

/-- A refusal of the intent request (R126): the request is held back and a POSITION is asked for. -/
def refuseIntent (s : State) : State :=
  askPosition (modPeer (fun p => { p with request := p.request.map (holdBack s.lane.timeMs) }) s)

/-- The test of R127: a HELD_BACK request whose 100 ms have passed and whose amount fits the wall sum queues a new
INTENT, or is refused again while the duplicate station mark is set (R131). -/
def retestIntent (s : State) : State :=
  match s.peer.request with
  | some r =>
      if r.phase == .heldBack && r.spacingMs == 0 && wallSum s + r.amount ≤ s.config.wallCeiling then
        if s.peer.duplicate then refuseIntent s
        else enqueue (intentFrame r.kind)
          (modPeer (fun p => { p with request := some { r with phase := .queued } }) s)
      else s
  | none => s

/-- An engine asks for a reservation (R124); with the duplicate station mark set it is refused at once (R131). -/
def requestIntent (kind : IntentKind) (amount : Nat) (s : State) : State :=
  let s1 := modPeer (fun p => { p with request := some { kind, amount } }) s
  if s.peer.duplicate then refuseIntent s1 else enqueue (intentFrame kind) s1

/-- The INTENT of the request in the queue (R128). -/
def isRequestIntent (e : TxEntry) : Bool := e.owner == .intent && !e.orphan

/-- The queue after a withdrawal: the pending INTENT of the request is gone, one on the medium is an orphan (R128;
DEDUCED, notes/assumptions/17.md). -/
def orphanIntents (q : List TxEntry) : List TxEntry :=
  (q.filter fun e => !(isRequestIntent e && isPending e)).map
    fun e => if isRequestIntent e then { e with orphan := true } else e

/-- An engine withdraws its request (R128): a pending INTENT leaves the queue, one on the medium becomes an orphan. -/
def withdrawIntent (s : State) : State :=
  if s.peer.request.isSome then
    let onMedium := s.bus.queue.any fun e => isRequestIntent e && e.inTx
    modPeer (fun p => { p with request := none, orphan := p.orphan || onMedium })
      (modBus (fun b => { b with queue := orphanIntents b.queue }) s)
  else s

/-- H and the reservations take new values, written to retention with them (R113). -/
def setHeld (h : HeldCash) (s : State) : State := modPeer (fun p => { p with held := h, kept := h }) s

/-- H fell (R115, R127, R130): a POSITION at once, then the test of a held-back request. -/
def heldFell (s : State) : State := retestIntent (askPosition s)

/-- The dispense engine releases its reservation (R72, R115); a reservation of 0 changes nothing. -/
def releaseDispense (s : State) : State :=
  let r := s.peer.held.dispense
  if r == 0 then s
  else heldFell (setHeld { s.peer.held with h := s.peer.held.h - r, dispense := 0 } s)

/-- The deposit engine releases its reservation (R92, R115). -/
def releaseDeposit (s : State) : State :=
  let r := s.peer.held.deposit
  if r == 0 then s
  else heldFell (setHeld { s.peer.held with h := s.peer.held.h - r, deposit := 0 } s)

/-- The dispense reservation is lowered to `v` and H by the difference (R52, R115). -/
def lowerDispense (v : Nat) (s : State) : State :=
  let d := s.peer.held.dispense - v
  if d == 0 then s
  else heldFell (setHeld { s.peer.held with h := s.peer.held.h - d, dispense := v } s)

/-- A grant of `a` (R115, R125): the engine's reservation takes it and H rises by it. -/
def grantHeld (kind : IntentKind) (a : Nat) (s : State) : State :=
  match kind with
  | .dispense => setHeld { s.peer.held with h := s.peer.held.h + a, dispense := a } s
  | .deposit => setHeld { s.peer.held with h := s.peer.held.h + a, deposit := a } s

/-! ### The peer view (R117 to R122) -/

/-- What a frame shows of its sender (R117). -/
def showsKind : OtherFrame → PeerKind
  | .command | .presence | .answer => .console
  | .ask | .reply | .notice => .lane

/-- The kind an entry takes from a frame (R117). -/
def applyKind (defaultCap : Nat) (shows : PeerKind) (e : PeerEntry) : PeerEntry :=
  match e.kind, shows with
  | some .lane, _ => e
  | some .console, .console => e
  | some .console, .lane => { e with kind := some .lane, held := 0, cap := defaultCap, known := false }
  | none, k => { e with kind := some k }

/-- A frame makes its entry LIVE (R118). A LANE entry that was not LIVE, reached by a frame that is no POSITION,
is held at its cap with no position known. -/
def applyLive (isPosition : Bool) (e : PeerEntry) : PeerEntry :=
  let fresh := e.status != .live && e.kind == some .lane && !isPosition
  { e with status := .live, age := 0, held := if fresh then e.cap else e.held,
           known := if fresh then false else e.known }

/-- A clean frame of a peer is applied to its entry (R117, R118), unless R123 sets it aside; then `extra` is the
frame's own effect on the entry (R121, R122, R139). A bound console heard again loses the unbind pending mark (R156),
and a changed wall sum tests a held-back request (R127). -/
def applyFrame (src : Nat) (shows : PeerKind) (isPosition : Bool) (extra : PeerEntry → PeerEntry) (s : State) :
    State :=
  if src ≥ 31 || s.lane.state == .configFault || src == s.lane.station then s
  else
    let e := peerEntry s src
    let e' := applyLive isPosition (applyKind s.config.defaultPeerCap shows e)
    let t := modPeer (fun p => { p with entries := p.entries.set src (extra e') }) s
    let t :=
      if e.status != .live && e'.kind == some .console && isBound s src then
        { t with approval := { t.approval with unbindPending := false } }
      else t
    if wallSum t != wallSum s then retestIntent t else t

/-- A clean frame with the lane's own source number that the lane did not send (R131). -/
def foundDuplicate (s : State) : State :=
  askPosition (raiseHard .duplicateStation .none none (some s.lane.station)
    (modPeer (fun p => { p with duplicate := true }) s))

/-- The lane takes part on the medium (R176): it has left STARTING and seen an idle point since. -/
def takesPart (s : State) : Bool := s.lane.state != .starting && s.bus.part

/-- What every received frame meets first: nothing is applied before the lane takes part (R176) nor from source 31,
which names no station (R123), and the lane's own source number is the duplicate (R123, R131, R179). Otherwise the
frame has its effect `f`. -/
def receive (src : Nat) (f : State → State) (s : State) : State :=
  if !takesPart s || src ≥ 31 then s
  else if src == s.lane.station then foundDuplicate s
  else f s

/-! ### Approval slots (R158, R159, R161 to R163) -/

/-- Change the approval unit. -/
def modApproval (f : Approval → Approval) (s : State) : State := { s with approval := f s.approval }

/-- The lowest-numbered FREE slot (R158). -/
def lowestFree (s : State) : Option Nat := s.approval.slots.findIdx? fun x => x.kind.isNone

/-- Slot `i` as it stands, as an asking block records it. -/
def slotRef (s : State) (i : Nat) : SlotRef := { slot := i, ask := (s.approval.slots.getD i {}).ask }

/-- Slot `i` as its next taking hands it to the asking block (R158): the ask number rises by 1, from 63 to 0. -/
def nextSlotRef (s : State) (i : Nat) : SlotRef := { slot := i, ask := ((s.approval.slots.getD i {}).ask + 1) % 64 }

/-- The slot tag of the layouts: bits 7 and 6 the slot, bits 5 to 0 the ask number (12.1). -/
def slotTag (i ask : Nat) : Nat := i * 64 + ask

/-- The approval timeout in seconds; 30 in CONFIG_FAULT (R158). -/
def approvalSeconds (s : State) : Nat := if s.lane.state == .configFault then 30 else s.config.approvalTimeout

/-- A FREE slot takes a request (R158) and its ASK is queued (R159); `extra` is what the ASK carries besides. -/
def takeSlot (i : Nat) (kind : OpKind) (amount requester : Nat) (extra : List Byte) (s : State) : State :=
  let ask := (nextSlotRef s i).ask
  let secs := approvalSeconds s
  let new : ApprovalSlot :=
    { kind := some kind, amount := some amount, requester := some requester, ask,
      timeAsked := some (laneTime s), remainingMs := some (secs * 1000) }
  let payload := be 1 (opKindPos kind) ++ be 3 amount ++ be 1 requester ++ be 1 secs ++ extra
  enqueue { frame := plainFrame .approval 31 false false .ask (slotTag i ask) payload, owner := .ask i }
    (modApproval (fun a => { a with slots := a.slots.set i new }) s)

/-- How a slot is settled, in the order GIVEN, DENIED, EXPIRED, WITHDRAWN (R161 to R163). -/
inductive Settling
  | given (console : Nat)
  | denied (console : Nat)
  | expired
  | withdrawn
  deriving DecidableEq, Repr, Inhabited

/-- The reason byte and the answering console of an APPROVAL_CLOSED (R161 to R163). No one list names the four
reasons: GIVEN 1, DENIED 2, EXPIRED 3, WITHDRAWN 4 (DESIGN CHOICE, notes/assumptions/9.md). -/
def settlingBytes : Settling → List Byte
  | .given c => be 1 1 ++ be 1 c
  | .denied c => be 1 2 ++ be 1 c
  | .expired => be 1 3 ++ beOpt 1 none
  | .withdrawn => be 1 4 ++ beOpt 1 none

/-- The ASK of a taking of slot `i` whose transmission has not begun (R163). -/
def isPendingAsk (i tag : Nat) (e : TxEntry) : Bool := e.owner == .ask i && e.frame.tag == tag && isPending e

/-- A WAITING slot is settled (R161 to R163): it becomes FREE with its ask number kept, and APPROVAL_CLOSED is
queued. Ended by withdrawal, its ASK leaves the queue if its transmission has not begun (R163). -/
def settleSlot (i : Nat) (how : Settling) (s : State) : State :=
  let x := s.approval.slots.getD i {}
  if x.kind.isSome then
    let owner := match x.kind, how with
      | some .resetLane, .given _ => Owner.resetNotice
      | _, _ => Owner.nobody
    let t := modApproval (fun a => { a with slots := a.slots.set i { ask := x.ask } }) s
    let t := report .notice (.notice .approvalClosed) 31 false owner
      (be 1 (slotTag i x.ask) ++ beOpt 1 (x.kind.map opKindPos) ++ beOpt 3 x.amount ++ beOpt 1 x.requester ++
        settlingBytes how) t
    if how == .withdrawn then
      modBus (fun b => { b with queue := b.queue.filter fun e => !isPendingAsk i (slotTag i x.ask) e }) t
    else t
  else s

/-! ### The binding (R156) -/

/-- A stale bound console is unbound and NOTICE UNBOUND queued with the reason STALE (R156). No list of its reasons is
given: STALE is sent as 1 (DESIGN CHOICE, notes/assumptions/9.md). -/
def unbindStale (s : State) : State :=
  match s.approval.bound with
  | some b =>
      noticeAll .unbound (be 1 b ++ be 1 1)
        (modApproval (fun a => { a with bound := none, bindTime := none, unbindPending := false }) s)
  | none => s

/-- The end of a transaction (R156): the last one open ends a binding whose unbind pending mark is set. -/
def afterTransaction (s : State) : State :=
  if s.approval.unbindPending && !txnOpen s then unbindStale s else s

/-! ### Replies (R180, R181) -/

/-- The refusal reasons, in the order of the table of R180. -/
inductive Reason
  | busy
  | notBound
  | boundElsewhere
  | laneState
  | range
  | noMix
  | overLaneCap
  | wallAlarm
  | lockdown
  | approvalBusy
  | dispenserState
  | full
  | zoneActive
  | late
  | nothing
  | configFault
  deriving DecidableEq, Repr, Inhabited

/-- A reason's position in the table of R180, BUSY at 1 to CONFIG_FAULT at 16 (12.2). -/
def reasonPos : Reason → Nat
  | .busy => 1 | .notBound => 2 | .boundElsewhere => 3 | .laneState => 4 | .range => 5 | .noMix => 6
  | .overLaneCap => 7 | .wallAlarm => 8 | .lockdown => 9 | .approvalBusy => 10 | .dispenserState => 11
  | .full => 12 | .zoneActive => 13 | .late => 14 | .nothing => 15 | .configFault => 16

/-- A REPLY frame to a command (R180). -/
def replyFrame (h : Header) (k : CmdKind) (more : Bool) (payload : List Byte) : Frame :=
  plainFrame .reply h.src more false (.reply k) h.tag payload

/-- The reply memory after a REPLY to a command other than QUERY is queued (R181): the console's entry is replaced,
else a free entry is used, else the one written longest ago. -/
def remember (r : ReplyEntry) (m : List ReplyEntry) : List ReplyEntry :=
  let rest := m.filter fun e => e.src != r.src
  (if rest.length < 4 then rest else rest.drop 1) ++ [r]

/-- A REPLY is queued and, but for a QUERY, remembered (R180, R181). -/
def sendReply (h : Header) (k : CmdKind) (f : Frame) (s : State) : State :=
  let s := enqueue { frame := f } s
  if k == .query then s
  else modBus (fun b => { b with memory := remember { src := h.src, tag := h.tag, kind := k, frame := f } b.memory }) s

/-- REPLY ACCEPTED with figures. -/
def replyAccepted (h : Header) (k : CmdKind) (figures : List Byte) (s : State) : State :=
  sendReply h k (replyFrame h k false (be 1 1 ++ figures)) s

/-- REPLY DONE with figures. -/
def replyDone (h : Header) (k : CmdKind) (figures : List Byte) (s : State) : State :=
  sendReply h k (replyFrame h k false (be 1 2 ++ figures)) s

/-- REPLY REFUSED with its reason. -/
def refuse (h : Header) (k : CmdKind) (r : Reason) (s : State) : State :=
  sendReply h k (replyFrame h k false (be 1 3 ++ be 1 (reasonPos r))) s

/-! ### The slot shutter and the lane state (R98, R184) -/

/-- The slot shutter's conditions (R98). An envelope returned to the slot is released by the same opening (R101);
an envelope drawn in keeps it closed until it has cleared the slot sensor (R100). -/
def shutterWanted (s : State) : Bool :=
  let c := s.capture
  s.lane.state == .opened && c.journal.length + (if c.envelope.isSome then 1 else 0) < 400 && c.bin == .none &&
    !c.jam && !c.waiting && (c.envelope.all fun m => m.cleared)

/-- The capture unit re-evaluates the slot shutter (R98). -/
def reshutter (s : State) : State := { s with capture := { s.capture with shutter := shutterWanted s } }

/-- Change the lane state unit. -/
def modLane (f : Lane → Lane) (s : State) : State := { s with lane := f s.lane }

/-- The lane state changes (R130, R184): the slot shutter follows it and a POSITION is queued. -/
def setLaneState (st : LaneState) (s : State) : State :=
  askPosition (reshutter (modLane (fun l => { l with state := st }) s))

/-- Change the drives. -/
def modDrives (f : Drives → Drives) (s : State) : State := { s with drives := f s.drives }

end Sys2Proof.Machine
end

