-- ==== Sys2Proof/Machine/Cassettes.lean ====
section
/-! DEFINITION. The cassette unit (chapter 1): cassette states and notices (R3, R6 to R8), charging and its floor
(R9, R10), the mapping of denominations (R12, R13), the purge tray (R15, R16) and the deposit cassette (R18). -/

namespace Sys2Proof.Machine

/-- Change the cassette unit. -/
def modCash (f : CassetteUnit → CassetteUnit) (s : State) : State := { s with cash := f s.cash }

/-- The record of cassette C`i+1`. -/
def cassetteAt (s : State) (i : Nat) : Cassette := s.cash.cassettes.getD i {}

/-- Change the record of cassette C`i+1`. -/
def modCassette (i : Nat) (f : Cassette → Cassette) (s : State) : State :=
  modCash (fun u => { u with cassettes := modifyAt u.cassettes i f }) s

/-- The entry D`d` of the denomination table. -/
def denomAt (s : State) (d : Nat) : Denom := s.cash.denoms.getD d {}

/-- The presence switch of C`i+1` reads closed. -/
def seated (s : State) (i : Nat) : Bool := s.board.presence.getD i false

/-- The cassette can be picked from (section 1.2). -/
def serves (c : Cassette) : Bool := c.st == .active || c.st == .low

/-- The four count figures of a cassette record (R3, R6). -/
def cassetteFigures (c : Cassette) : List Byte :=
  be 2 c.count ++ be 2 c.loaded ++ be 2 c.accepted ++ be 2 c.rejectEst

/-- The state a count gives a loaded cassette (R3). -/
def stateOfCount (count setpoint : Nat) : CassetteState :=
  if count == 0 then .empty else if count ≤ setpoint then .low else .active

/-- R3: the state of a cassette in ACTIVE or LOW follows its count, with the notices of entering LOW from ACTIVE and
of entering EMPTY. -/
def followCount (i : Nat) (s : State) : State :=
  let c := cassetteAt s i
  if serves c then
    let st := stateOfCount c.count c.setpoint
    let t := modCassette i (fun c => { c with st := st }) s
    if st == .empty then noticeAll .cassetteEmpty (be 1 (i + 1) ++ cassetteFigures c) t
    else if st == .low && c.st == .active then noticeAll .cassetteLow (be 1 (i + 1) ++ be 2 c.count) t
    else t
  else s

/-- What an unload leaves of a record (R6): the setpoint alone. -/
def clearedCassette (c : Cassette) : Cassette := { setpoint := c.setpoint }

/-- The presence switch opens (R7, R8). -/
def removeCassette (i : Nat) (s : State) : State :=
  let c := cassetteAt s i
  noticeAll .cassetteRemoved (be 1 (i + 1) ++ cassetteFigures c)
    (modCassette i (fun c => { c with st := .removed, misses := 0, restart := 0 }) s)

/-- A missed pick (R8): the count rises and PICK_MISS is raised; the third in a row makes the cassette SUSPECT. -/
def countMiss (i : Nat) (op : FaultOp) (s : State) : State :=
  let n := (cassetteAt s i).misses + 1
  let s := raiseSoft .pickMiss op (some (.cassette i)) none (modCassette i (fun c => { c with misses := n }) s)
  if n ≥ 3 then
    raiseHard .cassetteSuspect op (some (.cassette i)) none
      (modCassette i (fun c => { c with st := if serves c then .suspect else c.st, misses := 0 }) s)
  else s

/-- An accepted pick charges its cassette 1 (R9). A charge that meets a count of 0, which R9 says does not arise (a
second note of one pick, a cassette exchanged under its note), leaves the count at 0 and still counts the pick as
accepted, past 2,500 and on an UNLOADED record too (DESIGN CHOICE, notes/assumptions/28.md). -/
def chargeAccepted (i : Nat) (s : State) : State :=
  followCount i (modCassette i (fun c => { c with count := c.count - 1, accepted := c.accepted + 1 }) s)

/-- The estimate a reject class is charged (table of section 1.3); a SINGLE counts 1 in a calibration (R11). -/
def rejectEstimate : NoteClass → Nat
  | .multi => 3
  | .double | .overlap => 2
  | .thin | .length | .unclassified | .single => 1

/-- A reject's estimate enters the purge tray under its cassette (R15). -/
def enterTray (i est : Nat) (op : FaultOp) (s : State) : State :=
  let p := s.cash.purge
  let per := modifyAt p.perCassette i fun n => min 100 (n + est)
  if p.full then modCash (fun u => { u with purge := { p with perCassette := per } }) s
  else if p.total + est > 100 then
    raiseHard .purgeFull op (some (.cassette i)) none
      (modCash (fun u => { u with purge := { p with perCassette := per, total := 100, full := true } }) s)
  else modCash (fun u => { u with purge := { p with perCassette := per, total := p.total + est } }) s

/-- A rejected pick charges its cassette the estimate of its class, stopping at 0, and enters the tray (R10, R15). -/
def chargeReject (i est : Nat) (op : FaultOp) (s : State) : State :=
  let sum := freeSum s (cassetteAt s i).rejectEst est
  let past := (cassetteAt s i).rejectEst + est > 65535
  let s := if past then drawFree s else s
  enterTray i est op
    (followCount i (modCassette i (fun c => { c with count := c.count - est, rejectEst := sum }) s))

/-- The start of a run during a pick sets the consecutive miss count to 0 (R8). -/
def clearMisses (i : Nat) (s : State) : State := modCassette i (fun c => { c with misses := 0 }) s

/-- The available count of a denomination (R12). -/
def availableCount (s : State) (d : Nat) : Nat :=
  ((s.cash.cassettes.filter fun c => serves c && c.denom == some d).map (·.count)).sum

/-- The cassette a pick of a denomination is taken from (R13). -/
def selectCassette (s : State) (d : Nat) : Option Nat :=
  s.cash.cassettes.findIdx? fun c => serves c && c.denom == some d

/-- There is room in the tray for a stacker of `n` notes (R16). -/
def trayHasRoom (n : Nat) (s : State) : Bool := s.cash.purge.total + n ≤ 100

/-- A stacker purge that finds no room (R16): the full flag and PURGE_FULL. -/
def trayNoRoom (op : FaultOp) (s : State) : State :=
  raiseHard .purgeFull op none none
    (modCash (fun u => { u with purge := { u.purge with full := true } }) s)

/-- The end of a stacker purge movement (R16). -/
def creditTray (notes value : Nat) (s : State) : State :=
  modCash (fun u => { u with purge :=
    { u.purge with notes := u.purge.notes + notes, total := u.purge.total + notes,
                   value := sat24 (u.purge.value + value) } }) s

/-- A note of known denomination is stacked (R18); `confirmed` by a teller, or secured without. -/
def creditKnown (confirmed : Bool) (e : EscrowEntry) (s : State) : State :=
  let s := modCash (fun u => { u with deposit :=
    { u.deposit with count := u.deposit.count + 1,
                     perCount := modifyAt u.deposit.perCount e.den (· + 1),
                     perValue := modifyAt u.deposit.perValue e.den fun v => sat24 (v + e.face) } }) s
  if confirmed then
    modShift (fun t => { t with depNotes := sat16 (t.depNotes + 1), depValue := sat24 (t.depValue + e.face) }) s
  else
    modShift
      (fun t => { t with unconfNotes := sat16 (t.unconfNotes + 1), unconfValue := sat24 (t.unconfValue + e.face) })
      (modCash (fun u => { u with deposit :=
        { u.deposit with unconfCount := u.deposit.unconfCount + 1,
                         unconfValue := sat24 (u.deposit.unconfValue + e.face) } }) s)

/-- A note of unknown denomination is stacked (R18); in recovery past 1,500 too (DEDUCED, notes/assumptions/19.md). -/
def creditUnknown (s : State) : State :=
  modShift (fun t => { t with unconfNotes := sat16 (t.unconfNotes + 1) })
    (modCash (fun u => { u with deposit :=
      { u.deposit with count := u.deposit.count + 1, unconfCount := u.deposit.unconfCount + 1,
                       unidentified := u.deposit.unidentified + 1 } }) s)

end Sys2Proof.Machine
end

