-- ==== Sys2Proof/Machine/CaptureUnit.lean ====
section
/-! DEFINITION. The capture unit's shared operations (chapter 5): the compartment's figures, the arbiter (R94, R95),
the grants (R96, R100), retract requests and the sensor check (R112). -/

namespace Sys2Proof.Machine

/-- Change the capture unit. -/
def modCapture (f : Capture → Capture) (s : State) : State := { s with capture := f s.capture }

/-- The note estimate of the retract compartment (section 5.1). -/
def noteEstimate (c : Capture) : Nat := (c.bundles.map (·.count)).sum

/-- The sum of the presented values of the bundles, saturating (R106, R107). -/
def bundlesValue (c : Capture) : Nat := sat24 (c.bundles.map (·.value)).sum

/-- The compartment can take a bundle (R95). -/
def compartmentTakes (c : Capture) (r : RetractRequest) : Bool :=
  noteEstimate c + r.count ≤ 200 && c.bundles.length < 32

/-- The capture transport is idle: no movement in progress and no envelope request WAITING (R99). -/
def captureIdle (c : Capture) : Bool :=
  c.transport != .carryingEnvelope && c.transport != .carryingRetract && !c.waiting

/-- The operation a retract's owner is named by (section 9.1). -/
def requesterOp : Requester → FaultOp
  | .dispense => .dispense
  | .deposit => .deposit
  | .calibration => .calibrate
  | .recovery => .recovery

/-- The grant of a retract request (R96): the bundle is appended, the shift totals are credited and the pocket is
drawn in. -/
def grantRetract (r : RetractRequest) (s : State) : State :=
  let b : Bundle :=
    { kind := r.kind, tag := r.tag, count := r.count, value := r.value, startCount := s.lane.startCount,
      laneTime := laneTime s, unverified := true }
  modDrives (fun d => { d with envelopePath := false })
    (modCapture
      (fun c => { c with bundles := c.bundles ++ [b], transport := .carryingRetract,
                         retract := some { r with granted := true, blocked := false } })
      (modShift
        (fun t => { t with bundles := sat16 (t.bundles + 1), retractValue := sat24 (t.retractValue + r.value) }) s))

/-- The grant of an envelope request (R100). -/
def grantEnvelope (s : State) : State :=
  reshutter (modDrives (fun d => { d with envelopePath := true })
    (modCapture (fun c => { c with waiting := false, transport := .carryingEnvelope, envelope := some {} }) s))

/-- An envelope request that is WAITING is granted (R94). -/
def tryEnvelope (s : State) : State := if s.capture.waiting then grantEnvelope s else s

/-- A retract request that the compartment cannot take is marked blocked, and RETRACT_BLOCKED raised once (R95). -/
def blockRetract (r : RetractRequest) (s : State) : State :=
  if r.blocked then s
  else raiseHard .retractBlocked (requesterOp r.requester) none none
    (modCapture (fun c => { c with retract := some { r with blocked := true } }) s)

/-- The arbiter decides (R94): nothing while the capture jam mark is set, the transport STOPPED or a movement in
progress; then the retract request the compartment can take; then the waiting envelope. A bin service in OPENING
comes before a retract (R108). -/
def arbitrate (s : State) : State :=
  let c := s.capture
  if c.jam || c.transport != .idle then s
  else match c.retract with
    | some r =>
        if r.granted || c.bin == .opening then tryEnvelope s
        else if compartmentTakes c r then grantRetract r s
        else tryEnvelope (blockRetract r s)
    | none => tryEnvelope s

/-- A retract request is taken from the owner of the pocket (R95), and the arbiter looks at it (R94). -/
def requestRetract (who : Requester) (kind : BundleKind) (tag : Option Nat) (count value : Nat) (s : State) : State :=
  let r : RetractRequest := { requester := who, kind, tag, count, value, blocked := false, granted := false }
  arbitrate (modCapture (fun c => { c with retract := some r }) s)

/-- A retract of this owner is pending and blocked (R150). -/
def blockedRetract (s : State) (who : Requester) : Bool :=
  match s.capture.retract with
  | some r => r.requester == who && r.blocked && !r.granted
  | none => false

/-- The capture jam mark is set by a check of the path (R112, R190). -/
def jamPath (s : State) : State :=
  raiseHard .captureJam .recovery none none (reshutter (modCapture (fun c => { c with jam := true }) s))

/-- The capture path is checked when the mechanics are first powered (R112). -/
def captureCheck (x : CaptureSensors) (s : State) : State :=
  if x.length || x.drop || x.retract then jamPath s
  else if x.slot then reshutter (modCapture (fun c => { c with returned := true }) s)
  else s

/-- The capture path is checked at the end of WAKING (R190): as at a start, and a sensor found occupied, the slot sensor
too, sets the capture jam mark and raises CAPTURE_JAM (DEDUCED, notes/assumptions/23.md). -/
def wakingCheck (x : CaptureSensors) (s : State) : State :=
  if x.slot && !(x.length || x.drop || x.retract) then jamPath (captureCheck x s) else captureCheck x s

end Sys2Proof.Machine
end

