-- ==== Sys2Proof/Machine/Channels.lean ====
section
/-! DEFINITION. The measurement channels (chapter 2): samples (R22), runs and gaps (R23, R24), the measured note
record (R26 to R28), classification (R29, R30), learning (R32, R33), zero capture (R34, R35), zero tracking
(R37 to R39) and the gain of a calibration (R43). -/

namespace Sys2Proof.Machine

/-- The state of a channel. -/
def chanAt (s : State) : ChannelId → Channel
  | .p => s.chP
  | .q => s.chQ

/-- Change a channel. -/
def modChan (ch : ChannelId) (f : Channel → Channel) (s : State) : State :=
  match ch with
  | .p => { s with chP := f s.chP }
  | .q => { s with chQ := f s.chQ }

/-- The operation whose window is open on a channel, as a fault names it (section 9.1). -/
def channelOp (s : State) (ch : ChannelId) : FaultOp :=
  if s.cal.phase != .none && s.cal.channel == ch then .calibrate
  else match ch with
    | .p => .dispense
    | .q => .deposit

/-! ### Samples, runs and gaps -/

/-- Per-sample thickness (R22). -/
def thickness (g c : Nat) : Nat := (c * g + 512) / 1024

/-- A raw sample is present: its thickness is at least 30 µm (R22). -/
def isPresent (z g r : Nat) : Bool := 30 ≤ thickness g (r - z)

/-- Where the samples of a run lead (R23, R24): the run goes on; it has ended with the eighth non-present sample; or
it was cut off at its 400th. `rest` are the samples left over. -/
inductive RunFeed
  | going (cs trail : List Nat)
  | ended (cs trail rest : List Nat)
  | cut (cs rest : List Nat)
  deriving DecidableEq, Repr

/-- Samples are taken into a run (R23, R24); `cs` and `trail` are newest first. A run whose eighth non-present sample is
its 400th ends there (DEDUCED, notes/assumptions/11.md). -/
def feedRun (z g : Nat) : List Nat → List Nat → List Nat → RunFeed
  | [], cs, trail => .going cs trail
  | r :: rest, cs, trail =>
      if isPresent z g r then
        let cs := (r - z) :: (trail.map (· - z) ++ cs)
        if cs.length ≥ 400 then .cut cs rest else feedRun z g rest cs []
      else
        let trail := r :: trail
        if trail.length ≥ 8 then .ended cs trail rest
        else if cs.length + trail.length ≥ 400 then .cut (trail.map (· - z) ++ cs) rest
        else feedRun z g rest cs trail

/-- Where the samples of a tail lead (R24): it goes on with these trailing non-present samples; or its eighth has ended
it, with samples left over. -/
inductive TailFeed
  | going (trail : List Nat)
  | ended (trail rest : List Nat)
  deriving DecidableEq, Repr

/-- Samples are taken in the tail of a cut run (R24). -/
def feedTail (z g : Nat) : List Nat → List Nat → TailFeed
  | [], trail => .going trail
  | r :: rest, trail =>
      if isPresent z g r then feedTail z g rest []
      else if (r :: trail).length ≥ 8 then .ended (r :: trail) rest else feedTail z g rest (r :: trail)

/-- The samples since the channel's last step go into the gap, the run or the tail in progress. The sample that starts
or ends a run, or ends a tail, is the last of a row of its own (R23, R24), so none stands here: a present sample is no
part of a gap, and samples that would end a run or a tail leave it as it is (DESIGN CHOICE, notes/assumptions/4.md). -/
def feedFlow (z g : Nat) (raws : List Nat) : Flow → Flow
  | .none => .none
  | .gap n sum =>
      let l := raws.filter fun r => !isPresent z g r
      .gap (n + l.length) (sum + l.sum)
  | .run cs trail =>
      match feedRun z g raws cs trail with
      | .going cs' trail' => .run cs' trail'
      | .ended _ _ _ | .cut _ _ => .run cs trail
  | .tail trail =>
      match feedTail z g raws trail with
      | .going trail' => .tail trail'
      | .ended _ _ => .tail trail

/-- The zero a channel measures against; a window is open only after a successful capture (R21). -/
def zeroOf (c : Channel) : Nat := c.zero.getD 0

/-- The channel takes its samples since its last step. -/
def takeSamples (ch : ChannelId) (raws : List Nat) (s : State) : State :=
  modChan ch (fun c => { c with flow := feedFlow (zeroOf c) c.gain raws c.flow }) s

/-- The channel whose window is open takes its samples: at most one is, since one operation measures at a time. -/
def takeOpenSamples (raws : List Nat) (s : State) : State := takeSamples .q raws (takeSamples .p raws s)

/-- z moves one count toward m (R37). -/
def moveToward (z m : Nat) : Nat := if m > z then z + 1 else if m < z then z - 1 else z

/-- The end of a gap (R37 to R39): fewer than 8 samples, or a standing zero-lost mark, track nothing. The eighth gap out
of band in a row raises ZERO_DRIFT, as R38 has it of each, and then ZERO_LOST; the worked case of chapter 2 lists
ZERO_LOST alone there (DEDUCED, notes/assumptions/29.md). -/
def endGap (ch : ChannelId) (n sum : Nat) (s : State) : State :=
  let c := chanAt s ch
  if n < 8 || c.lost then s
  else
    let m := roundDiv sum n
    if absDiff m (zeroOf c) ≤ s.config.captureBand then
      modChan ch (fun c => { c with zero := some (moveToward (zeroOf c) m), drift := 0 }) s
    else
      let t := raiseSoft .zeroDrift (channelOp s ch) (some (.channel ch)) none
        (modChan ch (fun c => { c with drift := c.drift + 1 }) s)
      if c.drift + 1 ≥ 8 then
        raiseHard .zeroLost (channelOp s ch) (some (.channel ch)) none (modChan ch (fun c => { c with lost := true }) t)
      else t

/-- The window closes (R21): a gap in progress is tracked, a run in progress is discarded (R25) and a zero capture
is abandoned (R36). -/
def closeWindow (ch : ChannelId) (s : State) : State :=
  let t := modChan ch (fun c => { c with window := false, flow := .none, capturing := false }) s
  match (chanAt s ch).flow with
  | .gap n sum => if (chanAt s ch).window then endGap ch n sum t else t
  | _ => t

/-- A run or the tail of a cut run is in progress. -/
def inNote (c : Channel) : Bool :=
  match c.flow with
  | .run _ _ | .tail _ => true
  | .none | .gap _ _ => false

/-! ### The measured note record -/

/-- C of a run: the rounded mean of its interior, absent for a fragment (R26, R27). -/
def meanCorrected (cs : List Nat) : Option Nat :=
  let n := cs.length
  if n < 16 then none else some (roundDiv ((cs.drop 4).take (n - 8)).sum (n - 8))

/-- T from C (R26). -/
def noteThickness (g c : Nat) : Nat := clampTo 0 32767 (thickness g c)

/-- q from T and the reference that applies (R28). -/
def noteRatio (t ref : Nat) : Nat := clampTo 0 999 (t * 100 / ref)

/-- The thickness class of a ratio (table of section 2.5). -/
def thicknessClass (q : Nat) : NoteClass :=
  if q ≤ 59 then .thin else if q ≤ 150 then .single else if q ≤ 260 then .double else .multi

/-- A length lies in a denomination's window (R29, R30). -/
def lengthFits (d : Denom) (l : Nat) : Bool := absDiff l d.nomLength ≤ d.window

/-- The record of a run, with the reference and the denomination that apply to it and its class still to be
given. -/
def measuredRecord (g : Nat) (cs : List Nat) (cut : Bool) (ref den : Option Nat) (cls : Option Nat → NoteClass) :
    NoteRecord :=
  let n := cs.length
  let c := meanCorrected cs
  let t := c.map (noteThickness g)
  let q := t.bind fun t => ref.map (noteRatio t)
  { n, length := n * 5, c, t, ref := q.bind fun _ => ref, q, den,
    cls := if cut then .overlap else if n < 16 then .thin else cls q, fragment := decide (n < 16), cutOff := cut }

/-- The record of a run on channel P, classified against the cassette being picked (R29). -/
def recordP (s : State) (i : Nat) (cs : List Nat) (cut : Bool) : NoteRecord :=
  let k := cassetteAt s i
  let good := match k.denom with
    | some d => lengthFits (denomAt s d) (cs.length * 5)
    | none => Config.freeLengthGood s.free
  measuredRecord s.chP.gain cs cut (some k.ref) k.denom fun q =>
    match thicknessClass (q.getD 0) with
    | .single => if good then .single else .length
    | cls => cls

/-- The used denominations whose window contains a length (R30). -/
def candidates (s : State) (l : Nat) : List Nat :=
  (List.range 8).filter fun d => (denomAt s d).used && lengthFits (denomAt s d) l

/-- The one denomination whose window contains a length, if there is exactly one (R30). -/
def matchedDenom (s : State) (l : Nat) : Option Nat :=
  match candidates s l with
  | [d] => some d
  | _ => none

/-- The record of a run on channel Q, its denomination found from its length (R30). -/
def recordQ (s : State) (cs : List Nat) (cut : Bool) : NoteRecord :=
  let den := matchedDenom s (cs.length * 5)
  measuredRecord s.chQ.gain cs cut (den.map fun d => (denomAt s d).ref) den fun q =>
    match den with
    | some _ => thicknessClass (q.getD 0)
    | none => .unclassified

/-! ### Learning (R32, R33) -/

/-- R and the restart count after a SINGLE note of thickness t and ratio q is offered (R32, R33). -/
def learn (t q ref restart : Nat) : Nat × Nat :=
  if 88 ≤ q && q ≤ 112 then
    (clampTo 20 400 (if t ≥ ref then ref + (t - ref + 8) / 16 else ref - (ref - t + 8) / 16), 0)
  else if restart + 1 ≥ 8 then (clampTo 20 400 t, 0)
  else (ref, restart + 1)

/-- A SINGLE note of a dispense is offered to its cassette's reference (R31). -/
def learnCassette (i : Nat) (r : NoteRecord) (s : State) : State :=
  match r.t, r.q with
  | some t, some q =>
      modCassette i
        (fun c => { c with ref := (learn t q c.ref c.restart).1, restart := (learn t q c.ref c.restart).2 }) s
  | _, _ => s

/-- A SINGLE note of a deposit is offered to the deposit reference of its denomination (R31). -/
def learnDenom (r : NoteRecord) (s : State) : State :=
  match r.den, r.t, r.q with
  | some d, some t, some q =>
      let f := fun (e : Denom) =>
        { e with ref := (learn t q e.ref e.restart).1, restart := (learn t q e.ref e.restart).2 }
      modCash (fun u => { u with denoms := modifyAt u.denoms d f }) s
  | _, _, _ => s

/-! ### Zero capture and calibration -/

/-- A zero capture starts: the channel's transport runs empty (R34). -/
def startCapture (ch : ChannelId) (s : State) : State :=
  let s := modChan ch (fun c => { c with capturing := true }) s
  match ch with
  | .p => modDrives (fun d => { d with pickTransport := true, pickGate := none }) s
  | .q => modDrives (fun d => { d with throatTransport := true, throatGate := false }) s

/-- The candidate zero of 64 samples (R34). -/
def zeroCandidate (raws : List Nat) : Nat := roundDiv raws.sum 64

/-- The two conditions of a successful zero capture (R34). -/
def zeroGood (g : Nat) (raws : List Nat) : Bool :=
  (raws.all fun r => !isPresent (zeroCandidate raws) g r) &&
    raws.foldl max 0 - raws.foldl min 4095 ≤ 48

/-- A successful zero capture (R34): the window opens with a gap. -/
def captureOk (ch : ChannelId) (raws : List Nat) (s : State) : State :=
  modChan ch (fun c => { c with zero := some (zeroCandidate raws), drift := 0, lost := false, window := true,
                                flow := .gap 0 0, capturing := false }) s

/-- A failed zero capture raises ZERO_UNSTABLE and leaves the channel as it was (R35). -/
def captureFailed (ch : ChannelId) (s : State) : State :=
  raiseHard .zeroUnstable (channelOp s ch) (some (.channel ch)) none
    (modChan ch (fun c => { c with capturing := false }) s)

/-- The gain that would have given C the thickness K (R43). -/
def calibratedGain (k c : Nat) : Nat := clampTo 1 8191 ((1024 * k + c / 2) / c)

end Sys2Proof.Machine
end

