-- ==== Sys2Proof/Machine/Depositor.lean ====
section
/-! DEFINITION. The deposit engine's shared operations (chapter 4): notices and endings (R85, R90, R92), feeding
(R79 to R82), the refusal clearance (R83), accepting (R84 to R86), returning (R87 to R89), jams (R90) and
lockdown (R91). -/

namespace Sys2Proof.Machine

/-- Change the deposit engine. -/
def modDep (f : Deposit → Deposit) (s : State) : State := { s with dep := f s.dep }

/-- The value of a list of escrow entries (section 4.1). -/
def entriesValue (l : List EscrowEntry) : Nat := (l.map (·.face)).sum

/-! ### Notices and the ending -/

/-- The content of the completion notice of a deposit session (R92); the reservation granted is the one released at
the same ending. The operation byte in front, 2, is the model's (DESIGN CHOICE, notes/assumptions/25.md). -/
def depCompletion (granted : Nat) (d : Deposit) : List Byte :=
  be 1 2 ++ be 1 d.tag ++ beOpt 1 (d.outcome.map depOutcomePos) ++ be 3 d.asked ++ be 3 granted ++ be 2 d.limit ++
    be 2 d.stackedNotes ++ be 3 d.stackedValue ++ d.stackedPer.flatMap (be 2) ++ be 2 d.presentedNotes ++
    be 3 d.presentedValue ++ be 2 d.refused ++ be 2 d.throatHeld

/-- The throat shuts: gate and transport (R92, "with the throat shut"). -/
def shutThroat (s : State) : State := modDrives (fun d => { d with throatGate := false, throatTransport := false }) s

/-- The throat entry gate shuts; the transport runs on (R82). -/
def shutGate (s : State) : State := modDrives (fun d => { d with throatGate := false }) s

/-- A session ends (R92): the outcome, the release, the completion notice, the cleared record with the throat
shut. -/
def endDeposit (o : DepOutcome) (s : State) : State :=
  let granted := s.peer.held.deposit
  let s := releaseDeposit (modDep (fun d => { d with outcome := some o }) s)
  let s := noticeBound .completion (depCompletion granted s.dep) s
  afterTransaction (shutThroat (modDep (fun _ => {}) s))

/-- What a NOTICE DEPOSIT_STATUS reports: an accept DECLINED or EXPIRED (R85) or a session JAM (R90). -/
inductive DepStatus
  | declined
  | expired
  | jam
  deriving DecidableEq, Repr, Inhabited

/-- Its position (R183; DESIGN CHOICE, notes/assumptions/9.md). -/
def depStatusPos : DepStatus → Nat
  | .declined => 1 | .expired => 2 | .jam => 3

/-- The JAM notice (R90): the session state at the jam, the escrow notes and value, the stacked notes and value. -/
def noticeDepJam (s : State) : State :=
  let d := s.dep
  noticeBound .depositStatus
    (be 1 (depStatusPos .jam) ++ be 1 (depStatePos d.st) ++ be 2 d.escrow.length ++ be 3 (entriesValue d.escrow) ++
      be 2 d.stackedNotes ++ be 3 d.stackedValue) s

/-- The DECLINED or EXPIRED notice (R85): the tag of the accept, the escrow notes and value. -/
def noticeAccept (x : DepStatus) (s : State) : State :=
  let d := s.dep
  noticeBound .depositStatus
    (be 1 (depStatusPos x) ++ be 1 d.acceptTag ++ be 2 d.escrow.length ++ be 3 (entriesValue d.escrow)) s

/-! ### The clearance (R83) -/

/-- The clearance becomes OPEN over refused notes: the shutter is open and the take timer starts (R83). -/
def openClearance (s : State) : State :=
  modDrives (fun d => { d with pocketShutter := true })
    (modDep (fun d => { d with clearance := .opened, takeMs := some (s.config.takeTimeout * 1000) }) s)

/-- The clearance becomes RETRACTING: the shutter closes and a retract of the refused notes is asked for (R83). -/
def retractClearance (s : State) : State :=
  let d := s.dep
  requestRetract .deposit .depositReturn (some d.tag) d.pocketRefusals 0
    (modDrives (fun d => { d with pocketShutter := false })
      (modDep (fun d => { d with clearance := .retracting, takeMs := none }) s))

/-! ### Accepting and stacking (R84 to R86) and securing (R91) -/

/-- Securing waits on the throat: it is marked jammed, or a movement or a note toward the escrow is under way. -/
def securingHeld (s : State) : Bool := s.throatJam || s.dep.move != .none || !s.dep.toEscrow.isEmpty

/-- The securing of a lockdown goes on (R91): a jammed throat and moves under way hold it; then the escrow is stacked as
unconfirmed; and with the escrow empty and no clearance the session ends. -/
def secureOn (s : State) : State :=
  if securingHeld s then s
  else if !s.dep.escrow.isEmpty then
    modDrives (fun d => { d with throatTransport := true })
      (modDep (fun d => { d with st := .stacking, move := .stacking }) s)
  else if s.dep.clearance == .none then
    endDeposit (if s.dep.unconfirmed > 0 then .securedUnconfirmed else .lockdown) s
  else s

/-- A settled escrow lets the session end once no clearance is left (R83, R86, R91). A securing that waits for a blocked
retract goes on after LOCKDOWN has been left (R151): a DEPOSIT_ACCEPT that comes then is answered ACCEPTED, and the
session ends with the outcome of the securing, LOCKDOWN, not STACKED (DESIGN CHOICE, notes/assumptions/16.md). -/
def depositSettled (s : State) : State :=
  if s.dep.securing then secureOn s
  else if s.dep.st == .stacking && s.dep.escrow.isEmpty && s.dep.clearance == .none then endDeposit .stacked s
  else s

/-- STACKING is entered (R86); an empty escrow stacks nothing. -/
def startStacking (s : State) : State :=
  depositSettled
    (modDrives (fun d => { d with throatTransport := !s.dep.escrow.isEmpty })
      (modDep (fun d => { d with st := .stacking, slot := none,
                                 move := if d.escrow.isEmpty then .none else .stacking }) s))

/-- A DEPOSIT_ACCEPT is decided in HOLDING (R84). It needs no approval where the duress latch was set when it was taken
(R144, R146), or is set as it is decided (R84; both together: DEDUCED, notes/assumptions/16.md). -/
def decideAccept (h : Header) (takenUnderDuress : Bool) (s : State) : State :=
  let value := entriesValue s.dep.escrow
  if value > s.config.s1 && !takenUnderDuress && !s.alarm.duress then
    match lowestFree s with
    | none => refuse h .depositAccept .approvalBusy s
    | some i =>
        replyAccepted h .depositAccept []
          (modDep (fun d => { d with st := .awaitApproval, slot := some (nextSlotRef s i), acceptTag := h.tag })
            (takeSlot i .depositAccept value h.src [] s))
  else startStacking (replyAccepted h .depositAccept [] (modDep (fun d => { d with acceptTag := h.tag }) s))

/-- A waiting accept was declined or expired (R85): the session returns to HOLDING. -/
def acceptFailed (x : DepStatus) (s : State) : State :=
  noticeAccept x (modDep (fun d => { d with st := .holding, slot := none }) s)

/-- An escrow note passes the stacking sensor (R86, R91, R18). -/
def stackNote (s : State) : State :=
  match s.dep.escrow with
  | [] => s
  | e :: rest =>
      let s := creditKnown (!s.dep.securing) e s
      let s := modDep (fun d => { d with escrow := rest, stackedNotes := d.stackedNotes + 1,
                                         stackedValue := d.stackedValue + e.face,
                                         stackedPer := modifyAt d.stackedPer e.den (· + 1),
                                         unconfirmed := d.unconfirmed + (if d.securing then 1 else 0) }) s
      if rest.isEmpty then
        depositSettled
          (modDrives (fun d => { d with throatTransport := false }) (modDep (fun d => { d with move := .none }) s))
      else s

/-! ### Returning (R87 to R89) -/

/-- RETURNING is entered (R87): the shutter closes, an open clearance ends, and the escrow moves to the pocket; with
nothing to present the session ends. -/
def startReturn (s : State) : State :=
  let s := modDrives (fun d => { d with pocketShutter := false })
    (modDep (fun d => { d with st := .returning, slot := none, clearance := .none, takeMs := none }) s)
  if s.dep.escrow.isEmpty && s.dep.pocketRefusals == 0 then endDeposit .returnedTaken s
  else modDrives (fun d => { d with throatTransport := true, toEscrow := false })
    (modDep (fun d => { d with move := .toPocket }) s)

/-- The returned bundle is in the pocket (R87). -/
def presentReturn (s : State) : State :=
  modDrives (fun d => { d with pocketShutter := true, throatTransport := false })
    (modDep (fun d => { d with st := .returnPresented, move := .none,
                               presentedNotes := d.escrow.length + d.pocketRefusals,
                               presentedValue := entriesValue d.escrow, escrow := [], pocketRefusals := 0,
                               takeMs := some (s.config.takeTimeout * 1000) }) s)

/-- RETURN_RETRACTING is entered over whatever the pocket holds (R88, R89, R91); an outcome of its own is written at the
ending (R92). -/
def retractReturn (o : Option DepOutcome) (s : State) : State :=
  let d := s.dep
  requestRetract .deposit .depositReturn (some d.tag) d.presentedNotes d.presentedValue
    (modDrives (fun d => { d with pocketShutter := false })
      (modDep (fun d => { d with st := .returnRetracting, takeMs := none, decided := o }) s))

/-- The capture unit reports a bundle of the session in place (R83, R89). -/
def depositBundle (s : State) : State :=
  if s.dep.st == .returnRetracting then endDeposit (s.dep.decided.getD .returnedRetracted) s
  else if s.dep.clearance == .retracting then
    depositSettled (modDep (fun d => { d with clearance := .none, pocketRefusals := 0 }) s)
  else s

/-! ### Waiting, opening and feeding (R77 to R82) -/

/-- The grant reaches the session (R77): ZERO_CAPTURE on channel Q. -/
def depositGranted (s : State) : State :=
  startCapture .q (modDep (fun d => { d with st := .zeroCapture, ceilingMs := none }) s)

/-- The capture of channel Q is abandoned and its transport stops (R36, R78). -/
def abandonCaptureQ (s : State) : State := closeWindow .q (shutThroat s)

/-- The throat opens for feeding and its idle timer starts (R78). -/
def openThroat (s : State) : State :=
  modDrives (fun d => { d with throatGate := true, throatTransport := true })
    (modDep (fun d => { d with st := .feeding, idleMs := some (s.config.takeTimeout * 1000) }) s)

/-- A note of the session is still in the throat: under the channel, or between the diverter and its sensor. -/
def throatBusy (s : State) : Bool := inNote s.chQ || !s.dep.toEscrow.isEmpty || s.dep.toPocket != 0

/-- An accept that waited for the throat is decided (R84): in HOLDING by its rule, else refused by its table (one that
finds the session ended meets NOTHING; DESIGN CHOICE, notes/assumptions/16.md). -/
def lateAccept (s : State) (a : WaitingAccept) : State :=
  match s.dep.st with
  | .holding => decideAccept a.header a.duress s
  | .closed => refuse a.header .depositAccept .nothing s
  | _ => refuse a.header .depositAccept .busy s

/-- The accepts that waited for the throat are refused for one reason. -/
def refuseAccepts (r : Reason) (l : List WaitingAccept) (s : State) : State :=
  l.foldl (fun t a => refuse a.header .depositAccept r t) s

/-- FEEDING is left for HOLDING with the window closed (R82); refused notes in the pocket open the clearance (R83),
and what waited for the throat is then acted on, a return before the accepts (R84, R87; DESIGN CHOICE,
notes/assumptions/16.md). -/
def enterHolding (c : Closing) (s : State) : State :=
  let s := closeWindow .q (shutThroat s)
  let s := modDep (fun d => { d with st := .holding, closing := none, idleMs := none }) s
  let s := if s.dep.pocketRefusals > 0 then openClearance s else s
  c.accepts.foldl lateAccept (if c.giveBack then startReturn s else s)

/-- A closing throat whose last note has reached its sensor lets the session enter HOLDING (R82). -/
def tryHolding (s : State) : State :=
  match s.dep.st, s.dep.closing with
  | .feeding, some c => if throatBusy s then s else enterHolding c s
  | _, _ => s

/-- The throat closes in FEEDING (R82), or goes on closing with more to act on: the entry gate shuts, and HOLDING
follows the last note. -/
def closeThroat (more : Closing → Closing) (s : State) : State :=
  tryHolding (shutGate (modDep (fun d => { d with closing := some (more (d.closing.getD {})), idleMs := none }) s))

/-- The clamp mark is set, with the ESCROW_LIMIT notice once a session (R81). -/
def setClamp (s : State) : State :=
  let s := modDep (fun d => { d with clamp := true }) s
  if s.dep.limitNotice then s
  else
    let d := s.dep
    noticeBound .escrowLimit
      (be 2 d.escrow.length ++ be 3 (entriesValue d.escrow) ++ be 2 d.limit ++ be 3 s.peer.held.deposit)
      (modDep (fun d => { d with limitNotice := true }) s)

/-- The escrow entry a SINGLE record of channel Q makes (section 4.1). -/
def entryOf (s : State) (r : NoteRecord) : EscrowEntry :=
  let d := r.den.getD 0
  { den := d, face := (denomAt s d).face, thick := r.t.getD 0 }

/-- There is room in the escrow for a note (R79), the notes on their way to it counted with it (DEDUCED,
notes/assumptions/16.md). -/
def escrowTakes (s : State) (e : EscrowEntry) : Bool :=
  let d := s.dep
  d.escrow.length + d.toEscrow.length < d.limit &&
    entriesValue d.escrow + entriesValue d.toEscrow + e.face ≤ s.peer.held.deposit

/-- A note classified on channel Q in FEEDING (R31, R79 to R81): offered to learning or reported, then sent to the
escrow or the pocket. -/
def depositNote (r : NoteRecord) (s : State) : State :=
  let single := r.cls == .single
  let s := if single then learnDenom r s else raiseSoft .noteReject .deposit (some (.channel .q)) none s
  let e := entryOf s r
  if single && !s.dep.clamp && escrowTakes s e then
    modDrives (fun d => { d with toEscrow := true }) (modDep (fun d => { d with toEscrow := d.toEscrow ++ [e] }) s)
  else
    let s := modDrives (fun d => { d with toEscrow := false })
      (modDep (fun d => { d with toPocket := d.toPocket + 1 }) s)
    if single && !s.dep.clamp then setClamp s else s

/-- A zero-lost mark stops the feeding at the end of the note (R39, R82). -/
def stopIfLost (s : State) : State :=
  if s.chQ.lost && s.dep.st == .feeding && s.dep.closing.isNone then closeThroat id s else s

/-- A note arrives at the escrow sensor (R79, R81). -/
def pushEscrow (s : State) : State :=
  match s.dep.toEscrow with
  | [] => s
  | e :: rest =>
      let s := modDep (fun d => { d with escrow := d.escrow ++ [e], toEscrow := rest }) s
      let s := if s.dep.escrow.length == s.dep.limit && !s.dep.clamp then setClamp s else s
      if s.dep.securing then secureOn s else tryHolding s

/-- A refused note arrives at the pocket sensor (R80, R82). -/
def refusedAtPocket (s : State) : State :=
  let sum := freeSum s s.dep.refused 1
  let s := if s.dep.refused + 1 > 65535 then drawFree s else s
  let s := modDrives (fun d => { d with pocketShutter := true })
    (modDep (fun d => { d with toPocket := d.toPocket - 1, refused := sum,
                               pocketRefusals := d.pocketRefusals + 1 }) s)
  if s.dep.pocketRefusals ≥ 100 && s.dep.closing.isNone then closeThroat id s else tryHolding s

/-! ### Jams and lockdown (R90, R91) -/

/-- DEPOSIT_JAM is raised and the throat marked jammed. -/
def jamThroat (op : FaultOp) (s : State) : State :=
  raiseHard .depositJam op (some (.channel .q)) none { s with throatJam := true }

/-- The deposit transport is moving a note or a bundle that can jam (table of R90). -/
def depositMoving (s : State) : Bool :=
  s.dep.st != .closed && (s.dep.move != .none || !s.dep.toEscrow.isEmpty || s.dep.toPocket != 0 ||
    (s.dep.st == .feeding && inNote s.chQ))

/-- A jam of the deposit transports (R90): everything stops, the run is discarded, and the session enters HOLDING. The
accepts that waited for the close are refused as in HOLDING (R84). In LOCKDOWN the session is held for its securing
(R91). Every note between the diverter and its sensor is left for hand removal with the jammed one: none has an entry,
and none counts as refused. A return that waited for the close is dropped without a frame (both: DESIGN CHOICE,
notes/assumptions/16.md). -/
def jamDeposit (s : State) : State :=
  let d := s.dep
  let s := noticeDepJam (jamThroat .deposit (closeWindow .q (shutThroat s)))
  let s := modDep (fun d => { d with st := .holding, closing := none, idleMs := none, toEscrow := [], toPocket := 0,
                                     move := .none, securing := d.securing || s.lane.state == .lockdown }) s
  let s := if d.st == .feeding && d.pocketRefusals > 0 then openClearance s else s
  refuseAccepts .dispenserState (d.closing.getD {}).accepts s

/-- CLEAR_JAM clears the throat's mark (R90, R91): securing goes on, or kept refusals open the clearance. -/
def depositUnjammed (s : State) : State :=
  if s.dep.securing then secureOn s
  else if s.dep.st == .holding && s.dep.pocketRefusals > 0 && s.dep.clearance == .none then openClearance s
  else s

/-- Refused notes in the pocket are retracted at lockdown (R91). -/
def lockdownPocket (s : State) : State :=
  if s.dep.pocketRefusals > 0 && s.dep.clearance != .retracting then retractClearance s else s

/-- The notes of FEEDING at lockdown (R91): the run is discarded, notes bound for the pocket stop where they are. The
accepts that waited for the close are refused LOCKDOWN (R84's first check), and a return that waited is dropped without
a frame (DESIGN CHOICE, notes/assumptions/16.md). -/
def lockdownFeeding (s : State) : State :=
  let d := s.dep
  let s := closeWindow .q (shutThroat s)
  let s := modDep (fun d => { d with throatHeld := d.throatHeld + d.toPocket, toPocket := 0, closing := none,
                                     idleMs := none }) s
  let s := if d.toPocket > 0 then { s with throatJam := true } else s
  refuseAccepts .lockdown (d.closing.getD {}).accepts s

/-- The escrow is secured as unconfirmed (R91). -/
def secureEscrow (s : State) : State :=
  secureOn (modDep (fun d => { d with st := .holding, slot := none, securing := true }) s)

/-- The deposit engine at the change to LOCKDOWN (R91); the approval unit has freed its slot (R163). -/
def lockdownDeposit (s : State) : State :=
  match s.dep.st with
  | .closed | .returnRetracting => s
  | .awaitCeiling => endDeposit .lockdown (withdrawIntent s)
  | .zeroCapture => endDeposit .lockdown (abandonCaptureQ s)
  | .feeding => secureEscrow (lockdownPocket (lockdownFeeding s))
  | .holding | .awaitApproval => secureEscrow (lockdownPocket s)
  | .stacking => lockdownPocket s
  | .returning => lockdownPocket (modDep (fun d => { d with securing := true, move := .reversing }) s)
  | .returnPresented => retractReturn (some .lockdown) s

/-- The duress latch is set (R85): a waiting accept goes on without its approval. -/
def acceptUnderDuress (s : State) : State :=
  match s.dep.st, s.dep.slot with
  | .awaitApproval, some x => startStacking (settleSlot x.slot .withdrawn s)
  | _, _ => s

end Sys2Proof.Machine
end

