-- ==== Sys2Proof/Machine/Mix.lean ====
section
/-! DEFINITION. The plan of a dispense (R46 to R49): malformed requests, picking order and the mix rule. -/

namespace Sys2Proof.Machine

/-- A request is malformed (R46). -/
def malformed (s : State) : Request → Bool
  | .amount n => n == 0
  | .pairs l =>
      l.isEmpty || 8 < l.length || (l.any fun p => p.2 == 0 || 40 < p.2)
        || (l.any fun p => 8 ≤ p.1 || !(denomAt s p.1).used) || !decide (l.map (·.1)).Nodup

/-- D`d` comes before D`e` in picking order: descending face value, the lower D number first (R48). -/
def pickedBefore (s : State) (d e : Nat) : Bool :=
  (denomAt s e).face < (denomAt s d).face || ((denomAt s d).face == (denomAt s e).face && d < e)

/-- Insert a denomination into a list in picking order. -/
def insertPicking (s : State) (d : Nat) : List Nat → List Nat
  | [] => [d]
  | e :: es => if pickedBefore s d e then d :: e :: es else e :: insertPicking s d es

/-- The used denominations in picking order (R48). -/
def pickingOrder (s : State) : List Nat :=
  ((List.range 8).filter fun d => (denomAt s d).used).foldr (insertPicking s) []

/-- The largest count from `k` down to 0 for which `f` finds the rest of a choice. -/
def tryCounts (f : Nat → Option (List Nat)) : Nat → Option (List Nat)
  | 0 => (f 0).map (0 :: ·)
  | k + 1 =>
      match f (k + 1) with
      | some l => some ((k + 1) :: l)
      | none => tryCounts f k

/-- The choice of exactly `n` notes worth exactly `a` with the most notes of the first denomination, then of the
second, and so on (R48); each denomination is given by its face value and its available count. -/
def exactMix : List (Nat × Nat) → Nat → Nat → Option (List Nat)
  | [], n, a => if n == 0 && a == 0 then some [] else none
  | (face, avail) :: ds, n, a =>
      tryCounts (fun k => if k * face ≤ a then exactMix ds (n - k) (a - k * face) else none) (min avail n)

/-- The choice with the fewest notes, at most 40 (R48). -/
def fewestMix (ds : List (Nat × Nat)) (a : Nat) : Option (List Nat) :=
  (List.range 41).findSome? fun n => exactMix ds n a

/-- The plan of an amount by the mix rule (R48). -/
def planAmount (s : State) (a : Nat) : Option (List PlanPair) :=
  let order := pickingOrder s
  (fewestMix (order.map fun d => ((denomAt s d).face, availableCount s d)) a).map fun ks =>
    ((order.zip ks).filter fun p => p.2 != 0).map fun p => { den := p.1, count := p.2, picked := 0 }

/-- The value of an explicit list. -/
def pairsValue (s : State) (l : List (Nat × Nat)) : Nat := (l.map fun p => p.2 * (denomAt s p.1).face).sum

/-- The plan of an explicit list (R49). -/
def planPairs (s : State) (l : List (Nat × Nat)) : Option (List PlanPair) :=
  if (l.any fun p => availableCount s p.1 < p.2) || 40 < (l.map (·.2)).sum then none
  else some ((pickingOrder s).filterMap fun d =>
    (l.find? fun p => p.1 == d).map fun p => { den := d, count := p.2, picked := 0 })

/-- The duress clamp (R47): an amount or a list worth more than the duress limit becomes the limit. -/
def clampRequest (s : State) : Request → Request
  | .amount n => .amount (min n s.config.duressLimit)
  | .pairs l => if pairsValue s l ≤ s.config.duressLimit then .pairs l else .amount s.config.duressLimit

/-- The plan and its value for a request (R48, R49). -/
def planRequest (s : State) : Request → Option (List PlanPair × Nat)
  | .amount n => (planAmount s n).map fun p => (p, n)
  | .pairs l => (planPairs s l).map fun p => (p, pairsValue s l)

end Sys2Proof.Machine
end

