-- ==== Sys2Proof/Machine/Dispenser.lean ====
section
/-! DEFINITION. The dispense engine's shared operations (chapter 3): endings (R72), stranding (R63), the waits (R53),
picking (R55 to R61), purging (R62), retracting (R67), the duress re-plan (R52) and lockdown (R70). -/

namespace Sys2Proof.Machine

/-- Change the dispense engine. -/
def modDisp (f : Dispense → Dispense) (s : State) : State := { s with disp := f s.disp }

/-- The pocket shutter opens or closes. -/
def setShutter (isOpen : Bool) (s : State) : State := modDrives (fun d => { d with pocketShutter := isOpen }) s

/-- The take timer's start value in ms (R64). -/
def takeTimerMs (s : State) : Nat := s.config.takeTimeout * 1000

/-- The content of the completion notice of a dispense (12.2, R72). Its operation byte is 1: of the lists that name a
DISPENSE, that of the completion notices (R183) is taken (DESIGN CHOICE, notes/assumptions/25.md). -/
def dispCompletion (d : Dispense) : List Byte :=
  be 1 1 ++ be 1 d.tag ++ beOpt 1 (d.outcome.map dispOutcomePos) ++
    be 1 ((if d.stranded then 1 else 0) + (if d.duress then 2 else 0)) ++ be 3 d.planValue ++ be 1 d.stackerNotes ++
    be 3 d.stackerValue ++ be 1 d.presentedNotes ++ be 3 d.presentedValue ++ be 1 d.rejects ++
    beOpt 1 (d.lastCassette.map (· + 1)) ++ d.plan.flatMap fun p => be 1 p.den ++ be 1 p.picked

/-- The completion notice of the dispense is queued (R72). -/
def notifyDispense (s : State) : State := noticeBound .completion (dispCompletion s.disp) s

/-- A dispense ends (R72): the outcome, the release, the completion notice, the cleared record. -/
def endDispense (o : DispOutcome) (s : State) : State :=
  let s := notifyDispense (releaseDispense (modDisp (fun d => { d with outcome := some o }) s))
  afterTransaction (modDisp (fun _ => {}) s)

/-- A dispense is stranded (R63): the outcome, the mark and the notice; everything else stands. -/
def strandDispense (o : DispOutcome) (s : State) : State :=
  notifyDispense (modDisp (fun d => { d with outcome := some o, stranded := true, move := .none }) s)

/-- DISPENSER_JAM is raised and the dispenser marked jammed (R59, R62, R64). -/
def jamDispenser (op : FaultOp) (last : Option Nat) (s : State) : State :=
  raiseHard .dispenserJam op (last.map .cassette) none { s with dispenserJam := true }

/-- The pick transport stops with every gate closed. -/
def stopPickTransport (s : State) : State := modDrives (fun d => { d with pickTransport := false, pickGate := none }) s

/-- PURGING is entered with the outcome decided (R62; written at the ending, R72): an empty stacker ends the dispense,
one the tray has room for is purged, and one it has none for strands the dispense. -/
def enterPurging (o : DispOutcome) (s : State) : State :=
  let s := modDisp (fun d => { d with st := .purging, decided := some o, pick := .none, owed := 0, move := .none }) s
  if s.disp.stackerNotes == 0 then endDispense o s
  else if trayHasRoom s.disp.stackerNotes s then modDisp (fun d => { d with move := .purge }) s
  else strandDispense o (trayNoRoom .dispense s)

/-- Picking ends (R57 to R61): the transport stops, the window closes, its last gap is tracked, and PURGING is
entered. -/
def endPicking (o : DispOutcome) (s : State) : State := enterPurging o (closeWindow .p (stopPickTransport s))

/-- The first pair of the plan that is not fully picked (R55). -/
def nextPair (d : Dispense) : Option Nat := d.plan.findIdx? fun p => p.picked < p.count

/-- The next pick (R55): a selection that finds no cassette ends picking SHORT (R13). -/
def startPick (s : State) : State :=
  match nextPair s.disp with
  | none => s
  | some j =>
      match selectCassette s ((s.disp.plan.getD j default).den) with
      | none => endPicking .short (modDisp (fun d => { d with pair := j }) s)
      | some c =>
          modDrives (fun d => { d with pickGate := some c, pickTransport := true })
            (modDisp (fun d => { d with pair := j, lastCassette := some c, pick := .gateOpen }) s)

/-- A note boundary of picking (R60, R69, R70): a decided stop or a lost zero ends picking, else the next pick. -/
def pickBoundary (s : State) : State :=
  match s.disp.stop with
  | some o => endPicking o s
  | none => if s.chP.lost then endPicking .zeroFault s else startPick s

/-- Picking is complete (R61): the transport stops, the last gap is tracked, and the stacker goes to the pocket unless
the zero is lost. -/
def completePicking (s : State) : State :=
  let s := closeWindow .p (stopPickTransport s)
  if s.chP.lost then enterPurging .zeroFault s
  else modDisp (fun d => { d with st := .presenting, pick := .none, owed := 0, move := .present }) s

/-- AWAIT_CEILING is entered (R53): the request and the 10 s ceiling wait. -/
def awaitDispenseCeiling (s : State) : State :=
  let s := modDisp (fun d => { d with st := .awaitCeiling, slot := none, ceilingMs := some 10000 }) s
  requestIntent .dispense s.disp.planValue s

/-- The grant reaches the engine (R53): ZERO_CAPTURE on channel P. -/
def dispenseGranted (s : State) : State :=
  startCapture .p (modDisp (fun d => { d with st := .zeroCapture, ceilingMs := none }) s)

/-- RETRACTING is entered over whatever the pocket holds (R67, R70). -/
def retractDispense (o : Option DispOutcome) (s : State) : State :=
  let d := s.disp
  requestRetract .dispense .dispense (some d.tag) d.presentedNotes d.presentedValue
    (setShutter false (modDisp (fun d => { d with st := .retracting, takeMs := none, decided := o }) s))

/-- The bundle of the dispense is in place (R68). -/
def dispenseRetracted (s : State) : State := endDispense (s.disp.decided.getD .retracted) s

/-- The capture of channel P is abandoned and its transport stops (R36, R54). -/
def abandonCaptureP (s : State) : State := closeWindow .p (stopPickTransport s)

/-- The pick's note has left channel P (R55): the pick waits for the accepted notes still on their way to the stacker
sensor, or it has ended and picking is at a note boundary. -/
def noteLeft (s : State) : State :=
  if s.disp.owed == 0 then pickBoundary (modDisp (fun d => { d with pick := .none }) s)
  else modDisp (fun d => { d with pick := .toStacker }) s

/-- A rejected note ends picking (R57): at once, or when the accepted notes before it have been counted in (DEDUCED,
notes/assumptions/11.md). -/
def rejectEnds (o : DispOutcome) (s : State) : State :=
  if s.disp.owed == 0 then endPicking o s
  else modDisp (fun d => { d with pick := .toStacker, stop := some o }) s

/-- A note of a dispense is classified on channel P (R31, R56, R57): charged, then sent to the stacker or the tray. The
pick gate, opened for the one note (R55), is driven open until here (DESIGN CHOICE, notes/assumptions/27.md). -/
def dispenseNote (i : Nat) (r : NoteRecord) (s : State) : State :=
  if r.cls == .single then
    modDrives (fun d => { d with toStacker := true, pickGate := none })
      (modDisp (fun d => { d with pick := .toStacker, owed := d.owed + 1 }) (learnCassette i r (chargeAccepted i s)))
  else
    let fullBefore := s.cash.purge.full
    let t := raiseSoft .noteReject .dispense (some (.cassette i)) none
      (chargeReject i (rejectEstimate r.cls) .dispense s)
    let t := modDrives (fun d => { d with toStacker := false, pickGate := none })
      (modDisp (fun d => { d with rejects := d.rejects + 1 }) t)
    if t.cash.purge.full && !fullBefore then rejectEnds .purgeFull t
    else if t.disp.rejects ≥ 11 then rejectEnds .rejectLimit t
    else if r.cutOff then modDisp (fun d => { d with pick := .tail }) t
    else noteLeft t

/-- A dispense whose pairs have been counted into: the first pair that is not fully picked is current (R55), and with
none left the last one stays. -/
def toNextPair (d : Dispense) : Dispense := { d with pair := (nextPair d).getD d.pair }

/-- The stacker sensor counts an accepted note in (R56): the current pair takes it, and where it is then full the next
pair becomes current (R55). -/
def countIn (s : State) : State :=
  let d := s.disp
  let c := cassetteAt s (d.lastCassette.getD 0)
  let face := c.face.getD (Config.freeFace s.free)
  let s := if c.face.isNone then drawFree s else s
  modDisp
    (fun d => toNextPair
      { d with stackerNotes := d.stackerNotes + 1, stackerValue := d.stackerValue + face, owed := d.owed - 1,
               plan := modifyAt d.plan ((nextPair d).getD d.pair) fun p => { p with picked := p.picked + 1 } }) s

/-- The duress latch is set over a waiting dispense (R52). -/
def replanUnderDuress (s : State) : State :=
  let d := s.disp
  if d.st == .awaitApproval || d.st == .awaitCeiling || d.st == .zeroCapture then
    let limit := s.config.duressLimit
    let t := modDisp (fun d => { d with duress := true }) s
    let t := match d.st, d.slot with
      | .awaitApproval, some x => modDisp (fun d => { d with slot := none }) (settleSlot x.slot .withdrawn t)
      | _, _ => t
    let stop := fun (o : DispOutcome) (u : State) =>
      endDispense o (match d.st with
        | .awaitCeiling => withdrawIntent u
        | .zeroCapture => abandonCaptureP u
        | _ => u)
    let goOn := fun (u : State) => if d.st == .awaitApproval then awaitDispenseCeiling u else u
    if d.planValue ≤ limit then goOn t
    else if limit == 0 then stop .clampedZero t
    else match planAmount t limit with
      | none => stop .noMix t
      | some plan =>
          let u := modDisp (fun d => { d with plan, planValue := limit, pair := 0 }) t
          let u := if d.st == .zeroCapture then lowerDispense limit u else u
          let u := if d.st == .awaitCeiling then
              modPeer (fun p => { p with request := p.request.map fun r => { r with amount := limit } }) u
            else u
          goOn u
  else s

/-- The dispense engine at the change to LOCKDOWN (R70); the approval unit has freed its slot (R163). In PICKING a stop
decided earlier stands (R57, R69; DEDUCED, notes/assumptions/11.md). -/
def lockdownDispense (s : State) : State :=
  let d := s.disp
  if d.stranded then s
  else match d.st with
    | .idle | .planning | .purging | .retracting => s
    | .awaitApproval => endDispense .lockdown s
    | .awaitCeiling => endDispense .lockdown (withdrawIntent s)
    | .zeroCapture => endDispense .lockdown (abandonCaptureP s)
    | .picking => modDisp (fun d => { d with stop := some (d.stop.getD .lockdown) }) s
    | .presenting =>
        match d.move with
        | .present => modDisp (fun d => { d with move := .reverse, decided := some .lockdown }) s
        | .reverse => s
        | _ =>
            if d.takeMs.isSome then retractDispense (some .lockdown) s
            else enterPurging .lockdown s

end Sys2Proof.Machine
end

