-- ==== Sys2Proof/Machine/Calibrator.lean ====
section
/-! DEFINITION. The calibration sequence (R40 to R43): its phases, the gain, its endings and lockdown. -/

namespace Sys2Proof.Machine

/-- Change the calibration. -/
def modCal (f : Calibration → Calibration) (s : State) : State := { s with cal := f s.cal }

/-- The content of the completion notice of a calibration (R43). The operation byte, 3, and the tag in front are the
model's (DESIGN CHOICE, notes/assumptions/25.md). -/
def calCompletion (k : Calibration) : List Byte :=
  be 1 3 ++ be 1 k.tag ++ beOpt 1 (k.outcome.map calOutcomePos) ++ be 1 (channelPos k.channel) ++
    beOpt 1 (if k.channel == .p then some (k.cassette + 1) else none) ++ be 2 k.k ++ beOpt 2 k.c ++
    be 2 k.gainBefore ++ be 2 k.gainAfter

/-- A calibration ends at its completion notice (R41 to R43); the binding may end with it (R156). -/
def endCal (o : CalOutcome) (s : State) : State :=
  let s := modCal (fun k => { k with outcome := some o, gainAfter := (chanAt s k.channel).gain }) s
  let s := noticeBound .completion (calCompletion s.cal) s
  afterTransaction (modCal (fun _ => {}) s)

/-- It ends with the outcome already written, or with `o`. -/
def endCalAs (o : CalOutcome) (s : State) : State := endCal (s.cal.outcome.getD o) s

/-- The transport and the gate of the calibration's channel stop, and the window closes (R41, R42). -/
def stopCal (s : State) : State :=
  match s.cal.channel with
  | .p => closeWindow .p (stopPickTransport s)
  | .q => closeWindow .q (shutThroat s)

/-- The record has a usable C (R43). -/
def usableC (r : NoteRecord) : Option Nat :=
  if r.fragment || r.cutOff then none
  else match r.c with
    | some c => if c < 64 then none else some c
    | none => none

/-- The gain from a classified record (R43), unless lockdown came first (R41). -/
def setGain (r : NoteRecord) (s : State) : State :=
  if s.cal.locked then modCal (fun k => { k with outcome := some .lockdown, c := r.c }) s
  else match usableC r with
    | none => modCal (fun k => { k with outcome := some .calFailed, c := r.c }) s
    | some c =>
        modChan s.cal.channel (fun x => { x with gain := calibratedGain s.cal.k c })
          (modCal (fun k => { k with outcome := some .calibrated, c := r.c }) s)

/-- A note of a calibration is classified on channel P (R11, R41): charged as a reject, with its pass ended when it has
cleared the channel, at once or at the end of its tail. -/
def calNoteP (r : NoteRecord) (s : State) : State :=
  let s := chargeReject s.cal.cassette (rejectEstimate r.cls) .calibrate s
  let s := modDrives (fun d => { d with toStacker := false, pickGate := none }) (setGain r s)
  if r.cutOff then modCal (fun k => { k with phase := .tail }) s else endCalAs .calFailed (stopCal s)

/-- The note of a calibration on channel Q goes to the pocket; the throat has closed behind it (R42). The window closes
here, where the run or the tail of the note has ended, its gap of eight samples being tracked, while the transport runs
on with the note to the pocket (DESIGN CHOICE, notes/assumptions/15.md). -/
def calToPocket (s : State) : State :=
  modDrives (fun d => { d with throatGate := false, throatTransport := true, toEscrow := false })
    (closeWindow .q (modCal (fun k => { k with phase := .toPocket }) s))

/-- A note of a calibration is classified on channel Q (R42). -/
def calNoteQ (r : NoteRecord) (s : State) : State :=
  let s := shutGate (setGain r s)
  if r.cutOff then modCal (fun k => { k with phase := .tail }) s else calToPocket s

/-- The zero capture of a calibration has succeeded (R41, R42): one pick, or a throat open for one note. -/
def calCaptured (s : State) : State :=
  match s.cal.channel with
  | .p => modDrives (fun d => { d with pickGate := some s.cal.cassette, pickTransport := true })
      (modCal (fun k => { k with phase := .waiting }) s)
  | .q => modDrives (fun d => { d with throatGate := true, throatTransport := true })
      (modCal (fun k => { k with phase := .waiting, takeMs := some (s.config.takeTimeout * 1000) }) s)

/-- The note of a calibration on channel Q is retracted from the pocket (R42, step 7). -/
def retractCal (s : State) : State :=
  requestRetract .calibration .depositReturn (some s.cal.tag) 1 0
    (modDrives (fun d => { d with pocketShutter := false })
      (modCal (fun k => { k with phase := .retracting, takeMs := none }) s))

/-- The note of a calibration on channel Q is stacked as unconfirmed instead (R42; corners: DEDUCED,
notes/assumptions/15.md). -/
def stackCal (o : CalOutcome) (s : State) : State :=
  modDrives (fun d => { d with throatGate := false, throatTransport := true, toEscrow := true })
    (closeWindow .q (modCal (fun k => { k with phase := .stacking, outcome := some (k.outcome.getD o) }) s))

/-- The calibration at the change to LOCKDOWN (R41, R42). -/
def lockdownCal (s : State) : State :=
  match s.cal.phase, s.cal.channel with
  | .none, _ | .retracting, _ | .stacking, _ => s
  | .zeroCapture, _ => endCal .lockdown (stopCal s)
  | .waiting, .p | .running, .p => modCal (fun k => { k with locked := true }) s
  | .waiting, .q => endCal .lockdown (stopCal s)
  | .running, .q | .toPocket, _ => stackCal .lockdown s
  | .tail, .p => s
  | .tail, .q => stackCal .lockdown s
  | .inPocket, _ => retractCal s

end Sys2Proof.Machine
end

