-- ==== Sys2Proof/Machine/Verdicts.lean ====
section
/-! DEFINITION. What the owners do when they are told: the decision on an INTENT (R125, R128), the settling of an
approval slot (R5, R19, R51, R85, R108, R146, R192), the bundle in place (R96), and the latches (R140, R141). -/

namespace Sys2Proof.Machine

/-! ### The INTENT (R125, R126, R128, R131) -/

/-- A granted reservation reaches its engine (R53, R77, R125): one above the request as it now stands is lowered at
once (R52). -/
def intentGranted (kind : IntentKind) (a wanted : Nat) (s : State) : State :=
  let s := grantHeld kind a (modPeer (fun p => { p with request := none }) s)
  match kind with
  | .dispense => dispenseGranted (if a > wanted then lowerDispense wanted s else s)
  | .deposit => depositGranted s

/-- The lane's own INTENT, carrying `a`, has completed cleanly: the decision of R125, refused while the duplicate
station mark is set (R131). -/
def decideIntent (a : Nat) (s : State) : State :=
  match s.peer.request with
  | none => s
  | some r =>
      if !s.peer.duplicate && wallSum s + a ≤ s.config.wallCeiling then intentGranted r.kind a r.amount s
      else refuseIntent s

/-- The INTENT of a withdrawn request has completed cleanly (R128). -/
def orphanCompletion (s : State) : State := askPosition (modPeer (fun p => { p with orphan := false }) s)

/-! ### Loads and exchanges (R5, R19) -/

/-- Outcomes of a CASSETTE_LOAD, in the order of R5. -/
inductive LoadOutcome
  | abandoned
  | loaded
  | declined
  | expired
  | lockdown
  deriving DecidableEq, Repr, Inhabited

/-- Outcomes of a DEPOSIT_CASSETTE_EXCHANGE, in the order of R19. -/
inductive ExchangeOutcome
  | exchanged
  | abandoned
  | declined
  | expired
  | lockdown
  deriving DecidableEq, Repr, Inhabited

/-- Positions (DESIGN CHOICE, notes/assumptions/9.md). -/
def loadOutcomePos : LoadOutcome → Nat
  | .abandoned => 1 | .loaded => 2 | .declined => 3 | .expired => 4 | .lockdown => 5

/-- Positions (DESIGN CHOICE, notes/assumptions/9.md). -/
def exchangeOutcomePos : ExchangeOutcome → Nat
  | .exchanged => 1 | .abandoned => 2 | .declined => 3 | .expired => 4 | .lockdown => 5

/-- A cassette record carries a load. -/
def isLoaded (c : Cassette) : Bool := c.denom.isSome

/-- The record a load writes (R5). -/
def loadedCassette (d : Denom) (den count : Nat) (c : Cassette) : Cassette :=
  { c with st := stateOfCount count c.setpoint, denom := some den, face := some d.face, count := count,
           loaded := count, accepted := 0, rejectEst := 0, ref := d.nomThick, restart := 0, misses := 0 }

/-- The completion notice of a load (R5): the outcome, the state, and the figures that a load replaced. The operation
byte, the tag and the cassette number, and the state at the endings other than LOADED, are the model's (DESIGN CHOICE,
notes/assumptions/25.md). -/
def noticeLoad (o : LoadOutcome) (w : LoadWait) (replaced : List Byte) (s : State) : State :=
  noticeBound .completion
    (be 1 4 ++ be 1 w.tag ++ be 1 (loadOutcomePos o) ++ be 1 (w.cassette + 1) ++
      be 1 (cassetteStatePos (cassetteAt s w.cassette).st) ++ replaced) s

/-- A waiting load ends without being applied (R5). -/
def endLoad (o : LoadOutcome) (w : LoadWait) (s : State) : State :=
  noticeLoad o w [] (modCash (fun u => { u with loads := u.loads.filter fun x => x.slot != w.slot }) s)

/-- A GIVE for a load (R5): the two checks again, then the record is rewritten. -/
def applyLoad (w : LoadWait) (s : State) : State :=
  if s.lane.state == .closed && seated s w.cassette then
    let old := cassetteAt s w.cassette
    noticeLoad .loaded w (if isLoaded old then cassetteFigures old else [])
      (modCassette w.cassette (loadedCassette (denomAt s w.den) w.den w.count)
        (modCash (fun u => { u with loads := u.loads.filter fun x => x.slot != w.slot }) s))
  else endLoad .abandoned w s

/-- The settling of a load's slot (R5). -/
def settleLoad (w : LoadWait) (how : Settling) (s : State) : State :=
  match how with
  | .given _ => applyLoad w s
  | .denied _ => endLoad .declined w s
  | .expired => endLoad .expired w s
  | .withdrawn => endLoad .lockdown w s

/-- Every field of the deposit cassette record (R19). -/
def depositCassetteBytes (d : DepositCassette) : List Byte :=
  be 2 d.count ++ d.perCount.flatMap (be 2) ++ d.perValue.flatMap (be 3) ++ be 2 d.unconfCount ++
    be 3 d.unconfValue ++ be 2 d.unidentified

/-- An exchange ends with an outcome and what its notice carries besides (R19). The operation byte and the tag in front
are the model's (DESIGN CHOICE, notes/assumptions/25.md). -/
def endExchange (o : ExchangeOutcome) (tag : Nat) (more : List Byte) (s : State) : State :=
  noticeBound .completion (be 1 5 ++ be 1 tag ++ be 1 (exchangeOutcomePos o) ++ more)
    (modCash (fun u => { u with exchange := none }) s)

/-- The settling of the exchange's slot (R19). -/
def settleExchange (tag : Nat) (how : Settling) (s : State) : State :=
  match how with
  | .given _ =>
      if s.lane.state == .closed then
        modCash (fun u => { u with deposit := {} })
          (endExchange .exchanged tag (depositCassetteBytes s.cash.deposit) s)
      else endExchange .abandoned tag [] s
  | .denied _ => endExchange .declined tag [] s
  | .expired => endExchange .expired tag [] s
  | .withdrawn => endExchange .lockdown tag [] s

/-! ### The bin service (R108) -/

/-- Outcomes of a bin service, in the order of R108. -/
inductive BinOutcome
  | abandoned
  | declined
  | expired
  | lockdown
  | opened
  deriving DecidableEq, Repr, Inhabited

/-- Positions (DESIGN CHOICE, notes/assumptions/9.md). -/
def binOutcomePos : BinOutcome → Nat
  | .abandoned => 1 | .declined => 2 | .expired => 3 | .lockdown => 4 | .opened => 5

/-- The completion NOTICE of a bin service, to all stations (R108). The operation byte in front, 6, is the model's
(DESIGN CHOICE, notes/assumptions/25.md). -/
def noticeBin (o : BinOutcome) (more : List Byte) (s : State) : State :=
  noticeAll .completion (be 1 6 ++ be 1 (binOutcomePos o) ++ more) s

/-- A bin service ends before it opens (R108). -/
def endBin (o : BinOutcome) (s : State) : State :=
  noticeBin o [] (reshutter (modCapture (fun c => { c with bin := .none, binSlot := none }) s))

/-- The figures of the OPENED and BIN_SERVICE_CLOSED notices (R108, R110). An empty journal has no first and no last
sequence number: both are sent as absent, all ones (DESIGN CHOICE, notes/assumptions/10.md). -/
def binFigures (c : Capture) : List Byte :=
  be 2 c.journal.length ++ beOpt 3 (c.journal.head?.map (·.seq)) ++ beOpt 3 (c.journal.getLast?.map (·.seq)) ++
    be 2 c.bundles.length ++ be 2 (noteEstimate c) ++ be 3 (bundlesValue c)

/-- The settling of the bin service's slot (R108). -/
def settleBin (how : Settling) (s : State) : State :=
  match how with
  | .given _ =>
      if s.lane.state == .closed || s.lane.state == .recovery then
        modCapture (fun c => { c with bin := .opening, binSlot := none }) s
      else endBin .abandoned s
  | .denied _ => endBin .declined s
  | .expired => endBin .expired s
  | .withdrawn => endBin .lockdown s

/-- A service in OPENING finds the transport and the slot free (R108). -/
def binOpenDue (s : State) : Bool := s.capture.bin == .opening && captureIdle s.capture

/-- The bin service opens (R108). -/
def openBin (s : State) : State :=
  noticeBin .opened (binFigures s.capture)
    (modDrives (fun d => { d with binUnlocked := true })
      (modCapture (fun c => { c with bin := .opened, transport := .stopped }) s))

/-! ### The latches (R140, R141, R145, R146) -/

/-- Change the alarm unit. -/
def modAlarm (f : Alarm → Alarm) (s : State) : State := { s with alarm := f s.alarm }

/-- The wall line is driven exactly while a latch is set (R141). -/
def followDrive (s : State) : State := modAlarm (fun a => { a with drive := a.duress || a.attack }) s

/-- The zones of a latch's type. -/
def latchType : Latch → ZoneType
  | .duress => .duress
  | .attack => .attack

/-- The state of a latch. -/
def latchSet (a : Alarm) : Latch → Bool
  | .duress => a.duress
  | .attack => a.attack

/-- The slot an ALARM_CLEAR of a latch waits in. -/
def latchWait (a : Alarm) : Latch → Option SlotRef
  | .duress => a.duressClear
  | .attack => a.attackClear

/-- A zone of the latch's type is not QUIET, or is frozen (R145). -/
def latchZoneActive (a : Alarm) (l : Latch) : Bool :=
  a.zones.any fun z => z.type == latchType l && (z.state != .quiet || z.frozen)

/-- The wait of a latch takes a slot or returns to none. -/
def setLatchWait (l : Latch) (x : Option SlotRef) (s : State) : State :=
  match l with
  | .duress => modAlarm (fun a => { a with duressClear := x }) s
  | .attack => modAlarm (fun a => { a with attackClear := x }) s

/-- Outcomes of an ALARM_CLEAR, in the order of R146. -/
inductive ClearOutcome
  | abandoned
  | cleared
  | declined
  | expired
  deriving DecidableEq, Repr, Inhabited

/-- Positions (DESIGN CHOICE, notes/assumptions/9.md). -/
def clearOutcomePos : ClearOutcome → Nat
  | .abandoned => 1 | .cleared => 2 | .declined => 3 | .expired => 4

/-- The completion NOTICE of an ALARM_CLEAR, to all stations (R146). The operation byte in front, 7, is the model's
(DESIGN CHOICE, notes/assumptions/25.md). -/
def noticeClear (o : ClearOutcome) (l : Latch) (requester answering : Option Nat) (s : State) : State :=
  noticeAll .completion
    (be 1 7 ++ be 1 (clearOutcomePos o) ++ be 1 (latchPos l) ++ beOpt 1 requester ++ beOpt 1 answering) s

/-- A latch is cleared (R146): the drive, the summary's POSITION, and the release mark for the attack latch. -/
def clearLatch (l : Latch) (s : State) : State :=
  match l with
  | .duress => askPosition (followDrive (modAlarm (fun a => { a with duress := false }) s))
  | .attack =>
      let s := askPosition (followDrive (modAlarm (fun a => { a with attack := false }) s))
      if s.lane.state == .lockdown then modLane (fun x => { x with release := true }) s else s

/-- The settling of an ALARM_CLEAR's slot (R146). -/
def settleClear (l : Latch) (requester : Option Nat) (how : Settling) (s : State) : State :=
  let s := setLatchWait l none s
  match how with
  | .given c =>
      if latchZoneActive s.alarm l then noticeClear .abandoned l requester (some c) s
      else noticeClear .cleared l requester (some c) (clearLatch l s)
  | .denied c => noticeClear .declined l requester (some c) s
  | .expired | .withdrawn => noticeClear .expired l requester none s

/-! ### The verdict reaches the owner (R161 to R163) -/

/-- The settling of a dispense's slot (R51); a withdrawal is the owner's own act. -/
def settleDispense (how : Settling) (s : State) : State :=
  match how with
  | .given _ => awaitDispenseCeiling s
  | .denied _ => endDispense .declined s
  | .expired => endDispense .expired s
  | .withdrawn => s

/-- The settling of an accept's slot (R85). -/
def settleAccept (how : Settling) (s : State) : State :=
  match how with
  | .given _ => startStacking s
  | .denied _ => acceptFailed .declined s
  | .expired => acceptFailed .expired s
  | .withdrawn => s

/-- The verdict on the taking `x` of a slot, of the kind and requester given, goes to the block that owns the
operation: the one whose record holds that slot and ask number (R158). -/
def tellOwner (x : SlotRef) (kind : OpKind) (requester : Option Nat) (how : Settling) (s : State) : State :=
  match kind with
  | .dispense => if s.disp.st == .awaitApproval && s.disp.slot == some x then settleDispense how s else s
  | .depositAccept => if s.dep.st == .awaitApproval && s.dep.slot == some x then settleAccept how s else s
  | .cassetteLoad =>
      match s.cash.loads.find? fun w => w.slot == x with
      | some w => settleLoad w how s
      | none => s
  | .depositCassetteExchange =>
      match s.cash.exchange with
      | some w => if w.slot == x then settleExchange w.tag how s else s
      | none => s
  | .binService => if s.capture.bin == .awaitApproval && s.capture.binSlot == some x then settleBin how s else s
  | .alarmClear =>
      if s.alarm.duressClear == some x then settleClear .duress requester how s
      else if s.alarm.attackClear == some x then settleClear .attack requester how s
      else s
  | .resetLane => modLane (fun l => { l with resetWait := if l.resetWait == some x then none else l.resetWait }) s

/-- Slot `i` is settled and its owner told (R161, R162). -/
def settleAndTell (i : Nat) (how : Settling) (s : State) : State :=
  let x := s.approval.slots.getD i {}
  match x.kind with
  | none => s
  | some k => tellOwner (slotRef s i) k x.requester how (settleSlot i how s)

/-! ### The bundle in place (R96, R97) -/

/-- A move of the recovery has ended (R187). -/
def modRecovery (f : Recovery → Recovery) (s : State) : State :=
  modLane (fun l => { l with recovery := f l.recovery }) s

/-- The capture unit reports a bundle in place: its request is removed and the owner ends as its rule states. -/
def bundleInPlace (r : RetractRequest) (s : State) : State :=
  let s := modCapture (fun c => { c with retract := none }) s
  match r.requester with
  | .dispense => if s.disp.st == .retracting then dispenseRetracted s else s
  | .deposit => depositBundle s
  | .calibration => if s.cal.phase == .retracting then endCalAs .calFailed s else s
  | .recovery => modRecovery (fun x => { x with pocket := .none }) s

end Sys2Proof.Machine
end

