-- ==== Sys2Proof/Machine/Lockdown.lean ====
section
/-! DEFINITION. The setting of the latches (R140), lockdown (R147, R148), the end of its securing (R150), its exit
(R151), and the lane state requests (R188 to R190). -/

namespace Sys2Proof.Machine

/-! ### Entering LOCKDOWN -/

/-- The mechanics power at the change to LOCKDOWN (R147): from NIGHT and WAKING the mechanics are off and the unpowered
lockdown mark is set. -/
def lockdownPower (l : Lane) : Lane :=
  if l.state == .night || l.state == .waking then { l with power := .off, unpowered := true, target := none }
  else { l with target := none }

/-- Slot `i` is withdrawn at lockdown unless an ALARM_CLEAR waits in it (R163). -/
def lockdownSlot (s : State) (i : Nat) : State :=
  match (s.approval.slots.getD i {}).kind with
  | none => s
  | some .alarmClear => s
  | some _ => settleSlot i .withdrawn s

/-- The owners of the service operations end them LOCKDOWN (R5, R19, R108, R192): the loads in the order in which they
were asked, the exchange, the bin service, the reset (DESIGN CHOICE, notes/assumptions/26.md). -/
def lockdownServices (s : State) : State :=
  let s := s.cash.loads.foldl (fun t w => endLoad .lockdown w t) s
  let s := match s.cash.exchange with
    | some w => endExchange .lockdown w.tag [] s
    | none => s
  let s := if s.capture.bin == .awaitApproval || s.capture.bin == .opening then endBin .lockdown s else s
  modLane (fun l => { l with resetWait := none }) s

/-- A retract request that a bin service in OPENING held back, and the waiting envelope, are looked at again: the end of
a bin service is an event of R94 (DEDUCED, notes/assumptions/20.md). -/
def lockdownCapture (before s : State) : State := if before.capture.bin == .opening then arbitrate s else s

/-- The change to LOCKDOWN (R147, R148, R163): the pending request, the power, the announcement, the openings, the
slots, and each block in turn. The order of the slots (A0 to A3) and of the blocks (the services, the dispense, the
session, the calibration, the capture unit), which no rule gives, is that of their notices (DESIGN CHOICE,
notes/assumptions/26.md). -/
def enterLockdown (s : State) : State :=
  let t := setLaneState .lockdown (modLane (fun l => { lockdownPower l with pending := none }) s)
  let t := modDrives (fun d => { d with pocketShutter := false, throatGate := false }) t
  let t := lockdownServices ([0, 1, 2, 3].foldl lockdownSlot t)
  lockdownCapture s (lockdownCal (lockdownDeposit (lockdownDispense t)))

/-- The attack latch reaches the lane state unit (R147, R151): a lane already in LOCKDOWN loses its release mark. -/
def attackReached (s : State) : State :=
  match s.lane.state with
  | .lockdown => modLane (fun l => { l with release := false }) s
  | .starting | .configFault => s
  | _ => enterLockdown s

/-- The effects of a latch just set, in the order of R140. -/
def latchEffects (l : Latch) (s : State) : State :=
  let s := askPosition (followDrive s)
  match l with
  | .duress => acceptUnderDuress (replanUnderDuress s)
  | .attack => attackReached s

/-! ### Securing and the exit (R150, R151) -/

/-- The dispense engine has nothing left to secure (R150, 1). -/
def dispenseSecured (s : State) : Bool :=
  s.disp.st == .idle || s.disp.stranded || (s.disp.st == .retracting && blockedRetract s .dispense)

/-- The deposit session waits for nothing but a blocked retract (R150, 2 and 5). -/
def depositSecured (s : State) : Bool :=
  let d := s.dep
  d.st == .closed ||
    (blockedRetract s .deposit &&
      (d.st == .returnRetracting ||
        (d.clearance == .retracting && d.escrow.isEmpty && d.toEscrow.isEmpty && d.move == .none && !s.throatJam)))

/-- The calibration is over, or waits for a blocked retract (R150, 3). -/
def calSecured (s : State) : Bool :=
  s.cal.phase == .none || (s.cal.phase == .retracting && blockedRetract s .calibration)

/-- No retract stands jammed (R150, 5). -/
def retractJammed (s : State) : Bool := s.capture.jam && (s.capture.retract.any fun r => r.granted)

/-- The recovery has nothing running or waiting but a blocked retract (R150, 6). -/
def recoverySecured (s : State) : Bool :=
  let x := s.lane.recovery
  !x.active || (x.stacker == .none && x.escrow == .none && (x.pocket == .none || blockedRetract s .recovery))

/-- The securing of a lockdown has ended (R150). -/
def securingEnded (s : State) : Bool :=
  dispenseSecured s && depositSecured s && calSecured s && captureIdle s.capture && !retractJammed s &&
    recoverySecured s

/-- The lane leaves LOCKDOWN (R151). -/
def exitDue (s : State) : Bool :=
  s.lane.state == .lockdown && s.lane.release && !s.alarm.attack && securingEnded s

/-- The exit (R151): to RECOVERY, to WAKING toward CLOSED, or to CLOSED. A recovery whose moves have all ended ends
before it, so that this one still has a move (DESIGN CHOICE, notes/assumptions/7.md). -/
def leaveLockdown (s : State) : State :=
  let s := modLane (fun l => { l with release := false }) s
  if s.lane.recovery.active then setLaneState .recovery (modLane (fun l => { l with unpowered := false }) s)
  else if s.lane.unpowered then
    setLaneState .waking (modLane (fun l => { l with unpowered := false, power := .warming, target := some .closed }) s)
  else setLaneState .closed s

/-! ### Lane state requests (R188 to R190) -/

/-- The first refusal of R188 that applies to a request for a state. -/
def laneRequestRefused (t : LaneState) (s : State) : Option Reason :=
  let st := s.lane.state
  firstOf
    [(st == .configFault, .configFault), (st == .lockdown, .lockdown), (st == .recovery, .laneState),
     (t != .closed && s.capture.bin != .none, .busy), (t == .night && st == .waking, .busy),
     (t == .night && st != .closed, .laneState), (t == .night && s.peer.held.h > 0, .laneState),
     (st == t && s.lane.pending.isNone && s.lane.target.isNone, .nothing)]

/-- What a request that passes does, as its REPLY carries it (R188): the state entered, made pending, or the WAKING
target set. -/
inductive LaneEffect
  | entered
  | pending
  | target
  deriving DecidableEq, Repr, Inhabited

/-- Positions (DESIGN CHOICE, notes/assumptions/9.md). -/
def laneEffectPos : LaneEffect → Nat
  | .entered => 1 | .pending => 2 | .target => 3

/-- Which of them a request has (R188, R189, R190). A LANE_CLOSE in CLOSED that only clears a pending request finds the
state it names in force, and its REPLY says entered (DESIGN CHOICE, notes/assumptions/24.md). -/
def laneEffect (t : LaneState) (s : State) : LaneEffect :=
  if t == .closed && s.lane.state == .closed && s.lane.pending.isSome then .entered
  else if txnOpen s then .pending
  else if s.lane.state == .waking || s.lane.state == .night then .target
  else if t == .night && !captureIdle s.capture then .pending
  else .entered

/-- NIGHT is entered (R190): the mechanics go off, the windows close and the zero offsets become undefined. -/
def enterNight (s : State) : State :=
  let s := modLane (fun l => { l with power := .off, pending := none }) (closeWindow .q (closeWindow .p s))
  let s := modChan .q (fun c => { c with zero := none }) (modChan .p (fun c => { c with zero := none }) s)
  setLaneState .night s

/-- A request that passes the checks of R188 takes effect. -/
def applyLaneRequest (t : LaneState) (s : State) : State :=
  match laneEffect t s with
  | .pending => modLane (fun l => { l with pending := some t }) s
  | .target =>
      if s.lane.state == .night then
        setLaneState .waking (modLane (fun l => { l with target := some t, power := .warming }) s)
      else modLane (fun l => { l with target := some t }) s
  | .entered =>
      if t == .night then enterNight s
      else if s.lane.state == t then modLane (fun l => { l with pending := none }) s
      else setLaneState t (modLane (fun l => { l with pending := none }) s)

/-- The moment of a pending request has come (R189, R190). -/
def pendingDue (s : State) : Bool :=
  match s.lane.pending with
  | some t => !txnOpen s && (t != .night || captureIdle s.capture)
  | none => false

/-- The pending request is judged again and applied or dropped (R189). -/
def applyPending (s : State) : State :=
  match s.lane.pending with
  | some t =>
      let s := modLane (fun l => { l with pending := none }) s
      if (laneRequestRefused t s).isSome then s else applyLaneRequest t s
  | none => s

end Sys2Proof.Machine
end

