-- ==== Sys2Proof/Machine/StartUp.lean ====
section
/-! DEFINITION. Resets and the start (R185, R186, R191, R193): what every reset clears, what it keeps, the settling of the
retained records (R2, R14, R20), the peers (R116) and zones (R132), the mechanics check and recovery (R187). -/

namespace Sys2Proof.Machine

/-! ### What a reset keeps (R193) -/

/-- A denomination entry keeps its three learned fields (R1, R2). -/
def keepLearned (d : Denom) : Denom := { ref := d.ref, restart := d.restart, basis := d.basis }

/-- A channel keeps its working gain and gain basis (R20). -/
def keepGain (c : Channel) : Channel := { gain := c.gain, gainBasis := c.gainBasis }

/-- The machine at a reset with retention intact: every volatile record at its reset value, every retained one kept. -/
def keepRetained (s : State) : State :=
  { cash := { denoms := s.cash.denoms.map keepLearned, cassettes := s.cash.cassettes, purge := s.cash.purge,
              deposit := s.cash.deposit },
    chP := keepGain s.chP, chQ := keepGain s.chQ,
    capture := { journal := s.capture.journal, lastSeq := s.capture.lastSeq, bundles := s.capture.bundles },
    peer := { kept := s.peer.kept }, fault := s.fault,
    lane := { startCount := (s.lane.startCount + 1) % 65536, cause := s.lane.cause },
    board := s.board, free := s.free, pending := s.pending }

/-- The machine at a reset with retention lost: every record at its initial value (table of R193); what a failed read
then leaves of the figures the configuration gives is a DESIGN CHOICE (notes/assumptions/18.md). -/
def loseRetained (s : State) : State := { board := s.board, free := s.free, pending := s.pending }

/-- The flag of the reset's kind is set and the kind written as the last (R191). -/
def noteCause (k : ResetKind) (c : ResetCause) : ResetCause :=
  match k with
  | .powerOn => { c with powerOn := true, last := .powerOn }
  | .supplyDip => { c with supplyDip := true, last := .supplyDip }
  | .resetLine => { c with resetLine := true, last := .resetLine }
  | .commanded => { c with commanded := true, last := .commanded }
  | .backupLost => { c with backupLost := true, last := .backupLost }

/-! ### Settling (R2, R14, R20) -/

/-- A configured denomination with what it has learned (R1, R2). -/
def settleDenom (lost : Bool) (new old : Denom) : Denom :=
  if lost || new.nomThick != old.basis then { new with ref := new.nomThick, restart := 0, basis := new.nomThick }
  else { new with ref := old.ref, restart := old.restart, basis := old.basis }

/-- A channel's gain against the configuration (R20). -/
def settleGain (lost : Bool) (g : Nat) (c : Channel) : Channel :=
  if lost || g != c.gainBasis then { c with gain := g, gainBasis := g } else c

/-- A loaded cassette no longer fits the configuration (R14, step 4). -/
def misfits (s : State) (c : Cassette) : Bool :=
  (serves c || c.st == .empty || c.st == .suspect) &&
    match c.denom with
    | some d => !(denomAt s d).used || c.face != some (denomAt s d).face
    | none => false

/-- Cassette C`i+1` at a start with retention intact (R14). -/
def settleCassette (setpoint : Nat) (i : Nat) (s : State) : State :=
  let s := modCassette i (fun c => { c with misses := 0, setpoint := setpoint }) s
  let s :=
    if !seated s i then removeCassette i s
    else if (cassetteAt s i).st == .removed then modCassette i clearedCassette s
    else s
  if misfits s (cassetteAt s i) then
    raiseHard .cassetteSuspect .none (some (.cassette i)) none (modCassette i (fun c => { c with st := .suspect }) s)
  else followCount i s

/-- The four cassettes at a start (R14), one after the other from C1 to C4, each through all its steps (DESIGN CHOICE,
notes/assumptions/26.md). -/
def settleCassettes (lost : Bool) (setpoints : List Nat) (s : State) : State :=
  [0, 1, 2, 3].foldl
    (fun t i =>
      if lost then modCassette i (fun c => { c with setpoint := countAt setpoints i }) t
      else settleCassette (countAt setpoints i) i t) s

/-- The peer view at a start (R116). -/
def startPeers (c : Configuration) (station : Nat) : List PeerEntry :=
  (List.range 31).map fun n =>
    if c.expected.testBit n && n != station then { kind := some .lane, status := .awaited, cap := c.defaultPeerCap }
    else { cap := c.defaultPeerCap }

/-- A good read is taken (R1, R186): configuration, denominations, gains, zones and peers, then the cassettes; the
mechanics are then powered (R185, step 6). -/
def takeConfiguration (lost : Bool) (x : ImageItems) (s : State) : State :=
  let s := if x.clamped then raiseSoft .configClamped .none none none s else s
  let s :=
    { s with
        config := x.config,
        chP := settleGain lost x.config.gainP s.chP,
        chQ := settleGain lost x.config.gainQ s.chQ,
        peer := { s.peer with entries := startPeers x.config s.lane.station },
        alarm := { s.alarm with zones := x.zones.map fun z => { type := z.1, report := z.2 } } }
  let s := modCash
    (fun u => { u with denoms := (x.denoms.zip u.denoms).map fun p => settleDenom lost p.1 p.2 }) s
  modLane (fun l => { l with power := .warming }) (settleCassettes lost x.setpoints s)

/-- STARTING from a reset of a kind, up to the mechanics check (R185, steps 1 to 5): the board shows whether retention
is intact, the straps, the configuration memory and the switches. -/
def restart (k : ResetKind) (s : State) : State :=
  let lost := !s.board.retentionOk
  let s := if lost then loseRetained s else keepRetained s
  let s := modLane (fun l => { l with station := s.board.straps,
                                      cause := if lost then l.cause else noteCause k l.cause }) s
  let s := if lost then raiseHard .retentionLost .none none none s else s
  match readConfiguration s.board with
  | none => setLaneState .configFault s
  | some x => takeConfiguration lost x s

/-! ### Recovery (R187) -/

/-- The stacker purge of a recovery is admitted or refused for room (R16, R187), reckoned at 40 notes. -/
def tryRecoveryPurge (s : State) : State :=
  if trayHasRoom 40 s then modRecovery (fun x => { x with stacker := .running }) s
  else modRecovery (fun x => { x with stacker := .noRoom }) (trayNoRoom .recovery s)

/-- The pocket retract of a recovery (R187). -/
def recoveryRetract (escrow : Bool) (s : State) : State :=
  let h := s.peer.held
  let s := modRecovery (fun x => { x with pocket := .running }) s
  if h.dispense > 0 then requestRetract .recovery .dispense none 40 h.dispense s
  else requestRetract .recovery .depositReturn none 60 (if escrow then 0 else h.deposit) s

/-- The escrow stacking of a recovery runs on the throat transport, as every stacking does (R86, R187), or has ended. -/
def runRecoveryStacking (runs : Bool) (s : State) : State :=
  modDrives (fun d => { d with throatTransport := runs })
    (modRecovery (fun x => { x with escrow := if runs then .running else .none }) s)

/-- The moves whose sensor reads occupied start (R187): the stacker's, the pocket's, the escrow's, in the order in which
the rule describes them, so that a PURGE_FULL comes before a RETRACT_BLOCKED (DESIGN CHOICE,
notes/assumptions/26.md). -/
def startRecovery (x : StartSensors) (s : State) : State :=
  let value := if x.pocket then 0 else s.peer.held.dispense
  let s := modRecovery (fun _ => { active := true, stackerValue := value }) s
  let s := if x.stacker then tryRecoveryPurge s else s
  let s := if x.pocket then recoveryRetract x.escrow s else s
  if x.escrow then runRecoveryStacking true s else s

/-- All the started moves have ended (R187). -/
def recoveryDue (s : State) : Bool :=
  let x := s.lane.recovery
  (s.lane.state == .recovery || s.lane.state == .lockdown) && x.active && x.stacker == .none && x.pocket == .none &&
    x.escrow == .none

/-- Recovery ends (R114, R148, R187); in LOCKDOWN the lane stays there. -/
def endRecovery (s : State) : State :=
  let s := heldFell (setHeld {} (modRecovery (fun _ => {}) s))
  if s.lane.state == .recovery then setLaneState .closed s else s

/-- The mechanics check and the end of STARTING (R112, R114, R185, steps 6 and 7). -/
def leaveStarting (x : StartSensors) (s : State) : State :=
  let s := captureCheck x.capture (modLane (fun l => { l with power := .on }) s)
  if s.peer.kept.h > 0 || x.stacker || x.pocket || x.escrow then
    startRecovery x (setLaneState .recovery (modPeer (fun p => { p with held := p.kept }) s))
  else setLaneState .closed (setHeld {} s)

/-! ### The end of every step -/

/-- The board of a reset at a row that shows none: the supply stands, so that retention is intact (R193); the straps and
the switches are as last shown; what the configuration memory then gives is a free value (DESIGN CHOICE,
notes/assumptions/22.md). -/
def unseenBoard (s : State) : Board := { s.board with retentionOk := true, image := Config.freeImage s.free }

/-- A reset is made when the APPROVAL_CLOSED of an approved RESET_LANE has ended (R192): here, when it was dropped
from a full queue (R178). -/
def finish (s : State) : State :=
  if s.lane.resetDue then restart .commanded (drawFree { s with board := unseenBoard s }) else s

/-- What falls due before a command is taken (R108, R151, R187, R189): each is its own step of the table, made here when
it has not come before (DEDUCED, notes/assumptions/7.md). -/
def settleDue (s : State) : State :=
  let s := if binOpenDue s then openBin s else s
  let s := if recoveryDue s then endRecovery s else s
  let s := if exitDue s then leaveLockdown s else s
  if pendingDue s then applyPending s else s

end Sys2Proof.Machine
end

