-- ==== Sys2Proof/Machine/AlarmEvents.lean ====
section
/-! DEFINITION. The alarm loops and the wall alarm line (R66, R132 to R142): the 10 ms scan, the changes it makes due,
and the integrator. -/

namespace Sys2Proof.Machine

/-! ### One zone -/

/-- The integration count of a type (section 7.1); an UNUSED zone has none. -/
def integration : ZoneType → Nat
  | .duress => 3 | .attack => 2 | .door => 5 | .bin => 5 | .vehicle => 20 | .unused => 0

/-- The band of a reading (section 7.2). -/
def bandOf (r : Nat) : Band := if r < 100 then .short else if r < 400 then .normal else if r < 800 then .active else .opened

/-- The observation of a band (R133); `none` is trouble. -/
def observe (t : ZoneType) (b : Band) : Option ZoneState :=
  match b, t with
  | .normal, _ => some .quiet
  | .active, _ => some .active
  | .short, .attack | .opened, .attack => some .active
  | .short, _ | .opened, _ => none

/-- A trouble observation (R135). -/
def troubleZone (z : Zone) : Zone :=
  { z with trouble := true, frozen := true, restore := 0, hold := 0, candidate := none, count := 0 }

/-- An in-band observation (R134, R136). -/
def inBandZone (o : ZoneState) (z : Zone) : Zone :=
  let z := if z.candidate == some o then { z with count := min (integration z.type) (z.count + 1) }
    else { z with candidate := some o, count := 1 }
  if z.trouble then { z with restore := min (integration z.type) (z.restore + 1) }
  else if z.frozen then { z with hold := min 50 (z.hold + 1) }
  else z

/-- One scan of a zone (R133); an UNUSED zone is not scanned (R132). -/
def scanZone (r : Nat) (z : Zone) : Zone :=
  if z.type == .unused then z
  else
    let z := { z with band := some (bandOf r) }
    match observe z.type (bandOf r) with
    | none => troubleZone z
    | some o => inBandZone o z

/-- The restore count has reached the integration count (R136). -/
def troubleDue (z : Zone) : Bool := z.trouble && integration z.type ≤ z.restore

/-- The hold count has reached 50 (R136). -/
def restoredDue (z : Zone) : Bool := z.frozen && !z.trouble && 50 ≤ z.hold

/-- The candidate has reached the integration count and differs from the integrated state (R134). -/
def changeDue (z : Zone) : Bool :=
  z.type != .unused && !z.frozen && integration z.type ≤ z.count &&
    match z.candidate with
    | some c => c != z.state
    | none => false

/-! ### The zone table -/

/-- The record of Z`i+1`. -/
def zoneAt (s : State) (i : Nat) : Zone := s.alarm.zones.getD i {}

/-- Change the record of Z`i+1`. -/
def modZone (i : Nat) (f : Zone → Zone) (s : State) : State :=
  modAlarm (fun a => { a with zones := modifyAt a.zones i f }) s

/-- A vehicle departs (R66): an open shutter over an occupied pocket has its take time cut to 5 s. -/
def vehicleDeparts (pocketOccupied : Bool) (s : State) : State :=
  if pocketOccupied && s.drives.pocketShutter then
    let cut := fun (t : Option Nat) => t.map (min 5000)
    modDisp (fun d => { d with takeMs := cut d.takeMs })
      (modDep (fun d => { d with takeMs := cut d.takeMs }) (modCal (fun k => { k with takeMs := cut k.takeMs }) s))
  else s

/-- The latch a change to ACTIVE sets, if it is clear (R137, step 2; R140). -/
def latchFor (a : Alarm) (t : ZoneType) (new : ZoneState) : Option Latch :=
  match t, new with
  | .duress, .active => if a.duress then none else some .duress
  | .attack, .active => if a.attack then none else some .attack
  | _, _ => none

/-- A latch is set. -/
def setLatch (l : Latch) (s : State) : State :=
  match l with
  | .duress => modAlarm (fun a => { a with duress := true }) s
  | .attack => modAlarm (fun a => { a with attack := true }) s

/-- The content of a report (R137, 12.2). -/
def zoneReport (i : Nat) (t : ZoneType) (new : ZoneState) (a : Alarm) : List Byte :=
  be 1 (i + 1) ++ be 1 (zoneTypePos t) ++ be 1 (zoneStatePos new) ++ beFlag a.duress ++ beFlag a.attack ++
    be 1 (summaryPos (alarmSummary a))

/-- A change is reported (R137): not the settling from UNKNOWN to QUIET, and not a BIN zone in an open bin service. -/
def isReported (s : State) (z : Zone) (new : ZoneState) : Bool :=
  z.report && !(z.state == .unknown && new == .quiet) && !(z.type == .bin && s.capture.bin == .opened)

/-- The report of a change to all stations (R137). -/
def reportZone (i : Nat) (z : Zone) (new : ZoneState) (s : State) : State :=
  if isReported s z new then
    let content := zoneReport i z.type new s.alarm
    if z.type == .vehicle then noticeAll .vehicleChange content s
    else report .alarm (.zone z.type) 31 false .nobody content s
  else s

/-- A change of the integrated state of Z`i+1` (R137): flag, latch, report, effects. -/
def changeZone (i : Nat) (new : ZoneState) (pocketOccupied : Bool) (s : State) : State :=
  let z := zoneAt s i
  let latch := latchFor s.alarm z.type new
  let s := modZone i (fun z => { z with state := new, changed := true }) s
  let s := match latch with
    | some l => setLatch l s
    | none => s
  let s := reportZone i z new s
  let s := match latch with
    | some l => latchEffects l s
    | none => s
  if z.type == .vehicle && z.state == .active && new == .quiet then vehicleDeparts pocketOccupied s else s

/-- The change of Z`i+1`, if one is due (R134). -/
def changeIfDue (i : Nat) (pocketOccupied : Bool) (s : State) : State :=
  let z := zoneAt s i
  if changeDue z then
    match z.candidate with
    | some c => changeZone i c pocketOccupied s
    | none => s
  else s

/-- The trouble flag of Z`i+1` clears and the hold begins, if it is due (R136). -/
def clearTrouble (i : Nat) (s : State) : State :=
  if troubleDue (zoneAt s i) then modZone i (fun z => { z with trouble := false, hold := 0 }) s else s

/-- The hold of Z`i+1` ends, if it is due (R136): the zone unfreezes with its notice, then R134 is applied. -/
def restoreZone (i : Nat) (pocketOccupied : Bool) (s : State) : State :=
  let z := zoneAt s i
  if restoredDue z then
    changeIfDue i pocketOccupied
      (noticeAll .zoneRestored (be 1 (i + 1) ++ be 1 (zoneTypePos z.type) ++ be 1 (zoneStatePos z.state))
        (modZone i (fun z => { z with frozen := false }) s))
  else s

/-- A zone number becomes its index; numbers outside Z1 to Z12 name none. -/
def withZone (zone : Nat) (f : Nat → State → State) (s : State) : State :=
  if 1 ≤ zone && zone ≤ 12 then f (zone - 1) s else s

/-- ZONE_CHANGE: a change that closes a measurement window (R147) finds the window's samples taken (R21). -/
def execZoneChange (zone : Nat) (pocketOccupied : Bool) (s : State) (raws : List Nat := []) :
    Host.Outcome State Fault Refusal :=
  .next (finish (withZone zone (fun i => changeIfDue i pocketOccupied) (takeOpenSamples raws s)))

/-- TROUBLE_CLEARED. -/
def execTroubleCleared (zone : Nat) (s : State) : Host.Outcome State Fault Refusal :=
  .next (withZone zone clearTrouble s)

/-- ZONE_RESTORED: its change, if one follows, finds the samples of an open window taken (R21). -/
def execZoneRestored (zone : Nat) (pocketOccupied : Bool) (s : State) (raws : List Nat := []) :
    Host.Outcome State Fault Refusal :=
  .next (finish (withZone zone (fun i => restoreZone i pocketOccupied) (takeOpenSamples raws s)))

/-! ### The wall alarm line (R142) -/

/-- The fifth consecutive asserted scan has been read. -/
def recogniseDue (a : Alarm) : Bool := !a.recognised && 5 ≤ a.asserted

/-- The fiftieth consecutive deasserted scan has been read. -/
def releaseDue (a : Alarm) : Bool := a.recognised && 50 ≤ a.released

/-- The integrator becomes recognised, if it is due. -/
def recogniseLine (s : State) : State :=
  if recogniseDue s.alarm then modAlarm (fun a => { a with recognised := true, asserted := 0, released := 0 }) s else s

/-- The integrator becomes released, if it is due. -/
def releaseLine (s : State) : State :=
  if releaseDue s.alarm then modAlarm (fun a => { a with recognised := false, asserted := 0, released := 0 }) s else s

/-- WALL_LINE_RECOGNISED. -/
def execWallLineRecognised (s : State) : Host.Outcome State Fault Refusal := .next (recogniseLine s)

/-- WALL_LINE_RELEASED. -/
def execWallLineReleased (s : State) : Host.Outcome State Fault Refusal := .next (releaseLine s)

/-- One reading of the line (R142); it is wired-OR, so that a lane that drives it reads it asserted whatever the others
do (R141). -/
def readLine (others : Bool) (a : Alarm) : Alarm :=
  let asserted := others || a.drive
  if a.recognised then { a with released := if asserted then 0 else min 50 (a.released + 1) }
  else { a with asserted := if asserted then min 5 (a.asserted + 1) else 0 }

/-! ### The scan -/

/-- What an earlier scan left due at Z`i+1` and no step of its own has made yet (DESIGN CHOICE,
notes/assumptions/3.md). -/
def settleZone (s : State) (i : Nat) : State := changeIfDue i true (restoreZone i true (clearTrouble i s))

/-- Z`i+1` is scanned (R133); the first trouble observation queues ZONE_TROUBLE (R135). -/
def scanAt (readings : List Nat) (s : State) (i : Nat) : State :=
  let z := zoneAt s i
  let z' := scanZone (readings.getD i 0) z
  let t := modZone i (fun _ => z') s
  if z'.trouble && !z.frozen then
    noticeAll .zoneTrouble
      (be 1 (i + 1) ++ be 1 (zoneTypePos z.type) ++ beOpt 1 (z'.band.map bandPos) ++ be 1 (zoneStatePos z.state)) t
  else t

/-- One scan (R132, R133, R142); none is made before the end of STARTING. Its zones are taken in their order, Z1 to Z12,
and so are their notices (DESIGN CHOICE, notes/assumptions/3.md). -/
def scan (readings : List Nat) (asserted : Bool) (raws : List Nat) (s : State) : State :=
  if s.lane.state == .starting then s
  else
    let s := releaseLine (recogniseLine ((List.range 12).foldl settleZone (takeOpenSamples raws s)))
    modAlarm (readLine asserted) ((List.range 12).foldl (scanAt readings) s)

/-- ZONE_SCAN. -/
def execZoneScan (readings : List Nat) (asserted : Bool) (s : State) (raws : List Nat := []) :
    Host.Outcome State Fault Refusal :=
  .next (finish (scan readings asserted raws s))

end Sys2Proof.Machine
end

