-- ==== Sys2Proof/Machine/BusEvents.lean ====
section
/-! DEFINITION. What happens on the wall bus: frames of other stations (R117 to R123, R131, R139, R160, R179) and the
transmissions of the lane's own (R125, R128, R174, R177, R182, R192). -/

namespace Sys2Proof.Machine

/-! ### Frames of other stations -/

/-- An ignored answer raises UNEXPECTED_ANSWER with the sender named (R160). -/
def unexpectedAnswer (src : Nat) (s : State) : State := raiseSoft .unexpectedAnswer .none none (some src) s

/-- An answer to this lane, judged by the first line of R160 that applies; verdict 1 is GIVE and 2 is DENY (12.2). -/
def judgeAnswer (src slot ask verdict kind amount : Nat) (s : State) : State :=
  let x := s.approval.slots.getD slot {}
  if (peerEntry s src).kind == some .lane then unexpectedAnswer src s
  else if (verdict != 1 && verdict != 2) || 3 < slot then unexpectedAnswer src s
  else match x.kind with
    | none => unexpectedAnswer src s
    | some k =>
        if x.ask != ask || opKindPos k != kind || x.amount != some amount then unexpectedAnswer src s
        else if x.requester == some src then raiseSoft .selfApproval .none none (some src) s
        else settleAndTell slot (if verdict == 1 then .given src else .denied src) s

/-- An answer with its frame: the peer view has the frame first (R160). One addressed to a lane strapped 31 is addressed
to 31, and is not judged (R160, R179). -/
def takeAnswer (src slot ask verdict kind amount : Nat) (s : State) : State :=
  let t := applyFrame src .console false id s
  if s.lane.station == 31 then t else judgeAnswer src slot ask verdict kind amount t

/-- APPROVAL_ANSWER. -/
def execApprovalAnswer (src slot ask verdict kind amount : Nat) (s : State) : Host.Outcome State Fault Refusal :=
  .next (finish (receive src (takeAnswer src slot ask verdict kind amount) s))

/-- What a POSITION sets in its entry (R121). -/
def positionEntry (p : PositionFigures) (e : PeerEntry) : PeerEntry :=
  { e with held := p.held, cap := p.cap, laneState := some p.laneState, announced := some p.held,
           summary := p.summary, vehicle := some p.vehicle, slots := some p.slots, known := true }

/-- PEER_POSITION. -/
def execPeerPosition (src : Nat) (p : PositionFigures) (s : State) : Host.Outcome State Fault Refusal :=
  .next (finish (receive src (applyFrame src .lane true (positionEntry p)) s))

/-- What an INTENT adds to its entry (R122). -/
def intentEntry (amount : Nat) (e : PeerEntry) : PeerEntry := { e with held := sat24 (e.held + amount) }

/-- PEER_INTENT. -/
def execPeerIntent (src amount : Nat) (s : State) : Host.Outcome State Fault Refusal :=
  .next (finish (receive src (applyFrame src .lane false (intentEntry amount)) s))

/-- PEER_ALARM: the summary is handed on for the lane's own number and for all stations (R139, R179). -/
def execPeerAlarm (src dst : Nat) (summary : AlarmSummary) (s : State) : Host.Outcome State Fault Refusal :=
  .next (finish (receive src
    (applyFrame src .lane false fun e =>
      if dst == 31 || dst == s.lane.station then { e with summary := summary } else e) s))

/-- PEER_FRAME. -/
def execPeerFrame (src : Nat) (f : OtherFrame) (s : State) : Host.Outcome State Fault Refusal :=
  .next (finish (receive src (applyFrame src (showsKind f) false id) s))

/-- DUPLICATE_STATION: not before the lane takes part (R176), and a lane strapped 31 has no number of its own (12.4). -/
def execDuplicateStation (s : State) : Host.Outcome State Fault Refusal :=
  .next (finish (if !takesPart s || s.lane.station == 31 then s else foundDuplicate s))

/-- FRAME_COMPLAINED: no block of any lane acts on it (R123, R175). -/
def execFrameComplained (s : State) : Host.Outcome State Fault Refusal := .next s

/-! ### The lane's own transmissions -/

/-- The entry on the medium. -/
def onMedium (s : State) : Option TxEntry := s.bus.queue.find? (·.inTx)

/-- It leaves the queue. -/
def dropOnMedium (s : State) : State := modBus (fun b => { b with queue := b.queue.eraseP (·.inTx) }) s

/-- The next segment of the reply buffer's series is queued, or the buffer returns to idle (R182). -/
def nextSegment (s : State) : State :=
  match s.bus.series with
  | none => s
  | some x =>
      match x.rest with
      | [] => modBus (fun b => { b with series := none }) s
      | p :: rest =>
          enqueue { frame := plainFrame .reply x.dst p.1 false (.reply .query) x.tag p.2, owner := .querySegment }
            (modBus (fun b => { b with series := some { x with rest := rest } }) s)

/-- The owner is told of a clean completion (R175, R177, R192). -/
def tellCompleted (e : TxEntry) (s : State) : State :=
  match e.owner with
  | .intent => if e.orphan then orphanCompletion s else decideIntent e.carried s
  | .querySegment => nextSegment s
  | .resetNotice => modLane (fun l => { l with resetDue := true }) s
  | .nobody | .position | .ask _ => s

/-- The entry on the medium completes cleanly, if it is one that `p` means (R177). -/
def completeOwn (p : TxEntry → Bool) (s : State) : State :=
  match onMedium s with
  | some e => if p e then tellCompleted e (dropOnMedium s) else s
  | none => s

/-- The end of a step that shows the lane board: the reset that falls due (R192) reads it (R185). -/
def finishWith (b : Board) (s : State) : State :=
  if s.lane.resetDue then restart .commanded { s with board := b } else s

/-- INTENT_COMPLETION. -/
def execIntentCompletion (s : State) : Host.Outcome State Fault Refusal :=
  .next (finish (completeOwn (fun e => e.owner == .intent) s))

/-- OWN_FRAME_COMPLETED. -/
def execOwnFrameCompleted (b : Board) (s : State) : Host.Outcome State Fault Refusal :=
  .next (finishWith b (completeOwn (fun _ => true) s))

/-- QUERY_SEGMENT_COMPLETED. -/
def execQuerySegmentCompleted (s : State) : Host.Outcome State Fault Refusal :=
  .next (finish (completeOwn (fun e => e.owner == .querySegment) s))

/-- A POSITION that waits for an idle point. -/
def isPendingPosition (e : TxEntry) : Bool := isPending e && e.owner == .position

/-- The queue with its first pending POSITION only: at most one is pending, and it satisfies every request (R130,
R177). -/
def onePosition : List TxEntry → List TxEntry
  | [] => []
  | e :: l => if isPendingPosition e then e :: l.filter (fun x => !isPendingPosition x) else e :: onePosition l

/-- The entry on the medium is pending again, changed by `f`. A POSITION asked for in the meantime is the same request
as one that is pending again: the older stays, with its place and its count (DEDUCED, notes/assumptions/17.md). -/
def requeue (f : TxEntry → TxEntry) (s : State) : State :=
  modBus
    (fun b =>
      { b with queue := onePosition (b.queue.map fun e => if e.inTx then f { e with inTx := false } else e) }) s

/-- The transmission on the medium is complained (R177): the fourth discards the frame; before it the frame is pending
again, but for the INTENT of a withdrawn request, which leaves the queue (R128). -/
def complainOwn (s : State) : State :=
  match onMedium s with
  | none => s
  | some e =>
      if e.complaints + 1 ≥ 4 then
        frameLost e
          (raiseSoft .busComplained .none none (if e.frame.dst ≤ 30 then some e.frame.dst else none) (dropOnMedium s))
      else if e.orphan then modPeer (fun p => { p with orphan := false }) (dropOnMedium s)
      else requeue (fun e => { e with complaints := e.complaints + 1 }) s

/-- TRANSMISSION_COMPLAINED. -/
def execTransmissionComplained (b : Board) (s : State) : Host.Outcome State Fault Refusal :=
  .next (finishWith b (complainOwn s))

/-- Arbitration is lost (R174, R177): the frame is pending again, but for the INTENT of a withdrawn request (R128). -/
def loseArbitration (s : State) : State :=
  match onMedium s with
  | none => s
  | some e => if e.orphan then modPeer (fun p => { p with orphan := false }) (dropOnMedium s) else requeue id s

/-- ARBITRATION_LOST. -/
def execArbitrationLost (s : State) : Host.Outcome State Fault Refusal := .next (loseArbitration s)

/-- The strongest class among the pending frames, as its number (R177). -/
def strongestPending (q : List TxEntry) : Nat :=
  (q.filter isPending).foldl (fun m e => min m (classNum e.frame.cls)) 7

/-- A frame at the start of its transmission: a POSITION and an INTENT are filled now (R124, R129). -/
def fillFrame (s : State) (e : TxEntry) : TxEntry :=
  match e.owner with
  | .position => { e with inTx := true, frame := { e.frame with payload := positionPayload s } }
  | .intent =>
      let a := (s.peer.request.map (·.amount)).getD 0
      { e with inTx := true, carried := a, frame := { e.frame with payload := be 3 a } }
  | .nobody | .ask _ | .querySegment | .resetNotice => { e with inTx := true }

/-- The first entry for which `p` holds is changed by `f`. -/
def modFirst {α : Type} (p : α → Bool) (f : α → α) : List α → List α
  | [] => []
  | a :: l => if p a then f a :: l else a :: modFirst p f l

/-- An idle point (R176, R177): from the first after STARTING the lane takes part, and the strongest and oldest pending
frame is offered, unless the lane has a frame on the medium. -/
def offerFrame (s : State) : State :=
  if s.lane.state == .starting || (onMedium s).isSome then s
  else
    let q := modFirst (pendingOfClass (strongestPending s.bus.queue)) (fillFrame s) s.bus.queue
    modBus (fun b => { b with queue := q, part := true }) s

/-- IDLE_POINT. -/
def execIdlePoint (s : State) : Host.Outcome State Fault Refusal := .next (offerFrame s)

end Sys2Proof.Machine
end

