-- ==== Sys2Proof/Machine/EnvelopeEvents.lean ====
section
/-! DEFINITION. The capture path (R94, R98 to R104, R108). -/

namespace Sys2Proof.Machine

/-- Change the envelope in the transport. -/
def modEnvelope (f : EnvelopeMove → EnvelopeMove) (s : State) : State :=
  modCapture (fun c => { c with envelope := c.envelope.map f }) s

/-- The envelope in the transport is in a stage and not yet refused. -/
def inStage (st : EnvelopeStage) (s : State) : Bool :=
  match s.capture.envelope with
  | some m => m.stage == st && m.refusal.isNone
  | none => false

/-- An envelope arrives at the slot (R99): the shutter closes behind it and the arbiter decides. -/
def envelopeArrives (s : State) : State :=
  let c := s.capture
  if c.shutter && !c.waiting && !c.returned then
    arbitrate (reshutter (modCapture (fun c => { c with waiting := true }) s))
  else s

/-- ENVELOPE_ARRIVAL. -/
def execEnvelopeArrival (s : State) : Host.Outcome State Fault Refusal := .next (finish (envelopeArrives s))

/-- ENVELOPE_WITHDRAWN (R99). -/
def execEnvelopeWithdrawn (s : State) : Host.Outcome State Fault Refusal :=
  .next (if s.capture.waiting then reshutter (modCapture (fun c => { c with waiting := false }) s) else s)

/-- ENVELOPE_CLEARS_SLOT (R100). -/
def execEnvelopeClearsSlot (s : State) : Host.Outcome State Fault Refusal :=
  .next (if s.capture.envelope.isSome then reshutter (modEnvelope (fun m => { m with cleared := true }) s) else s)

/-- LENGTH_SENSOR_REACHED (R104). -/
def execLengthSensorReached (s : State) : Host.Outcome State Fault Refusal :=
  .next (if inStage .drawingIn s then modEnvelope (fun m => { m with stage := .measuring }) s else s)

/-- An envelope is refused (R100, R101): it is reversed, and keeps the length counted when it was decided. -/
def refuseEnvelope (why : EnvelopeRefusal) (mm : Nat) (s : State) : State :=
  modEnvelope (fun m => { m with stage := .reversing, refusal := some why, mm := mm }) s

/-- The length of the envelope has been decided. -/
def lengthPassed (s : State) : Bool := s.capture.envelope.any fun m => m.passed

/-- ENVELOPE_TOO_LONG (R100). -/
def execEnvelopeTooLong (s : State) : Host.Outcome State Fault Refusal :=
  .next (if inStage .measuring s && !lengthPassed s then refuseEnvelope .length 261 s else s)

/-- The trailing edge leaves the length sensor (R100). -/
def measureEnvelope (mm : Nat) (s : State) : State :=
  if inStage .measuring s && !lengthPassed s then
    if 140 ≤ mm && mm ≤ 260 then modEnvelope (fun m => { m with passed := true, mm := mm }) s
    else refuseEnvelope .length mm s
  else s

/-- LENGTH_MEASURED. -/
def execLengthMeasured (mm : Nat) (s : State) : Host.Outcome State Fault Refusal := .next (measureEnvelope mm s)

/-- The thickness switch trips (R100): it takes precedence over a passed length and over one still being counted. -/
def tripThickness (mm : Nat) (s : State) : State :=
  if inStage .measuring s then
    let counted := match s.capture.envelope with
      | some m => if m.passed then m.mm else mm
      | none => mm
    refuseEnvelope .thick counted s
  else s

/-- THICKNESS_TRIP. -/
def execThicknessTrip (mm : Nat) (s : State) : Host.Outcome State Fault Refusal := .next (tripThickness mm s)

/-- The next sequence number (R102). -/
def nextSeq (n : Nat) : Nat := if n ≥ 16777215 then 1 else n + 1

/-- Printing begins (R102): the number is consumed. -/
def startImprint (s : State) : State :=
  if inStage .measuring s && lengthPassed s then
    let n := nextSeq s.capture.lastSeq
    modEnvelope (fun m => { m with stage := .imprinting, seq := some n }) (modCapture (fun c => { c with lastSeq := n }) s)
  else s

/-- IMPRINT_START. -/
def execImprintStart (s : State) : Host.Outcome State Fault Refusal := .next (startImprint s)

/-- The envelope drops (R103): the journal entry, the shift totals, the notice, then the arbiter and the shutter. -/
def dropEnvelope (m : EnvelopeMove) (n : Nat) (s : State) : State :=
  let entry : JournalEntry :=
    { seq := n, startCount := s.lane.startCount, laneTime := laneTime s, length := m.mm, bound := s.approval.bound }
  let s := modCapture (fun c => { c with journal := c.journal ++ [entry], transport := .idle, envelope := none }) s
  let s := noticeAll .envelopeCaptured (be 3 n ++ be 2 m.mm ++ beOpt 1 s.approval.bound)
    (modShift (fun t => { t with envelopes := sat16 (t.envelopes + 1) }) s)
  reshutter (arbitrate s)

/-- The drop sensor sees the envelope that was printed (R103). -/
def envelopeDrops (s : State) : State :=
  match s.capture.envelope with
  | some m =>
      match m.stage, m.seq with
      | .imprinting, some n => dropEnvelope m n s
      | _, _ => s
  | none => s

/-- ENVELOPE_DROP. -/
def execEnvelopeDrop (s : State) : Host.Outcome State Fault Refusal := .next (finish (envelopeDrops s))

/-- A refused envelope is back at the slot (R101). -/
def envelopeReversed (s : State) : State :=
  match s.capture.envelope with
  | some m =>
      match m.stage, m.refusal with
      | .reversing, some why =>
          let s := modCapture (fun c => { c with transport := .idle, envelope := none, returned := true }) s
          let s := noticeAll .envelopeRefused
            (be 1 (envelopeRefusalPos why) ++ be 2 m.mm ++ beOpt 1 s.approval.bound) s
          reshutter (arbitrate s)
      | _, _ => s
  | none => s

/-- ENVELOPE_REVERSAL_END. -/
def execEnvelopeReversalEnd (s : State) : Host.Outcome State Fault Refusal := .next (finish (envelopeReversed s))

/-- RETURNED_ENVELOPE_CLEARED (R101). -/
def execReturnedEnvelopeCleared (s : State) : Host.Outcome State Fault Refusal :=
  .next (if s.capture.returned then reshutter (modCapture (fun c => { c with returned := false }) s) else s)

/-- BIN_SERVICE_OPENED (R108). -/
def execBinServiceOpened (s : State) : Host.Outcome State Fault Refusal :=
  .next (finish (if binOpenDue s then openBin s else s))

end Sys2Proof.Machine
end

