-- ==== Sys2Proof/Machine/JamEvents.lean ====
section
/-! DEFINITION. The jams (R36, R41, R42, R54, R59, R62, R64, R70, R78, R90, R97, R104, R187) and the end of WAKING
(R190). -/

namespace Sys2Proof.Machine

/-! ### Zero captures -/

/-- A zero capture on channel P stalls (R36, R41, R54). -/
def stallP (s : State) : State :=
  if s.cal.phase == .zeroCapture && s.cal.channel == .p then
    endCal .jam (jamDispenser .calibrate none (stopCal s))
  else if s.disp.st == .zeroCapture then
    endDispense .jam (jamDispenser .dispense s.disp.lastCassette (abandonCaptureP s))
  else s

/-- A zero capture on channel Q stalls (R36, R42, R78). -/
def stallQ (s : State) : State :=
  if s.cal.phase == .zeroCapture && s.cal.channel == .q then endCal .jam (jamThroat .calibrate (stopCal s))
  else if s.dep.st == .zeroCapture then endDeposit .jam (jamThroat .deposit (abandonCaptureQ s))
  else s

/-- ZERO_CAPTURE_STALL. -/
def execZeroCaptureStall (ch : ChannelId) (s : State) : Host.Outcome State Fault Refusal :=
  .next (finish (match ch with
    | .p => stallP s
    | .q => stallQ s))

/-! ### The dispenser -/

/-- A picked note has not cleared channel P or reached the stacker (R59). -/
def noteInPick (d : Dispense) : Bool :=
  d.st == .picking && (d.pick == .running || d.pick == .toStacker || d.pick == .tail)

/-- A calibration's note has not cleared channel P (R41). -/
def noteInCalP (k : Calibration) : Bool := k.channel == .p && (k.phase == .running || k.phase == .tail)

/-- A picked note jams (R41, R59): the samples since the last step close the window's last gap. A stop decided earlier
stands over JAM (R69, R70; DEDUCED, notes/assumptions/11.md). A calibration's note that lockdown met before its
classification ends LOCKDOWN where it then jams unclassified; one cut off, whose outcome CAL_FAILED or LOCKDOWN is
already decided, ends JAM where it jams in its tail (DEDUCED, notes/assumptions/15.md). -/
def jamPick (raws : List Nat) (s : State) : State :=
  let t := takeSamples .p raws s
  if noteInPick s.disp then
    enterPurging (s.disp.stop.getD .jam)
      (jamDispenser .dispense s.disp.lastCassette (closeWindow .p (stopPickTransport t)))
  else if noteInCalP s.cal then
    endCal (if s.cal.locked && s.cal.phase == .running then .lockdown else .jam)
      (jamDispenser .calibrate (some s.cal.cassette) (stopCal t))
  else s

/-- PICK_JAM. -/
def execPickJam (s : State) (raws : List Nat := []) : Host.Outcome State Fault Refusal :=
  .next (finish (jamPick raws s))

/-- A stacker movement jams (R62, R64, R70): the dispenser is marked and the dispense stranded. -/
def jamStacker (o : DispOutcome) (s : State) : State :=
  strandDispense o (jamDispenser .dispense s.disp.lastCassette s)

/-- STACKER_PURGE_JAM (R62): the outcome already decided stands. -/
def execStackerPurgeJam (s : State) : Host.Outcome State Fault Refusal :=
  .next (finish (if s.disp.move == .purge then jamStacker (s.disp.decided.getD .jam) s else s))

/-- PRESENT_JAM (R64). -/
def execPresentJam (s : State) : Host.Outcome State Fault Refusal :=
  .next (finish (if s.disp.move == .present then jamStacker .jam s else s))

/-- STACKER_REVERSAL_JAM (R70). -/
def execStackerReversalJam (s : State) : Host.Outcome State Fault Refusal :=
  .next (finish (if s.disp.move == .reverse then jamStacker .lockdown s else s))

/-! ### The throat -/

/-- A calibration's note on channel Q is in the throat, on its way to the pocket, or on its way to the deposit
cassette. -/
def noteInCalQ (k : Calibration) : Bool :=
  k.channel == .q && (k.phase == .running || k.phase == .tail || k.phase == .toPocket || k.phase == .stacking)

/-- A note in the throat, in stacking or in a return movement jams (R42, R90): the samples since the last step close the
window's last gap. A calibration whose record has been classified ends JAM as well, and keeps the gain that the record
set (DEDUCED, notes/assumptions/15.md). -/
def jamThroatNote (raws : List Nat) (s : State) : State :=
  let t := takeSamples .q raws s
  if noteInCalQ s.cal then
    endCal (if s.cal.phase == .stacking then s.cal.outcome.getD .jam else .jam) (jamThroat .calibrate (stopCal t))
  else if depositMoving s then jamDeposit t
  else s

/-- DEPOSIT_JAM. -/
def execDepositJam (s : State) (raws : List Nat := []) : Host.Outcome State Fault Refusal :=
  .next (finish (jamThroatNote raws s))

/-! ### The capture transport -/

/-- The capture transport stops with its jam mark set, and the slot shutter follows (R97, R98, R104). -/
def jamCapture (op : FaultOp) (s : State) : State :=
  raiseHard .captureJam op none none
    (reshutter (modCapture (fun c => { c with transport := .idle, jam := true, envelope := none }) s))

/-- RETRACT_JAM (R97). -/
def execRetractJam (s : State) : Host.Outcome State Fault Refusal :=
  .next (finish (if s.capture.transport == .carryingRetract then jamCapture .retract s else s))

/-- An envelope movement jams (R104): the mark, the fault, then the notice with the length counted so far. -/
def jamEnvelope (mm : Nat) (s : State) : State :=
  match s.capture.envelope with
  | some m =>
      let len := if m.stage == .measuring && !m.passed then mm else m.mm
      noticeAll .envelopeJammed (be 1 (envelopeStagePos m.stage) ++ be 2 len ++ beOpt 3 m.seq) (jamCapture .envelope s)
  | none => s

/-- ENVELOPE_JAM. -/
def execEnvelopeJam (mm : Nat) (s : State) : Host.Outcome State Fault Refusal := .next (finish (jamEnvelope mm s))

/-! ### Recovery and WAKING -/

/-- RECOVERY_PURGE_JAM (R187). -/
def execRecoveryPurgeJam (s : State) : Host.Outcome State Fault Refusal :=
  .next (finish (if s.lane.recovery.stacker == .running then
    jamDispenser .recovery none (modRecovery (fun x => { x with stacker := .jammed }) s) else s))

/-- RECOVERY_STACKING_JAM (R187): the throat transport stops, as at every jam of it (R90). -/
def execRecoveryStackingJam (s : State) : Host.Outcome State Fault Refusal :=
  .next (finish (if s.lane.recovery.escrow == .running then
    jamThroat .recovery (shutThroat (modRecovery (fun x => { x with escrow := .jammed }) s)) else s))

/-- The warm-up of WAKING ends (R190): the capture sensors are read and the lane enters its target. -/
def endWaking (c : CaptureSensors) (s : State) : State :=
  if s.lane.state == .waking then
    let s := wakingCheck c (modLane (fun l => { l with power := .on }) s)
    setLaneState (s.lane.target.getD .closed) (modLane (fun l => { l with target := none }) s)
  else s

/-- WAKING_END. -/
def execWakingEnd (c : CaptureSensors) (s : State) : Host.Outcome State Fault Refusal := .next (finish (endWaking c s))

end Sys2Proof.Machine
end

