-- ==== Sys2Proof/Machine/QueryRecords.lean ====
section
/-! DEFINITION. The records a console reads by QUERY (R182), as bytes: each record's fields in the order in which its rule
lists them, in the widths of chapter 12 (DESIGN CHOICE, notes/assumptions/10.md), absent figures as all ones (R180). -/

namespace Sys2Proof.Machine

/-- All ones in `w` bytes: the fields of a record that is absent (R180). -/
def ones (w : Nat) : List Byte := List.replicate w 0xFF#8

/-- What remains of a timer, in whole seconds. -/
def secondsLeft (t : Option Nat) : List Byte := beOpt 1 (t.map (· / 1000))

/-- Lane state unit (R184). -/
def laneBytes (s : State) : List Byte :=
  let l := s.lane
  be 1 (laneStatePos l.state) ++ beOpt 1 (l.pending.map laneRequestPos) ++ beOpt 1 (l.target.map laneRequestPos) ++
    be 1 (powerPos l.power) ++ be 2 l.startCount ++ be 4 (laneTime s) ++ be 1 l.station

/-- One approval slot (R158). -/
def slotBytes (x : ApprovalSlot) : List Byte :=
  be 1 (if x.kind.isSome then 2 else 1) ++ beOpt 1 (x.kind.map opKindPos) ++ beOpt 3 x.amount ++
    beOpt 1 x.requester ++ be 1 x.ask ++ beOpt 4 x.timeAsked ++ secondsLeft x.remainingMs

/-- Binding and slots (R153, R158). -/
def approvalBytes (s : State) : List Byte :=
  let a := s.approval
  beOpt 1 a.bound ++ beOpt 4 a.bindTime ++ beFlag a.unbindPending ++ a.slots.flatMap slotBytes

/-- The intent request record (section 6.4). -/
def requestBytes : Option IntentRequest → List Byte
  | none => ones 11
  | some r => be 1 (intentPos r.kind) ++ be 1 (intentPos r.kind) ++ be 3 r.amount ++ be 1 (intentPhasePos r.phase) ++
      beOpt 4 r.refusedAt ++ be 1 r.refusals

/-- H, the reservations, the wall sum, the request and the two marks (R113). -/
def heldBytes (s : State) : List Byte :=
  let p := s.peer
  be 3 p.held.h ++ be 3 p.held.dispense ++ be 3 p.held.deposit ++ be 3 (wallSum s) ++ requestBytes p.request ++
    beFlag p.orphan ++ beFlag p.duplicate

/-- Latches, drive, integrator, waits and lockdown marks (R132, R142). -/
def alarmBytes (s : State) : List Byte :=
  let a := s.alarm
  beFlag a.duress ++ beFlag a.attack ++ beFlag a.drive ++ beFlag a.recognised ++ be 1 a.asserted ++ be 1 a.released ++
    beOpt 1 (a.duressClear.map (·.slot)) ++ beOpt 1 (a.attackClear.map (·.slot)) ++ beFlag s.lane.release ++
    beFlag s.lane.unpowered

/-- The retract request record (section 5.1). -/
def retractBytes : Option RetractRequest → List Byte
  | none => ones 10
  | some r => be 1 (requesterPos r.requester) ++ be 1 (bundleKindPos r.kind) ++ beOpt 1 r.tag ++ be 2 r.count ++
      be 3 r.value ++ beFlag r.blocked ++ beFlag r.granted

/-- The capture unit (R93); the envelope request is NONE or WAITING. -/
def captureBytes (s : State) : List Byte :=
  let c := s.capture
  be 1 (transportPos c.transport) ++ beFlag c.jam ++ beFlag c.shutter ++ be 1 (if c.waiting then 2 else 1) ++
    beFlag c.returned ++ retractBytes c.retract ++ be 1 (binStatePos c.bin) ++ be 3 c.lastSeq ++ be 2 c.journal.length ++
    be 2 c.bundles.length ++ be 2 (noteEstimate c)

/-- The last measured note record (section 2.4). -/
def noteBytes : Option NoteRecord → List Byte
  | none => ones 16
  | some r => be 2 r.n ++ be 2 r.length ++ beOpt 2 r.c ++ beOpt 2 r.t ++ beOpt 2 r.ref ++ beOpt 2 r.q ++
      beOpt 1 r.den ++ be 1 (noteClassPos r.cls) ++ beFlag r.fragment ++ beFlag r.cutOff

/-- One channel (R21). -/
def channelBytes (c : Channel) : List Byte :=
  beOpt 2 c.zero ++ be 2 c.gain ++ be 2 c.gainBasis ++ be 2 c.drift ++ beFlag c.lost ++ noteBytes c.last

/-- The request of a dispense as its payload carried it, the number of pairs (0 for an amount) in front. -/
def dispRequestBytes : Option Request → List Byte
  | none => ones 1
  | some (.amount n) => be 1 0 ++ be 3 n
  | some (.pairs l) => be 1 l.length ++ l.flatMap fun p => be 1 p.1 ++ be 1 p.2

/-- The dispense engine's state and, while it is not IDLE, its record (R44). The number of the plan's pairs stands in
front of them, and the current pair is sent as its place in the plan, from 1 (DESIGN CHOICE,
notes/assumptions/10.md). -/
def dispenseBytes (s : State) : List Byte :=
  let d := s.disp
  be 1 (dispStatePos d.st) ++
    if d.st == .idle then []
    else
      be 1 d.console ++ be 1 d.tag ++ dispRequestBytes d.request ++ beFlag d.duress ++ be 1 d.plan.length ++
        (d.plan.flatMap fun p => be 1 p.den ++ be 1 p.count ++ be 1 p.picked) ++ be 3 d.planValue ++
        be 1 (d.pair + 1) ++ beOpt 1 (d.lastCassette.map (· + 1)) ++ be 1 d.stackerNotes ++ be 3 d.stackerValue ++
        be 1 d.presentedNotes ++ be 3 d.presentedValue ++ be 1 d.rejects ++ beOpt 1 (d.slot.map (·.slot)) ++
        be 3 s.peer.held.dispense ++ secondsLeft d.takeMs ++ beOpt 1 (d.outcome.map dispOutcomePos) ++
        beFlag d.stranded

/-- One escrow entry (section 4.1). -/
def entryBytes (e : EscrowEntry) : List Byte := be 1 e.den ++ be 3 e.face ++ be 2 e.thick

/-- The session's state and, while it is not CLOSED, its record (R74). The number of escrow entries stands in front of
them (DESIGN CHOICE, notes/assumptions/10.md). -/
def depositBytes (s : State) : List Byte :=
  let d := s.dep
  be 1 (depStatePos d.st) ++
    if d.st == .closed then []
    else
      be 1 d.console ++ be 1 d.tag ++ be 3 s.peer.held.deposit ++ be 3 d.asked ++ be 2 d.escrow.length ++
        d.escrow.flatMap entryBytes ++ be 3 (entriesValue d.escrow) ++ be 2 d.limit ++ beFlag d.clamp ++
        beFlag d.limitNotice ++ be 2 d.refused ++ be 2 d.pocketRefusals ++ be 1 (clearancePos d.clearance) ++
        be 2 d.throatHeld ++ be 2 d.presentedNotes ++ be 3 d.presentedValue ++ be 2 d.stackedNotes ++
        be 3 d.stackedValue ++ beOpt 1 (d.slot.map (·.slot)) ++ secondsLeft d.takeMs ++
        beOpt 1 (d.outcome.map depOutcomePos)

/-- The lane status record: what R184, R153, R158, R113, R132, R142, R93, R21, R44 and R74 put in it. -/
def laneStatusBytes (s : State) : List Byte :=
  laneBytes s ++ approvalBytes s ++ heldBytes s ++ alarmBytes s ++ captureBytes s ++ channelBytes s.chP ++
    channelBytes s.chQ ++ dispenseBytes s ++ depositBytes s

/-- A cassette record (section 1.2). -/
def cassetteBytes (c : Cassette) : List Byte :=
  be 1 (cassetteStatePos c.st) ++ beOpt 1 c.denom ++ beOpt 3 c.face ++ cassetteFigures c ++ be 2 c.setpoint ++
    be 2 c.ref ++ be 2 c.restart ++ be 2 c.misses

/-- A denomination record (section 1.1). -/
def denomBytes (d : Denom) : List Byte :=
  beFlag d.used ++ be 3 d.face ++ be 2 d.nomLength ++ be 2 d.window ++ be 2 d.nomThick ++ be 2 d.ref ++
    be 2 d.restart ++ be 2 d.basis

/-- The purge tray record (section 1.7, R17). -/
def purgeBytes (p : PurgeTray) : List Byte :=
  be 2 p.total ++ p.perCassette.flatMap (be 2) ++ be 2 p.notes ++ be 3 p.value ++ beFlag p.full

/-- A journal entry (R103). -/
def journalBytes (e : JournalEntry) : List Byte :=
  be 3 e.seq ++ be 2 e.startCount ++ be 4 e.laneTime ++ be 2 e.length ++ beOpt 1 e.bound

/-- A bundle (R106). -/
def bundleBytes (b : Bundle) : List Byte :=
  be 1 (bundleKindPos b.kind) ++ beOpt 1 b.tag ++ be 2 b.count ++ be 3 b.value ++ be 2 b.startCount ++
    be 4 b.laneTime ++ beFlag b.unverified

/-- A candidate is QUIET, ACTIVE or none (section 7.1); none is sent as a figure that is absent (DESIGN CHOICE,
notes/assumptions/9.md). -/
def candidatePos : Option ZoneState → Option Nat
  | some .quiet => some 1
  | some .active => some 2
  | some .unknown | none => none

/-- A zone record (section 7.1). -/
def zoneBytes (z : Zone) : List Byte :=
  be 1 (zoneTypePos z.type) ++ beFlag z.report ++ beOpt 1 (z.band.map bandPos) ++ beOpt 1 (candidatePos z.candidate) ++
    be 2 z.count ++ be 1 (zoneStatePos z.state) ++ beFlag z.trouble ++ be 2 z.restore ++ beFlag z.frozen ++
    be 2 z.hold ++ beFlag z.changed

/-- A peer view entry (section 6.2). -/
def peerBytes (e : PeerEntry) : List Byte :=
  beOpt 1 (e.kind.map peerKindPos) ++ be 1 (peerStatusPos e.status) ++ be 3 e.held ++ be 3 e.cap ++ beFlag e.known ++
    beOpt 1 (e.laneState.map laneStatePos) ++ beOpt 3 e.announced ++ be 1 (summaryPos e.summary) ++
    beOpt 1 (e.vehicle.map fun v => if v then 1 else 2) ++ beOpt 1 e.slots ++ be 2 e.age

/-- The flags as bits, the kind at `i` of section 9.1 at bit `i`. -/
def flagBits : List Bool → Nat
  | [] => 0
  | b :: rest => (if b then 1 else 0) + 2 * flagBits rest

/-- The first-fault record, the eighteen flags and the SECOND flag (R167): the flags and SECOND as the bits of three
bytes, so that the REPLY of CLEAR_FAULTS fits its frame. -/
def faultBytes (u : FaultUnit) : List Byte :=
  be 1 (faultHoldPos u.hold) ++
    (match u.latched with
     | none => ones 11
     | some r => be 1 (faultKindIdx r.kind + 1) ++ be 1 (laneStatePos r.laneState) ++ be 1 (faultOpPos r.op) ++
         beOpt 1 (r.place.map placePos) ++ beOpt 1 r.station ++ be 2 r.startCount ++ be 4 r.laneTime) ++
    be 3 (flagBits (u.flags ++ [u.second]))

/-- The reset cause record (R191). -/
def causeBytes (c : ResetCause) : List Byte :=
  beFlag c.powerOn ++ beFlag c.supplyDip ++ beFlag c.resetLine ++ beFlag c.commanded ++ beFlag c.backupLost ++
    be 1 (resetKindPos c.last) ++ be 2 c.clearStart ++ be 4 c.clearTime

/-- When the shift was opened: start count and lane time (section 9.6). -/
def openedBytes (t : ShiftTotals) : List Byte := be 2 t.openStart ++ be 4 t.openTime

/-- The figures of the shift totals, in the order of section 9.6. -/
def figureBytes (t : ShiftTotals) : List Byte :=
  be 3 t.dispValue ++ t.dispNotes.flatMap (be 2) ++ be 2 t.depNotes ++ be 3 t.depValue ++ be 2 t.unconfNotes ++
    be 3 t.unconfValue ++ be 2 t.envelopes ++ be 2 t.bundles ++ be 3 t.retractValue

/-- The shift totals (section 9.6). -/
def shiftBytes (t : ShiftTotals) : List Byte := openedBytes t ++ figureBytes t

/-- The closed-shift record, in the order of section 9.7: state (EMPTY 1, HOLDS 2), every figure, when opened, when
closed, by whom, and the transaction open mark. -/
def closedBytes : Option ClosedShift → List Byte
  | none => be 1 1 ++ ones 50
  | some c => be 1 2 ++ figureBytes c.totals ++ openedBytes c.totals ++ be 2 c.closeStart ++ be 4 c.closeTime ++
      be 1 c.closedBy ++ beFlag c.txnOpen

/-- The entry of a list whose indices run from `lo` to below `lo + n`, as bytes. -/
def indexed {α : Type} (lo n : Nat) (l : List α) (f : α → List Byte) (i : Nat) : Option (List Byte) :=
  if lo ≤ i && i < lo + n then (l[i - lo]?).map f else none

/-- The record a QUERY names, numbered in the order of the table of R182 (12.2); `none` is refused with RANGE. -/
def queryRecord (s : State) (record index : Nat) : Option (List Byte) :=
  match record with
  | 1 => some (laneStatusBytes s)
  | 2 => indexed 1 4 s.cash.cassettes cassetteBytes index
  | 3 => indexed 0 8 s.cash.denoms denomBytes index
  | 4 => some (purgeBytes s.cash.purge)
  | 5 => some (depositCassetteBytes s.cash.deposit)
  | 6 => indexed 0 s.capture.journal.length s.capture.journal journalBytes index
  | 7 => indexed 0 s.capture.bundles.length s.capture.bundles bundleBytes index
  | 8 => indexed 1 12 s.alarm.zones zoneBytes index
  | 9 => indexed 0 31 s.peer.entries peerBytes index
  | 10 => some (faultBytes s.fault)
  | 11 => some (causeBytes s.lane.cause)
  | 12 => some (shiftBytes s.fault.shift)
  | 13 => some (closedBytes s.fault.closed)
  | _ => none

/-- One byte for a zone in the REPLY of QUERY_ZONES_CLEAR (R138): bits 1 and 0 the position of the state, then the
trouble, frozen and changed flags at bits 2, 3 and 4. -/
def zoneSummary (z : Zone) : Byte :=
  BitVec.ofNat 8 (zoneStatePos z.state + (if z.trouble then 4 else 0) + (if z.frozen then 8 else 0) +
    (if z.changed then 16 else 0))

end Sys2Proof.Machine
end

