-- ==== Sys2Proof/Machine/CommandHandling.lean ====
section
/-! DEFINITION. How every COMMAND addressed to the lane is taken (R176, R179 to R181, R186, R189) before its own rule
judges it. -/

namespace Sys2Proof.Machine

/-- The REPLY a RETRY finds in the reply memory (R181); a QUERY is answered afresh. -/
def repeatedReply (h : Header) (k : CmdKind) (s : State) : Option ReplyEntry :=
  if h.retry && k != .query then s.bus.memory.find? fun e => e.src == h.src && e.tag == h.tag && e.kind == k else none

/-- A remembered REPLY is queued again, and its entry written with it (R181). -/
def resend (e : ReplyEntry) (s : State) : State :=
  modBus (fun b => { b with memory := remember e b.memory }) (enqueue { frame := e.frame } s)

/-- A command judged by its own table: refused by the first check that applies, else taken. -/
def judge (h : Header) (k : CmdKind) (check : State → Option Reason) (effect : State → State) (s : State) : State :=
  match check s with
  | some r => refuse h k r s
  | none => effect s

/-- A command that reaches its own checks, once the peer view has its frame (R118, R179): a RETRY that the reply memory
answers is not taken again (R181), and CONFIG_FAULT refuses all but five commands before their own checks (R186). -/
def judgeCommand (h : Header) (k : CmdKind) (inFault : Bool) (check : State → Option Reason)
    (effect : State → State) (s : State) : State :=
  match repeatedReply h k s with
  | some e => resend e s
  | none =>
      if s.lane.state == .configFault && !inFault then refuse h k .configFault s else judge h k check effect s

/-- A COMMAND addressed to the lane completes (R179, R180). None is taken before the lane takes part (R176, R185),
none is addressed to a lane strapped 31, and source 31 names no station (R123; DEDUCED, notes/assumptions/12.md). What
was due before it has been made (R189), and the lane's own number is the duplicate (R131). -/
def takeCommand (h : Header) (k : CmdKind) (inFault : Bool) (check : State → Option Reason)
    (effect : State → State) (s : State) : State :=
  if !takesPart s || s.lane.station == 31 || h.src ≥ 31 then s
  else if h.src == s.lane.station then foundDuplicate s
  else judgeCommand h k inFault check effect (applyFrame h.src .console false id (settleDue s))

/-- The sender is not the bound console (R157). -/
def unbound (h : Header) (s : State) : Bool := !isBound s h.src

end Sys2Proof.Machine
end

