-- ==== Sys2Proof/Machine/LaneCommands.lean ====
section
/-! DEFINITION. The commands over the lane as a whole (R59, R107, R110, R145, R169, R172, R180, R188, R191, R192). -/

namespace Sys2Proof.Machine

/-! ### LANE_OPEN, LANE_CLOSE and LANE_NIGHT -/

/-- A lane state request that passes R188: its REPLY DONE says what it did, then it takes effect. -/
def requestLane (h : Header) (k : CmdKind) (t : LaneState) (s : State) : State :=
  applyLaneRequest t (replyDone h k (be 1 (laneEffectPos (laneEffect t s))) s)

/-- LANE_OPEN. -/
def execLaneOpen (h : Header) (s : State) : Host.Outcome State Fault Refusal :=
  .next (finish (takeCommand h .laneOpen false (laneRequestRefused .opened) (requestLane h .laneOpen .opened) s))

/-- LANE_CLOSE. -/
def execLaneClose (h : Header) (s : State) : Host.Outcome State Fault Refusal :=
  .next (finish (takeCommand h .laneClose false (laneRequestRefused .closed) (requestLane h .laneClose .closed) s))

/-- LANE_NIGHT. -/
def execLaneNight (h : Header) (s : State) : Host.Outcome State Fault Refusal :=
  .next (finish (takeCommand h .laneNight false (laneRequestRefused .night) (requestLane h .laneNight .night) s))

/-! ### CLEAR_JAM -/

/-- CLEAR_JAM finds no jammed mark (R59). -/
def clearJamCheck (s : State) : Option Reason :=
  firstOf [(!s.dispenserJam && !s.throatJam && !s.capture.jam, .nothing)]

/-- The moves of recovery that a jam held (R187): a purge is tried again over an occupied stacker, stacking resumes over
an occupied escrow, and a position found clear ends its move. -/
def resumeRecovery (stackerOccupied escrowOccupied : Bool) (s : State) : State :=
  let s :=
    if s.lane.recovery.stacker == .jammed then
      if stackerOccupied then tryRecoveryPurge s else modRecovery (fun x => { x with stacker := .none }) s
    else s
  if s.lane.recovery.escrow == .jammed then runRecoveryStacking escrowOccupied s else s

/-- The capture jam mark is cleared (R97, R104): a granted retract is taken as in place, then the arbiter decides. -/
def clearCaptureJam (s : State) : State :=
  if s.capture.jam then
    let s := modCapture (fun c => { c with jam := false }) s
    let s := match s.capture.retract with
      | some r => if r.granted then bundleInPlace r s else s
      | none => s
    reshutter (arbitrate s)
  else s

/-- The three marks are cleared together and what waited on them goes on (R59, R90, R91, R97, R104, R187), its frames
behind the REPLY (DEDUCED, notes/assumptions/30.md). -/
def clearJams (stackerOccupied escrowOccupied : Bool) (s : State) : State :=
  let throat := s.throatJam
  let s := { s with dispenserJam := false, throatJam := false }
  let s := if throat then depositUnjammed s else s
  clearCaptureJam (resumeRecovery stackerOccupied escrowOccupied s)

/-- CLEAR_JAM. -/
def execClearJam (h : Header) (stackerOccupied escrowOccupied : Bool) (s : State) :
    Host.Outcome State Fault Refusal :=
  .next (finish (takeCommand h .clearJam true clearJamCheck
    (fun t => clearJams stackerOccupied escrowOccupied (replyDone h .clearJam [] t)) s))

/-! ### CLEAR_FAULTS and CLEAR_CAUSE -/

/-- The refusal of R169. -/
def clearFaultsCheck (s : State) : Option Reason :=
  firstOf [(s.fault.hold == .empty && !s.fault.second && s.fault.flags.all (!·), .nothing)]

/-- The fault record is reported and cleared (R169): the REPLY is filled with what is then cleared. It is queued after
the clear, so a TX_OVERFLOW that its queueing raises stands (DEDUCED, notes/assumptions/30.md). -/
def clearFaults (h : Header) (s : State) : State :=
  replyDone h .clearFaults (faultBytes s.fault)
    { s with fault := { s.fault with flags := List.replicate 18 false, hold := .empty, latched := none, second := false } }

/-- CLEAR_FAULTS. -/
def execClearFaults (h : Header) (s : State) : Host.Outcome State Fault Refusal :=
  .next (finish (takeCommand h .clearFaults true clearFaultsCheck (clearFaults h) s))

/-- The refusal of R191. -/
def clearCauseCheck (s : State) : Option Reason :=
  let c := s.lane.cause
  firstOf [(!c.powerOn && !c.supplyDip && !c.resetLine && !c.commanded && !c.backupLost, .nothing)]

/-- The reset cause record is reported, its flags cleared and the moment written (R191). -/
def clearCause (h : Header) (s : State) : State :=
  modLane
    (fun l => { l with cause := { last := l.cause.last, powerOn := false, supplyDip := false, resetLine := false,
                                  commanded := false, backupLost := false, clearStart := l.startCount,
                                  clearTime := l.timeMs / 1000 } })
    (replyDone h .clearCause (causeBytes s.lane.cause) s)

/-- CLEAR_CAUSE. -/
def execClearCause (h : Header) (s : State) : Host.Outcome State Fault Refusal :=
  .next (finish (takeCommand h .clearCause true clearCauseCheck (clearCause h) s))

/-! ### BIN_SERVICE_OPEN and BIN_SERVICE_CLOSE -/

/-- The table of R107. -/
def binOpenCheck (s : State) : Option Reason :=
  firstOf
    [(s.lane.state == .lockdown, .lockdown), (s.lane.state != .closed && s.lane.state != .recovery, .laneState),
     (s.capture.bin != .none, .busy), (!captureIdle s.capture, .busy), ((lowestFree s).isNone, .approvalBusy)]

/-- A bin service asks for approval (R107). -/
def askBinService (h : Header) (s : State) : State :=
  match lowestFree s with
  | none => s
  | some i =>
      replyAccepted h .binServiceOpen []
        (takeSlot i .binService (bundlesValue s.capture) h.src []
          (reshutter (modCapture (fun c => { c with bin := .awaitApproval, binSlot := some (nextSlotRef s i) }) s)))

/-- BIN_SERVICE_OPEN. -/
def execBinServiceOpen (h : Header) (s : State) : Host.Outcome State Fault Refusal :=
  .next (finish (takeCommand h .binServiceOpen false binOpenCheck (askBinService h) s))

/-- The refusals of R110. -/
def binCloseCheck (binPresent : Bool) (s : State) : Option Reason :=
  firstOf [(s.capture.bin != .opened, .nothing), (!binPresent, .busy)]

/-- The bin service closes (R110). -/
def closeBin (s : State) : State :=
  let s := noticeAll .binServiceClosed (binFigures s.capture) s
  let s := modCapture (fun c => { c with journal := [], bundles := [], bin := .none, transport := .idle }) s
  reshutter (arbitrate (modDrives (fun d => { d with binUnlocked := false }) s))

/-- BIN_SERVICE_CLOSE. -/
def execBinServiceClose (h : Header) (binPresent : Bool) (s : State) : Host.Outcome State Fault Refusal :=
  .next (finish (takeCommand h .binServiceClose false (binCloseCheck binPresent)
    (fun t => closeBin (replyDone h .binServiceClose [] t)) s))

/-! ### ALARM_CLEAR -/

/-- The latch a latch byte names (12.2). -/
def latchOf : Nat → Option Latch
  | 1 => some .duress
  | 2 => some .attack
  | _ => none

/-- The table of R145. -/
def alarmClearCheck (latch : Nat) (s : State) : Option Reason :=
  match latchOf latch with
  | none => some .range
  | some l =>
      firstOf
        [(!latchSet s.alarm l, .nothing), ((latchWait s.alarm l).isSome, .busy),
         (latchZoneActive s.alarm l, .zoneActive), ((lowestFree s).isNone, .approvalBusy)]

/-- An ALARM_CLEAR asks for approval (R145). -/
def askAlarmClear (h : Header) (latch : Nat) (s : State) : State :=
  match latchOf latch, lowestFree s with
  | some l, some i =>
      replyAccepted h .alarmClear []
        (takeSlot i .alarmClear 0 h.src (be 1 (latchPos l)) (setLatchWait l (some (nextSlotRef s i)) s))
  | _, _ => s

/-- ALARM_CLEAR. -/
def execAlarmClear (h : Header) (latch : Nat) (s : State) : Host.Outcome State Fault Refusal :=
  .next (finish (takeCommand h .alarmClear false (alarmClearCheck latch) (askAlarmClear h latch) s))

/-! ### SHIFT_CLOSE -/

/-- The refusal of R172. -/
def shiftCloseCheck (s : State) : Option Reason := firstOf [(s.lane.state == .lockdown, .lockdown)]

/-- The shift closes (R172): the record, the notice, behind the REPLY (DEDUCED, notes/assumptions/30.md), the totals. -/
def closeShift (src : Nat) (s : State) : State :=
  let record : ClosedShift :=
    { totals := s.fault.shift, closeStart := s.lane.startCount, closeTime := laneTime s, closedBy := src,
      txnOpen := txnOpen s }
  modShift (fun _ => { openStart := s.lane.startCount, openTime := laneTime s })
    (noticeAll .shiftClosed (closedBytes (some record)) { s with fault := { s.fault with closed := some record } })

/-- SHIFT_CLOSE. -/
def execShiftClose (h : Header) (s : State) : Host.Outcome State Fault Refusal :=
  .next (finish (takeCommand h .shiftClose false shiftCloseCheck
    (fun t => closeShift h.src (replyDone h .shiftClose [] t)) s))

/-! ### RESET_LANE and the unknown command -/

/-- The checks of R192. -/
def resetLaneCheck (s : State) : Option Reason :=
  firstOf
    [(s.lane.state == .lockdown, .lockdown), (s.lane.resetWait.isSome, .busy),
     ((lowestFree s).isNone, .approvalBusy)]

/-- A commanded reset asks for approval (R192). -/
def askReset (h : Header) (s : State) : State :=
  match lowestFree s with
  | none => s
  | some i =>
      replyAccepted h .resetLane []
        (takeSlot i .resetLane 0 h.src [] (modLane (fun l => { l with resetWait := some (nextSlotRef s i) }) s))

/-- RESET_LANE. -/
def execResetLane (h : Header) (s : State) : Host.Outcome State Fault Refusal :=
  .next (finish (takeCommand h .resetLane true resetLaneCheck (askReset h) s))

/-- UNKNOWN_COMMAND: refused with RANGE (R180; notes/assumptions/8.md). -/
def execUnknownCommand (h : Header) (kind : CmdKind) (s : State) : Host.Outcome State Fault Refusal :=
  .next (finish (takeCommand h kind true (fun _ => some .range) id s))

end Sys2Proof.Machine
end

