-- ==== Sys2Proof/Machine/LaneEvents.lean ====
section
/-! DEFINITION. The presence switches (R7) and the changes of the lane state that no command makes (R151, R185, R187,
R189). -/

namespace Sys2Proof.Machine

/-- A cassette switch reads closed (`true`) or open. -/
def setPresence (i : Nat) (closed : Bool) (s : State) : State :=
  { s with board := { s.board with presence := s.board.presence.set i closed } }

/-- A presence switch opens (R7). In CONFIG_FAULT the retained record stands (R186; DEDUCED,
notes/assumptions/13.md). -/
def openSwitch (cassette : Nat) (s : State) : State :=
  if 1 ≤ cassette && cassette ≤ 4 && seated s (cassette - 1) then
    let t := setPresence (cassette - 1) false s
    if s.lane.state == .configFault then t else removeCassette (cassette - 1) t
  else s

/-- CASSETTE_REMOVED. -/
def execCassetteRemoved (cassette : Nat) (s : State) : Host.Outcome State Fault Refusal :=
  .next (finish (openSwitch cassette s))

/-- A presence switch closes (R7): a REMOVED cassette becomes UNLOADED. -/
def closeSwitch (cassette : Nat) (s : State) : State :=
  if 1 ≤ cassette && cassette ≤ 4 && !seated s (cassette - 1) then
    let t := setPresence (cassette - 1) true s
    if s.lane.state != .configFault && (cassetteAt s (cassette - 1)).st == .removed then
      modCassette (cassette - 1) clearedCassette t
    else t
  else s

/-- CASSETTE_RESEATED. -/
def execCassetteReseated (cassette : Nat) (s : State) : Host.Outcome State Fault Refusal :=
  .next (closeSwitch cassette s)

/-- PENDING_REQUEST_APPLIED (R189). -/
def execPendingRequestApplied (s : State) : Host.Outcome State Fault Refusal :=
  .next (finish (if pendingDue s then applyPending s else s))

/-- LOCKDOWN_EXIT (R151): a recovery whose moves have all ended has itself ended (R187), so that its end, if no step has
made it, comes first (DESIGN CHOICE, notes/assumptions/7.md). -/
def execLockdownExit (s : State) : Host.Outcome State Fault Refusal :=
  .next (finish (if exitDue s then leaveLockdown (if recoveryDue s then endRecovery s else s) else s))

/-- RECOVERY_END (R187). -/
def execRecoveryEnd (s : State) : Host.Outcome State Fault Refusal :=
  .next (finish (if recoveryDue s then endRecovery s else s))

/-- POWER_ON (R185). -/
def execPowerOn (b : Board) (s : State) : Host.Outcome State Fault Refusal :=
  .next (restart .powerOn { s with board := b })

/-- SUPPLY_DIP (R185). -/
def execSupplyDip (b : Board) (s : State) : Host.Outcome State Fault Refusal :=
  .next (restart .supplyDip { s with board := b })

/-- RESET_LINE (R185). -/
def execResetLine (b : Board) (s : State) : Host.Outcome State Fault Refusal :=
  .next (restart .resetLine { s with board := b })

/-- MECHANICS_CHECK (R185): after the 2 s warm-up of STARTING. -/
def execMechanicsCheck (x : StartSensors) (s : State) : Host.Outcome State Fault Refusal :=
  .next (finish (if s.lane.state == .starting && s.lane.power == .warming then leaveStarting x s else s))

end Sys2Proof.Machine
end

