-- ==== Sys2Proof/Machine/NoteEvents.lean ====
section
/-! DEFINITION. The measurement channels and the sensors of the dispenser, the throat and the pocket (R16, R23 to R31,
R34, R42, R54 to R57, R62, R64, R70, R78 to R80, R86, R87, R91, R96). -/

namespace Sys2Proof.Machine

/-! ### Zero captures -/

/-- The capture of channel P has succeeded (R41, R54). -/
def capturedP (s : State) : State :=
  if s.cal.phase == .zeroCapture && s.cal.channel == .p then calCaptured s
  else if s.disp.st == .zeroCapture then startPick (modDisp (fun d => { d with st := .picking }) s)
  else s

/-- The capture of channel Q has succeeded (R42, R78). -/
def capturedQ (s : State) : State :=
  if s.cal.phase == .zeroCapture && s.cal.channel == .q then calCaptured s
  else if s.dep.st == .zeroCapture then openThroat s
  else s

/-- The capture of channel P has failed (R35, R41, R54). -/
def failedP (s : State) : State :=
  if s.cal.phase == .zeroCapture && s.cal.channel == .p then endCal .zeroFault (stopCal s)
  else if s.disp.st == .zeroCapture then endDispense .zeroFault (stopPickTransport s)
  else s

/-- The capture of channel Q has failed (R35, R42, R78). -/
def failedQ (s : State) : State :=
  if s.cal.phase == .zeroCapture && s.cal.channel == .q then endCal .zeroFault (stopCal s)
  else if s.dep.st == .zeroCapture then endDeposit .zeroFault (shutThroat s)
  else s

/-- The 64th sample of a capture is taken (R34, R35). -/
def decideCapture (ch : ChannelId) (raws : List Nat) (s : State) : State :=
  if (chanAt s ch).capturing && raws.length == 64 then
    match zeroGood (chanAt s ch).gain raws, ch with
    | true, .p => capturedP (captureOk .p raws s)
    | true, .q => capturedQ (captureOk .q raws s)
    | false, .p => failedP (captureFailed .p s)
    | false, .q => failedQ (captureFailed .q s)
  else s

/-- ZERO_CAPTURE_DONE. -/
def execZeroCaptureDone (ch : ChannelId) (raws : List Nat) (s : State) : Host.Outcome State Fault Refusal :=
  .next (finish (decideCapture ch raws s))

/-! ### Runs -/

/-- What the start of a run does besides (R8, R41, R42, R55, R82): in PICKING it is a result of the pick in progress,
one whose accepted note is still on its way included; the idle timer starts again unless the throat is closing. -/
def runStarted (ch : ChannelId) (s : State) : State :=
  match ch with
  | .p =>
      if s.cal.phase == .waiting && s.cal.channel == .p then
        clearMisses s.cal.cassette (modCal (fun k => { k with phase := .running }) s)
      else if s.disp.st == .picking then
        clearMisses (s.disp.lastCassette.getD 0) (modDisp (fun d => { d with pick := .running }) s)
      else s
  | .q =>
      if s.cal.phase == .waiting && s.cal.channel == .q then
        modCal (fun k => { k with phase := .running, takeMs := none }) s
      else if s.dep.st == .feeding && s.dep.closing.isNone then
        modDep (fun d => { d with idleMs := some (s.config.takeTimeout * 1000) }) s
      else s

/-- A present sample ends the gap in progress and starts a run (R23, R37), whatever drew what lies under the channel
(R27): the sample is judged with the zero before the gap is tracked. -/
def startRun (ch : ChannelId) (raws : List Nat) (first : Nat) (s : State) : State :=
  let c := chanAt s ch
  let z := zeroOf c
  match feedFlow z c.gain raws c.flow with
  | .gap n sum =>
      if c.window && isPresent z c.gain first then
        runStarted ch (endGap ch n sum (modChan ch (fun c => { c with flow := .run [first - z] [] }) s))
      else s
  | .none | .run _ _ | .tail _ => s

/-- RUN_START. -/
def execRunStart (ch : ChannelId) (raws : List Nat) (first : Nat) (s : State) : Host.Outcome State Fault Refusal :=
  .next (finish (startRun ch raws first s))

/-- The cassette whose note channel P measures. -/
def pickedCassette (s : State) : Nat :=
  if s.cal.phase != .none then s.cal.cassette else s.disp.lastCassette.getD 0

/-- A classified record is handed on: to the calibration, or to the engine that owns the phase (R31). -/
def handOn (ch : ChannelId) (r : NoteRecord) (s : State) : State :=
  match ch with
  | .p =>
      if s.cal.phase == .running && s.cal.channel == .p then calNoteP r s
      else if s.disp.st == .picking && s.disp.pick == .running then dispenseNote (s.disp.lastCassette.getD 0) r s
      else s
  | .q =>
      if s.cal.phase == .running && s.cal.channel == .q then calNoteQ r s
      else if s.dep.st == .feeding then stopIfLost (depositNote r s)
      else s

/-- A run is over (R26): its record is completed, classified, kept as the channel's last and handed on; `flow` is what
the channel holds then. -/
def completeRun (ch : ChannelId) (cs : List Nat) (cut : Bool) (flow : Flow) (s : State) : State :=
  match ch with
  | .p =>
      let i := pickedCassette s
      let r := recordP s i cs cut
      let s := if (cassetteAt s i).denom.isNone then drawFree s else s
      handOn .p r (modChan .p (fun c => { c with flow := flow, last := some r }) s)
  | .q =>
      let r := recordQ s cs cut
      handOn .q r (modChan .q (fun c => { c with flow := flow, last := some r }) s)

/-- The eighth consecutive non-present sample ends a run (R23, R26). -/
def endRun (ch : ChannelId) (raws : List Nat) (s : State) : State :=
  let c := chanAt s ch
  match c.flow with
  | .run cs trail =>
      match feedRun (zeroOf c) c.gain raws cs trail with
      | .ended cs' trail' [] => completeRun ch cs'.reverse false (.gap trail'.length trail'.sum) s
      | .ended _ _ _ | .going _ _ | .cut _ _ => s
  | .none | .gap _ _ | .tail _ => s

/-- RUN_END. -/
def execRunEnd (ch : ChannelId) (raws : List Nat) (s : State) : Host.Outcome State Fault Refusal :=
  .next (finish (endRun ch raws s))

/-- A run reaches its 400th sample (R24). -/
def cutRun (ch : ChannelId) (raws : List Nat) (s : State) : State :=
  let c := chanAt s ch
  match c.flow with
  | .run cs trail =>
      match feedRun (zeroOf c) c.gain raws cs trail with
      | .cut cs' [] => completeRun ch cs'.reverse true (.tail []) s
      | .cut _ _ | .ended _ _ _ | .going _ _ => s
  | .none | .gap _ _ | .tail _ => s

/-- RUN_CUT_OFF. -/
def execRunCutOff (ch : ChannelId) (raws : List Nat) (s : State) : Host.Outcome State Fault Refusal :=
  .next (finish (cutRun ch raws s))

/-- The note of a cut run has cleared the channel (R41, R42, R59, R82). -/
def tailCleared (ch : ChannelId) (s : State) : State :=
  match ch with
  | .p =>
      if s.cal.phase == .tail && s.cal.channel == .p then endCalAs .calFailed (stopCal s)
      else if s.disp.st == .picking && s.disp.pick == .tail then noteLeft s
      else s
  | .q => if s.cal.phase == .tail && s.cal.channel == .q then calToPocket s else tryHolding s

/-- The eighth consecutive non-present sample of a tail (R24): a gap begins at the first of the eight. -/
def endTail (ch : ChannelId) (raws : List Nat) (s : State) : State :=
  let c := chanAt s ch
  match c.flow with
  | .tail trail =>
      match feedTail (zeroOf c) c.gain raws trail with
      | .ended l [] => tailCleared ch (modChan ch (fun c => { c with flow := .gap l.length l.sum }) s)
      | .ended _ (_ :: _) | .going _ => s
  | .none | .gap _ _ | .run _ _ => s

/-- TAIL_END. -/
def execTailEnd (ch : ChannelId) (raws : List Nat) (s : State) : Host.Outcome State Fault Refusal :=
  .next (finish (endTail ch raws s))

/-! ### The dispenser's sensors -/

/-- The stacker sensor counts a note in (R55, R56, R60, R61). The full plan ends picking, as a stop decided earlier has
it or complete; else the pick goes on while a run, a tail or another accepted note is left of it, and ends at the note
boundary. -/
def countNote (raws : List Nat) (s : State) : State :=
  if s.disp.st == .picking && s.disp.owed != 0 then
    let s := countIn (takeSamples .p raws s)
    if (nextPair s.disp).isNone then
      match s.disp.stop with
      | some o => endPicking o s
      | none => completePicking s
    else if s.disp.pick == .toStacker then noteLeft s
    else s
  else s

/-- STACKER_COUNT_IN. -/
def execStackerCountIn (raws : List Nat) (s : State) : Host.Outcome State Fault Refusal :=
  .next (finish (countNote raws s))

/-- The stacker is in the pocket (R64). -/
def presentStacker (s : State) : State :=
  setShutter true
    (modDisp (fun d => { d with move := .none, presentedNotes := d.stackerNotes, presentedValue := d.stackerValue,
                                stackerNotes := 0, stackerValue := 0, takeMs := some (takeTimerMs s) }) s)

/-- PRESENT_MOVEMENT_END. -/
def execPresentMovementEnd (s : State) : Host.Outcome State Fault Refusal :=
  .next (if s.disp.st == .presenting && s.disp.move == .present then presentStacker s else s)

/-- A stacker purge movement ends (R16): the dispense's (R62), or recovery's, reckoned at 40 notes (R187). -/
def endPurge (s : State) : State :=
  if s.disp.st == .purging && s.disp.move == .purge then
    endDispense (s.disp.decided.getD .jam)
      (modDisp (fun d => { d with move := .none, stackerNotes := 0, stackerValue := 0 })
        (creditTray s.disp.stackerNotes s.disp.stackerValue s))
  else if s.lane.recovery.stacker == .running then
    modRecovery (fun x => { x with stacker := .none }) (creditTray 40 s.lane.recovery.stackerValue s)
  else s

/-- PURGE_MOVEMENT_END. -/
def execPurgeMovementEnd (s : State) : Host.Outcome State Fault Refusal := .next (finish (endPurge s))

/-- STACKER_REVERSAL_END (R70): the engine enters PURGING. -/
def execStackerReversalEnd (s : State) : Host.Outcome State Fault Refusal :=
  .next (finish (if s.disp.st == .presenting && s.disp.move == .reverse then enterPurging .lockdown s else s))

/-! ### The throat's and the pocket's sensors -/

/-- ESCROW_PUSH (R79). -/
def execEscrowPush (raws : List Nat) (s : State) : Host.Outcome State Fault Refusal :=
  .next (finish (if s.dep.toEscrow.isEmpty then s else pushEscrow (takeSamples .q raws s)))

/-- REFUSED_NOTE_AT_POCKET (R80). -/
def execRefusedNoteAtPocket (raws : List Nat) (s : State) : Host.Outcome State Fault Refusal :=
  .next (finish (if s.dep.st == .feeding && s.dep.toPocket != 0 then refusedAtPocket (takeSamples .q raws s) else s))

/-- A note passes the stacking sensor: of the escrow (R86, R91), of a calibration (R42), or of recovery, whose move ends
when the escrow sensor reads clear (R187). -/
def passStacking (escrowClear : Bool) (s : State) : State :=
  if s.dep.move == .stacking then stackNote s
  else if s.cal.phase == .stacking then endCalAs .lockdown (shutThroat (creditUnknown s))
  else if s.lane.recovery.escrow == .running then
    runRecoveryStacking (!escrowClear) (creditUnknown s)
  else s

/-- NOTE_STACKED. -/
def execNoteStacked (escrowClear : Bool) (s : State) : Host.Outcome State Fault Refusal :=
  .next (finish (passStacking escrowClear s))

/-- RETURN_BUNDLE_IN_POCKET (R87). -/
def execReturnBundleInPocket (s : State) : Host.Outcome State Fault Refusal :=
  .next (if s.dep.st == .returning && s.dep.move == .toPocket then presentReturn s else s)

/-- RETURN_REVERSAL_END (R91): the escrow is stacked as unconfirmed. -/
def execReturnReversalEnd (s : State) : Host.Outcome State Fault Refusal :=
  .next (finish (if s.dep.move == .reversing then
    secureEscrow (modDep (fun d => { d with move := .none }) s) else s))

/-- CALIBRATION_NOTE_AT_POCKET (R42). -/
def execCalibrationNoteAtPocket (s : State) : Host.Outcome State Fault Refusal :=
  .next (if s.cal.phase == .toPocket then
    modDrives (fun d => { d with pocketShutter := true, throatTransport := false })
      (modCal (fun k => { k with phase := .inPocket, takeMs := some (s.config.takeTimeout * 1000) }) s) else s)

/-- A retract movement ends (R96): its owner ends as its rule states, then the arbiter decides. -/
def endRetract (s : State) : State :=
  match s.capture.retract with
  | some r =>
      if s.capture.transport == .carryingRetract then
        arbitrate (bundleInPlace r (modCapture (fun c => { c with transport := .idle }) s))
      else s
  | none => s

/-- RETRACT_MOVEMENT_END. -/
def execRetractMovementEnd (s : State) : Host.Outcome State Fault Refusal := .next (finish (endRetract s))

end Sys2Proof.Machine
end

