-- ==== Sys2Proof/Machine/TransactionCommands.lean ====
section
/-! DEFINITION. The commands of a dispense, a deposit and a calibration (R40, R45 to R50, R69, R75, R76, R82, R84,
R87). -/

namespace Sys2Proof.Machine

/-! ### DISPENSE -/

/-- The table of R45. -/
def dispenseCheck (h : Header) (req : Request) (s : State) : Option Reason :=
  firstOf
    [(s.lane.state == .lockdown, .lockdown), (unbound h s, .notBound), (s.lane.state == .waking, .busy),
     (s.lane.state != .opened, .laneState), (txnOpen s, .busy), (malformed s req, .range),
     (s.alarm.recognised && !s.alarm.duress, .wallAlarm),
     (s.dispenserJam || s.cash.purge.full, .dispenserState)]

/-- The eight counts that the ASK of a dispense carries (12.2). -/
def planCounts (plan : List PlanPair) : List Byte :=
  (List.range 8).flatMap fun d => be 1 ((plan.filter fun p => p.den == d).map (·.count)).sum

/-- A DISPENSE taken, with its plan made (R50): the lane cap, then the approval or the ceiling. Its ASK stands before
its REPLY, and its INTENT behind it (DEDUCED, notes/assumptions/30.md). -/
def admitDispense (h : Header) (req : Request) (duress : Bool) (plan : List PlanPair) (v : Nat) (s : State) : State :=
  let record : Dispense :=
    { console := h.src, tag := h.tag, request := some req, duress, plan, planValue := v }
  if v > s.config.laneCap - s.peer.held.h then refuse h .dispense .overLaneCap s
  else if v > s.config.s1 && !duress then
    match lowestFree s with
    | none => refuse h .dispense .approvalBusy s
    | some i =>
        replyAccepted h .dispense (be 3 v)
          (takeSlot i .dispense v h.src (planCounts plan)
            (modDisp (fun _ => { record with st := .awaitApproval, slot := some (nextSlotRef s i) }) s))
  else awaitDispenseCeiling (replyAccepted h .dispense (be 3 v) (modDisp (fun _ => record) s))

/-- PLANNING (R47 to R50): the duress clamp, then the mix rule or the list. A dispense clamped to 0 has no plan, and its
ACCEPTED carries a plan value of 0 (DESIGN CHOICE, notes/assumptions/24.md). -/
def planDispense (h : Header) (req : Request) (s : State) : State :=
  let duress := s.alarm.duress
  let asked := if duress then clampRequest s req else req
  if asked == .amount 0 then
    endDispense .clampedZero
      (replyAccepted h .dispense (be 3 0)
        (modDisp (fun _ => { st := .planning, console := h.src, tag := h.tag, request := some req, duress }) s))
  else match planRequest s asked with
    | none => refuse h .dispense .noMix s
    | some p => admitDispense h req duress p.1 p.2 s

/-- DISPENSE. -/
def execDispense (h : Header) (req : Request) (s : State) : Host.Outcome State Fault Refusal :=
  .next (finish (takeCommand h .dispense false (dispenseCheck h req) (planDispense h req) s))

/-! ### CANCEL -/

/-- The refusals of R69. -/
def cancelCheck (h : Header) (s : State) : Option Reason :=
  let st := s.disp.st
  firstOf
    [(s.lane.state == .lockdown, .lockdown), (unbound h s, .notBound), (st == .idle, .nothing),
     (s.disp.stranded || st == .purging || st == .presenting || st == .retracting, .late)]

/-- The effects of R69, once the REPLY is queued (DEDUCED, notes/assumptions/30.md); in PICKING a stop decided earlier
stands. -/
def cancelDispense (s : State) : State :=
  match s.disp.st with
  | .awaitApproval =>
      endDispense .cancelled
        (match s.disp.slot with
         | some x => modDisp (fun d => { d with slot := none }) (settleSlot x.slot .withdrawn s)
         | none => s)
  | .awaitCeiling => endDispense .cancelled (withdrawIntent s)
  | .zeroCapture => endDispense .cancelled (abandonCaptureP s)
  | .picking => modDisp (fun d => { d with stop := some (d.stop.getD .cancelled) }) s
  | .idle | .planning | .purging | .presenting | .retracting => s

/-- CANCEL. -/
def execCancel (h : Header) (s : State) : Host.Outcome State Fault Refusal :=
  .next (finish (takeCommand h .cancel false (cancelCheck h)
    (fun t => cancelDispense (replyDone h .cancel [] t)) s))

/-! ### DEPOSIT_OPEN -/

/-- The escrow limit of R76. -/
def escrowLimit (s : State) : Nat := min 60 (1500 - s.cash.deposit.count)

/-- The reservation asked of R76. -/
def depositAsked (s : State) : Nat := min s.config.depositAllowance (s.config.laneCap - s.peer.held.h)

/-- The table of R75. -/
def depositOpenCheck (h : Header) (s : State) : Option Reason :=
  firstOf
    [(s.lane.state == .lockdown, .lockdown), (unbound h s, .notBound), (s.lane.state == .waking, .busy),
     (s.lane.state != .opened, .laneState), (txnOpen s, .busy),
     (s.alarm.recognised && !s.alarm.duress, .wallAlarm), (s.throatJam, .dispenserState),
     (escrowLimit s == 0, .full), (depositAsked s == 0, .overLaneCap)]

/-- The session opens (R76, R77). -/
def openDeposit (h : Header) (s : State) : State :=
  let asked := depositAsked s
  let limit := escrowLimit s
  requestIntent .deposit asked
    (replyAccepted h .depositOpen (be 3 asked ++ be 2 limit)
      (modDep (fun _ => { st := .awaitCeiling, console := h.src, tag := h.tag, asked, limit,
                          ceilingMs := some 10000 }) s))

/-- DEPOSIT_OPEN. -/
def execDepositOpen (h : Header) (s : State) : Host.Outcome State Fault Refusal :=
  .next (finish (takeCommand h .depositOpen false (depositOpenCheck h) (openDeposit h) s))

/-! ### DEPOSIT_CLOSE_THROAT -/

/-- The refusals of R82. -/
def closeThroatCheck (h : Header) (s : State) : Option Reason :=
  firstOf
    [(s.lane.state == .lockdown, .lockdown), (unbound h s, .notBound), (s.dep.st != .feeding, .nothing)]

/-- The command's effect (R82); a throat already closing goes on as it was. -/
def closeThroatCommand (h : Header) (raws : List Nat) (s : State) : State :=
  closeThroat id (takeSamples .q raws (replyDone h .depositCloseThroat [] s))

/-- DEPOSIT_CLOSE_THROAT. -/
def execDepositCloseThroat (h : Header) (raws : List Nat) (s : State) : Host.Outcome State Fault Refusal :=
  .next (finish (takeCommand h .depositCloseThroat false (closeThroatCheck h) (closeThroatCommand h raws) s))

/-! ### DEPOSIT_ACCEPT -/

/-- The table of R84. -/
def acceptCheck (h : Header) (s : State) : Option Reason :=
  let st := s.dep.st
  firstOf
    [(s.lane.state == .lockdown, .lockdown), (unbound h s, .notBound), (st == .closed, .nothing),
     (st == .awaitCeiling || st == .zeroCapture, .laneState),
     (st != .feeding && st != .holding, .busy), (s.throatJam, .dispenserState)]

/-- An accept taken (R84): decided in HOLDING, or when the closing session enters it, the duress latch noted (R144). -/
def acceptDeposit (h : Header) (raws : List Nat) (s : State) : State :=
  if s.dep.st == .feeding then
    closeThroat (fun c => { c with accepts := c.accepts ++ [{ header := h, duress := s.alarm.duress }] })
      (takeSamples .q raws s)
  else decideAccept h s.alarm.duress s

/-- DEPOSIT_ACCEPT. -/
def execDepositAccept (h : Header) (raws : List Nat) (s : State) : Host.Outcome State Fault Refusal :=
  .next (finish (takeCommand h .depositAccept false (acceptCheck h) (acceptDeposit h raws) s))

/-! ### DEPOSIT_RETURN -/

/-- The refusals of R87; a clearance RETRACTING refuses a return from AWAIT_APPROVAL as well (R95). -/
def returnCheck (h : Header) (s : State) : Option Reason :=
  let st := s.dep.st
  firstOf
    [(s.lane.state == .lockdown, .lockdown), (unbound h s, .notBound), (st == .closed, .nothing),
     (st == .stacking || st == .returning || st == .returnPresented || st == .returnRetracting, .late),
     ((st == .feeding || st == .holding) && s.throatJam, .dispenserState),
     (st != .awaitCeiling && st != .zeroCapture && s.dep.clearance == .retracting, .busy)]

/-- A return taken (R77, R78, R85, R87). In AWAIT_CEILING and AWAIT_APPROVAL the REPLY is queued before the INTENT is
withdrawn or the slot freed, which the cells of R77 and R85 list first (DEDUCED, notes/assumptions/30.md). -/
def returnDeposit (h : Header) (raws : List Nat) (s : State) : State :=
  match s.dep.st with
  | .awaitCeiling => endDeposit .cancelled (withdrawIntent (replyDone h .depositReturn [] s))
  | .zeroCapture => endDeposit .cancelled (abandonCaptureQ (replyDone h .depositReturn [] s))
  | .feeding =>
      closeThroat (fun c => { c with giveBack := true }) (takeSamples .q raws (replyAccepted h .depositReturn [] s))
  | .awaitApproval =>
      startReturn
        (match s.dep.slot with
         | some x => settleSlot x.slot .withdrawn (replyAccepted h .depositReturn [] s)
         | none => replyAccepted h .depositReturn [] s)
  | .holding => startReturn (replyAccepted h .depositReturn [] s)
  | .closed | .stacking | .returning | .returnPresented | .returnRetracting => s

/-- DEPOSIT_RETURN. -/
def execDepositReturn (h : Header) (raws : List Nat) (s : State) : Host.Outcome State Fault Refusal :=
  .next (finish (takeCommand h .depositReturn false (returnCheck h) (returnDeposit h raws) s))

/-! ### CALIBRATE -/

/-- A stacker purge movement is running (R17, R40). -/
def purgeRunning (s : State) : Bool := s.disp.move == .purge || s.lane.recovery.stacker == .running

/-- The table of R40; channel byte 1 is P and 2 is Q (12.2). -/
def calibrateCheck (h : Header) (channel k cassette : Nat) (pocketOccupied : Bool) (s : State) : Option Reason :=
  firstOf
    [(s.lane.state == .lockdown, .lockdown), (unbound h s, .notBound), (s.lane.state != .closed, .laneState),
     (s.cal.phase != .none ||
        (channel == 1 && ((s.cash.loads.any fun w => w.cassette + 1 == cassette) || purgeRunning s)) ||
        (channel == 2 && (pocketOccupied || s.throatJam)), .busy),
     ((channel != 1 && channel != 2) || k < 50 || 1000 < k || (channel == 1 && (cassette == 0 || 4 < cassette)),
        .range),
     (channel == 1 && (s.dispenserJam || s.cash.purge.full || !serves (cassetteAt s (cassette - 1))),
        .dispenserState),
     (channel == 2 && 1500 ≤ s.cash.deposit.count, .full)]

/-- A calibration starts (R40 to R42): its zero capture. -/
def startCalibration (h : Header) (channel k cassette : Nat) (s : State) : State :=
  let ch : ChannelId := if channel == 1 then .p else .q
  startCapture ch
    (modCal (fun _ => { phase := .zeroCapture, channel := ch, k, cassette := if channel == 1 then cassette - 1 else 0,
                        tag := h.tag, gainBefore := (chanAt s ch).gain })
      (replyAccepted h .calibrate [] s))

/-- CALIBRATE. -/
def execCalibrate (h : Header) (channel k cassette : Nat) (pocketOccupied : Bool) (s : State) :
    Host.Outcome State Fault Refusal :=
  .next (finish (takeCommand h .calibrate false (calibrateCheck h channel k cassette pocketOccupied)
    (startCalibration h channel k cassette) s))

end Sys2Proof.Machine
end

