-- ==== Sys2Proof/Machine/StockCommands.lean ====
section
/-! DEFINITION. The commands over stock, binding and records (R4, R6, R17, R19, R138, R154, R155, R182). -/

namespace Sys2Proof.Machine

/-! ### CASSETTE_LOAD -/

/-- The table of R4. -/
def loadCheck (h : Header) (slot den count : Nat) (s : State) : Option Reason :=
  firstOf
    [(s.lane.state == .lockdown, .lockdown), (unbound h s, .notBound), (s.lane.state != .closed, .laneState),
     (s.cal.phase != .none || (s.cash.loads.any fun w => w.cassette + 1 == slot), .busy),
     (slot == 0 || 4 < slot || 8 ≤ den || !(denomAt s den).used || 2500 < count, .range),
     (!seated s (slot - 1), .dispenserState), ((lowestFree s).isNone, .approvalBusy)]

/-- A load asks for approval (R4): its ASK stands before its REPLY, as that of every asking command (R158; DEDUCED,
notes/assumptions/30.md). -/
def askLoad (h : Header) (slot den count : Nat) (s : State) : State :=
  match lowestFree s with
  | none => s
  | some i =>
      replyAccepted h .cassetteLoad []
        (takeSlot i .cassetteLoad 0 h.src (be 1 slot ++ be 1 den ++ be 2 count)
          (modCash
            (fun u =>
              { u with
                loads := u.loads ++ [{ slot := nextSlotRef s i, tag := h.tag, cassette := slot - 1, den, count }] })
            s))

/-- CASSETTE_LOAD. -/
def execCassetteLoad (h : Header) (slot den count : Nat) (s : State) : Host.Outcome State Fault Refusal :=
  .next (finish (takeCommand h .cassetteLoad false (loadCheck h slot den count) (askLoad h slot den count) s))

/-! ### CASSETTE_UNLOAD -/

/-- The checks of R6. -/
def unloadCheck (h : Header) (slot : Nat) (s : State) : Option Reason :=
  firstOf
    [(s.lane.state == .lockdown, .lockdown), (unbound h s, .notBound), (s.lane.state != .closed, .laneState),
     (s.cal.phase != .none || (s.cash.loads.any fun w => w.cassette + 1 == slot), .busy),
     (slot == 0 || 4 < slot, .range), ((cassetteAt s (slot - 1)).st == .unloaded, .nothing)]

/-- An unload (R6): the notice, behind the REPLY (DEDUCED, notes/assumptions/30.md), then the cleared record. -/
def unloadCassette (i : Nat) (s : State) : State :=
  let c := cassetteAt s i
  modCassette i clearedCassette
    (noticeAll .cassetteUnloaded
      (be 1 (i + 1) ++ beOpt 1 c.denom ++ be 1 (cassetteStatePos c.st) ++ cassetteFigures c) s)

/-- CASSETTE_UNLOAD. -/
def execCassetteUnload (h : Header) (slot : Nat) (s : State) : Host.Outcome State Fault Refusal :=
  .next (finish (takeCommand h .cassetteUnload false (unloadCheck h slot)
    (fun t => unloadCassette (slot - 1) (replyDone h .cassetteUnload [] t)) s))

/-! ### CLEAR_PURGE -/

/-- The checks of R17. -/
def clearPurgeCheck (h : Header) (s : State) : Option Reason :=
  firstOf
    [(unbound h s, .notBound), (s.lane.state != .closed && s.lane.state != .recovery, .laneState),
     (purgeRunning s, .busy)]

/-- The tray record is reported, behind the REPLY (DEDUCED, notes/assumptions/30.md), and emptied (R17); a recovery
purge refused for want of room is tried again (R187). -/
def clearPurge (s : State) : State :=
  let t := modCash (fun u => { u with purge := {} }) (noticeAll .purgeCleared (purgeBytes s.cash.purge) s)
  if t.lane.state == .recovery && t.lane.recovery.stacker == .noRoom then tryRecoveryPurge t else t

/-- CLEAR_PURGE. -/
def execClearPurge (h : Header) (s : State) : Host.Outcome State Fault Refusal :=
  .next (finish (takeCommand h .clearPurge false (clearPurgeCheck h)
    (fun t => clearPurge (replyDone h .clearPurge [] t)) s))

/-! ### DEPOSIT_CASSETTE_EXCHANGE -/

/-- The table of R19. -/
def exchangeCheck (h : Header) (s : State) : Option Reason :=
  firstOf
    [(s.lane.state == .lockdown, .lockdown), (unbound h s, .notBound), (s.lane.state != .closed, .laneState),
     (s.cash.exchange.isSome, .busy), ((lowestFree s).isNone, .approvalBusy)]

/-- An exchange asks for approval (R19). -/
def askExchange (h : Header) (s : State) : State :=
  match lowestFree s with
  | none => s
  | some i =>
      replyAccepted h .depositCassetteExchange []
        (takeSlot i .depositCassetteExchange (sat24 s.cash.deposit.perValue.sum) h.src []
          (modCash (fun u => { u with exchange := some { slot := nextSlotRef s i, tag := h.tag } }) s))

/-- DEPOSIT_CASSETTE_EXCHANGE. -/
def execDepositCassetteExchange (h : Header) (s : State) : Host.Outcome State Fault Refusal :=
  .next (finish (takeCommand h .depositCassetteExchange false (exchangeCheck h) (askExchange h) s))

/-! ### BIND and UNBIND -/

/-- The table of R154. -/
def bindCheck (h : Header) (s : State) : Option Reason :=
  firstOf
    [(s.lane.state == .lockdown, .lockdown), ((peerEntry s h.src).kind == some .lane, .range),
     (s.approval.bound.isSome && unbound h s, .boundElsewhere)]

/-- A BIND taken (R154): the console already bound leaves the record as it stands. -/
def bindConsole (h : Header) (s : State) : State :=
  if isBound s h.src then s
  else modApproval (fun a => { a with bound := some h.src, bindTime := some (laneTime s), unbindPending := false }) s

/-- BIND. -/
def execBind (h : Header) (s : State) : Host.Outcome State Fault Refusal :=
  .next (finish (takeCommand h .bind false (bindCheck h) (fun t => replyDone h .bind [] (bindConsole h t)) s))

/-- The refusals of R155. -/
def unbindCheck (h : Header) (s : State) : Option Reason :=
  firstOf
    [(s.lane.state == .lockdown, .lockdown), (s.approval.bound.isNone, .nothing), (unbound h s, .notBound)]

/-- UNBIND. -/
def execUnbind (h : Header) (s : State) : Host.Outcome State Fault Refusal :=
  .next (finish (takeCommand h .unbind false (unbindCheck h)
    (fun t => replyDone h .unbind []
      (modApproval (fun a => { a with bound := none, bindTime := none, unbindPending := false }) t)) s))

/-! ### QUERY and QUERY_ZONES_CLEAR -/

/-- A QUERY is refused while the reply buffer holds a series, and for a record it does not name (R182). -/
def queryCheck (record index : Nat) (s : State) : Option Reason :=
  firstOf [(s.bus.series.isSome, .busy), ((queryRecord s record index).isNone, .range)]

/-- One segment of a QUERY series (R182). -/
def segmentEntry (dst tag : Nat) (p : Bool × List Byte) : TxEntry :=
  { frame := plainFrame .reply dst p.1 false (.reply .query) tag p.2, owner := .querySegment }

/-- The record is copied into the reply buffer and segment 0 queued (R182). -/
def startSeries (h : Header) (content : List Byte) (s : State) : State :=
  match segments content.length 0 content with
  | [] => s
  | p :: rest =>
      enqueue (segmentEntry h.src h.tag p)
        (modBus (fun b => { b with series := some { dst := h.src, tag := h.tag, rest := rest } }) s)

/-- QUERY. -/
def execQuery (h : Header) (record index : Nat) (s : State) : Host.Outcome State Fault Refusal :=
  .next (finish (takeCommand h .query true (queryCheck record index)
    (fun t => startSeries h ((queryRecord t record index).getD []) t) s))

/-- The zones are reported and every changed flag cleared (R138). -/
def clearZones (h : Header) (s : State) : State :=
  modAlarm (fun a => { a with zones := a.zones.map fun z => { z with changed := false } })
    (replyDone h .queryZonesClear (s.alarm.zones.map zoneSummary) s)

/-- QUERY_ZONES_CLEAR. -/
def execQueryZonesClear (h : Header) (s : State) : Host.Outcome State Fault Refusal :=
  .next (finish (takeCommand h .queryZonesClear false (fun _ => none) (clearZones h) s))

end Sys2Proof.Machine
end

