-- ==== Sys2Proof/Machine/TimerEvents.lean ====
section
/-! DEFINITION. The ends of the lane's timers that are not jams (R53, R58, R65, R67, R77, R80, R82, R83, R88, R119, R127,
R130, R162), and the customer's takes. A row acts where its timer runs, and changes nothing otherwise
(DESIGN CHOICE, notes/assumptions/2.md). -/

namespace Sys2Proof.Machine

/-! ### The bus timers -/

/-- POSITION_PERIOD. -/
def execPositionPeriod (s : State) : Host.Outcome State Fault Refusal := .next (finish (askPosition s))

/-- A station's entry becomes STALE. -/
def staleEntry (n : Nat) (s : State) : State :=
  modPeer (fun p => { p with entries := modifyAt p.entries n fun e => { e with status := .stale, age := max e.age 2000 } })
    s

/-- The bound console has become STALE (R156). -/
def boundStale (s : State) : State :=
  if txnOpen s then modApproval (fun a => { a with unbindPending := true }) s else unbindStale s

/-- A LIVE entry's age reaches 2,000 ms (R119, R127, R156). -/
def peerStale (n : Nat) (s : State) : State :=
  let e := peerEntry s n
  if e.status != .live then s
  else
    let t := staleEntry n s
    let t := if e.kind == some .console && isBound s n then boundStale t else t
    retestIntent t

/-- PEER_STALE. -/
def execPeerStale (station : Nat) (s : State) : Host.Outcome State Fault Refusal := .next (finish (peerStale station s))

/-- The 100 ms after a refusal have passed (R127). -/
def spacingEnd (s : State) : State :=
  match s.peer.request with
  | some r =>
      if r.phase == .heldBack then
        retestIntent (modPeer (fun p => { p with request := some { r with spacingMs := 0 } }) s)
      else s
  | none => s

/-- INTENT_SPACING_END. -/
def execIntentSpacingEnd (s : State) : Host.Outcome State Fault Refusal := .next (finish (spacingEnd s))

/-! ### The ceiling waits and the approval timer -/

/-- The dispense's ceiling wait runs out (R53). -/
def dispenseCeilingOut (s : State) : State :=
  if s.disp.st == .awaitCeiling then endDispense .ceilingTimeout (withdrawIntent s) else s

/-- DISPENSE_CEILING_TIMEOUT. -/
def execDispenseCeilingTimeout (s : State) : Host.Outcome State Fault Refusal := .next (finish (dispenseCeilingOut s))

/-- The session's ceiling wait runs out (R77). -/
def depositCeilingOut (s : State) : State :=
  if s.dep.st == .awaitCeiling then endDeposit .ceilingTimeout (withdrawIntent s) else s

/-- DEPOSIT_CEILING_TIMEOUT. -/
def execDepositCeilingTimeout (s : State) : Host.Outcome State Fault Refusal := .next (finish (depositCeilingOut s))

/-- APPROVAL_TIMEOUT (R162). -/
def execApprovalTimeout (slot : Nat) (s : State) : Host.Outcome State Fault Refusal :=
  .next (finish (settleAndTell slot .expired s))

/-! ### The take timers -/

/-- The dispense stands presented with its take timer running (R64). -/
def dispensePresented (s : State) : Bool := s.disp.st == .presenting && s.disp.takeMs.isSome

/-- DISPENSE_TAKE_TIMEOUT (R67). -/
def execDispenseTakeTimeout (s : State) : Host.Outcome State Fault Refusal :=
  .next (finish (if dispensePresented s then retractDispense none s else s))

/-- RETURN_TAKE_TIMEOUT (R88). -/
def execReturnTakeTimeout (s : State) : Host.Outcome State Fault Refusal :=
  .next (finish (if s.dep.st == .returnPresented then retractReturn none s else s))

/-- CLEARANCE_TAKE_TIMEOUT (R83). -/
def execClearanceTakeTimeout (s : State) : Host.Outcome State Fault Refusal :=
  .next (finish (if s.dep.clearance == .opened then retractClearance s else s))

/-- The take timer of a calibration on channel Q runs out (R42): no run has started, and the gap with its samples since
the last step ends as the window closes (R21), or the note lies in the pocket. -/
def calTakeOut (raws : List Nat) (s : State) : State :=
  match s.cal.phase, s.cal.channel with
  | .waiting, .q => endCalAs .calFailed (stopCal (takeSamples .q raws s))
  | .inPocket, _ => retractCal s
  | _, _ => s

/-- CALIBRATION_TAKE_TIMEOUT. -/
def execCalibrationTakeTimeout (s : State) (raws : List Nat := []) : Host.Outcome State Fault Refusal :=
  .next (finish (calTakeOut raws s))

/-! ### The takes -/

/-- The shift totals of a TAKEN ending (R73). -/
def creditTaken (d : Dispense) (t : ShiftTotals) : ShiftTotals :=
  { t with dispValue := sat24 (t.dispValue + d.presentedValue),
           dispNotes := d.plan.foldl (fun l p => modifyAt l p.den fun n => sat16 (n + p.picked)) t.dispNotes }

/-- The dispense is taken (R65). -/
def takeDispense (s : State) : State :=
  let d := s.disp
  endDispense .taken (modShift (creditTaken d) (modDisp (fun d => { d with takeMs := none }) (setShutter false s)))

/-- DISPENSE_TAKEN. -/
def execDispenseTaken (s : State) : Host.Outcome State Fault Refusal :=
  .next (finish (if dispensePresented s then takeDispense s else s))

/-- RETURN_TAKEN (R88). -/
def execReturnTaken (s : State) : Host.Outcome State Fault Refusal :=
  .next (finish (if s.dep.st == .returnPresented then endDeposit .returnedTaken (setShutter false s) else s))

/-- REFUSED_NOTES_TAKEN (R80). -/
def execRefusedNotesTaken (s : State) : Host.Outcome State Fault Refusal :=
  .next (if s.dep.st == .feeding && s.drives.pocketShutter then
    setShutter false (modDep (fun d => { d with pocketRefusals := 0 }) s) else s)

/-- CLEARANCE_TAKEN (R83). -/
def execClearanceTaken (s : State) : Host.Outcome State Fault Refusal :=
  .next (finish (if s.dep.clearance == .opened then
    depositSettled (setShutter false
      (modDep (fun d => { d with pocketRefusals := 0, clearance := .none, takeMs := none }) s)) else s))

/-- CALIBRATION_NOTE_TAKEN (R42). -/
def execCalibrationNoteTaken (s : State) : Host.Outcome State Fault Refusal :=
  .next (finish (if s.cal.phase == .inPocket then endCalAs .calFailed (setShutter false s) else s))

/-! ### The throat's idle timer and the pick's miss time -/

/-- THROAT_IDLE_TIMEOUT (R82). -/
def execThroatIdleTimeout (raws : List Nat) (s : State) : Host.Outcome State Fault Refusal :=
  .next (finish (if s.dep.st == .feeding && s.dep.closing.isNone then closeThroat id (takeSamples .q raws s) else s))

/-- The pick gate closes over a pick that drew nothing. -/
def shutPickGate (s : State) : State := modDrives (fun d => { d with pickGate := none }) s

/-- The miss time of a pick runs out with no run started (R41, R58). A calibration's miss is reported first, and the
gap that its closing window ends is tracked after it (DESIGN CHOICE, notes/assumptions/26.md). -/
def missPick (raws : List Nat) (s : State) : State :=
  if s.disp.st == .picking && s.disp.pick == .gateOpen then
    pickBoundary (modDisp (fun d => { d with pick := .none })
      (countMiss (s.disp.lastCassette.getD 0) .dispense (shutPickGate (takeSamples .p raws s))))
  else if s.cal.phase == .waiting && s.cal.channel == .p then
    let t := countMiss s.cal.cassette .calibrate (shutPickGate (takeSamples .p raws s))
    endCal (if s.cal.locked then .lockdown else .calFailed) (stopCal t)
  else s

/-- PICK_MISS. -/
def execPickMiss (raws : List Nat) (s : State) : Host.Outcome State Fault Refusal := .next (finish (missPick raws s))

end Sys2Proof.Machine
end

