-- ==== Sys2Proof/Machine/Dispatch.lean ====
section
/-! DEFINITION. One arm for each row of spec/opcode_table.json, in the table's order. -/

namespace Sys2Proof.Machine

/-- The effect of a command or an event on everything but the queue. -/
def exec (i : Instr) (s : State) : Host.Outcome State Fault Refusal :=
  match i with
  | .dispense h req => Sys2Proof.Machine.execDispense h req s
  | .cancel h => Sys2Proof.Machine.execCancel h s
  | .depositOpen h => Sys2Proof.Machine.execDepositOpen h s
  | .depositCloseThroat h raws => Sys2Proof.Machine.execDepositCloseThroat h raws s
  | .depositAccept h raws => Sys2Proof.Machine.execDepositAccept h raws s
  | .depositReturn h raws => Sys2Proof.Machine.execDepositReturn h raws s
  | .calibrate h channel k cassette pocketOccupied => Sys2Proof.Machine.execCalibrate h channel k cassette pocketOccupied s
  | .cassetteLoad h slot den count => Sys2Proof.Machine.execCassetteLoad h slot den count s
  | .cassetteUnload h slot => Sys2Proof.Machine.execCassetteUnload h slot s
  | .clearPurge h => Sys2Proof.Machine.execClearPurge h s
  | .depositCassetteExchange h => Sys2Proof.Machine.execDepositCassetteExchange h s
  | .bind h => Sys2Proof.Machine.execBind h s
  | .unbind h => Sys2Proof.Machine.execUnbind h s
  | .query h record index => Sys2Proof.Machine.execQuery h record index s
  | .queryZonesClear h => Sys2Proof.Machine.execQueryZonesClear h s
  | .laneOpen h => Sys2Proof.Machine.execLaneOpen h s
  | .laneClose h => Sys2Proof.Machine.execLaneClose h s
  | .laneNight h => Sys2Proof.Machine.execLaneNight h s
  | .clearJam h stackerOccupied escrowOccupied => Sys2Proof.Machine.execClearJam h stackerOccupied escrowOccupied s
  | .clearFaults h => Sys2Proof.Machine.execClearFaults h s
  | .clearCause h => Sys2Proof.Machine.execClearCause h s
  | .binServiceOpen h => Sys2Proof.Machine.execBinServiceOpen h s
  | .binServiceClose h binPresent => Sys2Proof.Machine.execBinServiceClose h binPresent s
  | .alarmClear h latch => Sys2Proof.Machine.execAlarmClear h latch s
  | .shiftClose h => Sys2Proof.Machine.execShiftClose h s
  | .resetLane h => Sys2Proof.Machine.execResetLane h s
  | .unknownCommand h kind => Sys2Proof.Machine.execUnknownCommand h kind s
  | .approvalAnswer src slot ask verdict kind amount => Sys2Proof.Machine.execApprovalAnswer src slot ask verdict kind amount s
  | .peerPosition src p => Sys2Proof.Machine.execPeerPosition src p s
  | .peerIntent src amount => Sys2Proof.Machine.execPeerIntent src amount s
  | .peerAlarm src dst summary => Sys2Proof.Machine.execPeerAlarm src dst summary s
  | .peerFrame src f => Sys2Proof.Machine.execPeerFrame src f s
  | .duplicateStation => Sys2Proof.Machine.execDuplicateStation s
  | .frameComplained => Sys2Proof.Machine.execFrameComplained s
  | .intentCompletion => Sys2Proof.Machine.execIntentCompletion s
  | .ownFrameCompleted b => Sys2Proof.Machine.execOwnFrameCompleted b s
  | .querySegmentCompleted => Sys2Proof.Machine.execQuerySegmentCompleted s
  | .transmissionComplained b => Sys2Proof.Machine.execTransmissionComplained b s
  | .arbitrationLost => Sys2Proof.Machine.execArbitrationLost s
  | .idlePoint => Sys2Proof.Machine.execIdlePoint s
  | .positionPeriod => Sys2Proof.Machine.execPositionPeriod s
  | .peerStale station => Sys2Proof.Machine.execPeerStale station s
  | .intentSpacingEnd => Sys2Proof.Machine.execIntentSpacingEnd s
  | .dispenseCeilingTimeout => Sys2Proof.Machine.execDispenseCeilingTimeout s
  | .depositCeilingTimeout => Sys2Proof.Machine.execDepositCeilingTimeout s
  | .approvalTimeout slot => Sys2Proof.Machine.execApprovalTimeout slot s
  | .dispenseTakeTimeout => Sys2Proof.Machine.execDispenseTakeTimeout s
  | .returnTakeTimeout => Sys2Proof.Machine.execReturnTakeTimeout s
  | .clearanceTakeTimeout => Sys2Proof.Machine.execClearanceTakeTimeout s
  | .calibrationTakeTimeout raws => Sys2Proof.Machine.execCalibrationTakeTimeout s raws
  | .dispenseTaken => Sys2Proof.Machine.execDispenseTaken s
  | .returnTaken => Sys2Proof.Machine.execReturnTaken s
  | .refusedNotesTaken => Sys2Proof.Machine.execRefusedNotesTaken s
  | .clearanceTaken => Sys2Proof.Machine.execClearanceTaken s
  | .calibrationNoteTaken => Sys2Proof.Machine.execCalibrationNoteTaken s
  | .throatIdleTimeout raws => Sys2Proof.Machine.execThroatIdleTimeout raws s
  | .pickMiss raws => Sys2Proof.Machine.execPickMiss raws s
  | .zeroCaptureStall ch => Sys2Proof.Machine.execZeroCaptureStall ch s
  | .pickJam raws => Sys2Proof.Machine.execPickJam s raws
  | .stackerPurgeJam => Sys2Proof.Machine.execStackerPurgeJam s
  | .presentJam => Sys2Proof.Machine.execPresentJam s
  | .stackerReversalJam => Sys2Proof.Machine.execStackerReversalJam s
  | .depositJam raws => Sys2Proof.Machine.execDepositJam s raws
  | .retractJam => Sys2Proof.Machine.execRetractJam s
  | .envelopeJam mm => Sys2Proof.Machine.execEnvelopeJam mm s
  | .recoveryPurgeJam => Sys2Proof.Machine.execRecoveryPurgeJam s
  | .recoveryStackingJam => Sys2Proof.Machine.execRecoveryStackingJam s
  | .wakingEnd c => Sys2Proof.Machine.execWakingEnd c s
  | .zoneScan readings asserted raws => Sys2Proof.Machine.execZoneScan readings asserted s raws
  | .zoneChange zone pocketOccupied raws => Sys2Proof.Machine.execZoneChange zone pocketOccupied s raws
  | .troubleCleared zone => Sys2Proof.Machine.execTroubleCleared zone s
  | .zoneRestored zone pocketOccupied raws => Sys2Proof.Machine.execZoneRestored zone pocketOccupied s raws
  | .wallLineRecognised => Sys2Proof.Machine.execWallLineRecognised s
  | .wallLineReleased => Sys2Proof.Machine.execWallLineReleased s
  | .zeroCaptureDone ch raws => Sys2Proof.Machine.execZeroCaptureDone ch raws s
  | .runStart ch raws first => Sys2Proof.Machine.execRunStart ch raws first s
  | .runEnd ch raws => Sys2Proof.Machine.execRunEnd ch raws s
  | .runCutOff ch raws => Sys2Proof.Machine.execRunCutOff ch raws s
  | .stackerCountIn raws => Sys2Proof.Machine.execStackerCountIn raws s
  | .escrowPush raws => Sys2Proof.Machine.execEscrowPush raws s
  | .refusedNoteAtPocket raws => Sys2Proof.Machine.execRefusedNoteAtPocket raws s
  | .noteStacked escrowClear => Sys2Proof.Machine.execNoteStacked escrowClear s
  | .returnBundleInPocket => Sys2Proof.Machine.execReturnBundleInPocket s
  | .presentMovementEnd => Sys2Proof.Machine.execPresentMovementEnd s
  | .purgeMovementEnd => Sys2Proof.Machine.execPurgeMovementEnd s
  | .stackerReversalEnd => Sys2Proof.Machine.execStackerReversalEnd s
  | .returnReversalEnd => Sys2Proof.Machine.execReturnReversalEnd s
  | .calibrationNoteAtPocket => Sys2Proof.Machine.execCalibrationNoteAtPocket s
  | .retractMovementEnd => Sys2Proof.Machine.execRetractMovementEnd s
  | .envelopeArrival => Sys2Proof.Machine.execEnvelopeArrival s
  | .envelopeWithdrawn => Sys2Proof.Machine.execEnvelopeWithdrawn s
  | .envelopeClearsSlot => Sys2Proof.Machine.execEnvelopeClearsSlot s
  | .lengthSensorReached => Sys2Proof.Machine.execLengthSensorReached s
  | .envelopeTooLong => Sys2Proof.Machine.execEnvelopeTooLong s
  | .lengthMeasured mm => Sys2Proof.Machine.execLengthMeasured mm s
  | .thicknessTrip mm => Sys2Proof.Machine.execThicknessTrip mm s
  | .imprintStart => Sys2Proof.Machine.execImprintStart s
  | .envelopeDrop => Sys2Proof.Machine.execEnvelopeDrop s
  | .envelopeReversalEnd => Sys2Proof.Machine.execEnvelopeReversalEnd s
  | .returnedEnvelopeCleared => Sys2Proof.Machine.execReturnedEnvelopeCleared s
  | .binServiceOpened => Sys2Proof.Machine.execBinServiceOpened s
  | .cassetteRemoved cassette => Sys2Proof.Machine.execCassetteRemoved cassette s
  | .cassetteReseated cassette => Sys2Proof.Machine.execCassetteReseated cassette s
  | .pendingRequestApplied => Sys2Proof.Machine.execPendingRequestApplied s
  | .lockdownExit => Sys2Proof.Machine.execLockdownExit s
  | .recoveryEnd => Sys2Proof.Machine.execRecoveryEnd s
  | .powerOn b => Sys2Proof.Machine.execPowerOn b s
  | .supplyDip b => Sys2Proof.Machine.execSupplyDip b s
  | .resetLine b => Sys2Proof.Machine.execResetLine b s
  | .mechanicsCheck x => Sys2Proof.Machine.execMechanicsCheck x s
  | .tailEnd ch raws => Sys2Proof.Machine.execTailEnd ch raws s

end Sys2Proof.Machine
end

