-- ==== Sys2Proof/Machine/Step.lean ====
section
/-! DEFINITION. The step: the command at the front of the queue is run on the rest; on an empty queue one millisecond
passes (DESIGN CHOICE, notes/assumptions/2.md). -/

namespace Sys2Proof.Machine

/-- A timer that runs counts down to 0; its end is a row of its own. -/
def countDown (t : Option Nat) : Option Nat := t.map (· - 1)

/-- One millisecond for an entry of the peer view: its age, held at 65,535 (section 6.2). -/
def tickEntry (e : PeerEntry) : PeerEntry := { e with age := min 65535 (e.age + 1) }

/-- One millisecond for the peer view unit: the ages, the 100 ms after a refusal (R127) and, after STARTING, the
POSITION period (R130). -/
def tickPeer (starting : Bool) (p : PeerView) : PeerView :=
  { p with entries := p.entries.map tickEntry,
           request := p.request.map fun r => { r with spacingMs := r.spacingMs - 1 },
           periodMs := if starting then p.periodMs else p.periodMs - 1 }

/-- One millisecond passes: lane time (R184) and every timer that runs. -/
def tick (s : State) : State :=
  { s with
      lane := { s.lane with timeMs := s.lane.timeMs + 1 },
      peer := tickPeer (s.lane.state == .starting) s.peer,
      disp := { s.disp with takeMs := countDown s.disp.takeMs, ceilingMs := countDown s.disp.ceilingMs },
      dep :=
        { s.dep with takeMs := countDown s.dep.takeMs, idleMs := countDown s.dep.idleMs,
                     ceilingMs := countDown s.dep.ceilingMs },
      cal := { s.cal with takeMs := countDown s.cal.takeMs },
      approval :=
        { s.approval with slots := s.approval.slots.map fun x => { x with remainingMs := countDown x.remainingMs } } }

/-- The command at the front of the queue is taken and run with the rest of the queue; an empty queue lets a
millisecond pass. -/
def step (s : State) : Host.Outcome State Fault Refusal :=
  match s.pending with
  | [] => .next (tick s)
  | c :: rest => exec c { s with pending := rest }

/-- The command that the word spells is put at the front of the queue; no row of the table has bits, so no word
spells one. -/
def State.withFetchWord (s : State) (nbits w : Nat) : State :=
  match decodeTableWord nbits w with
  | some c => { s with pending := c :: s.pending }
  | none => s

end Sys2Proof.Machine
end

