-- ==== Sys2Proof/Safety.lean ====
section
/-! DEFINITION. The terms in which claims about the LW220 are stated: when a step's own effect comes whole (`Fits`,
`Comes`), what the lane has said on the wall bus (`queued`, `reported`, `replied`, `positioned`), how an operation ends
(`dispenseEnded`, `depositEnded`, `calEnded`), and the invariants of a safe run. Each is written from the rule it
cites, as plain values: none calls the transmit queue's or the reply memory's operations. -/

namespace Sys2Proof.Machine

/-! ### When an effect comes whole -/

/-- A state whose queue took every frame without giving one up (R178), and in which no commanded reset is due (R192). -/
abbrev Fits (t : State) : Prop := t.bus.queue.length ≤ 16 ∧ t.lane.resetDue = false

/-- Nothing that is a step of its own is due before a command (R108, R151, R187, R189). -/
abbrev NothingDue (s : State) : Prop :=
  binOpenDue s = false ∧ recoveryDue s = false ∧ exitDue s = false ∧ pendingDue s = false

/-- A COMMAND of another station reaches a lane that takes part on the medium, and is no RETRY (R176, R180, R181). -/
abbrev Comes (h : Header) (s : State) : Prop :=
  takesPart s = true ∧ s.lane.station ≠ 31 ∧ h.src ≤ 30 ∧ h.src ≠ s.lane.station ∧ h.retry = false ∧
    NothingDue s

/-- The lane once the peer view has the frame of a command (R117, R118): every command's effect starts from it. -/
def heard (h : Header) (s : State) : State := applyFrame h.src .console false id s

/-! ### What the lane has said on the wall bus -/

/-- Frames stand at the end of the transmit queue (R177). -/
def queued (l : List TxEntry) (s : State) : State := { s with bus := { s.bus with queue := s.bus.queue ++ l } }

/-- The frames of a report under one report number (R183). -/
def reportEntries (cls : FrameClass) (kind : FrameKind) (dst : Nat) (redirected : Bool) (owner : Owner) (no : Nat)
    (content : List Byte) : List TxEntry :=
  (reportPayloads content).map fun p => { frame := plainFrame cls dst p.1 redirected kind no p.2, owner := owner }

/-- A report has been queued under the next report number (R183). -/
def reported (cls : FrameClass) (kind : FrameKind) (dst : Nat) (redirected : Bool) (owner : Owner)
    (content : List Byte) (s : State) : State :=
  { s with
      bus :=
        { s.bus with
            queue := s.bus.queue ++ reportEntries cls kind dst redirected owner s.bus.reportNo content,
            reportNo := (s.bus.reportNo + 1) % 256 } }

/-- A NOTICE to all stations has been queued. -/
def toldAll (kind : NoticeKind) (content : List Byte) (s : State) : State :=
  reported .notice (.notice kind) 31 false .nobody content s

/-- A NOTICE to the bound console, or to all stations where none is bound or it is STALE, has been queued (R183). -/
def toldBound (kind : NoticeKind) (content : List Byte) (s : State) : State :=
  reported .notice (.notice kind) (boundTarget s).1 (boundTarget s).2 .nobody content s

/-- A REPLY with this payload has been queued to a command other than QUERY, and remembered (R180, R181). -/
def replied (h : Header) (k : CmdKind) (payload : List Byte) (s : State) : State :=
  let f := replyFrame h k false payload
  { s with
      bus :=
        { s.bus with
            queue := s.bus.queue ++ [{ frame := f }],
            memory := remember { src := h.src, tag := h.tag, kind := k, frame := f } s.bus.memory } }

/-- REPLY ACCEPTED has been sent. -/
def acceptedReply (h : Header) (k : CmdKind) (figures : List Byte) (s : State) : State :=
  replied h k (be 1 1 ++ figures) s

/-- REPLY DONE has been sent. -/
def doneReply (h : Header) (k : CmdKind) (figures : List Byte) (s : State) : State :=
  replied h k (be 1 2 ++ figures) s

/-- REPLY REFUSED has been sent. -/
def refusedReply (h : Header) (k : CmdKind) (r : Reason) (s : State) : State :=
  replied h k (be 1 3 ++ be 1 (reasonPos r)) s

/-- A POSITION has been asked for (R130): the period restarts, and one POSITION waits. -/
def positioned (s : State) : State :=
  { s with
      peer := { s.peer with periodMs := 500 },
      bus :=
        { s.bus with
            queue := if positionPending s.bus.queue then s.bus.queue else s.bus.queue ++ [positionFrame] } }

/-- A hard fault has been raised: flag, record and notice (R165, R168). -/
def faulted (kind : FaultKind) (op : FaultOp) (place : Option FaultPlace) (station : Option Nat) (s : State) : State :=
  toldAll .fault (faultContent (faultReport kind op place station s) s.fault.hold)
    (recordFault (faultReport kind op place station s) s)

/-- The lane has entered a state (R98, R130, R184). -/
def laneEntered (st : LaneState) (s : State) : State :=
  positioned (reshutter { s with lane := { s.lane with state := st } })

/-! ### Approval slots -/

/-- Slot `i` has been taken and its ASK queued (R158, R159). -/
def slotTaken (i : Nat) (kind : OpKind) (amount requester : Nat) (extra : List Byte) (s : State) : State :=
  let ask := ((s.approval.slots.getD i {}).ask + 1) % 64
  let new : ApprovalSlot :=
    { kind := some kind, amount := some amount, requester := some requester, ask := ask,
      timeAsked := some (laneTime s), remainingMs := some (approvalSeconds s * 1000) }
  let frame :=
    plainFrame .approval 31 false false .ask (i * 64 + ask)
      (be 1 (opKindPos kind) ++ be 3 amount ++ be 1 requester ++ be 1 (approvalSeconds s) ++ extra)
  queued [{ frame := frame, owner := .ask i }]
    { s with approval := { s.approval with slots := s.approval.slots.set i new } }

/-- The content of an APPROVAL_CLOSED (R161, 12.2). -/
def closedContent (i : Nat) (x : ApprovalSlot) (how : Settling) : List Byte :=
  be 1 (i * 64 + x.ask) ++ beOpt 1 (x.kind.map opKindPos) ++ beOpt 3 x.amount ++ beOpt 1 x.requester ++
    settlingBytes how

/-- The APPROVAL_CLOSED of an approved RESET_LANE is watched: the reset waits for it (R192). -/
def closingOwner : Option OpKind → Settling → Owner
  | some .resetLane, .given _ => .resetNotice
  | _, _ => .nobody

/-- Slot `i`, WAITING, is FREE with its ask number kept, and APPROVAL_CLOSED has been queued (R161, R162). -/
def slotClosed (i : Nat) (how : Settling) (s : State) : State :=
  let x := s.approval.slots.getD i {}
  reported .notice (.notice .approvalClosed) 31 false (closingOwner x.kind how) (closedContent i x how)
    { s with approval := { s.approval with slots := s.approval.slots.set i { ask := x.ask } } }

/-- The same by withdrawal: an ASK whose transmission has not begun is gone from the queue (R163). -/
def slotWithdrawn (i : Nat) (s : State) : State :=
  let tag := i * 64 + (s.approval.slots.getD i {}).ask
  let t := slotClosed i .withdrawn s
  { t with
      bus :=
        { t.bus with
            queue := t.bus.queue.filter fun e => !(e.owner == .ask i && e.frame.tag == tag && !e.inTx) } }

/-! ### Reservations and endings -/

/-- An engine's reservation (section 6.1). -/
def reservationOf : IntentKind → HeldCash → Nat
  | .dispense, h => h.dispense
  | .deposit, h => h.deposit

/-- H and the reservations without an engine's reservation (R115). -/
def withoutReservation : IntentKind → HeldCash → HeldCash
  | .dispense, h => { h with h := h.h - h.dispense, dispense := 0 }
  | .deposit, h => { h with h := h.h - h.deposit, deposit := 0 }

/-- An engine's reservation has been released (R72, R92, R115): H falls by it and a POSITION is asked for. A reservation
of 0 changes nothing. -/
def released (kind : IntentKind) (s : State) : State :=
  let new := withoutReservation kind s.peer.held
  if reservationOf kind s.peer.held = 0 then s
  else positioned { s with peer := { s.peer with held := new, kept := new } }

/-- A dispense has ended (R72): released, reported to the bound console, its record cleared. The notice's
operation byte is that of log entry 25 (notes/assumptions/25.md), here and in the next two. -/
def dispenseEnded (o : DispOutcome) (s : State) : State :=
  let d := { s.disp with outcome := some o }
  { toldBound .completion (dispCompletion d) (released .dispense { s with disp := d }) with disp := {} }

/-- A deposit session has ended (R92): released, reported to the bound console, its record cleared, the throat shut. -/
def depositEnded (o : DepOutcome) (s : State) : State :=
  let d := { s.dep with outcome := some o }
  let t := toldBound .completion (depCompletion s.peer.held.deposit d) (released .deposit { s with dep := d })
  { t with dep := {}, drives := { t.drives with throatGate := false, throatTransport := false } }

/-- A calibration has ended at its completion notice (R43). -/
def calEnded (o : CalOutcome) (s : State) : State :=
  let k := { s.cal with outcome := some o, gainAfter := (chanAt s s.cal.channel).gain }
  { toldBound .completion (calCompletion k) { s with cal := k } with cal := {} }

/-- An engine's request has been withdrawn (R128): a pending INTENT of it has left the queue, and one on the medium is
an orphan. -/
def requestWithdrawn (s : State) : State :=
  let mine := fun (e : TxEntry) => e.owner == .intent && !e.orphan
  { s with
      peer :=
        { s.peer with
            request := none,
            orphan := s.peer.orphan || s.bus.queue.any fun e => mine e && e.inTx },
      bus :=
        { s.bus with
            queue := (s.bus.queue.filter fun e => !(mine e && !e.inTx)).map fun e =>
              if mine e then { e with orphan := true } else e } }

/-- The record of cassette C`i+1` is rewritten, and its state follows its count with the notices of R3. -/
def stockChanged (i : Nat) (f : Cassette → Cassette) (s : State) : State :=
  let old := s.cash.cassettes.getD i {}
  let c := f old
  let st := if c.count = 0 then .empty else if c.count ≤ c.setpoint then .low else .active
  let put := fun (x : Cassette) => { s with cash := { s.cash with cassettes := s.cash.cassettes.set i x } }
  if c.st = .active ∨ c.st = .low then
    let t := put { c with st := st }
    if st = .empty then toldAll .cassetteEmpty (be 1 (i + 1) ++ cassetteFigures c) t
    else if st = .low ∧ c.st = .active then toldAll .cassetteLow (be 1 (i + 1) ++ be 2 c.count) t
    else t
  else put c

/-- An operation's end has nothing to do besides: no unbinding waits for it (R156) and no request is held back (R127). -/
abbrev QuietEnd (s : State) : Prop :=
  s.approval.unbindPending = false ∧ s.peer.request = none ∧ s.lane.state ≠ .starting

/-! ### Commands that meet no refusal -/

/-- A DISPENSE that meets none of the refusals of R45. -/
abbrev DispenseOpen (h : Header) (req : Request) (s : State) : Prop :=
  Comes h s ∧ s.lane.state = .opened ∧ isBound s h.src = true ∧ txnOpen s = false ∧ malformed s req = false ∧
    (s.alarm.recognised = true → s.alarm.duress = true) ∧ s.dispenserJam = false ∧ s.cash.purge.full = false

/-- A command of the bound console reaches a lane that is in no state of its own refusal (R149, R157, R186). -/
abbrev ComesBound (h : Header) (s : State) : Prop :=
  Comes h s ∧ isBound s h.src = true ∧ s.lane.state ≠ .lockdown ∧ s.lane.state ≠ .configFault

/-! ### Invariants of a safe run -/

/-- The first-fault record latches a fault exactly while it is not EMPTY, a latched fault's flag is set, and SECOND is
only set over a hard one (R165, R166). -/
abbrev FaultRecordSound (u : FaultUnit) : Prop :=
  u.flags.length = 18 ∧ (u.hold = .empty ↔ u.latched = none) ∧ (u.second = true → u.hold = .hard) ∧
    ∀ r, u.latched = some r → u.flags[faultKindIdx r.kind]? = some true ∧ (u.hold = .hard ↔ isHard r.kind = true)

/-- The retract compartment holds no more than it can (R95). -/
abbrev CompartmentBounded (c : Capture) : Prop := c.bundles.length ≤ 32 ∧ noteEstimate c ≤ 200

/-- The transmit queue holds at most 16 frames (R178). -/
abbrev QueueBounded (b : Bus) : Prop := b.queue.length ≤ 16

/-- The lane's own entry of the peer view is EMPTY (R116, R123). -/
abbrev OwnEntryEmpty (s : State) : Prop := (peerEntry s s.lane.station).status = .empty

end Sys2Proof.Machine
end

