-- ==== Sys2Proof/Certificates/Slice0/Obligations.lean ====
section
/-! DEFINITION. The statements for the provers, chapter by chapter of the spec. A statement of a result is an equation:
where the state meets its hypotheses, the command or event answers exactly the next state given, so that it says both
what changes and that nothing else does. `Fits t` asks that the transmit queue has room for what the step says (R178),
and `heard h s` is `s` once the peer view has the command's frame (R117, R118). -/

open Sys2Proof Sys2Proof.Machine

/-! ### Cassettes and stock (chapter 1) -/

/-- R4, R19, R107, R145, R158, R159, R192: a command that needs approval takes the lowest FREE slot, asks, and is
answered ACCEPTED; the owner keeps the slot's number and ask number, and nothing else of what it asks for is done yet.
That the ASK stands before the REPLY is the model's choice (notes/assumptions/30.md). -/
def Obligations.AskingCommandsTakeASlot : Prop :=
  ∀ (h : Header) (i : Nat) (s : State),
    let u := heard h s;
    let ref : SlotRef := { slot := i, ask := ((s.approval.slots.getD i {}).ask + 1) % 64 };
    Comes h s → lowestFree s = some i →
      (∀ slot den count,
        let t := acceptedReply h .cassetteLoad []
          (slotTaken i .cassetteLoad 0 h.src (be 1 slot ++ be 1 den ++ be 2 count)
            { u with
                cash :=
                  { s.cash with
                      loads := s.cash.loads ++
                        [{ slot := ref, tag := h.tag, cassette := slot - 1, den := den, count := count }] } });
        isBound s h.src = true → s.lane.state = .closed → s.cal.phase = .none →
        (∀ w ∈ s.cash.loads, w.cassette + 1 ≠ slot) → 1 ≤ slot → slot ≤ 4 → den ≤ 7 →
        (s.cash.denoms.getD den {}).used = true → count ≤ 2500 → seated s (slot - 1) = true → Fits t →
        exec (.cassetteLoad h slot den count) s = .next t) ∧
      (let t := acceptedReply h .depositCassetteExchange []
          (slotTaken i .depositCassetteExchange (min s.cash.deposit.perValue.sum 16777215) h.src []
            { u with cash := { s.cash with exchange := some { slot := ref, tag := h.tag } } });
        isBound s h.src = true → s.lane.state = .closed → s.cash.exchange = none → Fits t →
        exec (.depositCassetteExchange h) s = .next t) ∧
      (let t := acceptedReply h .binServiceOpen []
          (slotTaken i .binService (min (s.capture.bundles.map (·.value)).sum 16777215) h.src []
            { u with capture := { s.capture with bin := .awaitApproval, binSlot := some ref, shutter := false } });
        (s.lane.state = .closed ∨ s.lane.state = .recovery) → s.capture.bin = .none → captureIdle s.capture = true →
        Fits t → exec (.binServiceOpen h) s = .next t) ∧
      (let t := acceptedReply h .alarmClear []
          (slotTaken i .alarmClear 0 h.src (be 1 1) { u with alarm := { s.alarm with duressClear := some ref } });
        s.lane.state ≠ .configFault → s.alarm.duress = true → s.alarm.duressClear = none →
        (∀ z ∈ s.alarm.zones, z.type = .duress → z.state = .quiet ∧ z.frozen = false) → Fits t →
        exec (.alarmClear h 1) s = .next t) ∧
      (let t := acceptedReply h .alarmClear []
          (slotTaken i .alarmClear 0 h.src (be 1 2) { u with alarm := { s.alarm with attackClear := some ref } });
        s.lane.state ≠ .configFault → s.alarm.attack = true → s.alarm.attackClear = none →
        (∀ z ∈ s.alarm.zones, z.type = .attack → z.state = .quiet ∧ z.frozen = false) → Fits t →
        exec (.alarmClear h 2) s = .next t) ∧
      (let t := acceptedReply h .resetLane []
          (slotTaken i .resetLane 0 h.src [] { u with lane := { u.lane with resetWait := some ref } });
        s.lane.state ≠ .lockdown → s.lane.resetWait = none → Fits t → exec (.resetLane h) s = .next t)

/-- R6, R7, R8, R17, R187: an unload reports a cassette and clears its record; CLEAR_PURGE reports the tray and empties
its record; a presence switch that opens makes its cassette REMOVED with a notice, and one that closes makes a REMOVED
cassette UNLOADED. That PURGE_CLEARED sends a set flag as 1 and a clear one as 2 (notes/assumptions/9.md), and that each
notice stands behind the REPLY (notes/assumptions/30.md), is the model's choice. -/
def Obligations.CassetteAndTrayRecordsEmpty : Prop :=
  (∀ (h : Header) (s : State), ComesBound h s →
     (∀ i c,
       let u := doneReply h .cassetteUnload [] (heard h s);
       let w := toldAll .cassetteUnloaded
         (be 1 (i + 1) ++ beOpt 1 c.denom ++ be 1 (cassetteStatePos c.st) ++
           (be 2 c.count ++ be 2 c.loaded ++ be 2 c.accepted ++ be 2 c.rejectEst)) u;
       let empty : Cassette :=
         { st := .unloaded, denom := none, face := none, count := 0, loaded := 0, accepted := 0, rejectEst := 0,
           setpoint := c.setpoint, ref := 20, restart := 0, misses := 0 };
       let t := { w with cash := { s.cash with cassettes := s.cash.cassettes.set i empty } };
       s.lane.state = .closed → s.cal.phase = .none → (∀ x ∈ s.cash.loads, x.cassette ≠ i) → i ≤ 3 →
       s.cash.cassettes[i]? = some c → c.st ≠ .unloaded → Fits t → exec (.cassetteUnload h (i + 1)) s = .next t) ∧
     (let u := doneReply h .clearPurge [] (heard h s);
       let p := s.cash.purge;
       let w := toldAll .purgeCleared
         (be 2 p.total ++ p.perCassette.flatMap (be 2) ++ be 2 p.notes ++ be 3 p.value ++ be 1 (if p.full then 1 else 2)) u;
       let t := { w with
         cash :=
           { s.cash with purge := { total := 0, perCassette := [0, 0, 0, 0], notes := 0, value := 0, full := false } } };
       s.disp.move ≠ .purge → s.lane.recovery.stacker ≠ .running →
         (s.lane.state = .closed → Fits t → exec (.clearPurge h) s = .next t) ∧
         (s.lane.state = .recovery → s.lane.recovery.stacker = .noRoom → Fits t →
           exec (.clearPurge h) s =
             .next { t with lane := { t.lane with recovery := { s.lane.recovery with stacker := .running } } }))) ∧
  (∀ (s : State) (i : Nat) (c : Cassette),
     let switch := fun (b : Bool) => { s with board := { s.board with presence := s.board.presence.set i b } };
     let put := fun (x : Cassette) (u : State) =>
       { u with cash := { s.cash with cassettes := s.cash.cassettes.set i x } };
     i ≤ 3 → s.cash.cassettes[i]? = some c → s.lane.state ≠ .configFault →
       (let t := toldAll .cassetteRemoved
           (be 1 (i + 1) ++ (be 2 c.count ++ be 2 c.loaded ++ be 2 c.accepted ++ be 2 c.rejectEst))
           (put { c with st := .removed, misses := 0, restart := 0 } (switch false));
         s.board.presence[i]? = some true → Fits t → exec (.cassetteRemoved (i + 1)) s = .next t) ∧
       (s.board.presence[i]? = some false → c.st = .removed →
         exec (.cassetteReseated (i + 1)) s =
           .next (put
             { st := .unloaded, denom := none, face := none, count := 0, loaded := 0, accepted := 0, rejectEst := 0,
               setpoint := c.setpoint, ref := 20, restart := 0, misses := 0 } (switch true))))

/-! ### Measurement channels (chapter 2) -/

/-- A channel once the samples since its last step are in its gap, run or tail (R23, R24). -/
def samplesTaken (raws : List Nat) (c : Channel) : Channel := { c with flow := feedFlow (zeroOf c) c.gain raws c.flow }

/-- The whole outcome of R34's two conditions on 64 samples of a 12-bit converter: none is present against the rounded
mean, and they spread by at most 48 counts. -/
abbrev CaptureGood (gain : Nat) (raws : List Nat) : Prop :=
  (∀ r ∈ raws, ((r - (raws.sum + 32) / 64) * gain + 512) / 1024 < 30) ∧ ∀ a ∈ raws, ∀ b ∈ raws, a ≤ b + 48

/-- R21, R34, R35, R41, R42, R54, R55, R78: a good zero capture sets the zero, clears the drift and the lost mark and
opens the window; the dispense makes its first pick, the session opens its throat, and a calibration waits for its note.
A failed one leaves the channel as it was, raises ZERO_UNSTABLE and ends the operation ZERO_FAULT, a calibration too.
What leads a completion notice is the model's choice (notes/assumptions/25.md). -/
def Obligations.ZeroCapturesSucceedOrFail : Prop :=
  (∀ (raws : List Nat) (s : State),
     let z := (raws.sum + 32) / 64;
     let opened := fun (c : Channel) => { c with
       zero := some z, drift := 0, lost := false, window := true, flow := .gap 0 0, capturing := false };
     raws.length = 64 → (∀ r ∈ raws, r ≤ 4095) → s.lane.resetDue = false →
       (s.chP.capturing = true → CaptureGood s.chP.gain raws →
         (∀ j k, s.cal.phase = .none → s.disp.st = .zeroCapture → nextPair s.disp = some j →
           selectCassette s (s.disp.plan.getD j default).den = some k →
           exec (.zeroCaptureDone .p raws) s =
             .next { s with
                       chP := opened s.chP,
                       disp := { s.disp with st := .picking, pair := j, lastCassette := some k, pick := .gateOpen },
                       drives := { s.drives with pickGate := some k, pickTransport := true } }) ∧
         (s.cal.phase = .zeroCapture → s.cal.channel = .p →
           exec (.zeroCaptureDone .p raws) s =
             .next { s with
                       chP := opened s.chP, cal := { s.cal with phase := .waiting },
                       drives := { s.drives with pickGate := some s.cal.cassette, pickTransport := true } })) ∧
       (s.chQ.capturing = true → CaptureGood s.chQ.gain raws →
         (s.cal.phase = .none → s.dep.st = .zeroCapture →
           exec (.zeroCaptureDone .q raws) s =
             .next { s with
                       chQ := opened s.chQ,
                       dep := { s.dep with st := .feeding, idleMs := some (s.config.takeTimeout * 1000) },
                       drives := { s.drives with throatGate := true, throatTransport := true } }) ∧
         (s.cal.phase = .zeroCapture → s.cal.channel = .q →
           exec (.zeroCaptureDone .q raws) s =
             .next { s with
                       chQ := opened s.chQ,
                       cal := { s.cal with phase := .waiting, takeMs := some (s.config.takeTimeout * 1000) },
                       drives := { s.drives with throatGate := true, throatTransport := true } }))) ∧
  (∀ (raws : List Nat) (s : State),
     raws.length = 64 → (∀ r ∈ raws, r ≤ 4095) → s.cal.phase = .none → QuietEnd s →
       (let u := faulted .zeroUnstable .dispense (some (.channel .p)) none
           { s with chP := { s.chP with capturing := false } };
         let t := dispenseEnded .zeroFault
           { u with drives := { s.drives with pickTransport := false, pickGate := none } };
         s.chP.capturing = true → ¬CaptureGood s.chP.gain raws → s.disp.st = .zeroCapture → Fits t →
         exec (.zeroCaptureDone .p raws) s = .next t) ∧
       (let u := faulted .zeroUnstable .deposit (some (.channel .q)) none
           { s with chQ := { s.chQ with capturing := false } };
         let t := depositEnded .zeroFault
           { u with drives := { s.drives with throatGate := false, throatTransport := false } };
         s.chQ.capturing = true → ¬CaptureGood s.chQ.gain raws → s.dep.st = .zeroCapture → Fits t →
         exec (.zeroCaptureDone .q raws) s = .next t)) ∧
  (∀ (raws : List Nat) (s : State),
     let idle := fun (c : Channel) => { c with window := false, flow := .none, capturing := false };
     raws.length = 64 → (∀ r ∈ raws, r ≤ 4095) → s.cal.phase = .zeroCapture → s.approval.unbindPending = false →
       (let u := faulted .zeroUnstable .calibrate (some (.channel .p)) none { s with chP := idle s.chP };
         let t := calEnded .zeroFault { u with drives := { s.drives with pickTransport := false, pickGate := none } };
         s.cal.channel = .p → s.chP.capturing = true → s.chP.window = false → ¬CaptureGood s.chP.gain raws → Fits t →
         exec (.zeroCaptureDone .p raws) s = .next t) ∧
       (let u := faulted .zeroUnstable .calibrate (some (.channel .q)) none { s with chQ := idle s.chQ };
         let t := calEnded .zeroFault
           { u with drives := { s.drives with throatGate := false, throatTransport := false } };
         s.cal.channel = .q → s.chQ.capturing = true → s.chQ.window = false → ¬CaptureGood s.chQ.gain raws → Fits t →
         exec (.zeroCaptureDone .q raws) s = .next t))

/-- R21, R25, R32, R33, R36, R37, R38, R39: the end of a gap: fewer than 8 samples or a lost zero track nothing; in band
the zero moves one count toward the mean; out of band it stays, the drift rises, and the eighth in a row loses the zero.
That this one raises ZERO_DRIFT and ZERO_LOST both is read from R38 (notes/assumptions/29.md). The close of a window
ends the gap in progress, discards a run in progress and abandons a capture. What a SINGLE note of thickness T and ratio
q does to a reference and its restart count. -/
def Obligations.ZeroAndReferenceFollowTheNotes : Prop :=
  (∀ (ch : ChannelId) (n sum z : Nat) (s : State),
     let c := chanAt s ch;
     let put := fun (x : Channel) => match ch with
       | .p => { s with chP := x }
       | .q => { s with chQ := x };
     let m := (sum + n / 2) / n;
     let away : Int := (m : Int) - z;
     c.zero = some z →
       ((n < 8 ∨ c.lost = true) → endGap ch n sum s = s) ∧
       (8 ≤ n → c.lost = false →
         (|away| ≤ s.config.captureBand →
           endGap ch n sum s = put { c with zero := some ((z : Int) + away.sign).toNat, drift := 0 }) ∧
         ((s.config.captureBand : Int) < |away| →
           let u := raiseSoft .zeroDrift (channelOp s ch) (some (.channel ch)) none (put { c with drift := c.drift + 1 });
           (c.drift + 1 < 8 → endGap ch n sum s = u) ∧
           (let lost := { c with drift := c.drift + 1, lost := true };
             let t := faulted .zeroLost (channelOp s ch) (some (.channel ch)) none
               (match ch with
                 | .p => { u with chP := lost }
                 | .q => { u with chQ := lost });
             8 ≤ c.drift + 1 → t.bus.queue.length ≤ 16 → endGap ch n sum s = t)))) ∧
  (∀ (ch : ChannelId) (s : State),
     let c := chanAt s ch;
     let idle := { c with window := false, flow := .none, capturing := false };
     let closed := match ch with
       | .p => { s with chP := idle }
       | .q => { s with chQ := idle };
     (∀ n sum, c.window = true → c.flow = .gap n sum → closeWindow ch s = endGap ch n sum closed) ∧
       ((c.window = false ∨ c.flow = .none) → closeWindow ch s = closed) ∧
       (∀ cs trail, (c.flow = .run cs trail ∨ c.flow = .tail trail) → closeWindow ch s = closed)) ∧
  (∀ t q ref restart : Nat,
     let d : Int := (t : Int) - ref;
     let inRange := fun (n : Int) => (max 20 (min 400 n)).toNat;
     learn t q ref restart =
       if 88 ≤ q ∧ q ≤ 112 then (inRange (ref + d.sign * ((|d| + 8) / 16)), 0)
       else if restart + 1 < 8 then (ref, restart + 1)
       else (inRange t, 0))

/-- R8, R23, R37, R41, R42, R82: a present sample ends the gap and starts a run with its corrected value; the zero
follows the gap only after that, the misses of a picked cassette are cleared, and the session's idle timer starts
again unless the throat is closing. A run that starts while an accepted note is on its way to the stacker is the
pick's (the model's choice: notes/assumptions/11.md). -/
def Obligations.RunStartsAtPresentSample : Prop :=
  ∀ (raws : List Nat) (first n sum : Nat) (s : State),
    let gapped := fun (ch : ChannelId) (v : State) => endGap ch (n + raws.length) (sum + raws.sum) v;
    let absent := fun (c : Channel) => ∀ r ∈ raws, ((r - zeroOf c) * c.gain + 512) / 1024 < 30;
    let seen := fun (c : Channel) =>
      c.window = true ∧ c.flow = .gap n sum ∧ absent c ∧ 30 ≤ ((first - zeroOf c) * c.gain + 512) / 1024;
    let run := fun (c : Channel) => { c with flow := .run [first - zeroOf c] [] };
    let cleared := fun (i : Nat) (v : State) =>
      { v.cash with cassettes := v.cash.cassettes.modify i fun x => { x with misses := 0 } };
    (seen s.chP →
      let u := gapped .p { s with chP := run s.chP };
      u.lane.resetDue = false →
      (∀ i, s.cal.phase = .none → s.disp.st = .picking → s.disp.lastCassette = some i →
        exec (.runStart .p raws first) s =
          .next { u with cash := cleared i u, disp := { s.disp with pick := .running } }) ∧
      (s.cal.phase = .waiting → s.cal.channel = .p →
        exec (.runStart .p raws first) s =
          .next { u with cash := cleared s.cal.cassette u, cal := { s.cal with phase := .running } })) ∧
    (seen s.chQ →
      let u := gapped .q { s with chQ := run s.chQ };
      u.lane.resetDue = false →
      (s.cal.phase = .none → s.dep.st = .feeding → s.dep.closing = none →
        exec (.runStart .q raws first) s =
          .next { u with dep := { s.dep with idleMs := some (s.config.takeTimeout * 1000) } }) ∧
      (s.cal.phase = .none → s.dep.closing ≠ none → exec (.runStart .q raws first) s = .next u) ∧
      (s.cal.phase = .waiting → s.cal.channel = .q →
        exec (.runStart .q raws first) s = .next { u with cal := { s.cal with phase := .running, takeMs := none } }))

/-- The class a thickness ratio gives (table of section 2.5). -/
def ratioClass (q : Nat) : NoteClass :=
  if q < 60 then .thin else if q < 151 then .single else if q < 261 then .double else .multi

/-- R26, R27, R28, R29, R30: the record of a run of `cs` on either channel, classified. -/
def Obligations.MeasuredRecordIsClassified : Prop :=
  ∀ (s : State) (i : Nat) (cs : List Nat) (cut : Bool),
    let n := cs.length;
    let mean := (((cs.drop 4).take (n - 8)).sum + (n - 8) / 2) / (n - 8);
    let thick := fun (g : Nat) => min ((mean * g + 512) / 1024) 32767;
    let ratio := fun (g ref : Nat) => min (thick g * 100 / ref) 999;
    let whole := fun (r : NoteRecord) =>
      r.n = n ∧ r.length = 5 * n ∧ r.cutOff = cut ∧ (r.fragment = true ↔ n < 16) ∧
        (cut = true → r.cls = .overlap) ∧ (cut = false → n < 16 → r.cls = .thin) ∧
        (n < 16 → r.c = none ∧ r.t = none ∧ r.q = none);
    (∀ d, (cassetteAt s i).denom = some d →
      let r := recordP s i cs cut;
      let e := s.cash.denoms.getD d {};
      let good := |(5 * n : Int) - e.nomLength| ≤ e.window;
      let q := ratio s.chP.gain (cassetteAt s i).ref;
      whole r ∧ r.den = some d ∧
        (16 ≤ n → r.c = some mean ∧ r.t = some (thick s.chP.gain) ∧ r.q = some q ∧
          r.ref = some (cassetteAt s i).ref ∧
          (cut = false → r.cls = if ratioClass q = .single ∧ ¬good then .length else ratioClass q))) ∧
    (let r := recordQ s cs cut;
      let fits := fun (d : Nat) => d < 8 ∧ (s.cash.denoms.getD d {}).used = true ∧
        |(5 * n : Int) - (s.cash.denoms.getD d {}).nomLength| ≤ (s.cash.denoms.getD d {}).window;
      whole r ∧ (16 ≤ n → r.c = some mean ∧ r.t = some (thick s.chQ.gain)) ∧
        (∀ d, fits d → (∀ e, fits e → e = d) → 16 ≤ n →
          let q := ratio s.chQ.gain (s.cash.denoms.getD d {}).ref;
          r.den = some d ∧ r.q = some q ∧ r.ref = some (s.cash.denoms.getD d {}).ref ∧
            (cut = false → r.cls = ratioClass q)) ∧
        ((∀ d, fits d → ∃ e, fits e ∧ e ≠ d) → r.den = none ∧ r.q = none ∧ r.ref = none ∧
          (cut = false → 16 ≤ n → r.cls = .unclassified)))

/-- R9, R26, R31, R32, R33, R56: a SINGLE note of a dispense charges its cassette 1, is offered to the cassette's
reference, and is sent to the stacker, which is then owed one note more. That the pick gate closes here
(notes/assumptions/27.md), and that a charge which meets a count of 0 leaves it there (notes/assumptions/28.md), is the
model's choice. -/
def Obligations.SingleNoteGoesToTheStacker : Prop :=
  ∀ (raws cs cs' trail trail' : List Nat) (s : State) (i t q : Nat) (c : Cassette),
    let r := recordP s i cs'.reverse false;
    let charged := stockChanged i (fun x => { x with count := x.count - 1, accepted := x.accepted + 1 })
      { s with chP := { s.chP with flow := .gap trail'.length trail'.sum, last := some r } };
    let taught := fun (x : Cassette) =>
      { x with ref := (learn t q c.ref c.restart).1, restart := (learn t q c.ref c.restart).2 };
    let u := { charged with
      cash := { charged.cash with cassettes := charged.cash.cassettes.modify i taught },
      disp := { s.disp with pick := .toStacker, owed := s.disp.owed + 1 },
      drives := { s.drives with toStacker := true, pickGate := none } };
    s.cal.phase = .none → s.disp.st = .picking → s.disp.pick = .running → s.disp.lastCassette = some i →
      s.cash.cassettes[i]? = some c → c.denom.isSome → s.chP.flow = .run cs trail →
      feedRun (zeroOf s.chP) s.chP.gain raws cs trail = .ended cs' trail' [] →
      r.cls = .single → r.t = some t → r.q = some q → Fits u →
      exec (.runEnd .p raws) s = .next u

/-- The estimate a rejected class is charged (table of section 1.3). -/
def estimateOf : NoteClass → Nat
  | .multi => 3
  | .double | .overlap => 2
  | .thin | .length | .unclassified | .single => 1

/-- A rejected note has been charged to cassette `i` and to the tray, which has room (R10, R11, R15). -/
def rejectCharged (i est : Nat) (s : State) : State :=
  let charged := stockChanged i (fun x => { x with count := x.count - est, rejectEst := x.rejectEst + est }) s;
  let p := s.cash.purge;
  { charged with
    cash :=
      { charged.cash with
          purge :=
            { p with
                total := p.total + est, perCassette := p.perCassette.modify i fun n => min 100 (n + est) } } }

/-- The same where the tray has no room for it (R15): the total stands at 100, the full flag is set, and PURGE_FULL is
raised. -/
def rejectFills (op : FaultOp) (i est : Nat) (s : State) : State :=
  let charged := stockChanged i (fun x => { x with count := x.count - est, rejectEst := x.rejectEst + est }) s;
  let p := s.cash.purge;
  faulted .purgeFull op (some (.cassette i)) none
    { charged with
      cash :=
        { charged.cash with
            purge :=
              { p with
                  total := 100, perCassette := p.perCassette.modify i fun n => min 100 (n + est), full := true } } }

/-- A rejected note has been charged and has entered the tray as the tray stood (R10, R15): one that was full already
counts it under its cassette only. -/
def rejectEntered (op : FaultOp) (i est : Nat) (s : State) : State :=
  let charged := stockChanged i (fun x => { x with count := x.count - est, rejectEst := x.rejectEst + est }) s;
  let p := s.cash.purge;
  if p.full = true then
    { charged with
      cash :=
        { charged.cash with
            purge := { p with perCassette := p.perCassette.modify i fun n => min 100 (n + est) } } }
  else if p.total + est ≤ 100 then rejectCharged i est s
  else rejectFills op i est s

/-- A rejected note of a dispense has been charged, with the tray's record `charged`, and reported (R31, R57). -/
def noteRejected (i : Nat) (charged : State) : State :=
  raiseSoft .noteReject .dispense (some (.cassette i)) none
    { charged with
        disp := { charged.disp with rejects := charged.disp.rejects + 1 },
        drives := { charged.drives with toStacker := false, pickGate := none } }

/-- PURGING has been entered with an outcome (R16, R62, R63): over an empty stacker the dispense has ended; a stacker
that the tray has room for is on its way there; one that it has none for strands the dispense, with PURGE_FULL
raised. -/
def purgingEntered (o : DispOutcome) (s : State) : State :=
  let d := { s.disp with st := .purging, decided := some o, pick := .none, owed := 0, move := .none };
  if d.stackerNotes = 0 then dispenseEnded o { s with disp := d }
  else if s.cash.purge.total + d.stackerNotes ≤ 100 then { s with disp := { d with move := .purge } }
  else
    let w := faulted .purgeFull .dispense none none
      { s with disp := d, cash := { s.cash with purge := { s.cash.purge with full := true } } };
    let e := { d with outcome := some o, stranded := true };
    toldBound .completion (dispCompletion e) { w with disp := e }

/-- Picking has ended with an outcome (R57 to R61): the pick transport stands, the window has closed over its last gap,
and PURGING has been entered. -/
def pickingEnded (o : DispOutcome) (s : State) : State :=
  purgingEntered o (closeWindow .p { s with drives := { s.drives with pickTransport := false, pickGate := none } })

/-- What an ending of picking from `s` needs to come whole: the frames fit, and a dispense that ends at once leaves
nothing else to do. -/
abbrev EndsWhole (s t : State) : Prop := (s.disp.stackerNotes = 0 → QuietEnd s) ∧ Fits t

/-- R10, R11, R13, R15, R16, R24, R29, R31, R55, R57, R60, R61, R62, R63: a rejected note of a dispense is charged its
estimate and reported, and the next pick follows, or picking ends SHORT where no cassette is left for it; at a note that
fills the tray picking ends PURGE_FULL, else at the 11th reject REJECT_LIMIT. A note cut off is OVERLAP, and its tail
ends the pick. That an ending waits for accepted notes still on their way to the stacker and not for the tail of a note
cut off (notes/assumptions/11.md), and that the pick gate closes at the classification (notes/assumptions/27.md), is the
model's choice. What leads a completion notice is the model's choice (notes/assumptions/25.md). -/
def Obligations.RejectedNoteIsCharged : Prop :=
  ∀ (raws cs cs' trail trail' : List Nat) (s : State) (i j : Nat) (c : Cassette),
    let fed := feedRun (zeroOf s.chP) s.chP.gain raws cs trail;
    let held := fun (r : NoteRecord) (f : Flow) => { s with chP := { s.chP with flow := f, last := some r } };
    s.cal.phase = .none → s.disp.st = .picking → s.disp.pick = .running → s.disp.lastCassette = some i →
      s.cash.cassettes[i]? = some c → c.denom.isSome → c.rejectEst + 3 ≤ 65535 → s.cash.purge.full = false →
      s.chP.flow = .run cs trail → s.disp.stop = none → s.chP.lost = false →
      (let r := recordP s i cs'.reverse false;
        let est := estimateOf r.cls;
        let seen := held r (.gap trail'.length trail'.sum);
        let u := noteRejected i (rejectCharged i est seen);
        let filled := noteRejected i (rejectFills .dispense i est seen);
        let waits := fun (v : State) (o : Option DispOutcome) =>
          { v with disp := { v.disp with pick := .toStacker, stop := o } };
        fed = .ended cs' trail' [] → r.cls ≠ .single →
        (s.cash.purge.total + est ≤ 100 →
          (∀ k, s.disp.rejects < 10 → s.disp.owed = 0 → nextPair s.disp = some j →
            selectCassette u (s.disp.plan.getD j default).den = some k → Fits u →
            exec (.runEnd .p raws) s =
              .next { u with
                        disp := { u.disp with pair := j, lastCassette := some k, pick := .gateOpen },
                        drives := { u.drives with pickGate := some k, pickTransport := true } }) ∧
          (let t := pickingEnded .short { u with disp := { u.disp with pair := j } };
            s.disp.rejects < 10 → s.disp.owed = 0 → nextPair s.disp = some j →
            selectCassette u (s.disp.plan.getD j default).den = none → EndsWhole s t →
            exec (.runEnd .p raws) s = .next t) ∧
          (let t := pickingEnded .rejectLimit u;
            10 ≤ s.disp.rejects → s.disp.owed = 0 → EndsWhole s t → exec (.runEnd .p raws) s = .next t) ∧
          (s.disp.owed ≠ 0 → Fits u →
            exec (.runEnd .p raws) s = .next (waits u (if s.disp.rejects < 10 then none else some .rejectLimit)))) ∧
        (100 < s.cash.purge.total + est →
          (let t := pickingEnded .purgeFull filled;
            s.disp.owed = 0 → EndsWhole s t → exec (.runEnd .p raws) s = .next t) ∧
          (s.disp.owed ≠ 0 → Fits filled →
            exec (.runEnd .p raws) s = .next (waits filled (some .purgeFull))))) ∧
      (let r := recordP s i cs'.reverse true;
        let u := noteRejected i (rejectCharged i 2 (held r (.tail [])));
        let filled := noteRejected i (rejectFills .dispense i 2 (held r (.tail [])));
        fed = .cut cs' [] →
        (s.cash.purge.total + 2 ≤ 100 → s.disp.rejects < 10 → Fits u →
          exec (.runCutOff .p raws) s = .next { u with disp := { u.disp with pick := .tail } }) ∧
        (let t := pickingEnded .rejectLimit u;
          s.cash.purge.total + 2 ≤ 100 → 10 ≤ s.disp.rejects → s.disp.owed = 0 → EndsWhole s t →
          exec (.runCutOff .p raws) s = .next t) ∧
        (let t := pickingEnded .purgeFull filled;
          100 < s.cash.purge.total + 2 → s.disp.owed = 0 → EndsWhole s t →
          exec (.runCutOff .p raws) s = .next t))

/-- The entry gate of the throat has shut, with `c` waiting for the last note (R82). -/
def throatClosing (c : Closing) (s : State) : State :=
  { s with dep := { s.dep with closing := some c, idleMs := none }, drives := { s.drives with throatGate := false } }

/-- R24, R31, R39, R79, R80, R81, R82: a SINGLE note of a deposit is offered to the reference of its denomination and
sent to the escrow where there is room; where there is none, or the clamp is set, it is refused to the pocket with no
NOTE_REJECT, and the first such sets the clamp with one ESCROW_LIMIT a session. A note of another class is reported
and refused; so is a note cut off, and its tail ends in a gap. A zero lost before the note closes the throat behind it.
That notes on their way to the escrow count in its room is the model's choice (notes/assumptions/16.md). -/
def Obligations.DepositNotesAreSorted : Prop :=
  ∀ (raws cs cs' trail trail' : List Nat) (s : State),
    let fed := feedRun (zeroOf s.chQ) s.chQ.gain raws cs trail;
    let held := fun (r : NoteRecord) (f : Flow) => { s with chQ := { s.chQ with flow := f, last := some r } };
    let sorted := fun (v : State) => if s.chQ.lost = true ∧ s.dep.closing = none then throatClosing {} v else v;
    s.cal.phase = .none → s.dep.st = .feeding → s.lane.resetDue = false →
      (s.chQ.flow = .run cs trail → fed = .ended cs' trail' [] →
        (∀ d thick q,
          let r := recordQ s cs'.reverse false;
          let x := s.cash.denoms.getD d {};
          let e : EscrowEntry := { den := d, face := x.face, thick := thick };
          let taught := { held r (.gap trail'.length trail'.sum) with
            cash :=
              { s.cash with
                  denoms := s.cash.denoms.modify d fun y =>
                    { y with ref := (learn thick q y.ref y.restart).1, restart := (learn thick q y.ref y.restart).2 } } };
          let room := (s.dep.escrow.length + s.dep.toEscrow.length < s.dep.limit ∧
            (s.dep.escrow.map (·.face)).sum + (s.dep.toEscrow.map (·.face)).sum + x.face ≤ s.peer.held.deposit : Prop);
          let refused := { taught with
            dep := { s.dep with toPocket := s.dep.toPocket + 1 }, drives := { s.drives with toEscrow := false } };
          let clamped := { refused with dep := { refused.dep with clamp := true } };
          r.cls = .single → r.den = some d → r.t = some thick → r.q = some q →
            (s.dep.clamp = false → room →
              exec (.runEnd .q raws) s =
                .next (sorted { taught with
                  dep := { s.dep with toEscrow := s.dep.toEscrow ++ [e] },
                  drives := { s.drives with toEscrow := true } })) ∧
            (s.dep.clamp = true → exec (.runEnd .q raws) s = .next (sorted refused)) ∧
            (s.dep.clamp = false → ¬room → s.dep.limitNotice = true →
              exec (.runEnd .q raws) s = .next (sorted clamped)) ∧
            (let t := toldBound .escrowLimit
                (be 2 s.dep.escrow.length ++ be 3 (s.dep.escrow.map (·.face)).sum ++ be 2 s.dep.limit ++
                  be 3 s.peer.held.deposit)
                { clamped with dep := { clamped.dep with limitNotice := true } };
              s.dep.clamp = false → ¬room → s.dep.limitNotice = false → Fits t →
              exec (.runEnd .q raws) s = .next (sorted t))) ∧
        (let r := recordQ s cs'.reverse false;
          r.cls ≠ .single →
          exec (.runEnd .q raws) s =
            .next (sorted (raiseSoft .noteReject .deposit (some (.channel .q)) none
              { held r (.gap trail'.length trail'.sum) with
                  dep := { s.dep with toPocket := s.dep.toPocket + 1 },
                  drives := { s.drives with toEscrow := false } })))) ∧
      (let r := recordQ s cs'.reverse true;
        s.chQ.flow = .run cs trail → fed = .cut cs' [] →
        exec (.runCutOff .q raws) s =
          .next (sorted (raiseSoft .noteReject .deposit (some (.channel .q)) none
            { held r (.tail []) with
                dep := { s.dep with toPocket := s.dep.toPocket + 1 },
                drives := { s.drives with toEscrow := false } }))) ∧
      (∀ l, s.chQ.flow = .tail trail → feedTail (zeroOf s.chQ) s.chQ.gain raws trail = .ended l [] →
        s.dep.closing = none →
        exec (.tailEnd .q raws) s = .next { s with chQ := { s.chQ with flow := .gap l.length l.sum } })

/-- R11, R40, R41, R42, R43: a CALIBRATE that no check refuses is answered ACCEPTED and begins with its zero capture.
The record of a calibration's note sets the working gain of its channel, or leaves it where C is absent or below 64 or
the note is cut off; on channel Q the note goes to the pocket, and on channel P it is charged as a reject, to a full
tray too, and the calibration ends when it has cleared the channel, at once or at the end of its tail. On channel P a
pick that draws nothing is a miss and ends it CAL_FAILED. One that lockdown met before its note ends LOCKDOWN with the
gain as it was. That the window of channel Q closes at the end of the run or of its tail, the throat running on to the
pocket (notes/assumptions/15.md), and that a calibration's miss is reported before the faults of its window's closing
gap (notes/assumptions/26.md), is the model's choice. What leads a completion notice is the model's choice
(notes/assumptions/25.md). -/
def Obligations.CalibrationsStartAndSetTheGain : Prop :=
  (∀ (h : Header) (k cassette : Nat) (pocketOccupied : Bool) (s : State),
     ComesBound h s → s.lane.state = .closed → s.cal.phase = .none → 50 ≤ k → k ≤ 1000 →
       (let u := acceptedReply h .calibrate [] (heard h s);
         let t := { u with
           cal :=
             { phase := .zeroCapture, channel := .p, k := k, cassette := cassette - 1, tag := h.tag,
               gainBefore := s.chP.gain },
           chP := { s.chP with capturing := true },
           drives := { s.drives with pickTransport := true, pickGate := none } };
         1 ≤ cassette → cassette ≤ 4 → (∀ w ∈ s.cash.loads, w.cassette + 1 ≠ cassette) →
         s.disp.move ≠ .purge → s.lane.recovery.stacker ≠ .running → s.dispenserJam = false →
         s.cash.purge.full = false → serves (cassetteAt s (cassette - 1)) = true → Fits t →
         exec (.calibrate h 1 k cassette pocketOccupied) s = .next t) ∧
       (let u := acceptedReply h .calibrate [] (heard h s);
         let t := { u with
           cal := { phase := .zeroCapture, channel := .q, k := k, tag := h.tag, gainBefore := s.chQ.gain },
           chQ := { s.chQ with capturing := true },
           drives := { s.drives with throatTransport := true, throatGate := false } };
         pocketOccupied = false → s.throatJam = false → s.cash.deposit.count < 1500 → Fits t →
         exec (.calibrate h 2 k cassette pocketOccupied) s = .next t)) ∧
  (∀ (raws cs cs' trail trail' : List Nat) (s : State) (c : Nat),
     let r := recordQ s cs'.reverse false;
     let gain := max 1 (min 8191 ((1024 * s.cal.k + c / 2) / c));
     let t := fun (o : CalOutcome) (g : Nat) => endGap .q trail'.length trail'.sum
       { s with
           chQ := { s.chQ with gain := g, last := some r, window := false, flow := .none, capturing := false },
           cal := { s.cal with phase := .toPocket, outcome := some o, c := r.c },
           drives := { s.drives with throatGate := false, throatTransport := true, toEscrow := false } };
     s.cal.phase = .running → s.cal.channel = .q → s.cal.locked = false → s.chQ.window = true →
       s.chQ.flow = .run cs trail → feedRun (zeroOf s.chQ) s.chQ.gain raws cs trail = .ended cs' trail' [] →
       (r.c = some c → 64 ≤ c → (t .calibrated gain).lane.resetDue = false →
         exec (.runEnd .q raws) s = .next (t .calibrated gain)) ∧
       ((∀ x, r.c = some x → x < 64) → (t .calFailed s.chQ.gain).lane.resetDue = false →
         exec (.runEnd .q raws) s = .next (t .calFailed s.chQ.gain))) ∧
  (∀ (raws cs cs' trail l : List Nat) (s : State),
     let r := recordQ s cs'.reverse true;
     let w := endGap .q l.length l.sum
       { s with
           chQ := { s.chQ with window := false, flow := .none, capturing := false },
           cal := { s.cal with phase := .toPocket },
           drives := { s.drives with throatGate := false, throatTransport := true, toEscrow := false } };
     s.cal.channel = .q →
       (s.cal.phase = .running → s.cal.locked = false → s.lane.resetDue = false → s.chQ.flow = .run cs trail →
         feedRun (zeroOf s.chQ) s.chQ.gain raws cs trail = .cut cs' [] →
         exec (.runCutOff .q raws) s =
           .next { s with
                     chQ := { s.chQ with flow := .tail [], last := some r },
                     cal := { s.cal with phase := .tail, outcome := some .calFailed, c := r.c },
                     drives := { s.drives with throatGate := false } }) ∧
       (s.cal.phase = .tail → s.chQ.window = true → s.chQ.flow = .tail trail →
         feedTail (zeroOf s.chQ) s.chQ.gain raws trail = .ended l [] → w.lane.resetDue = false →
         exec (.tailEnd .q raws) s = .next w)) ∧
  (∀ (raws cs cs' trail trail' l : List Nat) (s : State) (i : Nat) (k : Cassette),
     let fed := feedRun (zeroOf s.chP) s.chP.gain raws cs trail;
     let held := fun (r : NoteRecord) (f : Flow) => { s with chP := { s.chP with flow := f, last := some r } };
     let stopped := fun (v : State) =>
       closeWindow .p { v with drives := { v.drives with pickTransport := false, pickGate := none } };
     s.cal.channel = .p → s.cal.cassette = i → s.cash.cassettes[i]? = some k → s.approval.unbindPending = false →
       (s.cal.phase = .running → k.denom.isSome → k.rejectEst + 3 ≤ 65535 → s.chP.flow = .run cs trail →
         (let r := recordP s i cs'.reverse false;
           let u := rejectEntered .calibrate i (estimateOf r.cls) (held r (.gap trail'.length trail'.sum));
           let t := fun (o : CalOutcome) (g : Nat) => calEnded o (stopped
             { u with
                 chP := { u.chP with gain := g }, cal := { s.cal with c := r.c },
                 drives := { s.drives with toStacker := false } });
           let gain := fun (c : Nat) => max 1 (min 8191 ((1024 * s.cal.k + c / 2) / c));
           fed = .ended cs' trail' [] →
             (s.cal.locked = false →
               (∀ c, r.c = some c → 64 ≤ c → Fits (t .calibrated (gain c)) →
                 exec (.runEnd .p raws) s = .next (t .calibrated (gain c))) ∧
               ((∀ c, r.c = some c → c < 64) → Fits (t .calFailed s.chP.gain) →
                 exec (.runEnd .p raws) s = .next (t .calFailed s.chP.gain))) ∧
             (s.cal.locked = true → Fits (t .lockdown s.chP.gain) →
               exec (.runEnd .p raws) s = .next (t .lockdown s.chP.gain))) ∧
         (let r := recordP s i cs'.reverse true;
           let u := rejectEntered .calibrate i 2 (held r (.tail []));
           let o : CalOutcome := if s.cal.locked then .lockdown else .calFailed;
           let t := { u with
             cal := { s.cal with phase := .tail, outcome := some o, c := r.c },
             drives := { s.drives with toStacker := false, pickGate := none } };
           fed = .cut cs' [] → Fits t → exec (.runCutOff .p raws) s = .next t)) ∧
       (∀ o, let t := calEnded o (stopped { s with chP := { s.chP with flow := .gap l.length l.sum } });
         s.cal.phase = .tail → s.cal.outcome = some o → s.chP.flow = .tail trail →
         feedTail (zeroOf s.chP) s.chP.gain raws trail = .ended l [] → Fits t →
         exec (.tailEnd .p raws) s = .next t) ∧
       (let put := fun (x : Cassette) => { s.cash with cassettes := s.cash.cassettes.set i x };
         let w := raiseSoft .pickMiss .calibrate (some (.cassette i)) none
           { s with chP := samplesTaken raws s.chP, cash := put { k with misses := k.misses + 1 } };
         let st := if k.st = .active ∨ k.st = .low then .suspect else k.st;
         let u := if k.misses < 2 then w else
           faulted .cassetteSuspect .calibrate (some (.cassette i)) none
             { w with cash := put { k with st := st, misses := 0 } };
         let t := calEnded (if s.cal.locked then .lockdown else .calFailed) (stopped u);
         s.cal.phase = .waiting → s.disp.st = .idle → Fits t → exec (.pickMiss raws) s = .next t))

/-! ### Dispensing (chapter 3) -/

/-- A choice of counts that R48 admits, for denominations given by face value and available count. -/
abbrev MixChoice (ds : List (Nat × Nat)) (a : Nat) (ks : List Nat) : Prop :=
  ks.length = ds.length ∧ (∀ p ∈ ds.zip ks, p.2 ≤ p.1.2) ∧ ks.sum ≤ 40 ∧ ((ds.zip ks).map fun p => p.2 * p.1.1).sum = a

/-- R48: an amount is planned with the used denominations in picking order, of descending face value and then of
ascending D number. There is a plan exactly where there is a choice, and it is the choice with the fewest notes of
all, and among those the one with the most of the first denomination, then of the second, and so on; it holds the
denominations with a count above 0. An amount with no choice is refused NO_MIX, and the engine stays IDLE. -/
def Obligations.MixRuleFindsTheBestChoice : Prop :=
  ∀ (s : State) (a : Nat),
    let face := fun (d : Nat) => (s.cash.denoms.getD d {}).face;
    let available := fun (d : Nat) =>
      ((s.cash.cassettes.filter fun c => (c.st == .active || c.st == .low) && c.denom == some d).map (·.count)).sum;
    let order := pickingOrder s;
    let ds := order.map fun d => (face d, available d);
    order.Pairwise (fun d e => face e < face d ∨ (face d = face e ∧ d < e)) ∧
      (∀ d, d ∈ order ↔ d < 8 ∧ (s.cash.denoms.getD d {}).used = true) ∧
      (planRequest s (.amount a) = none → ∀ ks, ¬MixChoice ds a ks) ∧
      (∀ plan v, planRequest s (.amount a) = some (plan, v) →
        v = a ∧
          ∃ ks, MixChoice ds a ks ∧
            plan = ((order.zip ks).filter fun p => p.2 != 0).map (fun p => { den := p.1, count := p.2, picked := 0 }) ∧
            ∀ other, MixChoice ds a other →
              ks.sum ≤ other.sum ∧ (other.sum = ks.sum → other ≠ ks → List.Lex (· < ·) other ks)) ∧
      (∀ h, let t := refusedReply h .dispense .noMix (heard h s);
        DispenseOpen h (.amount a) s → s.alarm.duress = false → planRequest s (.amount a) = none → Fits t →
        exec (.dispense h (.amount a)) s = .next t)

/-- R12, R47, R48, R49, R50, R53, R158, R159: a DISPENSE at or below S1, or under duress, is answered ACCEPTED and
awaits the ceiling; one above S1 takes the lowest FREE slot and asks; planning refuses one with no mix, one over the
lane cap and one for which no slot is FREE, and ends one clamped to nothing at once. The duress clamp takes an amount,
and a list worth more, to the duress limit; a list is planned where the cassettes hold its counts and they are 40 notes
at most, as its pairs in picking order, worth its value. That the ACCEPTED of a DISPENSE clamped to nothing carries a
plan value of 0 (notes/assumptions/24.md), and that an ACCEPTED stands behind the ASK and before the INTENT
(notes/assumptions/30.md), is the model's choice. What leads a completion notice is the model's choice
(notes/assumptions/25.md). -/
def Obligations.DispenseIsPlannedAndAdmitted : Prop :=
  (∀ (h : Header) (req : Request) (s : State) (plan : List PlanPair) (v : Nat),
     let asked := if s.alarm.duress then clampRequest s req else req
     let u := heard h s
     let t := queued [intentFrame .dispense] (acceptedReply h .dispense (be 3 v)
       { u with
           disp :=
             { st := .awaitCeiling, console := h.src, tag := h.tag, request := some req, duress := s.alarm.duress,
               plan := plan, planValue := v, ceilingMs := some 10000 },
           peer := { u.peer with request := some { kind := .dispense, amount := v } } });
     DispenseOpen h req s → s.peer.duplicate = false → asked ≠ .amount 0 → planRequest s asked = some (plan, v) →
       v ≤ s.config.laneCap - s.peer.held.h → (v ≤ s.config.s1 ∨ s.alarm.duress = true) →
       Fits t → exec (.dispense h req) s = .next t) ∧
  (∀ (h : Header) (req : Request) (s : State) (plan : List PlanPair) (v i : Nat),
     let u := heard h s
     let t := acceptedReply h .dispense (be 3 v) (slotTaken i .dispense v h.src (planCounts plan)
       { u with
           disp :=
             { st := .awaitApproval, console := h.src, tag := h.tag, request := some req, plan := plan, planValue := v,
               slot := some { slot := i, ask := ((s.approval.slots.getD i {}).ask + 1) % 64 } } });
     DispenseOpen h req s → s.alarm.duress = false → planRequest s req = some (plan, v) →
       v ≤ s.config.laneCap - s.peer.held.h → s.config.s1 < v → lowestFree s = some i →
       Fits t → exec (.dispense h req) s = .next t) ∧
  (∀ (h : Header) (req : Request) (s : State),
     let asked := if s.alarm.duress then clampRequest s req else req
     let u := heard h s;
     DispenseOpen h req s →
       (asked ≠ .amount 0 → planRequest s asked = none → Fits (refusedReply h .dispense .noMix u) →
         exec (.dispense h req) s = .next (refusedReply h .dispense .noMix u)) ∧
       (∀ plan v, asked ≠ .amount 0 → planRequest s asked = some (plan, v) → s.config.laneCap - s.peer.held.h < v →
         Fits (refusedReply h .dispense .overLaneCap u) →
         exec (.dispense h req) s = .next (refusedReply h .dispense .overLaneCap u)) ∧
       (∀ plan v, s.alarm.duress = false → planRequest s asked = some (plan, v) →
         v ≤ s.config.laneCap - s.peer.held.h → s.config.s1 < v → lowestFree s = none →
         Fits (refusedReply h .dispense .approvalBusy u) →
         exec (.dispense h req) s = .next (refusedReply h .dispense .approvalBusy u)) ∧
       (let t := dispenseEnded .clampedZero (acceptedReply h .dispense (be 3 0)
           { u with
               disp :=
                 { st := .planning, console := h.src, tag := h.tag, request := some req, duress := s.alarm.duress } });
         asked = .amount 0 → QuietEnd u → Fits t → exec (.dispense h req) s = .next t)) ∧
  (∀ (s : State) (n : Nat) (l : List (Nat × Nat)),
     let limit := s.config.duressLimit;
     let face := fun (d : Nat) => (s.cash.denoms.getD d {}).face;
     let value := (l.map fun p => p.2 * face p.1).sum;
     let available := fun (d : Nat) =>
       ((s.cash.cassettes.filter fun c => (c.st == .active || c.st == .low) && c.denom == some d).map (·.count)).sum;
     let lacks : Prop := (∃ p ∈ l, available p.1 < p.2) ∨ 40 < (l.map (·.2)).sum;
     clampRequest s (.amount n) = .amount (min n limit) ∧
       clampRequest s (.pairs l) = (if value ≤ limit then .pairs l else .amount limit) ∧
       (lacks → planRequest s (.pairs l) = none) ∧
       (¬lacks → (l.map (·.1)).Nodup → (∀ p ∈ l, p.1 < 8 ∧ (s.cash.denoms.getD p.1 {}).used = true) →
         (planRequest s (.pairs l)).isSome = true ∧
           ∀ plan v, planRequest s (.pairs l) = some (plan, v) →
             v = value ∧ plan.Perm (l.map fun p => { den := p.1, count := p.2, picked := 0 }) ∧
               plan.Pairwise fun a b => face b.den < face a.den ∨ (face a.den = face b.den ∧ a.den < b.den)))

/-- R69, R72, R128, R163: what CANCEL does to a dispense in each state that it reaches. That in PICKING a stop decided
earlier stands (notes/assumptions/11.md), and that the REPLY is queued before the request or the slot is withdrawn
(notes/assumptions/30.md), is the model's choice. What leads a completion notice is the model's choice
(notes/assumptions/25.md). -/
def Obligations.CancelActsByEngineState : Prop :=
  ∀ (h : Header) (s : State),
    let u := doneReply h .cancel [] (heard h s);
    ComesBound h s → s.disp.stranded = false →
      (∀ x, let w := slotWithdrawn x.slot u;
        let t := dispenseEnded .cancelled { w with disp := { w.disp with slot := none } };
        s.disp.st = .awaitApproval → s.disp.slot = some x → (s.approval.slots.getD x.slot {}).kind.isSome →
        QuietEnd u → Fits (slotClosed x.slot .withdrawn u) → Fits t → exec (.cancel h) s = .next t) ∧
      (let t := dispenseEnded .cancelled (requestWithdrawn u);
        s.disp.st = .awaitCeiling → u.peer.request.isSome → u.approval.unbindPending = false → Fits u → Fits t →
        exec (.cancel h) s = .next t) ∧
      (let t := dispenseEnded .cancelled
          { u with
              chP := { s.chP with window := false, flow := .none, capturing := false },
              drives := { s.drives with pickTransport := false, pickGate := none } };
        s.disp.st = .zeroCapture → s.chP.window = false → QuietEnd u → Fits t → exec (.cancel h) s = .next t) ∧
      (let t := { u with disp := { s.disp with stop := some (s.disp.stop.getD .cancelled) } };
        s.disp.st = .picking → Fits t → exec (.cancel h) s = .next t) ∧
      (let t := refusedReply h .cancel .nothing (heard h s);
        s.disp.st = .idle → Fits t → exec (.cancel h) s = .next t) ∧
      (let t := refusedReply h .cancel .late (heard h s);
        (s.disp.st = .purging ∨ s.disp.st = .presenting ∨ s.disp.st = .retracting) → Fits t →
        exec (.cancel h) s = .next t)

/-- R53, R72, R77, R92, R127, R128: a ceiling wait that runs out withdraws the request and ends the operation. A
held-back request is tested again at the end of its 100 ms and when the wall sum changes: it queues a new INTENT where
its amount fits under the ceiling, and waits on where it does not. What leads a completion notice is the model's choice
(notes/assumptions/25.md). -/
def Obligations.RequestsRunOutOrAreTestedAgain : Prop :=
  (∀ s : State, s.peer.request.isSome → s.approval.unbindPending = false → s.lane.state ≠ .starting →
     (let t := dispenseEnded .ceilingTimeout (requestWithdrawn s);
       s.disp.st = .awaitCeiling → Fits t → exec .dispenseCeilingTimeout s = .next t) ∧
     (let t := depositEnded .ceilingTimeout (requestWithdrawn s);
       s.dep.st = .awaitCeiling → Fits t → exec .depositCeilingTimeout s = .next t)) ∧
  (∀ (s : State) (r : IntentRequest),
     let ready := { r with spacingMs := 0 };
     let again := fun (u : State) =>
       queued [intentFrame r.kind] { u with peer := { u.peer with request := some { ready with phase := .queued } } };
     s.peer.request = some r → r.phase = .heldBack → s.peer.duplicate = false →
       (wallSum s + r.amount ≤ s.config.wallCeiling → Fits (again s) →
         exec .intentSpacingEnd s = .next (again s)) ∧
       (s.config.wallCeiling < wallSum s + r.amount → s.lane.resetDue = false →
         exec .intentSpacingEnd s = .next { s with peer := { s.peer with request := some ready } }) ∧
       (∀ (src : Nat) (p : PositionFigures),
         let entry : PeerEntry :=
           { kind := some .lane, status := .live, held := p.held, cap := p.cap, known := true,
             laneState := some p.laneState, announced := some p.held, summary := p.summary, vehicle := some p.vehicle,
             slots := some p.slots, age := 0 };
         let u := { s with peer := { s.peer with entries := s.peer.entries.set src entry } };
         takesPart s = true → s.lane.state ≠ .configFault → src ≤ 30 → src ≠ s.lane.station →
         r.spacingMs = 0 → wallSum u ≠ wallSum s → wallSum u + r.amount ≤ s.config.wallCeiling → Fits (again u) →
         exec (.peerPosition src p) s = .next (again u)))

/-- A presented bundle has been taken: the shutter is shut, and the shift total has the value and the notes (R65,
R73). -/
def bundleTaken (s : State) : State :=
  { s with
      disp := { s.disp with takeMs := none },
      drives := { s.drives with pocketShutter := false },
      fault :=
        { s.fault with
            shift :=
              { s.fault.shift with
                  dispValue := min (s.fault.shift.dispValue + s.disp.presentedValue) 16777215,
                  dispNotes := s.disp.plan.foldl
                    (fun l p => l.modify p.den fun n => min (n + p.picked) 65535) s.fault.shift.dispNotes } } }

/-- R42, R65, R73, R80, R83, R88: what each take does. What leads a completion notice is the model's choice
(notes/assumptions/25.md). -/
def Obligations.TakesCloseTheShutter : Prop :=
  ∀ s : State,
    (let t := dispenseEnded .taken (bundleTaken s);
      s.disp.st = .presenting → s.disp.takeMs.isSome → QuietEnd s → Fits t → exec .dispenseTaken s = .next t) ∧
    (let t := depositEnded .returnedTaken { s with drives := { s.drives with pocketShutter := false } };
      s.dep.st = .returnPresented → QuietEnd s → Fits t → exec .returnTaken s = .next t) ∧
    (s.dep.st = .feeding → s.drives.pocketShutter = true →
      exec .refusedNotesTaken s =
        .next { s with
                  dep := { s.dep with pocketRefusals := 0 },
                  drives := { s.drives with pocketShutter := false } }) ∧
    (let u := { s with
                  dep := { s.dep with pocketRefusals := 0, clearance := .none, takeMs := none },
                  drives := { s.drives with pocketShutter := false } };
      s.dep.clearance = .opened → s.dep.securing = false →
        (¬(s.dep.st = .stacking ∧ s.dep.escrow = []) → Fits u → exec .clearanceTaken s = .next u) ∧
        (s.dep.st = .stacking → s.dep.escrow = [] → QuietEnd s → Fits (depositEnded .stacked u) →
          exec .clearanceTaken s = .next (depositEnded .stacked u))) ∧
    (∀ o, let t := calEnded o { s with drives := { s.drives with pocketShutter := false } };
      s.cal.phase = .inPocket → s.cal.outcome = some o → s.approval.unbindPending = false → Fits t →
      exec .calibrationNoteTaken s = .next t)

/-- R42, R67, R83, R88: a take timer that runs out closes the shutter and asks the capture unit for a retract; one that
a calibration's note never came to, with the throat still open, ends the calibration CAL_FAILED. What leads a completion
notice is the model's choice (notes/assumptions/25.md). -/
def Obligations.TakeTimersRetractThePocket : Prop :=
  ∀ (raws : List Nat) (s : State),
    let ask := fun (who : Requester) (kind : BundleKind) (tag count value : Nat) => { s.capture with
      retract := some { requester := who, kind := kind, tag := some tag, count := count, value := value,
                        blocked := false, granted := false } }
    let shut := { s.drives with pocketShutter := false }
    (let t := arbitrate
        { s with
            disp := { s.disp with st := .retracting, takeMs := none, decided := none },
            drives := shut,
            capture := ask .dispense .dispense s.disp.tag s.disp.presentedNotes s.disp.presentedValue };
      s.disp.st = .presenting → s.disp.takeMs.isSome → t.lane.resetDue = false →
      exec .dispenseTakeTimeout s = .next t) ∧
    (let t := arbitrate
        { s with
            dep := { s.dep with st := .returnRetracting, takeMs := none, decided := none },
            drives := shut,
            capture := ask .deposit .depositReturn s.dep.tag s.dep.presentedNotes s.dep.presentedValue };
      s.dep.st = .returnPresented → t.lane.resetDue = false → exec .returnTakeTimeout s = .next t) ∧
    (let t := arbitrate
        { s with
            dep := { s.dep with clearance := .retracting, takeMs := none },
            drives := shut,
            capture := ask .deposit .depositReturn s.dep.tag s.dep.pocketRefusals 0 };
      s.dep.clearance = .opened → t.lane.resetDue = false → exec .clearanceTakeTimeout s = .next t) ∧
    (let t := arbitrate
        { s with
            cal := { s.cal with phase := .retracting, takeMs := none },
            drives := shut,
            capture := ask .calibration .depositReturn s.cal.tag 1 0 };
      s.cal.phase = .inPocket → t.lane.resetDue = false → exec (.calibrationTakeTimeout raws) s = .next t) ∧
    (let t := calEnded .calFailed
        (closeWindow .q
          { s with
              chQ := samplesTaken raws s.chQ, drives := { s.drives with throatGate := false, throatTransport := false } });
      s.cal.phase = .waiting → s.cal.channel = .q → s.cal.outcome = none → s.approval.unbindPending = false →
      Fits t → exec (.calibrationTakeTimeout raws) s = .next t)

/-- R8, R13, R16, R55, R58, R60, R62, R63, R69: a pick that draws nothing is a miss: PICK_MISS at each, SUSPECT at the
third, then the next pick from the cassette that the selection then gives. Where it gives none picking ends SHORT, after
a lost zero ZERO_FAULT, and with a stop decided earlier by that stop. The pair to pick is the first that is not fully
picked, and the selection gives the lowest-numbered cassette in ACTIVE or LOW of its denomination, or none. What leads a
completion notice is the model's choice (notes/assumptions/25.md). -/
def Obligations.MissedPickCountsAndGoesOn : Prop :=
  (∀ (s : State) (d : Nat),
    let gives := fun (c : Cassette) => ((c.st = .active ∨ c.st = .low) ∧ c.denom = some d : Prop);
    let found := fun (k : Nat) => (∃ c, s.cash.cassettes[k]? = some c ∧ gives c : Prop);
    (∀ k, selectCassette s d = some k ↔ found k ∧ ∀ j < k, ¬found j) ∧
      (selectCassette s d = none ↔ ∀ c ∈ s.cash.cassettes, ¬gives c)) ∧
  (∀ d : Dispense,
    let left := fun (j : Nat) => (∃ p, d.plan[j]? = some p ∧ p.picked < p.count : Prop);
    (∀ j, nextPair d = some j ↔ left j ∧ ∀ i < j, ¬left i) ∧
      (nextPair d = none ↔ ∀ p ∈ d.plan, p.count ≤ p.picked)) ∧
  ∀ (raws : List Nat) (s : State) (i j : Nat) (c : Cassette),
    let missed := fun (x : Cassette) =>
      raiseSoft .pickMiss .dispense (some (.cassette i)) none
        { s with chP := samplesTaken raws s.chP, cash := { s.cash with cassettes := s.cash.cassettes.set i x } };
    let w := missed { c with misses := c.misses + 1 };
    let st := if c.st = .active ∨ c.st = .low then .suspect else c.st;
    let u := if c.misses < 2 then w else
      faulted .cassetteSuspect .dispense (some (.cassette i)) none
        { w with cash := { s.cash with cassettes := s.cash.cassettes.set i { c with st := st, misses := 0 } } };
    let goesOn : Prop := s.disp.stop = none ∧ s.chP.lost = false ∧ nextPair s.disp = some j;
    s.disp.st = .picking → s.disp.pick = .gateOpen → s.disp.lastCassette = some i → s.cash.cassettes[i]? = some c →
      s.lane.resetDue = false →
      (∀ k, goesOn → selectCassette u (s.disp.plan.getD j default).den = some k → (2 ≤ c.misses → Fits u) →
        exec (.pickMiss raws) s =
          .next { u with
                    disp := { s.disp with pair := j, lastCassette := some k, pick := .gateOpen },
                    drives := { s.drives with pickGate := some k, pickTransport := true } }) ∧
      (let t := pickingEnded .short { u with disp := { s.disp with pair := j } };
        goesOn → selectCassette u (s.disp.plan.getD j default).den = none → EndsWhole s t →
        exec (.pickMiss raws) s = .next t) ∧
      (∀ o, let t := pickingEnded o u;
        (s.disp.stop = some o ∨ (s.disp.stop = none ∧ s.chP.lost = true ∧ o = .zeroFault)) → EndsWhole s t →
        exec (.pickMiss raws) s = .next t)

/-- R13, R16, R24, R55, R56, R59, R60, R61, R62, R63, R69: the stacker sensor counts an accepted note in, and a pair
that it fills gives way to the next; the last one of the plan completes picking and the stacker starts for the pocket,
or is purged where the last gap loses the zero; the last one owed is followed by the next pick, and after any other the
pick stands. The tail of a note cut off on channel P ends in a gap of its eight samples, and the next pick is made.
Where no cassette is left for it picking ends SHORT, after a lost zero ZERO_FAULT, and with a stop decided earlier by
that stop. That a note past its pair counts in the next one, and that the pick waits for every note owed, is the model's
choice (notes/assumptions/11.md). What leads a completion notice is the model's choice (notes/assumptions/25.md). -/
def Obligations.PicksEndAtTheStackerOrTheTail : Prop :=
  (∀ (raws : List Nat) (s : State) (i face : Nat) (c : Cassette),
     let filled := { s.disp with
       stackerNotes := s.disp.stackerNotes + 1, stackerValue := s.disp.stackerValue + face, owed := s.disp.owed - 1,
       plan := s.disp.plan.modify ((nextPair s.disp).getD s.disp.pair) fun p => { p with picked := p.picked + 1 } };
     let counted := { filled with pair := (nextPair filled).getD s.disp.pair };
     let u := { s with disp := counted, chP := samplesTaken raws s.chP };
     let boundary : Prop := s.disp.owed = 1 ∧ s.disp.pick = .toStacker;
     s.disp.st = .picking → 0 < s.disp.owed → s.disp.lastCassette = some i → s.cash.cassettes[i]? = some c →
       c.face = some face → s.lane.resetDue = false →
       (let closed := closeWindow .p { u with drives := { s.drives with pickTransport := false, pickGate := none } };
         let t := { closed with disp := { counted with st := .presenting, pick := .none, owed := 0, move := .present } };
         s.disp.stop = none → nextPair filled = none →
           (closed.chP.lost = false → t.lane.resetDue = false → exec (.stackerCountIn raws) s = .next t) ∧
           (closed.chP.lost = true → Fits (purgingEntered .zeroFault closed) →
             exec (.stackerCountIn raws) s = .next (purgingEntered .zeroFault closed))) ∧
       (∀ j, s.disp.stop = none → nextPair filled = some j → boundary → s.chP.lost = false →
         (∀ k,
           let t := { u with
             disp := { counted with lastCassette := some k, pick := .gateOpen },
             drives := { s.drives with pickGate := some k, pickTransport := true } };
           selectCassette s (counted.plan.getD j default).den = some k → exec (.stackerCountIn raws) s = .next t) ∧
         (selectCassette s (counted.plan.getD j default).den = none → Fits (pickingEnded .short u) →
           exec (.stackerCountIn raws) s = .next (pickingEnded .short u))) ∧
       (∀ o, s.disp.stop = some o → (nextPair filled = none ∨ boundary) → Fits (pickingEnded o u) →
         exec (.stackerCountIn raws) s = .next (pickingEnded o u)) ∧
       (s.disp.stop = none → nextPair filled ≠ none → boundary → s.chP.lost = true →
         Fits (pickingEnded .zeroFault u) → exec (.stackerCountIn raws) s = .next (pickingEnded .zeroFault u)) ∧
       (nextPair filled ≠ none → ¬boundary → exec (.stackerCountIn raws) s = .next u)) ∧
  (∀ (raws trail l : List Nat) (s : State),
     let u := { s with chP := { s.chP with flow := .gap l.length l.sum } };
     s.cal.phase = .none → s.disp.st = .picking → s.disp.pick = .tail → s.chP.flow = .tail trail →
       feedTail (zeroOf s.chP) s.chP.gain raws trail = .ended l [] → s.lane.resetDue = false →
       (s.disp.owed ≠ 0 → exec (.tailEnd .p raws) s = .next { u with disp := { s.disp with pick := .toStacker } }) ∧
       (s.disp.owed = 0 →
         (∀ j, s.disp.stop = none → s.chP.lost = false → nextPair s.disp = some j →
           (∀ k, selectCassette s (s.disp.plan.getD j default).den = some k →
             exec (.tailEnd .p raws) s =
               .next { u with
                         disp := { s.disp with pair := j, lastCassette := some k, pick := .gateOpen },
                         drives := { s.drives with pickGate := some k, pickTransport := true } }) ∧
           (let t := pickingEnded .short { u with disp := { s.disp with pair := j } };
             selectCassette s (s.disp.plan.getD j default).den = none → EndsWhole s t →
             exec (.tailEnd .p raws) s = .next t)) ∧
         (∀ o, let t := pickingEnded o u;
           (s.disp.stop = some o ∨ (s.disp.stop = none ∧ s.chP.lost = true ∧ o = .zeroFault)) → EndsWhole s t →
           exec (.tailEnd .p raws) s = .next t)))

/-- R16, R42, R62, R63, R64, R70, R87, R187: a movement to the pocket ends with the pocket's figures, the open shutter
and the take timer; a stacker purge credits the tray and the dispense ends with its outcome; a reversed stacker is
purged in its turn. What leads a completion notice is the model's choice (notes/assumptions/25.md). -/
def Obligations.StackerMovementsEnd : Prop :=
  (∀ s : State,
     (s.disp.st = .presenting → s.disp.move = .present →
       exec .presentMovementEnd s =
         .next { s with
                   disp :=
                     { s.disp with
                         move := .none, presentedNotes := s.disp.stackerNotes, presentedValue := s.disp.stackerValue,
                         stackerNotes := 0, stackerValue := 0, takeMs := some (s.config.takeTimeout * 1000) },
                   drives := { s.drives with pocketShutter := true } }) ∧
     (s.dep.st = .returning → s.dep.move = .toPocket →
       exec .returnBundleInPocket s =
         .next { s with
                   dep :=
                     { s.dep with
                         st := .returnPresented, move := .none,
                         presentedNotes := s.dep.escrow.length + s.dep.pocketRefusals,
                         presentedValue := (s.dep.escrow.map (·.face)).sum, escrow := [], pocketRefusals := 0,
                         takeMs := some (s.config.takeTimeout * 1000) },
                   drives := { s.drives with pocketShutter := true, throatTransport := false } }) ∧
     (s.cal.phase = .toPocket →
       exec .calibrationNoteAtPocket s =
         .next { s with
                   cal := { s.cal with phase := .inPocket, takeMs := some (s.config.takeTimeout * 1000) },
                   drives := { s.drives with pocketShutter := true, throatTransport := false } })) ∧
  (∀ s : State,
     let credited := fun (notes value : Nat) => { s.cash with
       purge :=
         { s.cash.purge with
             notes := s.cash.purge.notes + notes, total := s.cash.purge.total + notes,
             value := min (s.cash.purge.value + value) 16777215 } };
     (∀ o,
       let t := dispenseEnded o
         { s with
             cash := credited s.disp.stackerNotes s.disp.stackerValue,
             disp := { s.disp with move := .none, stackerNotes := 0, stackerValue := 0 } };
       s.disp.st = .purging → s.disp.move = .purge → s.disp.decided = some o → QuietEnd s → Fits t →
       exec .purgeMovementEnd s = .next t) ∧
     (s.disp.st ≠ .purging → s.lane.recovery.stacker = .running → s.lane.resetDue = false →
       exec .purgeMovementEnd s =
         .next { s with
                   cash := credited 40 s.lane.recovery.stackerValue,
                   lane := { s.lane with recovery := { s.lane.recovery with stacker := .none } } }) ∧
     (let u := { s with
         disp := { s.disp with st := .purging, decided := some .lockdown, pick := .none, owed := 0, move := .none } };
       s.disp.st = .presenting → s.disp.move = .reverse →
         (s.disp.stackerNotes ≠ 0 → s.cash.purge.total + s.disp.stackerNotes ≤ 100 → s.lane.resetDue = false →
           exec .stackerReversalEnd s = .next { u with disp := { u.disp with move := .purge } }) ∧
         (s.disp.stackerNotes = 0 → QuietEnd s → Fits (dispenseEnded .lockdown u) →
           exec .stackerReversalEnd s = .next (dispenseEnded .lockdown u)) ∧
         (s.disp.stackerNotes ≠ 0 → 100 < s.cash.purge.total + s.disp.stackerNotes →
           let w := faulted .purgeFull .dispense none none
             { u with cash := { s.cash with purge := { s.cash.purge with full := true } } };
           let d := { u.disp with outcome := some .lockdown, stranded := true };
           let t := toldBound .completion (dispCompletion d) { w with disp := d };
           Fits t → exec .stackerReversalEnd s = .next t)))

/-- R16, R36, R41, R54, R59, R62, R63, R64, R70: jams of the dispenser raise DISPENSER_JAM, mark it jammed, and end,
purge or strand the dispense, a purge that the tray has no room for too. A calibration on channel P ends JAM with its
gain as it was, and LOCKDOWN where lockdown met it before its note. That a stop decided earlier stands over JAM
(notes/assumptions/11.md), and what a calibration's jam in its tail or after lockdown ends as (notes/assumptions/15.md),
is the model's choice. What leads a completion notice is the model's choice
(notes/assumptions/25.md). -/
def Obligations.DispenserJams : Prop :=
  ∀ (raws : List Nat) (s : State),
    let jammed := fun (u : State) =>
      faulted .dispenserJam .dispense (s.disp.lastCassette.map .cassette) none { u with dispenserJam := true };
    let stopped := { s with drives := { s.drives with pickTransport := false, pickGate := none } };
    (let t := dispenseEnded .jam
        (jammed { stopped with chP := { s.chP with window := false, flow := .none, capturing := false } });
      s.cal.phase = .none → s.disp.st = .zeroCapture → s.chP.window = false → QuietEnd s → Fits t →
      exec (.zeroCaptureStall .p) s = .next t) ∧
    (let calJammed := fun (o : CalOutcome) (place : Option FaultPlace) (u : State) =>
        calEnded o (faulted .dispenserJam .calibrate place none { u with dispenserJam := true });
      s.cal.channel = .p → s.approval.unbindPending = false →
        (let t := calJammed .jam none
            { stopped with chP := { s.chP with window := false, flow := .none, capturing := false } };
          s.cal.phase = .zeroCapture → s.chP.window = false → Fits t →
          exec (.zeroCaptureStall .p) s = .next t) ∧
        (let o : CalOutcome := if s.cal.locked = true ∧ s.cal.phase = .running then .lockdown else .jam;
          let t := calJammed o (some (.cassette s.cal.cassette))
            (closeWindow .p { stopped with chP := samplesTaken raws s.chP });
          (s.cal.phase = .running ∨ s.cal.phase = .tail) → s.disp.st = .idle → Fits t →
          exec (.pickJam raws) s = .next t)) ∧
    (let t := purgingEntered (s.disp.stop.getD .jam)
        (jammed (closeWindow .p { stopped with chP := samplesTaken raws s.chP }));
      s.disp.st = .picking → (s.disp.pick = .running ∨ s.disp.pick = .toStacker ∨ s.disp.pick = .tail) →
      EndsWhole s t → exec (.pickJam raws) s = .next t) ∧
    (let strand := fun (o : DispOutcome) =>
        let d := { s.disp with outcome := some o, stranded := true, move := .none };
        toldBound .completion (dispCompletion d) { jammed s with disp := d };
      (∀ o, s.disp.move = .purge → s.disp.decided = some o → Fits (strand o) →
        exec .stackerPurgeJam s = .next (strand o)) ∧
      (s.disp.move = .present → Fits (strand .jam) → exec .presentJam s = .next (strand .jam)) ∧
      (s.disp.move = .reverse → Fits (strand .lockdown) → exec .stackerReversalJam s = .next (strand .lockdown)))

/-! ### Deposits (chapter 4) -/

/-- R36, R42, R78, R84, R90: a jam of the deposit transports raises DEPOSIT_JAM, marks the throat and leaves the session
HOLDING; a stalled zero capture ends it. A calibration on channel Q ends JAM, or as was decided before its note was
stacked. That DEPOSIT_STATUS sends JAM as 3 is the model's choice (notes/assumptions/9.md), and so is that a jam in
LOCKDOWN leaves the session to its securing, that accepts which wait for the throat are then refused and a return which
waits is dropped, that every note between the diverter and its sensor is left with the jammed one
(notes/assumptions/16.md), and what a calibration's jam after its classification ends as (notes/assumptions/15.md). What
leads a completion notice is the model's choice (notes/assumptions/25.md). -/
def Obligations.DepositJams : Prop :=
  ∀ (raws : List Nat) (s : State),
    let jammed := fun (u : State) =>
      faulted .depositJam .deposit (some (.channel .q)) none { u with throatJam := true };
    let shut := { s with drives := { s.drives with throatGate := false, throatTransport := false } };
    let content := be 1 3 ++ be 1 (depStatePos s.dep.st) ++ be 2 s.dep.escrow.length ++
      be 3 (s.dep.escrow.map (·.face)).sum ++ be 2 s.dep.stackedNotes ++ be 3 s.dep.stackedValue;
    let u := toldBound .depositStatus content (jammed (closeWindow .q { shut with chQ := samplesTaken raws s.chQ }));
    let refused := fun (v : State) => (s.dep.closing.getD {}).accepts.foldl
      (fun w a => refusedReply a.header .depositAccept .dispenserState w) v;
    let d := { s.dep with
      st := .holding, closing := none, idleMs := none, toEscrow := [], toPocket := 0, move := .none,
      securing := s.dep.securing || s.lane.state == .lockdown };
    (let t := depositEnded .jam
        (jammed { shut with chQ := { s.chQ with window := false, flow := .none, capturing := false } });
      s.cal.phase = .none → s.dep.st = .zeroCapture → s.chQ.window = false → QuietEnd s → Fits t →
      exec (.zeroCaptureStall .q) s = .next t) ∧
    (let calJammed := fun (o : CalOutcome) (u : State) =>
        calEnded o (faulted .depositJam .calibrate (some (.channel .q)) none { u with throatJam := true });
      s.cal.channel = .q → s.approval.unbindPending = false →
        (let t := calJammed .jam { shut with chQ := { s.chQ with window := false, flow := .none, capturing := false } };
          s.cal.phase = .zeroCapture → s.chQ.window = false → Fits t →
          exec (.zeroCaptureStall .q) s = .next t) ∧
        (let t := fun (o : CalOutcome) => calJammed o (closeWindow .q { shut with chQ := samplesTaken raws s.chQ });
          ((s.cal.phase = .running ∨ s.cal.phase = .tail ∨ s.cal.phase = .toPocket) → Fits (t .jam) →
            exec (.depositJam raws) s = .next (t .jam)) ∧
          (∀ o, s.cal.phase = .stacking → s.cal.outcome = some o → Fits (t o) →
            exec (.depositJam raws) s = .next (t o)))) ∧
    (s.cal.phase = .none → depositMoving s = true → Fits (refused u) →
      (¬(s.dep.st = .feeding ∧ 0 < s.dep.pocketRefusals) →
        exec (.depositJam raws) s = .next (refused { u with dep := d })) ∧
      (s.dep.st = .feeding → 0 < s.dep.pocketRefusals →
        exec (.depositJam raws) s =
          .next (refused
            { u with
                dep := { d with clearance := .opened, takeMs := some (s.config.takeTimeout * 1000) },
                drives := { u.drives with pocketShutter := true } })))

/-- R75, R76, R77, R124: a DEPOSIT_OPEN that no check refuses opens the session and asks for its reservation. -/
def Obligations.DepositOpenAsksForReservation : Prop :=
  ∀ (h : Header) (s : State),
    let asked := min s.config.depositAllowance (s.config.laneCap - s.peer.held.h);
    let limit := min 60 (1500 - s.cash.deposit.count);
    let u := heard h s;
    ComesBound h s → s.lane.state = .opened → txnOpen s = false →
      (s.alarm.recognised = true → s.alarm.duress = true) → s.throatJam = false →
      (let t := queued [intentFrame .deposit] (acceptedReply h .depositOpen (be 3 asked ++ be 2 limit)
          { u with
              dep :=
                { st := .awaitCeiling, console := h.src, tag := h.tag, asked := asked, limit := limit,
                  ceilingMs := some 10000 },
              peer := { u.peer with request := some { kind := .deposit, amount := asked } } });
        0 < limit → 0 < asked → s.peer.duplicate = false → Fits t → exec (.depositOpen h) s = .next t) ∧
      (let t := refusedReply h .depositOpen .full u;
        limit = 0 → Fits t → exec (.depositOpen h) s = .next t) ∧
      (let t := refusedReply h .depositOpen .overLaneCap u;
        0 < limit → asked = 0 → Fits t → exec (.depositOpen h) s = .next t)

/-- The session in HOLDING with its throat shut (R21, R82, R83): the window closed over the last gap, and refused notes
in the pocket open the clearance. -/
def throatShut (s : State) : State :=
  let w := closeWindow .q { s with drives := { s.drives with throatGate := false, throatTransport := false } };
  let d : Deposit := { s.dep with st := .holding, closing := none, idleMs := none };
  if 0 < d.pocketRefusals then
    { w with
        dep := { d with clearance := .opened, takeMs := some (s.config.takeTimeout * 1000) },
        drives := { w.drives with pocketShutter := true } }
  else { w with dep := d }

/-- The same once the samples since the last step are taken. -/
def throatClosed (raws : List Nat) (s : State) : State := throatShut { s with chQ := samplesTaken raws s.chQ }

/-- No note of the session is in the throat (R82). -/
abbrev ThroatEmpty (s : State) : Prop := inNote s.chQ = false ∧ s.dep.toEscrow = [] ∧ s.dep.toPocket = 0

/-- Accepts that waited for the throat have been refused for one reason, in the order in which they came. -/
def acceptsRefused (r : Reason) (l : List WaitingAccept) (s : State) : State :=
  l.foldl (fun u a => refusedReply a.header .depositAccept r u) s

/-- What a step answers that leaves the session at `v` with its throat closing and `c` waiting for the last note (R82,
R84, R87): while a note is in the throat, `v`; else the session is HOLDING and `c` is acted on, a return first, then the
accepts in the order in which they came, each decided against what the one before it left. An accept above S1 needs an
approval unless it was taken under duress (R144) or finds the latch set (R84). -/
abbrev ClosingGoesOn (c : Closing) (v : State) (answer : Host.Outcome State Fault Refusal) : Prop :=
  let w := throatShut v;
  let value := (v.dep.escrow.map (·.face)).sum;
  let needs := fun (a : WaitingAccept) => (v.config.s1 < value ∧ v.alarm.duress = false ∧ a.duress = false : Prop);
  let back := { w with
    dep := { w.dep with st := .returning, slot := none, clearance := .none, takeMs := none },
    drives := { w.drives with pocketShutter := false } };
  let returning := { back with
    dep := { back.dep with move := .toPocket },
    drives := { back.drives with throatTransport := true, toEscrow := false } };
  let stacked := fun (a : WaitingAccept) (u : State) => acceptedReply a.header .depositAccept []
    { u with
        dep :=
          { u.dep with
              st := .stacking, slot := none, acceptTag := a.header.tag,
              move := if v.dep.escrow = [] then .none else .stacking },
        drives := { u.drives with throatTransport := !v.dep.escrow.isEmpty } };
  let asked := fun (a : WaitingAccept) (i : Nat) =>
    let x := slotTaken i .depositAccept value a.header.src [] w;
    acceptedReply a.header .depositAccept []
      { x with dep :=
          { x.dep with
              st := .awaitApproval, slot := some { slot := i, ask := ((v.approval.slots.getD i {}).ask + 1) % 64 },
              acceptTag := a.header.tag } };
  (¬ThroatEmpty v → v.lane.resetDue = false → answer = .next v) ∧
    (ThroatEmpty v →
      (c.giveBack = false → c.accepts = [] → w.lane.resetDue = false → answer = .next w) ∧
      (let t := acceptsRefused .busy c.accepts returning;
        c.giveBack = true → (v.dep.escrow ≠ [] ∨ v.dep.pocketRefusals ≠ 0) → Fits t → answer = .next t) ∧
      (let t := acceptsRefused .nothing c.accepts (depositEnded .returnedTaken back);
        c.giveBack = true → v.dep.escrow = [] → v.dep.pocketRefusals = 0 → QuietEnd v → Fits t → answer = .next t) ∧
      (c.giveBack = false → v.dep.securing = false →
        (∀ before a rest,
          let u := acceptsRefused .approvalBusy before w;
          c.accepts = before ++ a :: rest → (∀ x ∈ before, needs x ∧ lowestFree v = none) → ¬needs a →
            (let t := acceptsRefused .busy rest (stacked a u);
              (v.dep.escrow ≠ [] ∨ w.dep.clearance ≠ .none) → Fits t → answer = .next t) ∧
            (let t := acceptsRefused .nothing rest (depositEnded .stacked (stacked a u));
              v.dep.escrow = [] → w.dep.clearance = .none → QuietEnd v → Fits t → answer = .next t)) ∧
        (∀ a rest i,
          let t := acceptsRefused .busy rest (asked a i);
          c.accepts = a :: rest → needs a → lowestFree v = some i → Fits t → answer = .next t) ∧
        (let t := acceptsRefused .approvalBusy c.accepts w;
          (∀ x ∈ c.accepts, needs x) → lowestFree v = none → Fits t → answer = .next t)))

/-- A note has passed the escrow sensor and is the top entry (R79). -/
def escrowPushed (raws : List Nat) (e : EscrowEntry) (rest : List EscrowEntry) (s : State) : State :=
  { s with
      chQ := samplesTaken raws s.chQ, dep := { s.dep with escrow := s.dep.escrow ++ [e], toEscrow := rest } }

/-- A push has set the clamp mark with the session's one ESCROW_LIMIT (R81). -/
def pushClamps (s : State) : State :=
  toldBound .escrowLimit
    (be 2 s.dep.escrow.length ++ be 3 (s.dep.escrow.map (·.face)).sum ++ be 2 s.dep.limit ++ be 3 s.peer.held.deposit)
    { s with dep := { s.dep with clamp := true, limitNotice := true } }

/-- A refused note has passed the pocket sensor (R80). -/
def refusedCounted (raws : List Nat) (s : State) : State :=
  { s with
      chQ := samplesTaken raws s.chQ,
      dep :=
        { s.dep with
            toPocket := s.dep.toPocket - 1, pocketRefusals := s.dep.pocketRefusals + 1,
            refused := if s.dep.refused < 65535 then s.dep.refused + 1 else Config.freeCount s.free },
      free := if s.dep.refused < 65535 then s.free else s.free + 1,
      drives := { s.drives with pocketShutter := true } }

/-- R79, R80, R81, R82, R83, R84, R86, R87, R144, R158: the command, the idle timer and the 100th refused note close the
throat. The session is HOLDING at once where the throat is empty, else when the last note has reached the escrow or the
pocket sensor, or the tail of a note cut off has ended with no other note in the throat. What waited for that is then
acted on: a return gives the escrow and the pocket back, an accept stacks (above S1 only under duress, which may have
been cleared since the accept was taken), asks, or is refused APPROVAL_BUSY, and one that finds the session gone on is
refused. That an accept taken under duress needs no approval when it is decided later, and that a latch set since also
does, that the return comes before the accepts and these in the order in which they came, and what the later ones meet,
is the model's choice (notes/assumptions/16.md). The refused count past 65,535 is the model's free value
(notes/assumptions/5.md). What leads a completion notice is the model's choice (notes/assumptions/25.md). -/
def Obligations.ThroatClosesIntoHolding : Prop :=
  (∀ (h : Header) (raws : List Nat) (s : State),
    let sampled := fun (v : State) => { v with chQ := samplesTaken raws v.chQ };
    let u := doneReply h .depositCloseThroat [] (heard h s);
    let c := s.dep.closing.getD {};
    s.dep.st = .feeding →
      (s.dep.closing = none → ClosingGoesOn {} (throatClosing {} (sampled s)) (exec (.throatIdleTimeout raws) s)) ∧
      (ComesBound h s → Fits u →
        ClosingGoesOn c (throatClosing c (sampled u)) (exec (.depositCloseThroat h raws) s))) ∧
  (∀ (raws : List Nat) (s : State) (c : Closing) (e : EscrowEntry) (rest : List EscrowEntry),
    let u := escrowPushed raws e rest s;
    let clamps : Prop := s.dep.escrow.length + 1 = s.dep.limit ∧ s.dep.clamp = false;
    let goesOn := fun (v : State) => (ClosingGoesOn c v (exec (.escrowPush raws) s) : Prop);
    s.dep.st = .feeding → s.dep.closing = some c → s.dep.toEscrow = e :: rest → s.dep.securing = false →
      (¬clamps → goesOn u) ∧
      (clamps → s.dep.limitNotice = true → goesOn { u with dep := { u.dep with clamp := true } }) ∧
      (clamps → s.dep.limitNotice = false → (pushClamps u).bus.queue.length ≤ 16 → goesOn (pushClamps u))) ∧
  (∀ (raws trail l : List Nat) (s : State),
    let u := refusedCounted raws s;
    s.dep.st = .feeding →
      (∀ c, s.dep.toPocket ≠ 0 → s.dep.closing = some c →
        ClosingGoesOn c u (exec (.refusedNoteAtPocket raws) s)) ∧
      (s.dep.toPocket ≠ 0 → s.dep.closing = none → 100 ≤ s.dep.pocketRefusals + 1 →
        ClosingGoesOn {} (throatClosing {} u) (exec (.refusedNoteAtPocket raws) s)) ∧
      (∀ c, s.cal.phase = .none → s.dep.closing = some c → s.chQ.flow = .tail trail →
        feedTail (zeroOf s.chQ) s.chQ.gain raws trail = .ended l [] →
        ClosingGoesOn c { s with chQ := { s.chQ with flow := .gap l.length l.sum } } (exec (.tailEnd .q raws) s)))

/-- R82, R83, R84, R85, R86, R144, R158: an accept in HOLDING stacks at once, or asks above S1 unless duress is latched;
in FEEDING it first closes the throat and is decided when the session is HOLDING, its mark saying whether it was taken
under duress; in the other states, and with the throat jammed, it is refused. That accepts which wait for the throat are
kept in the order they came (the clause of a throat that is not empty, also where another decision waits already;
notes/assumptions/16.md), and that the ASK stands before the REPLY (notes/assumptions/30.md), is the model's choice.
What leads a completion notice is the model's choice (notes/assumptions/25.md). -/
def Obligations.DepositAcceptStacksOrAsks : Prop :=
  ∀ (h : Header) (raws : List Nat) (s : State),
    let u := heard h s;
    let value := (s.dep.escrow.map (·.face)).sum;
    let free : Prop := value ≤ s.config.s1 ∨ s.alarm.duress = true;
    let stacked := fun (v : State) => acceptedReply h .depositAccept []
      { v with
          dep :=
            { v.dep with
                st := .stacking, slot := none, acceptTag := h.tag,
                move := if s.dep.escrow = [] then .none else .stacking },
          drives := { v.drives with throatTransport := !s.dep.escrow.isEmpty } };
    let asked := fun (v : State) (i : Nat) =>
      let w := slotTaken i .depositAccept value h.src [] v;
      acceptedReply h .depositAccept []
        { w with dep :=
            { w.dep with
                st := .awaitApproval, slot := some { slot := i, ask := ((s.approval.slots.getD i {}).ask + 1) % 64 },
                acceptTag := h.tag } };
    let decided := fun (v : State) =>
      ((free → (s.dep.escrow ≠ [] ∨ v.dep.clearance ≠ .none) → Fits (stacked v) →
          exec (.depositAccept h raws) s = .next (stacked v)) ∧
        (free → s.dep.escrow = [] → v.dep.clearance = .none → QuietEnd u →
          Fits (depositEnded .stacked (stacked v)) →
          exec (.depositAccept h raws) s = .next (depositEnded .stacked (stacked v))) ∧
        (∀ i, ¬free → lowestFree s = some i → Fits (asked v i) →
          exec (.depositAccept h raws) s = .next (asked v i)) ∧
        (¬free → lowestFree s = none → Fits (refusedReply h .depositAccept .approvalBusy v) →
          exec (.depositAccept h raws) s = .next (refusedReply h .depositAccept .approvalBusy v)) : Prop);
    ComesBound h s →
      (s.dep.st = .holding → s.throatJam = false → s.dep.securing = false → s.dep.closing = none → decided u) ∧
      (s.dep.st = .feeding → s.throatJam = false → s.dep.securing = false → s.dep.closing = none → ThroatEmpty s →
        decided (throatClosed raws u)) ∧
      (let c := s.dep.closing.getD {};
        let mark : WaitingAccept := { header := h, duress := s.alarm.duress };
        let t := { u with
          chQ := samplesTaken raws s.chQ,
          dep := { s.dep with closing := some { c with accepts := c.accepts ++ [mark] }, idleMs := none },
          drives := { s.drives with throatGate := false } };
        s.dep.st = .feeding → s.throatJam = false → ¬ThroatEmpty s → Fits t →
        exec (.depositAccept h raws) s = .next t) ∧
      (∀ r, let t := refusedReply h .depositAccept r u;
        ((s.dep.st = .closed ∧ r = .nothing) ∨
          ((s.dep.st = .awaitCeiling ∨ s.dep.st = .zeroCapture) ∧ r = .laneState) ∨
          ((s.dep.st = .awaitApproval ∨ s.dep.st = .stacking ∨ s.dep.st = .returning ∨ s.dep.st = .returnPresented ∨
            s.dep.st = .returnRetracting) ∧ r = .busy) ∨
          ((s.dep.st = .feeding ∨ s.dep.st = .holding) ∧ s.throatJam = true ∧ r = .dispenserState)) → Fits t →
        exec (.depositAccept h raws) s = .next t)

/-- R77, R78, R82, R85, R87: what a DEPOSIT_RETURN does in each session state; in FEEDING it first closes the throat.
That one which comes while another decision waits for the throat is answered ACCEPTED and kept with it (the clause of a
throat that is not empty), and that one in AWAIT_APPROVAL is refused BUSY while the clearance retracts, is the model's
choice (notes/assumptions/16.md), and so is that the REPLY is queued before the request or the slot is withdrawn
(notes/assumptions/30.md). What leads a completion notice is the model's choice (notes/assumptions/25.md). -/
def Obligations.DepositReturnGivesBack : Prop :=
  ∀ (h : Header) (raws : List Nat) (s : State),
    let done := doneReply h .depositReturn [] (heard h s);
    let taken := acceptedReply h .depositReturn [] (heard h s);
    let returning := fun (w : State) =>
      { w with
          dep := { w.dep with st := .returning, slot := none, clearance := .none, takeMs := none, move := .toPocket },
          drives := { w.drives with pocketShutter := false, throatTransport := true, toEscrow := false } };
    let given := fun (w : State) => depositEnded .returnedTaken
      { w with
          dep := { w.dep with st := .returning, slot := none, clearance := .none, takeMs := none },
          drives := { w.drives with pocketShutter := false } };
    ComesBound h s →
      (let t := depositEnded .cancelled (requestWithdrawn done);
        s.dep.st = .awaitCeiling → done.peer.request.isSome → done.approval.unbindPending = false → Fits done →
        Fits t → exec (.depositReturn h raws) s = .next t) ∧
      (let t := depositEnded .cancelled
          { done with
              chQ := { s.chQ with window := false, flow := .none, capturing := false },
              drives := { s.drives with throatGate := false, throatTransport := false } };
        s.dep.st = .zeroCapture → s.chQ.window = false → QuietEnd done → Fits t →
        exec (.depositReturn h raws) s = .next t) ∧
      (s.dep.clearance ≠ .retracting →
        (s.dep.st = .holding → s.throatJam = false → (s.dep.escrow ≠ [] ∨ s.dep.pocketRefusals ≠ 0) →
          Fits taken → exec (.depositReturn h raws) s = .next (returning taken)) ∧
        (∀ x, s.dep.st = .awaitApproval → s.dep.slot = some x → (s.approval.slots.getD x.slot {}).kind.isSome →
          (s.dep.escrow ≠ [] ∨ s.dep.pocketRefusals ≠ 0) → Fits (slotClosed x.slot .withdrawn taken) →
          Fits (slotWithdrawn x.slot taken) →
          exec (.depositReturn h raws) s = .next (returning (slotWithdrawn x.slot taken))) ∧
        (s.dep.st = .holding → s.throatJam = false → s.dep.escrow = [] → s.dep.pocketRefusals = 0 →
          QuietEnd taken → Fits (given taken) → exec (.depositReturn h raws) s = .next (given taken)) ∧
        (let t := { taken with
            chQ := samplesTaken raws s.chQ,
            dep := { s.dep with closing := some { s.dep.closing.getD {} with giveBack := true }, idleMs := none },
            drives := { s.drives with throatGate := false } };
          s.dep.st = .feeding → s.throatJam = false → ¬ThroatEmpty s → Fits t →
          exec (.depositReturn h raws) s = .next t) ∧
        (let w := throatClosed raws taken;
          s.dep.st = .feeding → s.throatJam = false → s.dep.closing = none → ThroatEmpty s →
            ((s.dep.escrow ≠ [] ∨ s.dep.pocketRefusals ≠ 0) → Fits w →
              exec (.depositReturn h raws) s = .next (returning w)) ∧
            (s.dep.escrow = [] → s.dep.pocketRefusals = 0 → QuietEnd taken → Fits (given w) →
              exec (.depositReturn h raws) s = .next (given w)))) ∧
      (∀ r, let t := refusedReply h .depositReturn r (heard h s);
        ((s.dep.st = .closed ∧ r = .nothing) ∨
          ((s.dep.st = .stacking ∨ s.dep.st = .returning ∨ s.dep.st = .returnPresented ∨
            s.dep.st = .returnRetracting) ∧ r = .late) ∨
          ((s.dep.st = .feeding ∨ s.dep.st = .holding) ∧ s.throatJam = true ∧ r = .dispenserState) ∨
          ((s.dep.st = .awaitApproval ∨ ((s.dep.st = .feeding ∨ s.dep.st = .holding) ∧ s.throatJam = false)) ∧
            s.dep.clearance = .retracting ∧ r = .busy)) → Fits t →
        exec (.depositReturn h raws) s = .next t)

/-- How the securing of a session by lockdown goes on from `v` (R91): a jammed throat and moves under way hold it; then
the escrow is stacked as unconfirmed; with the escrow empty and no clearance the session ends. -/
abbrev SecuringGoesOn (v : State) (is : State → Prop) : Prop :=
  let o : DepOutcome := if 0 < v.dep.unconfirmed then .securedUnconfirmed else .lockdown;
  ((v.throatJam = true ∨ v.dep.move ≠ .none ∨ v.dep.toEscrow ≠ []) → is v) ∧
    (v.throatJam = false → v.dep.move = .none → v.dep.toEscrow = [] →
      (v.dep.escrow ≠ [] →
        is { v with
               dep := { v.dep with st := .stacking, move := .stacking },
               drives := { v.drives with throatTransport := true } }) ∧
      (v.dep.escrow = [] → v.dep.clearance ≠ .none → is v) ∧
      (v.dep.escrow = [] → v.dep.clearance = .none → QuietEnd v → Fits (depositEnded o v) → is (depositEnded o v)))

/-- R79, R80, R81, R91: a note reaches the escrow, whose limit sets the clamp with one notice a session, or the pocket,
whose shutter opens; one that reaches the escrow in a lockdown's securing lets that go on. The refused count past 65,535
is the model's free value (notes/assumptions/5.md). That a session which stacks its escrow in securing stands as
STACKING is the model's choice (notes/assumptions/16.md). What leads a completion notice is the model's choice
(notes/assumptions/25.md). -/
def Obligations.FedNotesReachEscrowOrPocket : Prop :=
  ∀ (raws : List Nat) (s : State),
    (∀ e rest,
      let u := escrowPushed raws e rest s;
      let clamps : Prop := s.dep.escrow.length + 1 = s.dep.limit ∧ s.dep.clamp = false;
      s.dep.toEscrow = e :: rest → s.lane.resetDue = false →
        (s.dep.securing = false → s.dep.closing = none →
          (¬clamps → exec (.escrowPush raws) s = .next u) ∧
          (clamps → s.dep.limitNotice = false → Fits (pushClamps u) →
            exec (.escrowPush raws) s = .next (pushClamps u))) ∧
        (s.dep.securing = true → ¬clamps →
          SecuringGoesOn u fun t => exec (.escrowPush raws) s = .next t)) ∧
    (s.dep.st = .feeding → s.dep.toPocket ≠ 0 → s.dep.closing = none → s.dep.pocketRefusals + 1 < 100 →
      s.lane.resetDue = false →
      exec (.refusedNoteAtPocket raws) s = .next (refusedCounted raws s))

/-- The deposit cassette and the shift totals with a note of known denomination credited (R18). -/
def noteCredited (confirmed : Bool) (e : EscrowEntry) (s : State) : State :=
  let d := s.cash.deposit;
  let x := s.fault.shift;
  let known := { d with
    count := d.count + 1, perCount := d.perCount.modify e.den (· + 1),
    perValue := d.perValue.modify e.den fun v => min (v + e.face) 16777215 };
  if confirmed then
    { s with
        cash := { s.cash with deposit := known },
        fault :=
          { s.fault with
              shift := { x with depNotes := min (x.depNotes + 1) 65535, depValue := min (x.depValue + e.face) 16777215 } } }
  else
    { s with
        cash :=
          { s.cash with
              deposit :=
                { known with
                    unconfCount := d.unconfCount + 1, unconfValue := min (d.unconfValue + e.face) 16777215 } },
        fault :=
          { s.fault with
              shift :=
                { x with
                    unconfNotes := min (x.unconfNotes + 1) 65535,
                    unconfValue := min (x.unconfValue + e.face) 16777215 } } }

/-- The same for a note of unknown denomination (R18). -/
def unknownCredited (s : State) : State :=
  let d := s.cash.deposit;
  { s with
      cash :=
        { s.cash with
            deposit :=
              { d with
                  count := d.count + 1, unconfCount := d.unconfCount + 1, unidentified := d.unidentified + 1 } },
      fault :=
        { s.fault with
            shift := { s.fault.shift with unconfNotes := min (s.fault.shift.unconfNotes + 1) 65535 } } }

/-- R18, R42, R86, R91, R187: each note that passes the stacking sensor is credited, confirmed where a teller accepted
it; the last of an accepted escrow ends the session STACKED, and a calibration's note ends the calibration. A return
that lockdown reversed is secured as unconfirmed. In recovery the throat transport runs until the escrow reads clear.
That recovery counts past 1,500 with no look at the range (notes/assumptions/19.md), and that a reversed return stands
as STACKING while its securing stacks it (notes/assumptions/16.md), is the model's choice. What leads a completion
notice is the model's choice (notes/assumptions/25.md). -/
def Obligations.StackedNotesAreCredited : Prop :=
  ∀ (s : State),
    (∀ (clear : Bool) (e : EscrowEntry) (rest : List EscrowEntry),
      let w := noteCredited (!s.dep.securing) e s;
      let d := { s.dep with
        escrow := rest, stackedNotes := s.dep.stackedNotes + 1, stackedValue := s.dep.stackedValue + e.face,
        stackedPer := s.dep.stackedPer.modify e.den (· + 1),
        unconfirmed := s.dep.unconfirmed + if s.dep.securing then 1 else 0 };
      s.dep.move = .stacking → s.dep.escrow = e :: rest →
        (rest ≠ [] → s.lane.resetDue = false → exec (.noteStacked clear) s = .next { w with dep := d }) ∧
        (let u := { w with
            dep := { d with move := .none }, drives := { s.drives with throatTransport := false } };
          rest = [] → s.dep.st = .stacking → s.dep.clearance = .none → QuietEnd s →
          (s.dep.securing = false → Fits (depositEnded .stacked u) →
            exec (.noteStacked clear) s = .next (depositEnded .stacked u)) ∧
          (s.dep.securing = true → s.throatJam = false → s.dep.toEscrow = [] →
            Fits (depositEnded .securedUnconfirmed u) →
            exec (.noteStacked clear) s = .next (depositEnded .securedUnconfirmed u)))) ∧
    (∀ clear : Bool, s.dep.move ≠ .stacking → s.cal.phase ≠ .stacking → s.lane.recovery.escrow = .running →
      s.lane.resetDue = false →
      exec (.noteStacked clear) s =
        .next { unknownCredited s with
                  lane :=
                    { s.lane with
                        recovery := { s.lane.recovery with escrow := if clear then .none else .running } },
                  drives := { s.drives with throatTransport := !clear } }) ∧
    (∀ (clear : Bool) o,
      let t := calEnded o
        { unknownCredited s with drives := { s.drives with throatGate := false, throatTransport := false } };
      s.dep.move ≠ .stacking → s.cal.phase = .stacking → s.cal.outcome = some o → s.approval.unbindPending = false →
      Fits t → exec (.noteStacked clear) s = .next t) ∧
    (s.dep.move = .reversing → s.throatJam = false → s.dep.toEscrow = [] → s.dep.escrow ≠ [] →
      s.lane.resetDue = false →
      exec .returnReversalEnd s =
        .next { s with
                  dep := { s.dep with st := .stacking, move := .stacking, slot := none, securing := true },
                  drives := { s.drives with throatTransport := true } })

/-! ### Envelopes and the capture transport (chapter 5) -/

/-- The state after a retract movement is granted (R96): the bundle stamped, the totals credited, the transport
carrying. -/
def retractGranted (r : RetractRequest) (s : State) : State :=
  let b : Bundle :=
    { kind := r.kind, tag := r.tag, count := r.count, value := r.value, startCount := s.lane.startCount,
      laneTime := s.lane.timeMs / 1000, unverified := true };
  { s with
      capture :=
        { s.capture with
            bundles := s.capture.bundles ++ [b], transport := .carryingRetract,
            retract := some { r with granted := true, blocked := false } },
      fault :=
        { s.fault with
            shift :=
              { s.fault.shift with
                  bundles := min (s.fault.shift.bundles + 1) 65535,
                  retractValue := min (s.fault.shift.retractValue + r.value) 16777215 } },
      drives := { s.drives with envelopePath := false } }

/-- The state after a waiting envelope is granted (R98, R100): drawn in with the slot shutter closed. -/
def envelopeGranted (s : State) : State :=
  { s with
      capture :=
        { s.capture with waiting := false, transport := .carryingEnvelope, envelope := some {}, shutter := false },
      drives := { s.drives with envelopePath := true } }

/-- R94, R95, R96: the arbiter grants a retract before a waiting envelope, one movement at a time, never past 200
notes or 32 bundles, and raises RETRACT_BLOCKED once for a request the compartment cannot take. -/
def Obligations.ArbiterGrantsInOrder : Prop :=
  ∀ s : State,
    let c := s.capture;
    let sum := (c.bundles.map (·.count)).sum;
    ((c.jam = true ∨ c.transport ≠ .idle) → arbitrate s = s) ∧
    (c.jam = false → c.transport = .idle → c.retract = none → c.waiting = false → arbitrate s = s) ∧
    (c.jam = false → c.transport = .idle → c.retract = none → c.waiting = true →
      arbitrate s = envelopeGranted s) ∧
    (∀ r, c.jam = false → c.transport = .idle → c.retract = some r → r.granted = false → c.bin ≠ .opening →
      (sum + r.count ≤ 200 → c.bundles.length < 32 → arbitrate s = retractGranted r s) ∧
      ((200 < sum + r.count ∨ 32 ≤ c.bundles.length) →
        let op : FaultOp := match r.requester with
          | .dispense => .dispense
          | .deposit => .deposit
          | .calibration => .calibrate
          | .recovery => .recovery;
        let u := if r.blocked then s else
          faulted .retractBlocked op none none
            { s with capture := { c with retract := some { r with blocked := true } } };
        u.bus.queue.length ≤ 16 →
          arbitrate s = if c.waiting then envelopeGranted u else u))

/-- R68, R83, R89, R91, R96, R187: a retract movement that ends removes its request, and its owner ends as its rule
states, the securing of a lockdown going on; then the arbiter decides. What leads a completion notice is the model's
choice (notes/assumptions/25.md). -/
def Obligations.RetractMovementEnds : Prop :=
  ∀ (s : State) (r : RetractRequest),
    let u := { s with capture := { s.capture with transport := .idle, retract := none } };
    s.capture.retract = some r → s.capture.transport = .carryingRetract → s.approval.unbindPending = false →
      s.peer.request = none → s.lane.state ≠ .starting →
      (∀ o, let t := dispenseEnded o u;
        r.requester = .dispense → s.disp.st = .retracting → s.disp.decided.getD .retracted = o → Fits t →
        (arbitrate t).lane.resetDue = false → exec .retractMovementEnd s = .next (arbitrate t)) ∧
      (∀ o, let t := depositEnded o u;
        r.requester = .deposit → s.dep.st = .returnRetracting → s.dep.decided.getD .returnedRetracted = o → Fits t →
        (arbitrate t).lane.resetDue = false → exec .retractMovementEnd s = .next (arbitrate t)) ∧
      (let t := arbitrate { u with dep := { s.dep with clearance := .none, pocketRefusals := 0 } };
        r.requester = .deposit → s.dep.st = .holding → s.dep.clearance = .retracting → s.dep.securing = false →
        t.lane.resetDue = false → exec .retractMovementEnd s = .next t) ∧
      (r.requester = .deposit → s.dep.st ≠ .returnRetracting → s.dep.clearance = .retracting → s.dep.securing = true →
        SecuringGoesOn { u with dep := { s.dep with clearance := .none, pocketRefusals := 0 } } fun t =>
          (arbitrate t).lane.resetDue = false → exec .retractMovementEnd s = .next (arbitrate t)) ∧
      (∀ o, let t := calEnded o u;
        r.requester = .calibration → s.cal.phase = .retracting → s.cal.outcome = some o → Fits t →
        (arbitrate t).lane.resetDue = false → exec .retractMovementEnd s = .next (arbitrate t)) ∧
      (let t := arbitrate { u with lane := { s.lane with recovery := { s.lane.recovery with pocket := .none } } };
        r.requester = .recovery → t.lane.resetDue = false → exec .retractMovementEnd s = .next t)

/-- R97, R104, R187: a jam of the capture transport stops it with its mark set; an envelope's jam is reported with its
stage, the length counted so far and the number printed on it. Jams of the moves of recovery mark the dispenser and
the throat, whose transport stops. -/
def Obligations.CaptureAndRecoveryJams : Prop :=
  (∀ s : State,
     let jammed := fun (op : FaultOp) =>
       faulted .captureJam op none none
         { s with capture := { s.capture with transport := .idle, jam := true, envelope := none, shutter := false } };
     (let t := jammed .retract;
       s.capture.transport = .carryingRetract → Fits t → exec .retractJam s = .next t) ∧
     (∀ (m : EnvelopeMove) (mm : Nat),
       let counted := if m.stage = .measuring ∧ m.passed = false then mm else m.mm;
       let t := toldAll .envelopeJammed (be 1 (envelopeStagePos m.stage) ++ be 2 counted ++ beOpt 3 m.seq)
         (jammed .envelope);
       s.capture.envelope = some m → Fits t → exec (.envelopeJam mm) s = .next t)) ∧
  (∀ s : State,
     (let t := faulted .dispenserJam .recovery none none
         { s with
             dispenserJam := true,
             lane := { s.lane with recovery := { s.lane.recovery with stacker := .jammed } } };
       s.lane.recovery.stacker = .running → Fits t → exec .recoveryPurgeJam s = .next t) ∧
     (let t := faulted .depositJam .recovery (some (.channel .q)) none
         { s with
             throatJam := true, lane := { s.lane with recovery := { s.lane.recovery with escrow := .jammed } },
             drives := { s.drives with throatGate := false, throatTransport := false } };
       s.lane.recovery.escrow = .running → Fits t → exec .recoveryStackingJam s = .next t))

/-- R98, R99, R100, R101, R104: an envelope from its arrival at the slot to the length check, its withdrawal, and the
return of a refused one. -/
def Obligations.EnvelopeFromSlotToLength : Prop :=
  ∀ s : State,
    let wanted := fun (u : State) => { u with capture := { u.capture with shutter := shutterWanted u } };
    let c := s.capture;
    (c.shutter = true → c.waiting = false → c.returned = false → c.jam = false → c.transport = .idle →
      c.retract = none → s.lane.resetDue = false → exec .envelopeArrival s = .next (envelopeGranted s)) ∧
    (c.waiting = true →
      exec .envelopeWithdrawn s = .next (wanted { s with capture := { c with waiting := false } })) ∧
    (c.returned = true →
      exec .returnedEnvelopeCleared s = .next (wanted { s with capture := { c with returned := false } })) ∧
    (∀ m : EnvelopeMove, c.envelope = some m →
      let put := fun (x : EnvelopeMove) => { s with capture := { c with envelope := some x } };
      (exec .envelopeClearsSlot s = .next (wanted (put { m with cleared := true }))) ∧
      (m.refusal = none →
        (m.stage = .drawingIn → exec .lengthSensorReached s = .next (put { m with stage := .measuring })) ∧
        (m.stage = .measuring → m.passed = false →
          exec .envelopeTooLong s =
            .next (put { m with stage := .reversing, refusal := some .length, mm := 261 })) ∧
        (∀ mm, m.stage = .measuring → m.passed = false →
          exec (.lengthMeasured mm) s =
            .next (put (if 140 ≤ mm ∧ mm ≤ 260 then { m with passed := true, mm := mm }
              else { m with stage := .reversing, refusal := some .length, mm := mm }))) ∧
        (∀ mm, m.stage = .measuring →
          exec (.thicknessTrip mm) s =
            .next (put { m with
              stage := .reversing, refusal := some .thick, mm := if m.passed then m.mm else mm }))))

/-- R101, R102, R103: the imprint consumes a number, the drop writes the journal, the totals and the notice, and a
refused envelope that is back at the slot is reported; then the arbiter decides and the slot shutter follows. -/
def Obligations.EnvelopeImprintDropAndReturn : Prop :=
  ∀ (s : State) (m : EnvelopeMove),
    let c := s.capture;
    let number := if 16777215 ≤ c.lastSeq then 1 else c.lastSeq + 1;
    c.envelope = some m →
      (m.stage = .measuring → m.refusal = none → m.passed = true →
        exec .imprintStart s =
          .next { s with
                    capture :=
                      { c with
                          lastSeq := number, envelope := some { m with stage := .imprinting, seq := some number } } }) ∧
      (∀ n,
        let entry : JournalEntry :=
          { seq := n, startCount := s.lane.startCount, laneTime := s.lane.timeMs / 1000, length := m.mm,
            bound := s.approval.bound };
        let u := toldAll .envelopeCaptured (be 3 n ++ be 2 m.mm ++ beOpt 1 s.approval.bound)
          { s with
              capture := { c with journal := c.journal ++ [entry], transport := .idle, envelope := none },
              fault :=
                { s.fault with
                    shift := { s.fault.shift with envelopes := min (s.fault.shift.envelopes + 1) 65535 } } };
        let t := reshutter (arbitrate u);
        m.stage = .imprinting → m.seq = some n → Fits u → t.lane.resetDue = false →
        exec .envelopeDrop s = .next t) ∧
      (∀ why,
        let u := toldAll .envelopeRefused (be 1 (envelopeRefusalPos why) ++ be 2 m.mm ++ beOpt 1 s.approval.bound)
          { s with capture := { c with transport := .idle, envelope := none, returned := true } };
        let t := reshutter (arbitrate u);
        m.stage = .reversing → m.refusal = some why → Fits u → t.lane.resetDue = false →
        exec .envelopeReversalEnd s = .next t)

/-! ### Approvals and the binding (chapter 8) -/

/-- An answer that R160 takes: addressed to the lane, from a station that is no LANE, for the asking number, kind and
amount of a WAITING slot, and not from its requester. -/
abbrev AnswerTaken (src slot ask amount : Nat) (k : OpKind) (s : State) : Prop :=
  takesPart s = true ∧ s.lane.station ≠ 31 ∧ src ≤ 30 ∧ src ≠ s.lane.station ∧
    ((applyFrame src .console false id s).peer.entries.getD src {}).kind ≠ some .lane ∧ slot ≤ 3 ∧
    (s.approval.slots.getD slot {}).kind = some k ∧ (s.approval.slots.getD slot {}).ask = ask ∧
    (s.approval.slots.getD slot {}).amount = some amount ∧ (s.approval.slots.getD slot {}).requester ≠ some src

/-- R5, R19, R51, R85, R86, R108, R146, R158, R161, R192: a GIVE frees the slot, closes the approval, and the owner, the
block whose record holds the slot and its ask number, goes on; or the operation ends ABANDONED, with nothing changed,
where what it needs no longer holds: the lane state, the cassette in its place, the zones of the latch quiet. That a
completion notice has an operation byte in front, and those of a load and an exchange the tag and the cassette, is the
model's choice (notes/assumptions/25.md). -/
def Obligations.GivenApprovalsTakeEffect : Prop :=
  ∀ (src slot ask amount : Nat) (s : State),
    let w := slotClosed slot (.given src) (applyFrame src .console false id s);
    let give := fun (k : OpKind) => exec (.approvalAnswer src slot ask 1 (opKindPos k) amount) s;
    let taken := fun (k : OpKind) => AnswerTaken src slot ask amount k s;
    let ref : SlotRef := { slot := slot, ask := ask };
    (let t := queued [intentFrame .dispense]
        { w with
            disp := { s.disp with st := .awaitCeiling, slot := none, ceilingMs := some 10000 },
            peer := { w.peer with request := some { kind := .dispense, amount := s.disp.planValue } } };
      taken .dispense → s.disp.st = .awaitApproval → s.disp.slot = some ref → s.peer.duplicate = false → Fits t →
      give .dispense = .next t) ∧
    (let t := { w with
        dep := { s.dep with st := .stacking, slot := none, move := .stacking },
        drives := { s.drives with throatTransport := true } };
      taken .depositAccept → s.dep.st = .awaitApproval → s.dep.slot = some ref → s.dep.escrow ≠ [] →
      s.dep.securing = false → Fits t → give .depositAccept = .next t) ∧
    (∀ x c d,
      let loaded : Cassette :=
        { st := if x.count = 0 then .empty else if x.count ≤ c.setpoint then .low else .active, denom := some x.den,
          face := some d.face, count := x.count, loaded := x.count, accepted := 0, rejectEst := 0,
          setpoint := c.setpoint, ref := d.nomThick, restart := 0, misses := 0 };
      let t := toldBound .completion
        (be 1 4 ++ be 1 x.tag ++ be 1 (loadOutcomePos .loaded) ++ be 1 (x.cassette + 1) ++
          be 1 (cassetteStatePos loaded.st) ++ if c.denom.isSome then cassetteFigures c else [])
        { w with
            cash :=
              { s.cash with
                  cassettes := s.cash.cassettes.set x.cassette loaded,
                  loads := s.cash.loads.filter fun y => y.slot != x.slot } };
      taken .cassetteLoad → s.cash.loads.find? (fun y => y.slot == ref) = some x → s.lane.state = .closed →
      seated s x.cassette = true → s.cash.cassettes[x.cassette]? = some c → s.cash.denoms[x.den]? = some d → Fits t →
      give .cassetteLoad = .next t) ∧
    (∀ x,
      let t := toldBound .completion
        (be 1 5 ++ be 1 x.tag ++ be 1 (exchangeOutcomePos .exchanged) ++ depositCassetteBytes s.cash.deposit) w;
      let zero : DepositCassette :=
        { count := 0, perCount := List.replicate 8 0, perValue := List.replicate 8 0, unconfCount := 0,
          unconfValue := 0, unidentified := 0 };
      taken .depositCassetteExchange → s.cash.exchange = some x → x.slot = ref → s.lane.state = .closed → Fits t →
      give .depositCassetteExchange = .next { t with cash := { s.cash with exchange := none, deposit := zero } }) ∧
    (let t := { w with capture := { s.capture with bin := .opening, binSlot := none } };
      taken .binService → s.capture.bin = .awaitApproval → s.capture.binSlot = some ref →
      (s.lane.state = .closed ∨ s.lane.state = .recovery) → Fits t → give .binService = .next t) ∧
    (let u := positioned { w with
        alarm := { s.alarm with duressClear := none, duress := false, drive := s.alarm.attack } };
      let t := toldAll .completion
        (be 1 7 ++ be 1 (clearOutcomePos .cleared) ++ be 1 1 ++ beOpt 1 (s.approval.slots.getD slot {}).requester ++
          be 1 src) u;
      taken .alarmClear → s.alarm.duressClear = some ref →
      (∀ z ∈ s.alarm.zones, z.type = .duress → z.state = .quiet ∧ z.frozen = false) → Fits t →
      give .alarmClear = .next t) ∧
    (let u := positioned { w with
        alarm := { s.alarm with attackClear := none, attack := false, drive := s.alarm.duress } };
      let t := toldAll .completion
        (be 1 7 ++ be 1 (clearOutcomePos .cleared) ++ be 1 2 ++ beOpt 1 (s.approval.slots.getD slot {}).requester ++
          be 1 src) { u with lane := { u.lane with release := s.lane.release || s.lane.state == .lockdown } };
      taken .alarmClear → s.alarm.duressClear ≠ some ref → s.alarm.attackClear = some ref →
      (∀ z ∈ s.alarm.zones, z.type = .attack → z.state = .quiet ∧ z.frozen = false) → Fits t →
      give .alarmClear = .next t) ∧
    (let t := { w with lane := { w.lane with resetWait := none } };
      taken .resetLane → s.lane.resetWait = some ref → Fits t → give .resetLane = .next t) ∧
    (∀ x,
      let t := toldBound .completion
        (be 1 4 ++ be 1 x.tag ++ be 1 (loadOutcomePos .abandoned) ++ be 1 (x.cassette + 1) ++
          be 1 (cassetteStatePos (s.cash.cassettes.getD x.cassette {}).st))
        { w with cash := { s.cash with loads := s.cash.loads.filter fun y => y.slot != x.slot } };
      taken .cassetteLoad → s.cash.loads.find? (fun y => y.slot == ref) = some x →
      (s.lane.state ≠ .closed ∨ seated s x.cassette = false) → Fits t → give .cassetteLoad = .next t) ∧
    (∀ x,
      let t := toldBound .completion (be 1 5 ++ be 1 x.tag ++ be 1 (exchangeOutcomePos .abandoned))
        { w with cash := { s.cash with exchange := none } };
      taken .depositCassetteExchange → s.cash.exchange = some x → x.slot = ref → s.lane.state ≠ .closed → Fits t →
      give .depositCassetteExchange = .next t) ∧
    (let t := toldAll .completion (be 1 6 ++ be 1 (binOutcomePos .abandoned))
        (reshutter { w with capture := { s.capture with bin := .none, binSlot := none } });
      taken .binService → s.capture.bin = .awaitApproval → s.capture.binSlot = some ref → s.lane.state ≠ .closed →
      s.lane.state ≠ .recovery → Fits t → give .binService = .next t) ∧
    (let abandoned := fun (latch : Nat) (a : Alarm) => toldAll .completion
        (be 1 7 ++ be 1 (clearOutcomePos .abandoned) ++ be 1 latch ++
          beOpt 1 (s.approval.slots.getD slot {}).requester ++ be 1 src) { w with alarm := a };
      taken .alarmClear →
        (let t := abandoned 1 { s.alarm with duressClear := none };
          s.alarm.duressClear = some ref →
          (∃ z ∈ s.alarm.zones, z.type = .duress ∧ (z.state ≠ .quiet ∨ z.frozen = true)) → Fits t →
          give .alarmClear = .next t) ∧
        (let t := abandoned 2 { s.alarm with attackClear := none };
          s.alarm.duressClear ≠ some ref → s.alarm.attackClear = some ref →
          (∃ z ∈ s.alarm.zones, z.type = .attack ∧ (z.state ≠ .quiet ∨ z.frozen = true)) → Fits t →
          give .alarmClear = .next t))

/-- R5, R19, R51, R85, R108, R146, R161, R162, R192: a DENY and the end of the approval timer free the slot, close the
approval, and end what waited with nothing changed. That DEPOSIT_STATUS sends DECLINED as 1 and EXPIRED as 2 is the
model's choice (notes/assumptions/9.md), and so are the operation byte, the tag, the cassette and its state in front of
a completion notice (notes/assumptions/25.md). -/
def Obligations.DeniedOrExpiredApprovalsEnd : Prop :=
  ∀ (src slot ask amount : Nat) (k : OpKind) (s t : State),
    let ref : SlotRef := { slot := slot, ask := (s.approval.slots.getD slot {}).ask };
    let ofDuress := s.alarm.duressClear == some ref;
    let ended := fun (denied : Bool) (w : State) =>
      match k with
      | .dispense => dispenseEnded (if denied then .declined else .expired) w
      | .depositAccept =>
          toldBound .depositStatus
            (be 1 (if denied then 1 else 2) ++ be 1 s.dep.acceptTag ++ be 2 s.dep.escrow.length ++
              be 3 (s.dep.escrow.map (·.face)).sum) { w with dep := { s.dep with st := .holding, slot := none } }
      | .cassetteLoad =>
          match s.cash.loads.find? fun y => y.slot == ref with
          | some x =>
              toldBound .completion
                (be 1 4 ++ be 1 x.tag ++ be 1 (loadOutcomePos (if denied then .declined else .expired)) ++
                  be 1 (x.cassette + 1) ++ be 1 (cassetteStatePos (s.cash.cassettes.getD x.cassette {}).st))
                { w with cash := { s.cash with loads := s.cash.loads.filter fun y => y.slot != x.slot } }
          | none => w
      | .depositCassetteExchange =>
          toldBound .completion
            (be 1 5 ++ be 1 ((s.cash.exchange.map (·.tag)).getD 0) ++
              be 1 (exchangeOutcomePos (if denied then .declined else .expired)))
            { w with cash := { s.cash with exchange := none } }
      | .binService =>
          toldAll .completion (be 1 6 ++ be 1 (binOutcomePos (if denied then .declined else .expired)))
            (reshutter { w with capture := { s.capture with bin := .none, binSlot := none } })
      | .alarmClear =>
          toldAll .completion
            (be 1 7 ++ be 1 (clearOutcomePos (if denied then .declined else .expired)) ++ be 1 (if ofDuress then 1 else 2) ++
              beOpt 1 (s.approval.slots.getD slot {}).requester ++ beOpt 1 (if denied then some src else none))
            { w with
                alarm := if ofDuress then { s.alarm with duressClear := none }
                  else { s.alarm with attackClear := none } }
      | .resetLane => { w with lane := { w.lane with resetWait := none } };
    let waits : Prop :=
      match k with
      | .dispense => s.disp.st = .awaitApproval ∧ s.disp.slot = some ref
      | .depositAccept => s.dep.st = .awaitApproval ∧ s.dep.slot = some ref
      | .cassetteLoad => (s.cash.loads.find? fun y => y.slot == ref).isSome
      | .depositCassetteExchange => s.cash.exchange.map (·.slot) = some ref
      | .binService => s.capture.bin = .awaitApproval ∧ s.capture.binSlot = some ref
      | .alarmClear => s.alarm.duressClear = some ref ∨ s.alarm.attackClear = some ref
      | .resetLane => s.lane.resetWait = some ref;
    waits → Fits t →
      (let u := applyFrame src .console false id s;
        AnswerTaken src slot ask amount k s → QuietEnd u → t = ended true (slotClosed slot (.denied src) u) →
        exec (.approvalAnswer src slot ask 2 (opKindPos k) amount) s = .next t) ∧
      (∀ x, s.approval.slots[slot]? = some x → x.kind = some k → QuietEnd s →
        t = ended false (slotClosed slot .expired s) → exec (.approvalTimeout slot) s = .next t)

/-- R160: an answer that its first line to apply sets aside changes nothing but the peer view and the fault record,
which names the sender. One addressed to 31, as every answer to a lane strapped 31 is, changes the peer view alone. -/
def Obligations.IgnoredAnswersAreRecorded : Prop :=
  ∀ (src slot ask verdict kind amount : Nat) (s : State),
    let u := applyFrame src .console false id s;
    let lane := (u.peer.entries.getD src {}).kind = some .lane;
    takesPart s = true → src ≤ 30 → src ≠ s.lane.station → u.lane.resetDue = false →
      (s.lane.station = 31 → exec (.approvalAnswer src slot ask verdict kind amount) s = .next u) ∧
      (s.lane.station ≠ 31 → (lane ∨ (verdict ≠ 1 ∧ verdict ≠ 2) ∨ 3 < slot ∨
          (∀ x, s.approval.slots[slot]? = some x → x.kind = none ∨ x.ask ≠ ask ∨ x.kind.map opKindPos ≠ some kind ∨
            x.amount ≠ some amount)) →
        exec (.approvalAnswer src slot ask verdict kind amount) s =
          .next (raiseSoft .unexpectedAnswer .none none (some src) u)) ∧
      (∀ x, s.lane.station ≠ 31 → ¬lane → (verdict = 1 ∨ verdict = 2) → slot ≤ 3 → s.approval.slots[slot]? = some x →
        x.kind.map opKindPos = some kind → x.ask = ask → x.amount = some amount → x.requester = some src →
        exec (.approvalAnswer src slot ask verdict kind amount) s =
          .next (raiseSoft .selfApproval .none none (some src) u))

/-- R154, R155: BIND and UNBIND. -/
def Obligations.BindingFollowsItsCommands : Prop :=
  ∀ (h : Header) (s : State), Comes h s → s.lane.state ≠ .lockdown → s.lane.state ≠ .configFault →
    let u := heard h s;
    (let t := doneReply h .bind []
        { u with
            approval :=
              { u.approval with bound := some h.src, bindTime := some (s.lane.timeMs / 1000), unbindPending := false } };
      s.approval.bound = none → (u.peer.entries.getD h.src {}).kind ≠ some .lane → Fits t →
      exec (.bind h) s = .next t) ∧
    (let t := doneReply h .bind [] u;
      s.approval.bound = some h.src → (u.peer.entries.getD h.src {}).kind ≠ some .lane → Fits t →
      exec (.bind h) s = .next t) ∧
    (let t := refusedReply h .bind .boundElsewhere u;
      (∃ b, s.approval.bound = some b ∧ b ≠ h.src) → (u.peer.entries.getD h.src {}).kind ≠ some .lane → Fits t →
      exec (.bind h) s = .next t) ∧
    (let t := doneReply h .unbind []
        { u with approval := { u.approval with bound := none, bindTime := none, unbindPending := false } };
      s.approval.bound = some h.src → Fits t → exec (.unbind h) s = .next t) ∧
    (let t := refusedReply h .unbind .nothing u;
      s.approval.bound = none → Fits t → exec (.unbind h) s = .next t)

/-! ### Held cash, the peer view and intents (chapter 6) -/

/-- R117, R118: what a frame that shows a kind of station leaves of its sender's entry before its own effect. -/
def entryHeard (defaultCap : Nat) (shows : PeerKind) (isPosition : Bool) (e : PeerEntry) : PeerEntry :=
  let k : PeerKind := if e.kind = some .lane ∨ shows = .lane then .lane else .console;
  let turned := e.kind = some .console ∧ shows = .lane;
  let cap := if turned then defaultCap else e.cap;
  let fresh := e.status ≠ .live ∧ k = .lane ∧ isPosition = false;
  { e with
      kind := some k, status := .live, age := 0, cap := cap,
      held := if fresh then cap else if turned then 0 else e.held,
      known := if fresh ∨ turned then false else e.known }

/-- R117, R118, R119, R121, R122, R123, R139, R156, R176, R179: a frame of a peer changes its own entry and nothing
else, where no request is held back; a bound console's entry that becomes LIVE again with a frame or a COMMAND of it
also clears the unbind pending mark, and the binding stays. One that ends before the lane takes part on the medium
changes nothing. -/
def Obligations.PeerFramesUpdateTheirEntry : Prop :=
  (∀ (src : Nat) (s : State),
    let e := s.peer.entries.getD src {};
    let put := fun (x : PeerEntry) => { s with peer := { s.peer with entries := s.peer.entries.set src x } };
    let lane := entryHeard s.config.defaultPeerCap .lane false e;
    takesPart s = true → s.lane.state ≠ .configFault → src ≤ 30 → src ≠ s.lane.station →
      s.peer.request = none → s.lane.resetDue = false →
      (∀ p : PositionFigures,
        exec (.peerPosition src p) s =
          .next (put
            { kind := some .lane, status := .live, held := p.held, cap := p.cap, known := true,
              laneState := some p.laneState, announced := some p.held, summary := p.summary,
              vehicle := some p.vehicle, slots := some p.slots, age := 0 })) ∧
      (∀ amount, exec (.peerIntent src amount) s = .next (put { lane with held := min (lane.held + amount) 16777215 })) ∧
      (∀ dst summary,
        exec (.peerAlarm src dst summary) s =
          .next (put { lane with
            summary := if dst = 31 ∨ dst = s.lane.station then summary else lane.summary })) ∧
      (∀ f, f = .ask ∨ f = .reply ∨ f = .notice → exec (.peerFrame src f) s = .next (put lane)) ∧
      (let console := put (entryHeard s.config.defaultPeerCap .console false e);
        let again : Prop := s.approval.bound = some src ∧ e.status ≠ .live ∧ e.kind ≠ some .lane;
        let t := if again then { console with approval := { s.approval with unbindPending := false } } else console;
        (∀ f, f = .command ∨ f = .presence ∨ f = .answer → exec (.peerFrame src f) s = .next t) ∧
          (∀ h : Header, h.src = src → heard h s = t))) ∧
  (∀ (src : Nat) (s : State), (s.lane.state = .starting ∨ s.bus.part = false) → s.lane.resetDue = false →
     (∀ p, exec (.peerPosition src p) s = .next s) ∧ (∀ amount, exec (.peerIntent src amount) s = .next s) ∧
       (∀ dst summary, exec (.peerAlarm src dst summary) s = .next s) ∧ (∀ f, exec (.peerFrame src f) s = .next s) ∧
       (∀ slot ask verdict kind amount, exec (.approvalAnswer src slot ask verdict kind amount) s = .next s) ∧
       exec .duplicateStation s = .next s)

/-- R113, R115, R120, R124, R125, R126, R128, R131: the lane's own INTENT completes: granted under the ceiling, it
raises H and the engine's reservation and the engine goes on; over it, or with the duplicate mark set, it is refused and
held back. The wall sum it is held against is H and the counted values of the other stations' entries. -/
def Obligations.OwnIntentIsDecidedAtCompletion : Prop :=
  (∀ (s : State) (e : TxEntry),
     let u := { s with bus := { s.bus with queue := s.bus.queue.eraseP (·.inTx) } };
     let a := e.carried;
     let held := fun (x : HeldCash) (v : State) => { v with peer := { v.peer with held := x, kept := x, request := none } };
     s.bus.queue.find? (·.inTx) = some e → e.owner = .intent →
       (e.orphan = false → ∀ r, s.peer.request = some r →
         (s.peer.duplicate = false → wallSum s + a ≤ s.config.wallCeiling → s.lane.resetDue = false →
           (r.kind = .dispense → a ≤ r.amount →
             exec .intentCompletion s =
               .next (held { s.peer.held with h := s.peer.held.h + a, dispense := a }
                 { u with
                     disp := { s.disp with st := .zeroCapture, ceilingMs := none },
                     chP := { s.chP with capturing := true },
                     drives := { s.drives with pickTransport := true, pickGate := none } })) ∧
           (r.kind = .deposit →
             exec .intentCompletion s =
               .next (held { s.peer.held with h := s.peer.held.h + a, deposit := a }
                 { u with
                     dep := { s.dep with st := .zeroCapture, ceilingMs := none },
                     chQ := { s.chQ with capturing := true },
                     drives := { s.drives with throatTransport := true, throatGate := false } }))) ∧
         (let t := positioned { u with
             peer :=
               { s.peer with
                   request := some { r with
                     phase := .heldBack, refusedAt := some s.lane.timeMs, refusals := min 255 (r.refusals + 1),
                     spacingMs := 100 } } };
           (s.peer.duplicate = true ∨ s.config.wallCeiling < wallSum s + a) → s.lane.state ≠ .starting → Fits t →
           exec .intentCompletion s = .next t)) ∧
       (let t := positioned { u with peer := { s.peer with orphan := false } };
         e.orphan = true → s.lane.state ≠ .starting → Fits t → exec .intentCompletion s = .next t)) ∧
  (∀ s : State,
     let counted := fun (e : PeerEntry) =>
       if e.status = .awaited then s.config.defaultPeerCap
       else if e.kind = some .lane ∧ e.status = .live then e.held
       else if e.kind = some .lane ∧ e.status = .stale ∧ ¬(e.laneState = some .night ∧ e.announced = some 0) then e.cap
       else 0;
     let others := (List.range 31).map fun n =>
       if n = s.lane.station then 0 else counted (s.peer.entries.getD n {});
     s.peer.entries.length = 31 → wallSum s = min 16777215 (s.peer.held.h + others.sum))

/-- The bound console `b` has been unbound as STALE, and all stations are told so (R156). -/
def unboundStale (b : Nat) (s : State) : State :=
  toldAll .unbound (be 1 b ++ be 1 1)
    { s with approval := { s.approval with bound := none, bindTime := none, unbindPending := false } }

/-- R114, R119, R130, R131, R156: an entry unheard for 2,000 ms is STALE; a stale bound console is unbound at once, or,
with a transaction open, the unbind pending mark is set. With the mark set and no request waiting, the ending of a
dispense, a deposit session or a calibration, of whatever outcome, unbinds it behind the completion notice where no
transaction is left open, and keeps the binding and the mark where one is; the takes at the shutter end so. The POSITION
period, and the lane's own number heard from another station. That NOTICE UNBOUND sends its reason STALE as 1
(notes/assumptions/9.md), and that the step leaves the entry an age of at least 2,000 ms whatever age it had
(notes/assumptions/2.md), is the model's choice. What leads a completion notice is the model's choice
(notes/assumptions/25.md). -/
def Obligations.StalePeersPositionsAndDuplicates : Prop :=
  (∀ (n : Nat) (s : State) (e : PeerEntry),
     let u := { s with
       peer :=
         { s.peer with entries := s.peer.entries.set n { e with status := .stale, age := max e.age 2000 } } };
     s.peer.entries[n]? = some e → e.status = .live → s.peer.request = none →
       ((e.kind ≠ some .console ∨ s.approval.bound ≠ some n) → s.lane.resetDue = false →
         exec (.peerStale n) s = .next u) ∧
       (e.kind = some .console → s.approval.bound = some n →
         (txnOpen s = true → s.lane.resetDue = false →
           exec (.peerStale n) s = .next { u with approval := { s.approval with unbindPending := true } }) ∧
         (txnOpen s = false → Fits (unboundStale n u) → exec (.peerStale n) s = .next (unboundStale n u)))) ∧
  (∀ (s : State) (b : Nat),
     let left := fun (v : State) => if txnOpen v = true then v else unboundStale b v;
     let shut := { s with drives := { s.drives with pocketShutter := false } };
     s.approval.unbindPending = true → s.approval.bound = some b → s.peer.request = none → s.lane.state ≠ .starting →
       (∀ o, let t := left (dispenseEnded o s); t.bus.queue.length ≤ 16 → endDispense o s = t) ∧
       (∀ o, let t := left (depositEnded o s); t.bus.queue.length ≤ 16 → endDeposit o s = t) ∧
       (∀ o, let t := left (calEnded o s); t.bus.queue.length ≤ 16 → endCal o s = t) ∧
       (let t := left (dispenseEnded .taken (bundleTaken s));
         s.disp.st = .presenting → s.disp.takeMs.isSome → Fits t → exec .dispenseTaken s = .next t) ∧
       (let t := left (depositEnded .returnedTaken shut);
         s.dep.st = .returnPresented → Fits t → exec .returnTaken s = .next t) ∧
       (∀ o, let t := left (calEnded o shut);
         s.cal.phase = .inPocket → s.cal.outcome = some o → Fits t → exec .calibrationNoteTaken s = .next t)) ∧
  (∀ s : State, s.lane.state ≠ .starting →
     (Fits (positioned s) → exec .positionPeriod s = .next (positioned s)) ∧
     (let t := positioned (faulted .duplicateStation .none none (some s.lane.station)
         { s with peer := { s.peer with duplicate := true } });
       takesPart s = true → s.lane.station ≠ 31 → Fits t → exec .duplicateStation s = .next t))

/-! ### The wall bus (chapter 10) -/

/-- A queue without the pending POSITIONs that follow another (R130, R177). -/
def firstPositionOnly (q : List TxEntry) : List TxEntry :=
  let waits := fun (e : TxEntry) => !e.inTx && e.owner == .position;
  (q.zipIdx.filter fun p => !(waits p.1 && (q.take p.2).any waits)).map (·.1)

/-- The owner of a frame that is discarded or dropped has been told (R126, R128, R177, R178, R182, R192). -/
def ownerTold (e : TxEntry) (s : State) : State :=
  match e.owner with
  | .intent =>
      if e.orphan then { s with peer := { s.peer with orphan := false } }
      else
        { s with
            peer :=
              { s.peer with
                  request := s.peer.request.map fun r =>
                    { r with
                        phase := .heldBack, refusedAt := some s.lane.timeMs, refusals := min 255 (r.refusals + 1),
                        spacingMs := 100 } } }
  | .querySegment => { s with bus := { s.bus with series := none } }
  | .resetNotice => { s with lane := { s.lane with resetDue := true } }
  | .nobody | .position | .ask _ => s

/-- R128, R130, R174, R177, R178, R182, R192: what the end of a transmission of the lane's own does; and at 16 entries
a new frame raises TX_OVERFLOW, and the newest pending frame of the weakest class gives way to a stronger one, whose
owner is told, or the new frame is dropped. That an INTENT of a withdrawn request leaves the queue at a lost
arbitration, and that of two POSITIONs which would be pending the older stays, is the model's choice
(notes/assumptions/17.md). -/
def Obligations.OwnTransmissionsEnd : Prop :=
  (∀ (s : State) (b : Board) (e : TxEntry),
    let u := { s with bus := { s.bus with queue := s.bus.queue.eraseP (·.inTx) } };
    let again := fun (f : TxEntry → TxEntry) =>
      { s with
          bus := { s.bus with queue := firstPositionOnly (s.bus.queue.map fun x => if x.inTx then f x else x) } };
    let one := s.bus.queue.find? (·.inTx) = some e;
    one → s.lane.resetDue = false →
      ((e.owner ≠ .intent ∧ e.owner ≠ .querySegment ∧ e.owner ≠ .resetNotice) →
        exec (.ownFrameCompleted b) s = .next u) ∧
      (e.owner = .resetNotice →
        exec (.ownFrameCompleted b) s =
          .next (restart .commanded { u with board := b, lane := { s.lane with resetDue := true } })) ∧
      (e.owner = .querySegment → ∀ x, s.bus.series = some x →
        (x.rest = [] → exec .querySegmentCompleted s = .next { u with bus := { u.bus with series := none } }) ∧
        (∀ p rest,
          let t := queued
            [{ frame := plainFrame .reply x.dst p.1 false (.reply .query) x.tag p.2, owner := .querySegment }]
            { u with bus := { u.bus with series := some { x with rest := rest } } };
          x.rest = p :: rest → s.bus.queue.length ≤ 16 → exec .querySegmentCompleted s = .next t)) ∧
      (e.orphan = false → exec .arbitrationLost s = .next (again fun x => { x with inTx := false })) ∧
      (e.orphan = true →
        exec .arbitrationLost s = .next { u with peer := { s.peer with orphan := false } }) ∧
      (e.orphan = false → e.complaints ≤ 2 →
        exec (.transmissionComplained b) s =
          .next (again fun x => { x with inTx := false, complaints := x.complaints + 1 })) ∧
      (3 ≤ e.complaints →
        let w := ownerTold e
          (raiseSoft .busComplained .none none (if e.frame.dst ≤ 30 then some e.frame.dst else none) u);
        (e.owner ≠ .resetNotice → exec (.transmissionComplained b) s = .next w) ∧
        (e.owner = .resetNotice →
          exec (.transmissionComplained b) s = .next (restart .commanded { w with board := b })))) ∧
  (∀ (e : TxEntry) (s : State),
    let full := raiseSoft .txOverflow .none none none s;
    let weaker := fun (x y : TxEntry) => classNum y.frame.cls < classNum x.frame.cls;
    (s.bus.queue.length < 16 → enqueue e s = queued [e] s) ∧
    (16 ≤ s.bus.queue.length →
      (∀ before after old, s.bus.queue = before ++ old :: after → old.inTx = false → weaker old e →
        (∀ x ∈ before, x.inTx = false → ¬weaker x old) → (∀ x ∈ after, x.inTx = false → weaker old x) →
        enqueue e s =
          ownerTold old { full with bus := { s.bus with queue := before ++ after ++ [e] } }) ∧
      ((∀ x ∈ s.bus.queue, x.inTx = false → ¬weaker x e) → enqueue e s = ownerTold e full)))

/-- R124, R129, R176, R177: at an idle point the lane takes part on the medium from then on, and the oldest frame of
the strongest class is offered; a POSITION and an INTENT take their figures at that moment. With a frame of its own on
the medium, and in STARTING, it does nothing. That POSITION sends a vehicle present as 1 and none as 2 is the model's
choice (notes/assumptions/9.md). -/
def Obligations.IdlePointOffersTheStrongestFrame : Prop :=
  (∀ s : State,
    ((s.lane.state = .starting ∨ ∃ x ∈ s.bus.queue, x.inTx = true) → exec .idlePoint s = .next s) ∧
    (s.lane.state ≠ .starting → s.bus.queue = [] →
      exec .idlePoint s = .next { s with bus := { s.bus with part := true } })) ∧
  (∀ (s : State) (before after : List TxEntry) (e : TxEntry),
    let offered := fun (x : TxEntry) =>
      { s with bus := { s.bus with queue := before ++ { x with inTx := true } :: after, part := true } };
    s.lane.state ≠ .starting → s.bus.queue = before ++ e :: after → (∀ x ∈ s.bus.queue, x.inTx = false) →
      (∀ x ∈ before, classNum e.frame.cls < classNum x.frame.cls) →
      (∀ x ∈ after, classNum e.frame.cls ≤ classNum x.frame.cls) →
      ((e.owner ≠ .position ∧ e.owner ≠ .intent) →
        exec .idlePoint s = .next (offered e)) ∧
      (e.owner = .position → s.lane.state ≠ .configFault →
        let figures := be 3 s.peer.held.h ++ be 3 s.config.laneCap ++
          be 1 (laneStatePos (if s.peer.duplicate then .configFault else s.lane.state)) ++
          be 1 (if s.alarm.attack then 3 else if s.alarm.duress then 2 else 1) ++
          be 1 (if s.alarm.zones.any (fun z => z.type == .vehicle && z.state == .active) then 1 else 2) ++
          be 1 (s.approval.slots.countP fun x => x.kind.isSome);
        exec .idlePoint s = .next (offered { e with frame := { e.frame with payload := figures } })) ∧
      (∀ r, e.owner = .intent → s.peer.request = some r →
        exec .idlePoint s =
          .next (offered { e with carried := r.amount, frame := { e.frame with payload := be 3 r.amount } })))

/-- The commands of R157's first group but CLEAR_PURGE, each with its kind, whatever operands they carry. -/
def transactionCommands (h : Header) (req : Request) (raws : List Nat) (a k n : Nat) (b : Bool) :
    List (CmdKind × Instr) :=
  [(.dispense, .dispense h req), (.cancel, .cancel h), (.depositOpen, .depositOpen h),
   (.depositCloseThroat, .depositCloseThroat h raws), (.depositAccept, .depositAccept h raws),
   (.depositReturn, .depositReturn h raws), (.calibrate, .calibrate h a k n b), (.cassetteLoad, .cassetteLoad h a k n),
   (.cassetteUnload, .cassetteUnload h a), (.depositCassetteExchange, .depositCassetteExchange h)]

/-- The commands that R149 and R186 refuse alike: binding, lane states, the opening of the bin, the close of the
shift. -/
def serviceCommands (h : Header) : List (CmdKind × Instr) :=
  [(.bind, .bind h), (.unbind, .unbind h), (.laneOpen, .laneOpen h), (.laneClose, .laneClose h),
   (.laneNight, .laneNight h), (.binServiceOpen, .binServiceOpen h), (.shiftClose, .shiftClose h)]

/-- Every command but QUERY and the unknown ones, each with its kind, whatever operands it carries. -/
def everyCommand (h : Header) (req : Request) (raws : List Nat) (a k n : Nat) (b c : Bool) : List (CmdKind × Instr) :=
  transactionCommands h req raws a k n b ++ serviceCommands h ++
    [(.clearPurge, .clearPurge h), (.queryZonesClear, .queryZonesClear h), (.alarmClear, .alarmClear h a),
     (.binServiceClose, .binServiceClose h b), (.clearJam, .clearJam h b c), (.clearFaults, .clearFaults h),
     (.clearCause, .clearCause h), (.resetLane, .resetLane h)]

/-- A record as its figures, each in its width in bytes; one that is absent is all ones (R180). -/
def sent (figures : List (Nat × Option Nat)) : List Byte := figures.flatMap fun f => beOpt f.1 f.2

/-- A figure that stands. -/
def fig (width value : Nat) : Nat × Option Nat := (width, some value)

/-- A flag or mark: set 1, clear 2. -/
def flagFig (b : Bool) : Nat × Option Nat := (1, some (if b then 1 else 2))

/-- A timer: what remains of it, in whole seconds. -/
def timerFig (t : Option Nat) : Nat × Option Nat := (1, t.map (· / 1000))

/-- The figures of a record that may be absent as a whole, in the widths `ws`. -/
def orAbsent {α : Type} (ws : List Nat) (figures : α → List (Nat × Option Nat)) : Option α → List (Nat × Option Nat)
  | none => ws.map fun w => (w, none)
  | some x => figures x

/-- The lane status record: the lane state unit (R184), the binding and the slots (R153, R158), H and the intent request
(R113), the latches, the integrator and the marks of lockdown (R132, R142), the capture unit with its retract request
(R93), then the channels, the dispense and the session, given below. -/
def statusFigures (s : State) : List (Nat × Option Nat) :=
  let l := s.lane;
  let p := s.peer;
  let a := s.alarm;
  let c := s.capture;
  [fig 1 (laneStatePos l.state), (1, l.pending.map laneRequestPos), (1, l.target.map laneRequestPos),
   fig 1 (powerPos l.power), fig 2 l.startCount, fig 4 (l.timeMs / 1000), fig 1 l.station,
   (1, s.approval.bound), (4, s.approval.bindTime), flagFig s.approval.unbindPending] ++
  (s.approval.slots.flatMap fun x =>
    [fig 1 (if x.kind.isSome then 2 else 1), (1, x.kind.map opKindPos), (3, x.amount), (1, x.requester), fig 1 x.ask,
     (4, x.timeAsked), timerFig x.remainingMs]) ++
  [fig 3 p.held.h, fig 3 p.held.dispense, fig 3 p.held.deposit, fig 3 (wallSum s)] ++
  orAbsent [1, 1, 3, 1, 4, 1]
    (fun r =>
      [fig 1 (intentPos r.kind), fig 1 (intentPos r.kind), fig 3 r.amount, fig 1 (intentPhasePos r.phase),
       (4, r.refusedAt), fig 1 r.refusals]) p.request ++
  [flagFig p.orphan, flagFig p.duplicate,
   flagFig a.duress, flagFig a.attack, flagFig a.drive, flagFig a.recognised, fig 1 a.asserted, fig 1 a.released,
   (1, a.duressClear.map (·.slot)), (1, a.attackClear.map (·.slot)), flagFig l.release, flagFig l.unpowered,
   fig 1 (transportPos c.transport), flagFig c.jam, flagFig c.shutter, fig 1 (if c.waiting then 2 else 1),
   flagFig c.returned] ++
  orAbsent [1, 1, 1, 2, 3, 1, 1]
    (fun r =>
      [fig 1 (requesterPos r.requester), fig 1 (bundleKindPos r.kind), (1, r.tag), fig 2 r.count, fig 3 r.value,
       flagFig r.blocked, flagFig r.granted]) c.retract ++
  [fig 1 (binStatePos c.bin), fig 3 c.lastSeq, fig 2 c.journal.length, fig 2 c.bundles.length,
   fig 2 (c.bundles.map (·.count)).sum]

/-- A channel with its last record (R21, section 2.4). -/
def channelFigures (c : Channel) : List (Nat × Option Nat) :=
  [(2, c.zero), fig 2 c.gain, fig 2 c.gainBasis, fig 2 c.drift, flagFig c.lost] ++
  orAbsent [2, 2, 2, 2, 2, 2, 1, 1, 1, 1]
    (fun r =>
      [fig 2 r.n, fig 2 r.length, (2, r.c), (2, r.t), (2, r.ref), (2, r.q), (1, r.den), fig 1 (noteClassPos r.cls),
       flagFig r.fragment, flagFig r.cutOff]) c.last

/-- The dispense engine, with its record while it is not IDLE (R44). -/
def dispenseFigures (s : State) : List (Nat × Option Nat) :=
  let d := s.disp;
  let asked := match d.request with
    | none => [(1, none)]
    | some (.amount n) => [fig 1 0, fig 3 n]
    | some (.pairs l) => fig 1 l.length :: l.flatMap fun p => [fig 1 p.1, fig 1 p.2];
  let record := [fig 1 d.console, fig 1 d.tag] ++ asked ++ [flagFig d.duress, fig 1 d.plan.length] ++
    (d.plan.flatMap fun p => [fig 1 p.den, fig 1 p.count, fig 1 p.picked]) ++
    [fig 3 d.planValue, fig 1 (d.pair + 1), (1, d.lastCassette.map (· + 1)), fig 1 d.stackerNotes,
     fig 3 d.stackerValue, fig 1 d.presentedNotes, fig 3 d.presentedValue, fig 1 d.rejects, (1, d.slot.map (·.slot)),
     fig 3 s.peer.held.dispense, timerFig d.takeMs, (1, d.outcome.map dispOutcomePos), flagFig d.stranded];
  fig 1 (dispStatePos d.st) :: if d.st = .idle then [] else record

/-- The session, with its record while it is not CLOSED (R74). -/
def depositFigures (s : State) : List (Nat × Option Nat) :=
  let d := s.dep;
  let record := [fig 1 d.console, fig 1 d.tag, fig 3 s.peer.held.deposit, fig 3 d.asked, fig 2 d.escrow.length] ++
    (d.escrow.flatMap fun e => [fig 1 e.den, fig 3 e.face, fig 2 e.thick]) ++
    [fig 3 (d.escrow.map (·.face)).sum, fig 2 d.limit, flagFig d.clamp, flagFig d.limitNotice, fig 2 d.refused,
     fig 2 d.pocketRefusals, fig 1 (clearancePos d.clearance), fig 2 d.throatHeld, fig 2 d.presentedNotes,
     fig 3 d.presentedValue, fig 2 d.stackedNotes, fig 3 d.stackedValue, (1, d.slot.map (·.slot)), timerFig d.takeMs,
     (1, d.outcome.map depOutcomePos)];
  fig 1 (depStatePos d.st) :: if d.st = .closed then [] else record

/-- The figures of the shift totals (section 9.6). -/
def shiftFigures (t : ShiftTotals) : List (Nat × Option Nat) :=
  [fig 3 t.dispValue] ++ t.dispNotes.map (fig 2) ++
    [fig 2 t.depNotes, fig 3 t.depValue, fig 2 t.unconfNotes, fig 3 t.unconfValue, fig 2 t.envelopes, fig 2 t.bundles,
     fig 3 t.retractValue]

/-- R175, R180, R181, R182: a QUERY copies its record and queues segment 0, while a series goes out it is refused BUSY,
and else for a record or an index that names nothing RANGE; with RETRY it is answered afresh. Every other command sent
again with RETRY gets its remembered REPLY and nothing more, and is taken as new where none is remembered; an unknown
command, one of kind QUERY too, is refused RANGE. A complained frame is nobody's. What each record's figures are, and in
which order, width and layout they stand (a count in front of a list, the current pair as its place in the plan), is the
model's choice within the rules of those records (notes/assumptions/10.md), and so is the number that stands for a named
value (notes/assumptions/9.md). That a QUERY during a series is refused BUSY before its record and index are looked at,
so that one which names nothing is refused BUSY there too, that an unknown command is answered RANGE in CONFIG_FAULT and
in LOCKDOWN too, and that the RETRY writes its entry of the reply memory as the youngest, is the model's choice
(notes/assumptions/8.md). -/
def Obligations.QueriesRetriesAndUnknownCommands : Prop :=
  (∀ (h : Header) (s : State),
    let u := heard h s;
    let refused := fun (r : Reason) =>
      queued [{ frame := replyFrame h .query false (be 1 3 ++ be 1 (reasonPos r)) }] u;
    (∀ record index content p rest,
      let t := queued [{ frame := plainFrame .reply h.src p.1 false (.reply .query) h.tag p.2, owner := .querySegment }]
        { u with bus := { u.bus with series := some { dst := h.src, tag := h.tag, rest := rest } } };
      Comes h s → u.bus.series = none → queryRecord u record index = some content →
      segments content.length 0 content = p :: rest → Fits t → exec (.query h record index) s = .next t) ∧
    (∀ record index, Comes h s → u.bus.series ≠ none → Fits (refused .busy) →
      exec (.query h record index) s = .next (refused .busy)) ∧
    (∀ record index,
      let unnamed : Prop := record = 0 ∨ 13 < record ∨ (record = 2 ∧ (index = 0 ∨ 4 < index)) ∨
        (record = 3 ∧ 7 < index) ∨ (record = 6 ∧ s.capture.journal.length ≤ index) ∨
        (record = 7 ∧ s.capture.bundles.length ≤ index) ∨ (record = 8 ∧ (index = 0 ∨ 12 < index)) ∨
        (record = 9 ∧ 30 < index);
      Comes h s → u.bus.series = none → unnamed → Fits (refused .range) →
      exec (.query h record index) s = .next (refused .range)) ∧
    (∀ record index, exec (.query h record index) s = exec (.query { h with retry := false } record index) s) ∧
    (∀ kind,
      let t := refusedReply h kind .range u;
      Comes h s → kind ≠ .query → Fits t → exec (.unknownCommand h kind) s = .next t) ∧
    (Comes h s → Fits (refused .range) → exec (.unknownCommand h .query) s = .next (refused .range)) ∧
    exec (.unknownCommand h .query) s = exec (.unknownCommand { h with retry := false } .query) s ∧
    exec .frameComplained s = .next s) ∧
  (∀ (h : Header) (s : State) (req : Request) (raws : List Nat) (a k n : Nat) (b c : Bool),
    let u := heard h s;
    let fresh : Header := { h with retry := false };
    let kept := fun (x : CmdKind) => u.bus.memory.find? fun e => e.src == h.src && e.tag == h.tag && e.kind == x;
    let again := fun (old : ReplyEntry) =>
      { u with bus := { u.bus with queue := u.bus.queue ++ [{ frame := old.frame }], memory := remember old u.bus.memory } };
    Comes fresh s → h.retry = true →
      (∀ x i old, (x, i) ∈ everyCommand h req raws a k n b c → kept x = some old → Fits (again old) →
        exec i s = .next (again old)) ∧
      (∀ x old, x ≠ .query → kept x = some old → Fits (again old) →
        exec (.unknownCommand h x) s = .next (again old)) ∧
      (∀ (m : Nat) x i j, (everyCommand h req raws a k n b c)[m]? = some (x, i) →
        (everyCommand fresh req raws a k n b c)[m]? = some (x, j) → kept x = none →
        (x ≠ .depositAccept ∨ s.dep.st ≠ .feeding ∨ ThroatEmpty s) → exec i s = exec j s) ∧
      (∀ x, kept x = none → exec (.unknownCommand h x) s = exec (.unknownCommand fresh x) s) ∧
      (let waiting := s.dep.closing.getD {};
        let mark : WaitingAccept := { header := h, duress := s.alarm.duress };
        let t := { u with
          chQ := samplesTaken raws s.chQ,
          dep := { s.dep with closing := some { waiting with accepts := waiting.accepts ++ [mark] }, idleMs := none },
          drives := { s.drives with throatGate := false } };
        kept .depositAccept = none → ComesBound fresh s → s.dep.st = .feeding → s.throatJam = false →
        ¬ThroatEmpty s → Fits t → exec (.depositAccept h raws) s = .next t)) ∧
  (∀ (s : State) (i : Nat),
    let cash := s.cash;
    let f := s.fault;
    let cause := s.lane.cause;
    queryRecord s 1 i =
        some (sent (statusFigures s ++ channelFigures s.chP ++ channelFigures s.chQ ++ dispenseFigures s ++
          depositFigures s)) ∧
      (∀ c, i ≤ 3 → cash.cassettes[i]? = some c → queryRecord s 2 (i + 1) = some (sent
        [fig 1 (cassetteStatePos c.st), (1, c.denom), (3, c.face), fig 2 c.count, fig 2 c.loaded, fig 2 c.accepted,
         fig 2 c.rejectEst, fig 2 c.setpoint, fig 2 c.ref, fig 2 c.restart, fig 2 c.misses])) ∧
      (∀ d, i ≤ 7 → cash.denoms[i]? = some d → queryRecord s 3 i = some (sent
        [flagFig d.used, fig 3 d.face, fig 2 d.nomLength, fig 2 d.window, fig 2 d.nomThick, fig 2 d.ref,
         fig 2 d.restart, fig 2 d.basis])) ∧
      queryRecord s 4 i = some (sent (fig 2 cash.purge.total :: cash.purge.perCassette.map (fig 2) ++
        [fig 2 cash.purge.notes, fig 3 cash.purge.value, flagFig cash.purge.full])) ∧
      queryRecord s 5 i = some (sent (fig 2 cash.deposit.count :: cash.deposit.perCount.map (fig 2) ++
        cash.deposit.perValue.map (fig 3) ++
        [fig 2 cash.deposit.unconfCount, fig 3 cash.deposit.unconfValue, fig 2 cash.deposit.unidentified])) ∧
      (∀ e, s.capture.journal[i]? = some e → queryRecord s 6 i = some (sent
        [fig 3 e.seq, fig 2 e.startCount, fig 4 e.laneTime, fig 2 e.length, (1, e.bound)])) ∧
      (∀ x, s.capture.bundles[i]? = some x → queryRecord s 7 i = some (sent
        [fig 1 (bundleKindPos x.kind), (1, x.tag), fig 2 x.count, fig 3 x.value, fig 2 x.startCount, fig 4 x.laneTime,
         flagFig x.unverified])) ∧
      (∀ z, i ≤ 11 → s.alarm.zones[i]? = some z →
        let candidate := match z.candidate with
          | some .quiet => some 1
          | some .active => some 2
          | some .unknown | none => none;
        queryRecord s 8 (i + 1) = some (sent
          [fig 1 (zoneTypePos z.type), flagFig z.report, (1, z.band.map bandPos), (1, candidate), fig 2 z.count,
           fig 1 (zoneStatePos z.state), flagFig z.trouble, fig 2 z.restore, flagFig z.frozen, fig 2 z.hold,
           flagFig z.changed])) ∧
      (∀ e, i ≤ 30 → s.peer.entries[i]? = some e → queryRecord s 9 i = some (sent
        [(1, e.kind.map peerKindPos), fig 1 (peerStatusPos e.status), fig 3 e.held, fig 3 e.cap, flagFig e.known,
         (1, e.laneState.map laneStatePos), (3, e.announced), fig 1 (summaryPos e.summary),
         (1, e.vehicle.map fun v => if v then 1 else 2), (1, e.slots), fig 2 e.age])) ∧
      (let flags := ((f.flags ++ [f.second]).zipIdx.map fun p => if p.1 then 2 ^ p.2 else 0).sum;
        let record := sent ([fig 1 (faultHoldPos f.hold)] ++
          orAbsent [1, 1, 1, 1, 1, 2, 4]
            (fun r =>
              [fig 1 (faultKindIdx r.kind + 1), fig 1 (laneStatePos r.laneState), fig 1 (faultOpPos r.op),
               (1, r.place.map placePos), (1, r.station), fig 2 r.startCount, fig 4 r.laneTime]) f.latched ++
          [fig 3 flags]);
        faultBytes f = record ∧ queryRecord s 10 i = some record) ∧
      (let record := sent
          [flagFig cause.powerOn, flagFig cause.supplyDip, flagFig cause.resetLine, flagFig cause.commanded,
           flagFig cause.backupLost, fig 1 (resetKindPos cause.last), fig 2 cause.clearStart, fig 4 cause.clearTime];
        causeBytes cause = record ∧ queryRecord s 11 i = some record) ∧
      queryRecord s 12 i =
        some (sent ([fig 2 f.shift.openStart, fig 4 f.shift.openTime] ++ shiftFigures f.shift)) ∧
      (∀ x,
        let record := sent ([fig 1 2] ++ shiftFigures x.totals ++
          [fig 2 x.totals.openStart, fig 4 x.totals.openTime, fig 2 x.closeStart, fig 4 x.closeTime, fig 1 x.closedBy,
           flagFig x.txnOpen]);
        closedBytes (some x) = record ∧ (f.closed = some x → queryRecord s 13 i = some record)) ∧
      (f.closed = none → queryRecord s 13 i = some (sent (fig 1 1 :: List.replicate 50 (1, none)))))

/-! ### Alarm zones and lockdown (chapter 7) -/

/-- Nothing is due at a zone from an earlier scan (R134, R136). -/
abbrev ZoneSettled (z : Zone) : Prop := troubleDue z = false ∧ restoredDue z = false ∧ changeDue z = false

/-- R132, R133, R134, R135, R136, R141, R142: what one reading does to a zone; a scan reads all twelve zones and the
wall line, and each zone's first trouble is reported. That a scan only reads, what it makes due having a step of its
own, and that it takes the zones in the order Z1 to Z12, is the model's choice (notes/assumptions/3.md). -/
def Obligations.ScansFollowTheReadings : Prop :=
  (∀ (r : Nat) (z : Zone),
     let band : Band := if r < 100 then .short else if r < 400 then .normal else if r < 800 then .active else .opened;
     let limit := integration z.type;
     let inBand := fun (o : ZoneState) =>
       let count := if z.candidate = some o then min limit (z.count + 1) else 1;
       let x := { z with band := some band, candidate := some o, count := count };
       if z.trouble then { x with restore := min limit (z.restore + 1) }
       else if z.frozen then { x with hold := min 50 (z.hold + 1) }
       else x;
     (z.type = .unused → scanZone r z = z) ∧
     (z.type ≠ .unused →
       (band = .normal → scanZone r z = inBand .quiet) ∧
       (band = .active → scanZone r z = inBand .active) ∧
       ((band = .short ∨ band = .opened) →
         (z.type = .attack → scanZone r z = inBand .active) ∧
         (z.type ≠ .attack →
           scanZone r z =
             { z with band := some band, trouble := true, frozen := true, restore := 0, hold := 0, candidate := none,
                      count := 0 })))) ∧
  (∀ (readings : List Nat) (others : Bool) (raws : List Nat) (s : State),
     let asserted := others || s.alarm.drive;
     let read := fun (i : Nat) => scanZone (readings.getD i 0) (s.alarm.zones.getD i {});
     let a := s.alarm;
     let scanned := { s with
       chP := samplesTaken raws s.chP, chQ := samplesTaken raws s.chQ,
       alarm :=
         { a with
             zones := (List.range 12).map read,
             asserted := if a.recognised then a.asserted else if asserted then min 5 (a.asserted + 1) else 0,
             released := if a.recognised then (if asserted then 0 else min 50 (a.released + 1)) else a.released } };
     let t := (List.range 12).foldl
       (fun u i =>
         let z := a.zones.getD i {};
         if (read i).trouble = true ∧ z.frozen = false then
           toldAll .zoneTrouble
             (be 1 (i + 1) ++ be 1 (zoneTypePos z.type) ++ beOpt 1 ((read i).band.map bandPos) ++
               be 1 (zoneStatePos z.state)) u
         else u) scanned;
     s.lane.state ≠ .starting → a.zones.length = 12 → (∀ z ∈ a.zones, ZoneSettled z) → recogniseDue a = false →
       releaseDue a = false → Fits t → exec (.zoneScan readings others raws) s = .next t)

/-- The frame that reports a change of a zone (R137, 12.2). -/
def zoneTold (i : Nat) (type : ZoneType) (new : ZoneState) (s : State) : State :=
  let content := be 1 (i + 1) ++ be 1 (zoneTypePos type) ++ be 1 (zoneStatePos new) ++
    be 1 (if s.alarm.duress then 1 else 2) ++ be 1 (if s.alarm.attack then 1 else 2) ++
    be 1 (if s.alarm.attack then 3 else if s.alarm.duress then 2 else 1);
  if type = .vehicle then toldAll .vehicleChange content s
  else reported .alarm (.zone type) 31 false .nobody content s

/-- A change of a zone is reported (R137): not one whose reports are disabled, not the settling from UNKNOWN to QUIET,
and not a BIN zone's in an open bin service. -/
abbrev ChangeReported (s : State) (z : Zone) (new : ZoneState) : Prop :=
  z.report = true ∧ ¬(z.state = .unknown ∧ new = .quiet) ∧ ¬(z.type = .bin ∧ s.capture.bin = .opened)

/-- R52, R66, R85, R134, R137, R140, R141, R147: a change of an integrated state is flagged and reported; a DURESS or
ATTACK zone that becomes ACTIVE sets its latch, if it is clear, and drives the wall line, with or without a report, an
attack then changing the lane to LOCKDOWN, or taking the release mark of one that is in it; under duress a dispense that
waits is planned again at the duress limit and an accept that waits goes on, both without their approval; a vehicle that
departs over an occupied pocket cuts the take time to 5 s. That a report sends a set latch as 1 and a clear one as 2 is
the model's choice (notes/assumptions/9.md). What leads a completion notice is the model's choice
(notes/assumptions/25.md). -/
def Obligations.ZoneChangesAreFlaggedAndReported : Prop :=
  ∀ (i : Nat) (occupied : Bool) (raws : List Nat) (s : State) (z : Zone) (new : ZoneState),
    let v := { s with chP := samplesTaken raws s.chP, chQ := samplesTaken raws s.chQ };
    let zones := s.alarm.zones.set i { z with state := new, changed := true };
    let told := fun (type : ZoneType) (u : State) => if ChangeReported s z new then zoneTold i type new u else u;
    let go := exec (.zoneChange (i + 1) occupied raws) s;
    i ≤ 11 → s.alarm.zones[i]? = some z → changeDue z = true → z.candidate = some new → s.lane.resetDue = false →
      (let u := { v with alarm := { s.alarm with zones := zones } };
        (z.type = .door ∨ z.type = .bin ∨ (z.type = .duress ∧ (new ≠ .active ∨ s.alarm.duress = true)) ∨
            (z.type = .attack ∧ (new ≠ .active ∨ s.alarm.attack = true))) →
          (¬ChangeReported s z new → go = .next u) ∧
          (ChangeReported s z new → Fits (zoneTold i z.type new u) → go = .next (zoneTold i z.type new u))) ∧
      (let u := { v with alarm := { s.alarm with zones := zones } };
        let cut := fun (x : Option Nat) => x.map fun ms => min 5000 ms;
        let t := told .vehicle u;
        z.type = .vehicle → Fits t →
          ((z.state ≠ .active ∨ new ≠ .quiet ∨ occupied = false ∨ s.drives.pocketShutter = false) → go = .next t) ∧
          (z.state = .active → new = .quiet → occupied = true → s.drives.pocketShutter = true →
            go = .next { t with
                          disp := { s.disp with takeMs := cut s.disp.takeMs },
                          dep := { s.dep with takeMs := cut s.dep.takeMs },
                          cal := { s.cal with takeMs := cut s.cal.takeMs } })) ∧
      (let u := { v with alarm := { s.alarm with zones := zones, duress := true } };
        let w := told .duress u;
        let t := positioned { w with alarm := { u.alarm with drive := true } };
        let limit := s.config.duressLimit;
        let rich := s.disp.planValue ≤ limit;
        let kept := { s.disp with duress := true };
        let goOn := fun (d : Dispense) (x : State) => queued [intentFrame .dispense]
          { x with
              disp := { d with st := .awaitCeiling, slot := none, ceilingMs := some 10000 },
              peer := { x.peer with request := some { kind := .dispense, amount := d.planValue } } };
        let ends := fun (o : DispOutcome) => ((limit = 0 ∧ o = .clampedZero) ∨
          (limit ≠ 0 ∧ planAmount s limit = none ∧ o = .noMix) : Prop);
        z.type = .duress → new = .active → s.alarm.duress = false → s.lane.state ≠ .starting → Fits t →
          (s.disp.st ≠ .awaitApproval → s.disp.st ≠ .awaitCeiling → s.disp.st ≠ .zeroCapture →
            s.dep.st ≠ .awaitApproval → go = .next t) ∧
          (∀ r, let x := slotWithdrawn r.slot t;
            s.disp.st = .awaitApproval → s.disp.slot = some r → (s.approval.slots.getD r.slot {}).kind.isSome →
            s.dep.st ≠ .awaitApproval → s.peer.duplicate = false → Fits (slotClosed r.slot .withdrawn t) →
              (rich → Fits (goOn kept x) → go = .next (goOn kept x)) ∧
              (∀ plan, let d := { kept with plan := plan, planValue := limit, pair := 0 };
                ¬rich → limit ≠ 0 → planAmount s limit = some plan → Fits (goOn d x) → go = .next (goOn d x)) ∧
              (∀ o, let y := dispenseEnded o { x with disp := { kept with slot := none } };
                ¬rich → ends o → QuietEnd s → Fits y → go = .next y)) ∧
          (s.disp.st = .awaitCeiling → s.dep.st ≠ .awaitApproval →
            (rich → go = .next { t with disp := kept }) ∧
            (∀ plan, ¬rich → limit ≠ 0 → planAmount s limit = some plan →
              go = .next { t with
                            disp := { kept with plan := plan, planValue := limit, pair := 0 },
                            peer :=
                              { t.peer with request := s.peer.request.map fun r => { r with amount := limit } } }) ∧
            (∀ o, let y := dispenseEnded o (requestWithdrawn { t with disp := kept });
              ¬rich → ends o → s.peer.request.isSome → s.approval.unbindPending = false → Fits y → go = .next y)) ∧
          (s.disp.st = .zeroCapture → s.dep.st ≠ .awaitApproval →
            (rich → go = .next { t with disp := kept }) ∧
            (∀ plan,
              let lower : HeldCash := { s.peer.held with
                h := s.peer.held.h - (s.peer.held.dispense - limit), dispense := limit };
              let y := positioned { t with
                disp := { kept with plan := plan, planValue := limit, pair := 0 },
                peer := { t.peer with held := lower, kept := lower } };
              ¬rich → limit ≠ 0 → planAmount s limit = some plan → limit < s.peer.held.dispense →
              s.peer.request = none → Fits y → go = .next y) ∧
            (∀ o,
              let y := dispenseEnded o
                { t with
                    disp := kept,
                    chP := { s.chP with window := false, flow := .none, capturing := false },
                    drives := { s.drives with pickTransport := false, pickGate := none } };
              ¬rich → ends o → s.chP.window = false → QuietEnd s → Fits y → go = .next y)) ∧
          (∀ r, let x := slotWithdrawn r.slot t;
            let y := { x with
              dep := { s.dep with st := .stacking, slot := none, move := .stacking },
              drives := { x.drives with throatTransport := true } };
            s.disp.st = .idle → s.dep.st = .awaitApproval → s.dep.slot = some r →
            (s.approval.slots.getD r.slot {}).kind.isSome → s.dep.escrow ≠ [] → s.dep.securing = false →
            Fits (slotClosed r.slot .withdrawn t) → Fits y → go = .next y)) ∧
      (let u := { v with alarm := { s.alarm with zones := zones, attack := true } };
        let w := told .attack u;
        let t := positioned { w with alarm := { u.alarm with drive := true } };
        z.type = .attack → new = .active → s.alarm.attack = false → s.lane.state ≠ .starting → Fits t →
          (s.lane.state ≠ .configFault → s.lane.state ≠ .lockdown → (enterLockdown t).lane.resetDue = false →
            go = .next (enterLockdown t)) ∧
          (s.lane.state = .configFault → go = .next t) ∧
          (s.lane.state = .lockdown → go = .next { t with lane := { t.lane with release := false } }))

/-- The retract of the refused notes a session keeps in the pocket, asked for at lockdown (R91). -/
def refusalsSecured (s : State) : State :=
  if 0 < s.dep.pocketRefusals ∧ s.dep.clearance ≠ .retracting then
    arbitrate { s with
      dep := { s.dep with clearance := .retracting, takeMs := none },
      drives := { s.drives with pocketShutter := false },
      capture :=
        { s.capture with
            retract := some {
              requester := .deposit, kind := .depositReturn, tag := some s.dep.tag, count := s.dep.pocketRefusals,
              value := 0, blocked := false, granted := false } } }
  else s

/-- A session in FEEDING when lockdown comes (R91): the run is discarded, notes bound for the pocket are held in a
jammed throat, and the accepts that wait for the throat are refused. -/
def feedingSecured (s : State) : State :=
  let w := closeWindow .q { s with drives := { s.drives with throatGate := false, throatTransport := false } };
  let held := { w with
    dep :=
      { s.dep with
          throatHeld := s.dep.throatHeld + s.dep.toPocket, toPocket := 0, closing := none, idleMs := none },
    throatJam := s.throatJam || s.dep.toPocket != 0 };
  (s.dep.closing.getD {}).accepts.foldl (fun v a => refusedReply a.header .depositAccept .lockdown v) held

/-- R5, R19, R41, R42, R54, R70, R91, R98, R108, R147, R148, R163, R184, R192: the change to LOCKDOWN is announced and
shuts every opening; then each approval slot but an ALARM_CLEAR's is withdrawn, each waiting service is ended LOCKDOWN,
and the dispense, the deposit session and the calibration are secured by their states; the arbiter decides where a bin
service was OPENING. The order of the slots and of the blocks (notes/assumptions/26.md), that the arbiter decides there
(notes/assumptions/20.md), that a stop decided earlier stands (notes/assumptions/11.md), what a calibration in its tail
does (notes/assumptions/15.md), that a session which stacks its escrow in securing stands as STACKING, that a jammed
throat holds the securing of an empty escrow too, that refused notes in the pocket are retracted in every session state,
and that accepts which wait for the throat are refused LOCKDOWN and a return which waits is dropped
(notes/assumptions/16.md), and the bytes in front of a completion notice (notes/assumptions/25.md), are the model's
choice. -/
def Obligations.LockdownAnnouncesAndSecures : Prop :=
  (∀ s : State,
     let dark := (s.lane.state = .night ∨ s.lane.state = .waking : Prop);
     let u := positioned { s with
       lane :=
         { s.lane with
             state := .lockdown, pending := none, target := none, power := if dark then .off else s.lane.power,
             unpowered := if dark then true else s.lane.unpowered, resetWait := none },
       capture := { s.capture with shutter := false },
       drives := { s.drives with pocketShutter := false, throatGate := false } };
     txnOpen s = false → s.lane.state ≠ .starting → s.cash.loads = [] → s.cash.exchange = none →
       (∀ x ∈ s.approval.slots, x.kind = none ∨ x.kind = some .alarmClear) →
       (s.capture.bin = .none → Fits u → enterLockdown s = u) ∧
       (let t := toldAll .completion (be 1 6 ++ be 1 (binOutcomePos .lockdown))
           { u with capture := { s.capture with bin := .none, binSlot := none, shutter := false } };
         s.capture.bin = .opening → Fits t → enterLockdown s = arbitrate t)) ∧
  (∀ s : State,
     let dark := (s.lane.state = .night ∨ s.lane.state = .waking : Prop);
     let u := positioned { s with
       lane :=
         { s.lane with
             state := .lockdown, pending := none, target := none, power := if dark then .off else s.lane.power,
             unpowered := if dark then true else s.lane.unpowered },
       capture := { s.capture with shutter := false },
       drives := { s.drives with pocketShutter := false, throatGate := false } };
     let served := lockdownServices (lockdownSlot (lockdownSlot (lockdownSlot (lockdownSlot u 0) 1) 2) 3);
     let secured := lockdownCal (lockdownDeposit (lockdownDispense served));
     s.lane.state ≠ .starting → u.bus.queue.length ≤ 16 →
       enterLockdown s = if s.capture.bin = .opening then arbitrate secured else secured) ∧
  (∀ s : State,
     let slot := fun (i : Nat) => s.approval.slots.getD i {};
     (∀ i, (slot i).kind = none ∨ (slot i).kind = some .alarmClear → lockdownSlot s i = s) ∧
     (∀ i k, (slot i).kind = some k → k ≠ .alarmClear → (slotClosed i .withdrawn s).bus.queue.length ≤ 16 →
       lockdownSlot s i = slotWithdrawn i s) ∧
     (∀ (loads : List LoadWait) (x : LoadWait),
       let t := toldBound .completion
         (be 1 4 ++ be 1 x.tag ++ be 1 (loadOutcomePos .lockdown) ++ be 1 (x.cassette + 1) ++
           be 1 (cassetteStatePos (s.cash.cassettes.getD x.cassette {}).st))
         { s with cash := { s.cash with loads := loads } };
       s.cash.loads = x :: loads → (∀ y ∈ loads, y.slot ≠ x.slot) → t.bus.queue.length ≤ 16 →
       endLoad .lockdown x s = t) ∧
     (∀ x,
       let t := toldBound .completion (be 1 5 ++ be 1 x.tag ++ be 1 (exchangeOutcomePos .lockdown))
         { s with cash := { s.cash with exchange := none }, lane := { s.lane with resetWait := none } };
       s.cash.loads = [] → s.cash.exchange = some x → s.capture.bin = .none → t.bus.queue.length ≤ 16 →
       lockdownServices s = t) ∧
     (∀ (loads : List LoadWait) (x : LoadWait),
       s.cash.loads = x :: loads → (∀ y ∈ loads, y.slot ≠ x.slot) →
       lockdownServices s = lockdownServices (endLoad .lockdown x s)) ∧
     (let t := toldAll .completion (be 1 6 ++ be 1 (binOutcomePos .lockdown))
         { s with
             capture := { s.capture with bin := .none, binSlot := none, shutter := false },
             lane := { s.lane with resetWait := none } };
       s.cash.loads = [] → s.cash.exchange = none → s.lane.state = .lockdown →
         ((s.capture.bin = .awaitApproval ∨ s.capture.bin = .opening) → t.bus.queue.length ≤ 16 →
           lockdownServices s = t) ∧
         ((s.capture.bin = .none ∨ s.capture.bin = .opened) →
           lockdownServices s = { s with lane := { s.lane with resetWait := none } }))) ∧
  (∀ s : State,
     let d := s.disp;
     (d.stranded = true → lockdownDispense s = s) ∧
     (d.stranded = false →
       ((d.st = .idle ∨ d.st = .purging ∨ d.st = .retracting) → lockdownDispense s = s) ∧
       (d.st = .awaitApproval → QuietEnd s → Fits (dispenseEnded .lockdown s) →
         lockdownDispense s = dispenseEnded .lockdown s) ∧
       (let t := dispenseEnded .lockdown (requestWithdrawn s);
         d.st = .awaitCeiling → s.peer.request.isSome → s.approval.unbindPending = false →
         s.lane.state ≠ .starting → Fits t → lockdownDispense s = t) ∧
       (let t := dispenseEnded .lockdown
           { s with
               chP := { s.chP with window := false, flow := .none, capturing := false },
               drives := { s.drives with pickTransport := false, pickGate := none } };
         d.st = .zeroCapture → s.chP.window = false → QuietEnd s → Fits t → lockdownDispense s = t) ∧
       (d.st = .picking → lockdownDispense s = { s with disp := { d with stop := some (d.stop.getD .lockdown) } }) ∧
       (d.st = .presenting → d.move = .present →
         lockdownDispense s = { s with disp := { d with move := .reverse, decided := some .lockdown } }) ∧
       (d.st = .presenting → d.move = .none → d.takeMs.isSome →
         lockdownDispense s =
           arbitrate { s with
             disp := { d with st := .retracting, takeMs := none, decided := some .lockdown },
             drives := { s.drives with pocketShutter := false },
             capture :=
               { s.capture with
                   retract := some {
                     requester := .dispense, kind := .dispense, tag := some d.tag, count := d.presentedNotes,
                     value := d.presentedValue, blocked := false, granted := false } } }))) ∧
  (∀ s : State,
     let d := s.dep;
     let secured := fun (v t : State) =>
       (SecuringGoesOn { v with dep := { v.dep with st := .holding, slot := none, securing := true } } (t = ·) : Prop);
     ((d.st = .closed ∨ d.st = .returnRetracting) → lockdownDeposit s = s) ∧
     (let t := depositEnded .lockdown (requestWithdrawn s);
       d.st = .awaitCeiling → s.peer.request.isSome → s.approval.unbindPending = false → s.lane.state ≠ .starting →
       Fits t → lockdownDeposit s = t) ∧
     (let t := depositEnded .lockdown
         { s with
             chQ := { s.chQ with window := false, flow := .none, capturing := false },
             drives := { s.drives with throatGate := false, throatTransport := false } };
       d.st = .zeroCapture → s.chQ.window = false → QuietEnd s → Fits t → lockdownDeposit s = t) ∧
     (d.st = .feeding → Fits (feedingSecured s) → secured (refusalsSecured (feedingSecured s)) (lockdownDeposit s)) ∧
     ((d.st = .holding ∨ d.st = .awaitApproval) → secured (refusalsSecured s) (lockdownDeposit s)) ∧
     (d.st = .stacking → lockdownDeposit s = refusalsSecured s) ∧
     (d.st = .returning →
       lockdownDeposit s = refusalsSecured { s with dep := { d with securing := true, move := .reversing } }) ∧
     (d.st = .returnPresented →
       lockdownDeposit s = arbitrate { s with
         dep := { d with st := .returnRetracting, takeMs := none, decided := some .lockdown },
         drives := { s.drives with pocketShutter := false },
         capture :=
           { s.capture with
               retract := some {
                 requester := .deposit, kind := .depositReturn, tag := some d.tag, count := d.presentedNotes,
                 value := d.presentedValue, blocked := false, granted := false } } })) ∧
  (∀ s : State,
     let k := s.cal;
     let stopped := fun (v : State) => match k.channel with
       | .p => closeWindow .p { v with drives := { v.drives with pickTransport := false, pickGate := none } }
       | .q => closeWindow .q { v with drives := { v.drives with throatGate := false, throatTransport := false } };
     let stacked := fun (v : State) => closeWindow .q { v with
       cal := { k with phase := .stacking, outcome := some (k.outcome.getD .lockdown) },
       drives := { v.drives with throatGate := false, throatTransport := true, toEscrow := true } };
     let t := calEnded .lockdown (stopped s);
     ((k.phase = .none ∨ k.phase = .retracting ∨ k.phase = .stacking) → lockdownCal s = s) ∧
     ((k.phase = .zeroCapture ∨ (k.phase = .waiting ∧ k.channel = .q)) → s.approval.unbindPending = false → Fits t →
       lockdownCal s = t) ∧
     ((k.phase = .waiting ∨ k.phase = .running) → k.channel = .p →
       lockdownCal s = { s with cal := { k with locked := true } }) ∧
     (k.phase = .tail → k.channel = .p → lockdownCal s = s) ∧
     ((k.phase = .running ∨ k.phase = .tail) → k.channel = .q → lockdownCal s = stacked s) ∧
     (k.phase = .toPocket → lockdownCal s = stacked s) ∧
     (k.phase = .inPocket →
       lockdownCal s = arbitrate { s with
         cal := { k with phase := .retracting, takeMs := none },
         drives := { s.drives with pocketShutter := false },
         capture :=
           { s.capture with
               retract := some {
                 requester := .calibration, kind := .depositReturn, tag := some k.tag, count := 1, value := 0,
                 blocked := false, granted := false } } }))

/-- R134, R136, R137, R138, R142: the trouble flag clears and the hold begins; the hold ends with its notice, and where
the candidate has reached its count and differs from the integrated state, the change of R134 follows at once, as
ZONE_CHANGE makes it from there; the wall line is recognised after five asserted scans and released after fifty
deasserted ones; QUERY_ZONES_CLEAR reports the zones, each in a byte of its own, and clears every changed flag. The
places in that byte are the model's choice (notes/assumptions/10.md). -/
def Obligations.TroubleHoldLineAndZonesQuery : Prop :=
  (∀ (raws : List Nat) (s : State),
     (∀ i z,
       let put := fun (x : Zone) => { s with alarm := { s.alarm with zones := s.alarm.zones.set i x } };
       i ≤ 11 → s.alarm.zones[i]? = some z →
         (z.trouble = true → integration z.type ≤ z.restore →
           exec (.troubleCleared (i + 1)) s = .next (put { z with trouble := false, hold := 0 })) ∧
         (∀ occupied,
           let t := toldAll .zoneRestored
             (be 1 (i + 1) ++ be 1 (zoneTypePos z.type) ++ be 1 (zoneStatePos z.state))
             { put { z with frozen := false } with chP := samplesTaken raws s.chP, chQ := samplesTaken raws s.chQ };
           z.frozen = true → z.trouble = false → 50 ≤ z.hold → Fits t →
             ((z.candidate = none ∨ z.candidate = some z.state ∨ z.count < integration z.type) →
               exec (.zoneRestored (i + 1) occupied raws) s = .next t) ∧
             (∀ new, z.candidate = some new → new ≠ z.state → integration z.type ≤ z.count → z.type ≠ .unused →
               let told : Prop := ChangeReported s z new;
               let u := { t with
                 alarm :=
                   { t.alarm with
                       zones := s.alarm.zones.set i { z with frozen := false, state := new, changed := true } } };
               exec (.zoneRestored (i + 1) occupied raws) s = exec (.zoneChange (i + 1) occupied []) t ∧
                 (z.type = .door ∨ z.type = .bin →
                   (¬told → exec (.zoneRestored (i + 1) occupied raws) s = .next u) ∧
                   (told → Fits (zoneTold i z.type new u) →
                     exec (.zoneRestored (i + 1) occupied raws) s = .next (zoneTold i z.type new u)))))) ∧
     (let line := fun (b : Bool) =>
         { s with alarm := { s.alarm with recognised := b, asserted := 0, released := 0 } };
       (s.alarm.recognised = false → 5 ≤ s.alarm.asserted → exec .wallLineRecognised s = .next (line true)) ∧
       (s.alarm.recognised = true → 50 ≤ s.alarm.released → exec .wallLineReleased s = .next (line false)))) ∧
  (∀ (h : Header) (s : State),
     let u := doneReply h .queryZonesClear (s.alarm.zones.map zoneSummary) (heard h s);
     let t := { u with
       alarm := { s.alarm with zones := s.alarm.zones.map fun z => { z with changed := false } } };
     Comes h s → s.lane.state ≠ .configFault → Fits t → exec (.queryZonesClear h) s = .next t) ∧
  (∀ z : Zone,
     let b := (zoneSummary z).toNat;
     b % 4 = zoneStatePos z.state ∧ b.testBit 2 = z.trouble ∧ b.testBit 3 = z.frozen ∧ b.testBit 4 = z.changed ∧
       b < 32)

/-! ### Faults and the shift (chapter 9) -/

/-- R165, R166: a raised fault sets its flag, and the first-fault record is decided by the table; a latching writes
every field from the raising. A hard fault's record, SECOND flag and own flag are these whatever becomes of its notice
at a full transmit queue, where only TX_OVERFLOW's flag may be set besides. -/
def Obligations.FirstFaultRecordFollowsTheTable : Prop :=
  ∀ (kind : FaultKind) (op : FaultOp) (place : Option FaultPlace) (station : Option Nat) (s : State),
    let r : FaultReport :=
      { kind := kind, laneState := s.lane.state, op := op, place := place, station := station,
        startCount := s.lane.startCount, laneTime := s.lane.timeMs / 1000 };
    let f := s.fault;
    let flagged := { f with flags := f.flags.set (faultKindIdx kind) true };
    let becomes := fun (u : FaultUnit) =>
      if isHard kind then
        let t := toldAll .fault (faultContent r f.hold) { s with fault := u };
        t.bus.queue.length ≤ 16 → raiseHard kind op place station s = t
      else raiseSoft kind op place station s = { s with fault := u };
    (f.hold = .empty → isHard kind = false → becomes { flagged with hold := .soft, latched := some r }) ∧
      ((f.hold = .empty ∨ f.hold = .soft) → isHard kind = true →
        becomes { flagged with hold := .hard, latched := some r }) ∧
      (f.hold = .soft → isHard kind = false → becomes flagged) ∧
      (f.hold = .hard → isHard kind = false → becomes flagged) ∧
      (f.hold = .hard → isHard kind = true → becomes { flagged with second := true }) ∧
      (isHard kind = true →
        let t := (raiseHard kind op place station s).fault;
        t.hold = .hard ∧ t.latched = (if f.hold = .hard then f.latched else some r) ∧
          t.second = (f.second || f.hold == .hard) ∧ t.flags.length = f.flags.length ∧
          (∀ i, i ≠ faultKindIdx .txOverflow → t.flags[i]? = flagged.flags[i]?) ∧ t.shift = f.shift ∧
          t.closed = f.closed)

/-- R169, R171, R172, R191: CLEAR_FAULTS, CLEAR_CAUSE and SHIFT_CLOSE answer with what they clear, and clear it. The
flag that CLEAR_FAULTS' own REPLY raises at a full queue stands; that, and that SHIFT_CLOSED stands behind its REPLY, is
the model's choice (notes/assumptions/30.md). -/
def Obligations.ClearingCommandsReportWhatTheyClear : Prop :=
  ∀ (h : Header) (s : State), Comes h s →
    let v := heard h s;
    (let u := doneReply h .clearFaults (faultBytes v.fault) v;
      let t := { u with
        fault :=
          { u.fault with flags := List.replicate 18 false, hold := .empty, latched := none, second := false } };
      (v.fault.hold ≠ .empty ∨ v.fault.second = true ∨ true ∈ v.fault.flags) →
        (Fits t → exec (.clearFaults h) s = .next t) ∧
        (16 ≤ v.bus.queue.length → v.lane.resetDue = false → (∀ x ∈ v.bus.queue, x.owner ≠ .resetNotice) →
          ∃ w, exec (.clearFaults h) s = .next w ∧ w.fault.hold = .soft ∧
            w.fault.flags = (List.replicate 18 false).set (faultKindIdx .txOverflow) true)) ∧
    (let c := s.lane.cause;
      let u := doneReply h .clearCause (causeBytes c) v;
      let t := { u with
        lane :=
          { u.lane with
              cause :=
                { powerOn := false, supplyDip := false, resetLine := false, commanded := false, backupLost := false,
                  last := c.last, clearStart := s.lane.startCount, clearTime := s.lane.timeMs / 1000 } } };
      (c.powerOn = true ∨ c.supplyDip = true ∨ c.resetLine = true ∨ c.commanded = true ∨ c.backupLost = true) →
      Fits t → exec (.clearCause h) s = .next t) ∧
    (let u := doneReply h .shiftClose [] v;
      let closed : ClosedShift :=
        { totals := v.fault.shift, closeStart := s.lane.startCount, closeTime := s.lane.timeMs / 1000,
          closedBy := h.src, txnOpen := txnOpen s };
      let w := toldAll .shiftClosed (closedBytes (some closed)) { u with fault := { u.fault with closed := some closed } };
      let t := { w with
        fault := { w.fault with shift := { openStart := s.lane.startCount, openTime := s.lane.timeMs / 1000 } } };
      s.lane.state ≠ .lockdown → s.lane.state ≠ .configFault → Fits t → exec (.shiftClose h) s = .next t)

/-! ### Jams cleared, the bin service and the lane state (chapters 3, 5 and 11) -/

/-- R16, R59, R68, R83, R89, R90, R91, R94, R96, R97, R98, R104, R187: CLEAR_JAM clears the marks; a session that a jam
held opens the clearance over the refused notes it kept, or goes on with its securing; the moves of recovery that a jam
held start again or end, a purge with no room for it waiting with PURGE_FULL raised; a retract that was granted before
its jam counts as in place and its owner ends, and one that was not is looked at by the arbiter. That the REPLY is
queued before the frames of all this is the model's choice (notes/assumptions/30.md). What leads a completion notice is
the model's choice (notes/assumptions/25.md). -/
def Obligations.ClearJamClearsTheMarks : Prop :=
  ∀ (h : Header) (stacker escrow : Bool) (s : State), Comes h s →
    let u := doneReply h .clearJam [] (heard h s);
    (let t := { u with dispenserJam := false, throatJam := false };
      let d := s.dep;
      let clears : Prop := d.st = .holding ∧ 0 < d.pocketRefusals ∧ d.clearance = .none;
      s.capture.jam = false → s.lane.recovery.stacker ≠ .jammed → s.lane.recovery.escrow ≠ .jammed → Fits u →
        (s.dispenserJam = true → s.throatJam = false → exec (.clearJam h stacker escrow) s = .next t) ∧
        (s.throatJam = true →
          (d.securing = false → ¬clears → exec (.clearJam h stacker escrow) s = .next t) ∧
          (d.securing = false → clears →
            exec (.clearJam h stacker escrow) s =
              .next { t with
                        dep := { d with clearance := .opened, takeMs := some (s.config.takeTimeout * 1000) },
                        drives := { s.drives with pocketShutter := true } }) ∧
          (d.securing = true → SecuringGoesOn t fun x => exec (.clearJam h stacker escrow) s = .next x))) ∧
    (let r := s.lane.recovery;
      let move := fun (x : RecoveryMove) (v : State) =>
        { v with lane := { v.lane with recovery := { v.lane.recovery with stacker := x } } };
      let freed := { u with dispenserJam := false, throatJam := false };
      let purged := if r.stacker ≠ .jammed then freed
        else if stacker = false then move .none freed
        else if s.cash.purge.total + 40 ≤ 100 then move .running freed
        else move .noRoom (faulted .purgeFull .recovery none none
          { freed with cash := { s.cash with purge := { s.cash.purge with full := true } } });
      let t := if r.escrow ≠ .jammed then purged
        else
          { purged with
              lane :=
                { purged.lane with
                    recovery := { purged.lane.recovery with escrow := if escrow then .running else .none } },
              drives := { s.drives with throatTransport := escrow } };
      (s.dispenserJam = true ∨ s.throatJam = true) → s.capture.jam = false → s.dep.st = .closed →
      s.dep.securing = false → Fits t → exec (.clearJam h stacker escrow) s = .next t) ∧
    (let wanted := s.lane.state == .opened && decide (s.capture.journal.length < 400) && s.capture.bin == .none;
      let t := { u with
        dispenserJam := false, capture := { s.capture with jam := false, shutter := wanted } };
      s.capture.jam = true → s.throatJam = false → s.capture.retract = none → s.capture.waiting = false →
      s.capture.envelope = none → s.lane.recovery.stacker ≠ .jammed → s.lane.recovery.escrow ≠ .jammed → Fits t →
      exec (.clearJam h stacker escrow) s = .next t) ∧
    (∀ r,
      let wanted := s.lane.state == .opened && decide (s.capture.journal.length < 400) && s.capture.bin == .none;
      let reopened := fun (v : State) => { v with capture := { v.capture with shutter := wanted } };
      let freed := { u with dispenserJam := false, capture := { s.capture with jam := false } };
      let placed := { freed with capture := { freed.capture with retract := none } };
      s.capture.jam = true → s.throatJam = false → s.capture.retract = some r → s.capture.waiting = false →
      s.capture.envelope = none → s.lane.recovery.stacker ≠ .jammed → s.lane.recovery.escrow ≠ .jammed →
        (r.granted = false → Fits (arbitrate freed) →
          exec (.clearJam h stacker escrow) s = .next (reopened (arbitrate freed))) ∧
        (r.granted = true →
          (∀ o, let t := reopened (dispenseEnded o placed);
            r.requester = .dispense → s.disp.st = .retracting → s.disp.decided.getD .retracted = o → QuietEnd u →
            Fits t → exec (.clearJam h stacker escrow) s = .next t) ∧
          (∀ o, let t := reopened (depositEnded o placed);
            r.requester = .deposit → s.dep.st = .returnRetracting → s.dep.decided.getD .returnedRetracted = o →
            QuietEnd u → Fits t → exec (.clearJam h stacker escrow) s = .next t) ∧
          (let t := reopened { placed with dep := { s.dep with clearance := .none, pocketRefusals := 0 } };
            r.requester = .deposit → s.dep.st = .holding → s.dep.clearance = .retracting → s.dep.securing = false →
            Fits t → exec (.clearJam h stacker escrow) s = .next t) ∧
          (∀ o, let t := reopened (calEnded o placed);
            r.requester = .calibration → s.cal.phase = .retracting → s.cal.outcome = some o →
            u.approval.unbindPending = false → Fits t → exec (.clearJam h stacker escrow) s = .next t) ∧
          (let t := reopened { placed with
              lane := { u.lane with recovery := { s.lane.recovery with pocket := .none } } };
            r.requester = .recovery → Fits t → exec (.clearJam h stacker escrow) s = .next t))) ∧
    (let t := refusedReply h .clearJam .nothing (heard h s);
      s.dispenserJam = false → s.throatJam = false → s.capture.jam = false → Fits t →
      exec (.clearJam h stacker escrow) s = .next t)

/-- R94, R95, R96, R98, R106, R107, R108, R110: the bin is unlocked when the transport is free, and its close empties
the journal and the compartment; a retract that waits is then granted, unless the capture jam mark is set. That the
completion notice has an operation byte in front (notes/assumptions/25.md), and that an empty journal's first and last
sequence numbers are sent as absent (notes/assumptions/10.md), is the model's choice. -/
def Obligations.BinServiceOpensAndCloses : Prop :=
  ∀ (s : State),
    let c := s.capture;
    let figures := be 2 c.journal.length ++ beOpt 3 (c.journal.head?.map (·.seq)) ++
      beOpt 3 (c.journal.getLast?.map (·.seq)) ++ be 2 c.bundles.length ++ be 2 (c.bundles.map (·.count)).sum ++
      be 3 (min (c.bundles.map (·.value)).sum 16777215);
    (let t := toldAll .completion (be 1 6 ++ be 1 (binOutcomePos .opened) ++ figures)
        { s with
            capture := { c with bin := .opened, transport := .stopped },
            drives := { s.drives with binUnlocked := true } };
      c.bin = .opening → c.transport ≠ .carryingEnvelope → c.transport ≠ .carryingRetract → c.waiting = false →
      Fits t → exec .binServiceOpened s = .next t) ∧
    (∀ h,
      let u := toldAll .binServiceClosed figures (doneReply h .binServiceClose [] (heard h s));
      let t := { u with
        capture :=
          { c with
              journal := [], bundles := [], bin := .none, transport := .idle,
              shutter := s.lane.state == .opened && !c.jam },
        drives := { s.drives with binUnlocked := false } };
      Comes h s → s.lane.state ≠ .configFault → c.bin = .opened → c.waiting = false → c.envelope = none →
        ((c.retract = none ∨ c.jam = true) → Fits t → exec (.binServiceClose h true) s = .next t) ∧
        (∀ r, c.retract = some r → r.granted = false → r.count ≤ 200 → c.jam = false →
          Fits (retractGranted r t) → exec (.binServiceClose h true) s = .next (retractGranted r t)))

/-- R130, R184, R188, R189, R190: LANE_OPEN, LANE_CLOSE and LANE_NIGHT enter their state, hold it pending while an
operation is open, LANE_NIGHT behind a busy capture transport too, or set the target of WAKING; LANE_CLOSE in CLOSED
clears a pending request. That the REPLY sends entered as 1, pending as 2 and target as 3 (notes/assumptions/9.md), and
entered where it only clears a pending request (notes/assumptions/24.md), is the model's choice. -/
def Obligations.LaneRequestsEnterPendOrTarget : Prop :=
  ∀ (h : Header) (s : State), Comes h s → s.capture.bin = .none →
    let u := heard h s;
    let said := fun (k : CmdKind) (n : Nat) => doneReply h k (be 1 n) u;
    let held := fun (k : CmdKind) (p : LaneState) =>
      { said k 2 with lane := { (said k 2).lane with pending := some p } };
    (s.lane.pending = none → txnOpen s = false →
      (let t := laneEntered .opened (said .laneOpen 1);
        s.lane.state = .closed → Fits t → exec (.laneOpen h) s = .next t) ∧
      (let t := laneEntered .closed (said .laneClose 1);
        s.lane.state = .opened → Fits t → exec (.laneClose h) s = .next t) ∧
      (let w := said .laneNight 1;
        let t := laneEntered .night
          { w with
              lane := { w.lane with power := .off },
              chP := { s.chP with zero := none, flow := .none, capturing := false },
              chQ := { s.chQ with zero := none, flow := .none, capturing := false } };
        s.lane.state = .closed → s.peer.held.h = 0 → captureIdle s.capture = true → s.chP.window = false →
        s.chQ.window = false → Fits t → exec (.laneNight h) s = .next t) ∧
      (let w := said .laneOpen 3;
        let t := laneEntered .waking { w with lane := { w.lane with target := some .opened, power := .warming } };
        s.lane.state = .night → Fits t → exec (.laneOpen h) s = .next t) ∧
      (let w := said .laneClose 3;
        let t := laneEntered .waking { w with lane := { w.lane with target := some .closed, power := .warming } };
        s.lane.state = .night → Fits t → exec (.laneClose h) s = .next t) ∧
      (let w := said .laneClose 3;
        let t := { w with lane := { w.lane with target := some .closed } };
        s.lane.state = .waking → Fits t → exec (.laneClose h) s = .next t) ∧
      (let w := said .laneOpen 3;
        let t := { w with lane := { w.lane with target := some .opened } };
        s.lane.state = .waking → Fits t → exec (.laneOpen h) s = .next t)) ∧
    (let t := held .laneNight .night;
      (txnOpen s = true ∨ captureIdle s.capture = false) → s.lane.state = .closed → s.peer.held.h = 0 → Fits t →
      exec (.laneNight h) s = .next t) ∧
    (txnOpen s = true →
      (let t := held .laneClose .closed;
        s.lane.state = .opened → Fits t → exec (.laneClose h) s = .next t) ∧
      (let t := held .laneOpen .opened;
        s.lane.state = .closed → Fits t → exec (.laneOpen h) s = .next t)) ∧
    (let w := said .laneClose 1;
      let t := { w with lane := { w.lane with pending := none } };
      s.lane.state = .closed → s.lane.pending ≠ none → Fits t → exec (.laneClose h) s = .next t) ∧
    (let t := refusedReply h .laneOpen .nothing u;
      s.lane.state = .opened → s.lane.pending = none → s.lane.target = none → Fits t →
      exec (.laneOpen h) s = .next t)

/-- R63, R91, R97, R99, R112, R113, R114, R150, R151, R187, R188, R189, R190: the changes of the lane state that no
command makes: a pending request applied, or dropped where it would now be refused; the exit from LOCKDOWN; the ends of
recovery and of WAKING; and when the securing of a lockdown has ended. That a recovery whose stacker purge was refused
for want of room holds that end (notes/assumptions/20.md), that a recovery whose moves have all ended itself ends before
LOCKDOWN is left (notes/assumptions/7.md), and that at the end of WAKING the slot sensor alone sets the
returned-envelope mark and the jam mark (notes/assumptions/23.md), is the model's choice. -/
def Obligations.LaneStateChangesOfItsOwn : Prop :=
  ∀ s : State,
    (∀ p, let freed := { s with lane := { s.lane with pending := none } };
      let refused : Prop := s.lane.state = .configFault ∨ s.lane.state = .lockdown ∨ s.lane.state = .recovery ∨
        (p ≠ .closed ∧ s.capture.bin ≠ .none) ∨ (p = .night ∧ (s.lane.state ≠ .closed ∨ 0 < s.peer.held.h)) ∨
        (s.lane.state = p ∧ s.lane.target = none);
      s.lane.pending = some p → txnOpen s = false →
        ((p ≠ .night ∨ captureIdle s.capture = true) → refused → s.lane.resetDue = false →
          exec .pendingRequestApplied s = .next freed) ∧
        (let t := laneEntered .closed freed;
          p = .closed → s.lane.state = .opened → Fits t → exec .pendingRequestApplied s = .next t) ∧
        (let t := laneEntered .opened freed;
          p = .opened → s.lane.state = .closed → s.capture.bin = .none → Fits t →
          exec .pendingRequestApplied s = .next t) ∧
        (let t := laneEntered .night
            { freed with
                lane := { freed.lane with power := .off },
                chP := { s.chP with zero := none, flow := .none, capturing := false },
                chQ := { s.chQ with zero := none, flow := .none, capturing := false } };
          p = .night → s.lane.state = .closed → s.capture.bin = .none → s.peer.held.h = 0 →
          captureIdle s.capture = true → s.chP.window = false → s.chQ.window = false → Fits t →
          exec .pendingRequestApplied s = .next t)) ∧
    (let blocked := fun (who : Requester) =>
        (∃ r ∈ s.capture.retract, r.requester = who ∧ r.blocked = true ∧ r.granted = false : Prop);
      let onlyBlocked : Prop := s.dep.st = .returnRetracting ∨
        (s.dep.clearance = .retracting ∧ s.dep.escrow = [] ∧ s.dep.toEscrow = [] ∧ s.dep.move = .none ∧
          s.throatJam = false);
      let r := s.lane.recovery;
      securingEnded s = true ↔
        (s.disp.st = .idle ∨ s.disp.stranded = true ∨ (s.disp.st = .retracting ∧ blocked .dispense)) ∧
          (s.dep.st = .closed ∨ (blocked .deposit ∧ onlyBlocked)) ∧
          (s.cal.phase = .none ∨ (s.cal.phase = .retracting ∧ blocked .calibration)) ∧
          (s.capture.transport ≠ .carryingEnvelope ∧ s.capture.transport ≠ .carryingRetract ∧
            s.capture.waiting = false) ∧
          ¬(s.capture.jam = true ∧ ∃ r ∈ s.capture.retract, r.granted = true) ∧
          (r.active = false ∨
            (r.stacker = .none ∧ r.escrow = .none ∧ (r.pocket = .none ∨ blocked .recovery)))) ∧
    (s.lane.state = .lockdown → s.lane.release = true → s.alarm.attack = false → securingEnded s = true →
      (let t := laneEntered .closed { s with lane := { s.lane with release := false } };
        s.lane.recovery.active = false → s.lane.unpowered = false → Fits t → exec .lockdownExit s = .next t) ∧
      (let t := laneEntered .recovery { s with lane := { s.lane with release := false, unpowered := false } };
        s.lane.recovery.active = true → s.lane.recovery.pocket ≠ .none → Fits t → exec .lockdownExit s = .next t) ∧
      (let u := positioned { s with
          lane := { s.lane with recovery := { active := false, stacker := .none, pocket := .none, escrow := .none,
                                              stackerValue := 0 } },
          peer :=
            { s.peer with
                held := { h := 0, dispense := 0, deposit := 0 }, kept := { h := 0, dispense := 0, deposit := 0 } } };
        let t := laneEntered .closed { u with lane := { u.lane with release := false } };
        s.lane.recovery.active = true → s.lane.recovery.pocket = .none → s.lane.unpowered = false →
        s.peer.request = none → Fits t → exec .lockdownExit s = .next t) ∧
      (let t := laneEntered .waking
          { s with
              lane :=
                { s.lane with release := false, unpowered := false, power := .warming, target := some .closed } };
        s.lane.recovery.active = false → s.lane.unpowered = true → Fits t → exec .lockdownExit s = .next t)) ∧
    (let r := s.lane.recovery;
      let u := positioned { s with
        lane := { s.lane with recovery := { active := false, stacker := .none, pocket := .none, escrow := .none,
                                            stackerValue := 0 } },
        peer :=
          { s.peer with
              held := { h := 0, dispense := 0, deposit := 0 }, kept := { h := 0, dispense := 0, deposit := 0 } } };
      r.active = true → r.stacker = .none → r.pocket = .none → r.escrow = .none → s.peer.request = none →
        (s.lane.state = .recovery → Fits (laneEntered .closed u) →
          exec .recoveryEnd s = .next (laneEntered .closed u)) ∧
        (s.lane.state = .lockdown → Fits u → exec .recoveryEnd s = .next u)) ∧
    (∀ x : CaptureSensors,
      let u := { s with lane := { s.lane with power := .on } };
      let enter := fun (v : State) =>
        laneEntered (s.lane.target.getD .closed) { v with lane := { v.lane with target := none } };
      let jam := faulted .captureJam .recovery none none
        { u with capture := { s.capture with jam := true, shutter := false } };
      s.lane.state = .waking → s.lane.target ≠ some .starting →
        (x.length = false → x.drop = false → x.retract = false → x.slot = false → Fits (enter u) →
          exec (.wakingEnd x) s = .next (enter u)) ∧
        ((x.length = true ∨ x.drop = true ∨ x.retract = true) → Fits (enter jam) →
          exec (.wakingEnd x) s = .next (enter jam)) ∧
        (let both := { jam with capture := { jam.capture with returned := true } };
          x.length = false → x.drop = false → x.retract = false → x.slot = true → Fits (enter both) →
          exec (.wakingEnd x) s = .next (enter both)))

/-! ### Refusals of every command (R149, R157, R186) -/

/-- R17, R149, R155, R157, R180, R186: every command that the lane's state or the sender's binding refuses before
anything else; nothing but the REPLY and the peer view changes. CONFIG_FAULT refuses all but QUERY, CLEAR_FAULTS,
CLEAR_CAUSE, CLEAR_JAM and RESET_LANE, LOCKDOWN all but those that R149 names, RESET_LANE too, and CLEAR_PURGE there
with its own reasons; the first group of R157 and an UNBIND are refused to a console other than the one bound. -/
def Obligations.StateAndBindingRefuse : Prop :=
  ∀ (h : Header) (req : Request) (raws : List Nat) (a k n : Nat) (b : Bool) (s : State), Comes h s →
    let no := fun (x : CmdKind) (r : Reason) => refusedReply h x r (heard h s);
    let group := transactionCommands h req raws a k n b;
    let refuses := fun (l : List (CmdKind × Instr)) (r : Reason) =>
      (∀ x c, (x, c) ∈ l → Fits (no x r) → exec c s = .next (no x r) : Prop);
    (s.lane.state = .configFault → refuses group .configFault) ∧
      (s.lane.state = .configFault → refuses (serviceCommands h) .configFault) ∧
      (s.lane.state = .configFault →
        refuses
          [(.clearPurge, .clearPurge h), (.queryZonesClear, .queryZonesClear h), (.alarmClear, .alarmClear h a),
           (.binServiceClose, .binServiceClose h b)] .configFault) ∧
      (s.lane.state = .lockdown → refuses group .lockdown) ∧
      (s.lane.state = .lockdown → refuses (serviceCommands h) .lockdown) ∧
      (s.lane.state = .lockdown → refuses [(.resetLane, .resetLane h)] .lockdown) ∧
      (s.lane.state = .lockdown → s.approval.bound = some h.src → refuses [(.clearPurge, .clearPurge h)] .laneState) ∧
      (s.lane.state ≠ .configFault → s.lane.state ≠ .lockdown → s.approval.bound ≠ some h.src →
        refuses group .notBound) ∧
      (s.lane.state ≠ .configFault → s.approval.bound ≠ some h.src →
        refuses [(.clearPurge, .clearPurge h)] .notBound) ∧
      (∀ other, s.lane.state ≠ .configFault → s.lane.state ≠ .lockdown → s.approval.bound = some other →
        other ≠ h.src → refuses [(.unbind, .unbind h)] .notBound)

/-! ### Resets and the start (chapter 11) -/

/-- The lane after a reset with retention intact, before its configuration is read (R185, R191, R193). -/
def restarted (k : ResetKind) (b : Board) (s : State) : State :=
  let c := s.lane.cause;
  { cash :=
      { denoms := s.cash.denoms.map fun d => { ref := d.ref, restart := d.restart, basis := d.basis },
        cassettes := s.cash.cassettes, purge := s.cash.purge, deposit := s.cash.deposit },
    chP := { gain := s.chP.gain, gainBasis := s.chP.gainBasis },
    chQ := { gain := s.chQ.gain, gainBasis := s.chQ.gainBasis },
    capture := { journal := s.capture.journal, lastSeq := s.capture.lastSeq, bundles := s.capture.bundles },
    peer := { kept := s.peer.kept }, fault := s.fault,
    lane :=
      { startCount := (s.lane.startCount + 1) % 65536, station := b.straps,
        cause :=
          { c with
              powerOn := c.powerOn || k == .powerOn, supplyDip := c.supplyDip || k == .supplyDip,
              resetLine := c.resetLine || k == .resetLine, commanded := c.commanded || k == .commanded, last := k } },
    board := b, free := s.free, pending := s.pending }

/-- The lane after a reset of any kind with retention lost, before its configuration is read (R185, R193). -/
def forgotten (b : Board) (s : State) : State :=
  faulted .retentionLost .none none none
    { lane := { station := b.straps }, board := b, free := s.free, pending := s.pending }

/-- The peer view at a start (R116): a lane expected is AWAITED, every other entry EMPTY. -/
def peersAwaited (c : Configuration) (station : Nat) : List PeerEntry :=
  (List.range 31).map fun n =>
    if c.expected.testBit n = true ∧ n ≠ station then { kind := some .lane, status := .awaited, cap := c.defaultPeerCap }
    else { cap := c.defaultPeerCap }

/-- What the settling of a start makes of cassette C`i+1`, with its switch closed or open (R3, R6, R7, R14). -/
def cassetteSettled (denoms : List Denom) (setpoint : Nat) (closed : Bool) (c : Cassette) : Cassette :=
  let fresh : Cassette := { c with misses := 0, setpoint := setpoint };
  let empty : Cassette :=
    { st := .unloaded, denom := none, face := none, count := 0, loaded := 0, accepted := 0, rejectEst := 0,
      setpoint := setpoint, ref := 20, restart := 0, misses := 0 };
  let fits := match c.denom with
    | some d => (denoms.getD d {}).used && c.face == some (denoms.getD d {}).face
    | none => true
  if closed = false then { fresh with st := .removed, restart := 0 }
  else
    match c.st with
    | .removed => empty
    | .unloaded => fresh
    | .empty => if fits then fresh else { fresh with st := .suspect }
    | .suspect => fresh
    | .active | .low =>
        if fits then
          { fresh with st := if c.count = 0 then .empty else if c.count ≤ setpoint then .low else .active }
        else { fresh with st := .suspect }

/-- The CRC-16 of 12.1 as a number: the register, all ones at first, takes each bit, most significant first, by
x^16 + x^12 + x^5 + 1. -/
def crcOf (l : List Byte) : Nat :=
  (l.flatMap fun b => (List.range 8).map fun i => b.toNat / 2 ^ (7 - i) % 2).foldl
    (fun r bit => (2 * r % 65536) ^^^ (if r / 32768 = bit then 0 else 0x1021)) 0xFFFF

/-- The items that an image of 115 bytes gives (12.3, R1, R186, R194): each figure decoded and clamped to its range, a
lane cap and what is clamped to it after the figures they are clamped to; and a clamp is told where a figure was out of
its range, or a zone's type code 6 or 7. -/
abbrev ImageGives (l : List Byte) (x : ImageItems) : Prop :=
  let b := fun (o : Nat) => (l.getD o 0).toNat;
  let two := fun (o : Nat) => 256 * b o + b (o + 1);
  let three := fun (o : Nat) => 65536 * b o + 256 * b (o + 1) + b (o + 2);
  let within := fun (lo hi n : Nat) => max lo (min hi n);
  let inside := fun (lo hi n : Nat) => (lo ≤ n ∧ n ≤ hi : Prop);
  let c := x.config;
  c.wallCeiling = within 1 16000000 (three 0) ∧ c.laneCap = min c.wallCeiling (three 3) ∧
    c.defaultPeerCap = min c.wallCeiling (three 6) ∧
    c.expected = 16777216 * (b 9 % 128) + three 10 ∧ c.s1 = min c.wallCeiling (three 13) ∧
    c.duressLimit = min c.laneCap (three 16) ∧ c.depositAllowance = within 1 (max 1 c.laneCap) (three 19) ∧
    c.takeTimeout = within 5 90 (b 22) ∧ c.approvalTimeout = within 5 120 (b 23) ∧
    c.gainP = within 1 8191 (two 24) ∧ c.gainQ = within 1 8191 (two 26) ∧ c.captureBand = within 4 255 (b 28) ∧
    (x.denoms = (List.range 8).map fun i =>
      let o := 29 + 8 * i;
      { used := b o != 0, face := within 1 10000 (two (o + 1)), nomLength := within 600 2000 (two (o + 3)),
        window := within 5 100 (b (o + 5)), nomThick := within 20 400 (two (o + 6)) }) ∧
    (x.setpoints = (List.range 4).map fun i => min 2500 (two (93 + 2 * i))) ∧
    (x.zones = (List.range 12).map fun i =>
      ([ZoneType.unused, .duress, .attack, .door, .bin, .vehicle].getD (b (101 + i) % 8) .unused,
        decide (128 ≤ b (101 + i)))) ∧
    (x.clamped = false ↔
      inside 1 16000000 (three 0) ∧ three 3 ≤ c.wallCeiling ∧ three 6 ≤ c.wallCeiling ∧ three 13 ≤ c.wallCeiling ∧
        three 16 ≤ c.laneCap ∧ inside 1 (max 1 c.laneCap) (three 19) ∧ inside 5 90 (b 22) ∧ inside 5 120 (b 23) ∧
        inside 1 8191 (two 24) ∧ inside 1 8191 (two 26) ∧ 4 ≤ b 28 ∧
        (∀ i < 8,
          let o := 29 + 8 * i;
          inside 1 10000 (two (o + 1)) ∧ inside 600 2000 (two (o + 3)) ∧ inside 5 100 (b (o + 5)) ∧
            inside 20 400 (two (o + 6))) ∧
        (∀ i < 4, two (93 + 2 * i) ≤ 2500) ∧ ∀ i < 12, b (101 + i) % 8 ≤ 5)

/-- R1, R2, R14, R20, R116, R131, R184, R185, R186, R191, R193, R194: what a reading of the configuration memory takes
and makes of it, and what each reset keeps, clears and reads, of whatever kind, a RESET_LANE's too: with a reading that
fails (a silent memory, an image whose CRC is wrong, straps of 31) the lane enters CONFIG_FAULT, and with a good reading
it takes the configuration, raises CONFIG_CLAMPED for a clamped item, settles the references, both gains and the
cassettes against it, and waits for its mechanics. What the figures of the configuration are after a failed read at
which retention was lost (notes/assumptions/18.md), and before the first read (notes/assumptions/1.md), is the model's
choice. -/
def Obligations.ResetsKeepAndClear : Prop :=
  ∀ (b : Board) (s : State),
    ((readConfiguration b).isSome = true ↔
      b.straps < 31 ∧ ∃ l ∈ b.image, l.length = 115 ∧
        crcOf (l.take 113) = 256 * (l.getD 113 0).toNat + (l.getD 114 0).toNat) ∧
    (∀ l x, b.image = some l → readConfiguration b = some x → ImageGives l x) ∧
    (∀ k, k ≠ .backupLost →
      let rows := fun (e : Instr) => ((k = .powerOn ∧ e = .powerOn b) ∨ (k = .supplyDip ∧ e = .supplyDip b) ∨
        (k = .resetLine ∧ e = .resetLine b) : Prop);
      let starts := fun (t : State) => (restart k { s with board := b } = t ∧ ∀ e, rows e → exec e s = .next t : Prop);
      let kept := restarted k b s;
      (b.retentionOk = true → readConfiguration b = none → starts (laneEntered .configFault kept)) ∧
      (b.retentionOk = false → readConfiguration b = none → starts (laneEntered .configFault (forgotten b s))) ∧
      (∀ x, readConfiguration b = some x →
        let told := fun (v : State) => if x.clamped = true then raiseSoft .configClamped .none none none v else v;
        let peers := peersAwaited x.config b.straps;
        let zones := x.zones.map fun z => ({ type := z.1, report := z.2 } : Zone);
        (let u := told (forgotten b s);
          b.retentionOk = false →
          starts { u with
            config := x.config,
            cash :=
              { u.cash with
                  denoms := x.denoms.map fun d => { d with ref := d.nomThick, restart := 0, basis := d.nomThick },
                  cassettes := (List.range 4).map fun i => { setpoint := x.setpoints.getD i 0 } },
            chP := { gain := x.config.gainP, gainBasis := x.config.gainP },
            chQ := { gain := x.config.gainQ, gainBasis := x.config.gainQ },
            peer := { u.peer with entries := peers },
            alarm := { u.alarm with zones := zones },
            lane := { u.lane with power := .warming } }) ∧
        (b.retentionOk = true →
          ∃ t, starts t ∧ t.config = x.config ∧ t.lane = { kept.lane with power := .warming } ∧
            t.chP = (if x.config.gainP = s.chP.gainBasis then { gain := s.chP.gain, gainBasis := s.chP.gainBasis }
              else { gain := x.config.gainP, gainBasis := x.config.gainP }) ∧
            t.chQ = (if x.config.gainQ = s.chQ.gainBasis then { gain := s.chQ.gain, gainBasis := s.chQ.gainBasis }
              else { gain := x.config.gainQ, gainBasis := x.config.gainQ }) ∧
            (t.cash.denoms = (x.denoms.zip s.cash.denoms).map fun p =>
              if p.1.nomThick = p.2.basis then
                { p.1 with ref := p.2.ref, restart := p.2.restart, basis := p.1.nomThick }
              else { p.1 with ref := p.1.nomThick, restart := 0, basis := p.1.nomThick }) ∧
            (s.cash.cassettes.length = 4 →
              t.cash.cassettes = s.cash.cassettes.zipIdx.map fun p =>
                cassetteSettled t.cash.denoms (x.setpoints.getD p.2 0) (b.presence.getD p.2 false) p.1) ∧
            (s.fault.flags.length = 18 → x.clamped = true →
              t.fault.flags[faultKindIdx .configClamped]? = some true ∧ t.fault.hold ≠ .empty) ∧
            (s.cash.cassettes.length = 4 → (∀ c ∈ t.cash.cassettes, c.st ≠ .suspect) → t.fault = (told kept).fault) ∧
            t.cash.purge = s.cash.purge ∧ t.cash.deposit = s.cash.deposit ∧
            t.peer = { kept := s.peer.kept, entries := peers } ∧ t.alarm = { zones := zones } ∧
            t.capture = { journal := s.capture.journal, lastSeq := s.capture.lastSeq, bundles := s.capture.bundles } ∧
            t.fault.shift = s.fault.shift ∧ t.fault.closed = s.fault.closed ∧ t.disp = {} ∧ t.dep = {} ∧ t.cal = {} ∧
            t.approval = {} ∧ t.drives = {} ∧ t.board = b ∧ t.pending = s.pending)))

/-- R16, R95, R112, R113, R114, R185, R187: the mechanics check. An occupied capture path sets its jam mark with
CAPTURE_JAM, and an envelope at the slot sensor alone the returned mark. With no H kept and the stacker, the pocket and
the escrow clear the lane enters CLOSED with H at 0; else it recovers with the retained H: the stacker's purge, reckoned
at 40 notes, is admitted or refused for want of room, the pocket's retract is asked for, and the escrow is stacked,
the throat transport running. That they start in this order is the model's choice (notes/assumptions/26.md). -/
def Obligations.MechanicsCheckEndsStarting : Prop :=
  ∀ (x : StartSensors) (s : State),
    let u := { s with lane := { s.lane with power := .on } };
    let zero : HeldCash := { h := 0, dispense := 0, deposit := 0 };
    let kept := s.peer.kept;
    let found := (x.stacker || x.pocket || x.escrow);
    let checked :=
      if x.capture.length = true ∨ x.capture.drop = true ∨ x.capture.retract = true then
        faulted .captureJam .recovery none none
          { u with capture := { s.capture with jam := true, shutter := false } }
      else if x.capture.slot = true then
        { u with capture := { s.capture with returned := true, shutter := false } }
      else u;
    let move := fun (f : Recovery → Recovery) (v : State) =>
      { v with lane := { v.lane with recovery := f v.lane.recovery } };
    let entered := move
      (fun _ =>
        { active := true, stacker := .none, pocket := .none, escrow := .none,
          stackerValue := if x.pocket then 0 else kept.dispense })
      (laneEntered .recovery { checked with peer := { s.peer with held := kept } });
    let purged := if x.stacker = false then entered
      else if s.cash.purge.total + 40 ≤ 100 then move (fun r => { r with stacker := .running }) entered
      else faulted .purgeFull .recovery none none
        (move (fun r => { r with stacker := .noRoom })
          { entered with cash := { s.cash with purge := { s.cash.purge with full := true } } });
    let request : RetractRequest :=
      if 0 < kept.dispense then
        { requester := .recovery, kind := .dispense, tag := none, count := 40, value := kept.dispense,
          blocked := false, granted := false }
      else
        { requester := .recovery, kind := .depositReturn, tag := none, count := 60,
          value := if x.escrow then 0 else kept.deposit, blocked := false, granted := false };
    let drawn := if x.pocket = false then purged else
      arbitrate (move (fun r => { r with pocket := .running })
        { purged with capture := { purged.capture with retract := some request } });
    let t := if x.escrow = false then drawn else
      move (fun r => { r with escrow := .running })
        { drawn with drives := { drawn.drives with throatTransport := true } };
    s.lane.state = .starting → s.lane.power = .warming →
      (let w := laneEntered .closed { checked with peer := { s.peer with held := zero, kept := zero } };
        kept.h = 0 → found = false → Fits w → exec (.mechanicsCheck x) s = .next w) ∧
      ((0 < kept.h ∨ found = true) → Fits t → exec (.mechanicsCheck x) s = .next t)

/-! ### The machine -/

/-- The command in front is taken with the rest of the queue left; an empty queue lets a millisecond pass (the model's
own choice: notes/assumptions/2.md). -/
def Obligations.StepRunsTheCommandInFront : Prop :=
  (∀ (c : Instr) (rest : List Instr) (s : State), step { s with pending := c :: rest } = exec c { s with pending := rest }) ∧
    ∀ s : State, s.pending = [] →
      ∃ t, step s = .next t ∧ t.lane = { s.lane with timeMs := s.lane.timeMs + 1 } ∧ t.cash = s.cash ∧ t.bus = s.bus ∧
        t.fault = s.fault ∧ t.capture = s.capture ∧ t.alarm = s.alarm ∧ t.peer.held = s.peer.held ∧
        t.pending = s.pending

/-- R132, R158, R165, R174, R184, R193: what the machine holds right after a reset at which retention was lost; that
the reset state is such a reset is the model's choice (notes/assumptions/1.md). -/
def Obligations.ResetHoldsItsValues : Prop :=
  let s := State.reset
  s.lane.state = .starting ∧ s.lane.power = .off ∧ s.lane.startCount = 0 ∧ s.disp.st = .idle ∧ s.dep.st = .closed ∧
    s.cal.phase = .none ∧ s.peer.held.h = 0 ∧ s.peer.kept.h = 0 ∧ s.approval.bound = none ∧
    (∀ x ∈ s.approval.slots, x.kind = none) ∧ (∀ c ∈ s.cash.cassettes, c.st = .unloaded ∧ c.count = 0 ∧ c.ref = 20) ∧
    s.cash.purge.total = 0 ∧ s.cash.deposit.count = 0 ∧ s.alarm.duress = false ∧ s.alarm.attack = false ∧
    (∀ z ∈ s.alarm.zones, z.state = .unknown) ∧ s.chP.zero = none ∧ s.chQ.zero = none ∧ s.capture.journal = [] ∧
    s.capture.bundles = [] ∧ s.fault.hold = .empty ∧ s.bus.queue = [] ∧ s.bus.part = false ∧ s.pending = [] ∧
    FaultRecordSound s.fault ∧ QueueBounded s.bus ∧ CompartmentBounded s.capture ∧ OwnEntryEmpty s

/-- R165, R166, R169: every step keeps the first-fault record sound. -/
def Obligations.StepKeepsFaultRecordSound : Prop :=
  ∀ s t : State, FaultRecordSound s.fault → step s = .next t → FaultRecordSound t.fault

/-- R95, R178: no step takes the transmit queue past 16 frames, or the retract compartment past 32 bundles or 200
notes. -/
def Obligations.StepKeepsQueueAndCompartmentBounded : Prop :=
  ∀ s t : State, QueueBounded s.bus → CompartmentBounded s.capture → step s = .next t →
    QueueBounded t.bus ∧ CompartmentBounded t.capture

/-- R116, R123: no step makes the lane's own entry of the peer view anything but EMPTY. -/
def Obligations.StepKeepsOwnEntryEmpty : Prop :=
  ∀ s t : State, OwnEntryEmpty s → step s = .next t → OwnEntryEmpty t
end

