-- ==== Sys2Proof/Laws/State.lean ====
section
/-! SUPPORT. What each plain update of the state leaves in each field: one lemma per field per update, so that no proof
unfolds a record update. -/

namespace Sys2Proof.Machine

/-! ### modBus -/

@[simp] theorem modBus_config (f : Bus → Bus) (s : State) :
    (modBus f s).config = s.config := rfl

@[simp] theorem modBus_cash (f : Bus → Bus) (s : State) :
    (modBus f s).cash = s.cash := rfl

@[simp] theorem modBus_chP (f : Bus → Bus) (s : State) :
    (modBus f s).chP = s.chP := rfl

@[simp] theorem modBus_chQ (f : Bus → Bus) (s : State) :
    (modBus f s).chQ = s.chQ := rfl

@[simp] theorem modBus_cal (f : Bus → Bus) (s : State) :
    (modBus f s).cal = s.cal := rfl

@[simp] theorem modBus_disp (f : Bus → Bus) (s : State) :
    (modBus f s).disp = s.disp := rfl

@[simp] theorem modBus_dispenserJam (f : Bus → Bus) (s : State) :
    (modBus f s).dispenserJam = s.dispenserJam := rfl

@[simp] theorem modBus_dep (f : Bus → Bus) (s : State) :
    (modBus f s).dep = s.dep := rfl

@[simp] theorem modBus_throatJam (f : Bus → Bus) (s : State) :
    (modBus f s).throatJam = s.throatJam := rfl

@[simp] theorem modBus_capture (f : Bus → Bus) (s : State) :
    (modBus f s).capture = s.capture := rfl

@[simp] theorem modBus_peer (f : Bus → Bus) (s : State) :
    (modBus f s).peer = s.peer := rfl

@[simp] theorem modBus_alarm (f : Bus → Bus) (s : State) :
    (modBus f s).alarm = s.alarm := rfl

@[simp] theorem modBus_approval (f : Bus → Bus) (s : State) :
    (modBus f s).approval = s.approval := rfl

@[simp] theorem modBus_fault (f : Bus → Bus) (s : State) :
    (modBus f s).fault = s.fault := rfl

@[simp] theorem modBus_bus (f : Bus → Bus) (s : State) :
    (modBus f s).bus = f s.bus := rfl

@[simp] theorem modBus_lane (f : Bus → Bus) (s : State) :
    (modBus f s).lane = s.lane := rfl

@[simp] theorem modBus_drives (f : Bus → Bus) (s : State) :
    (modBus f s).drives = s.drives := rfl

@[simp] theorem modBus_board (f : Bus → Bus) (s : State) :
    (modBus f s).board = s.board := rfl

@[simp] theorem modBus_free (f : Bus → Bus) (s : State) :
    (modBus f s).free = s.free := rfl

@[simp] theorem modBus_pending (f : Bus → Bus) (s : State) :
    (modBus f s).pending = s.pending := rfl

/-! ### modPeer -/

@[simp] theorem modPeer_config (f : PeerView → PeerView) (s : State) :
    (modPeer f s).config = s.config := rfl

@[simp] theorem modPeer_cash (f : PeerView → PeerView) (s : State) :
    (modPeer f s).cash = s.cash := rfl

@[simp] theorem modPeer_chP (f : PeerView → PeerView) (s : State) :
    (modPeer f s).chP = s.chP := rfl

@[simp] theorem modPeer_chQ (f : PeerView → PeerView) (s : State) :
    (modPeer f s).chQ = s.chQ := rfl

@[simp] theorem modPeer_cal (f : PeerView → PeerView) (s : State) :
    (modPeer f s).cal = s.cal := rfl

@[simp] theorem modPeer_disp (f : PeerView → PeerView) (s : State) :
    (modPeer f s).disp = s.disp := rfl

@[simp] theorem modPeer_dispenserJam (f : PeerView → PeerView) (s : State) :
    (modPeer f s).dispenserJam = s.dispenserJam := rfl

@[simp] theorem modPeer_dep (f : PeerView → PeerView) (s : State) :
    (modPeer f s).dep = s.dep := rfl

@[simp] theorem modPeer_throatJam (f : PeerView → PeerView) (s : State) :
    (modPeer f s).throatJam = s.throatJam := rfl

@[simp] theorem modPeer_capture (f : PeerView → PeerView) (s : State) :
    (modPeer f s).capture = s.capture := rfl

@[simp] theorem modPeer_peer (f : PeerView → PeerView) (s : State) :
    (modPeer f s).peer = f s.peer := rfl

@[simp] theorem modPeer_alarm (f : PeerView → PeerView) (s : State) :
    (modPeer f s).alarm = s.alarm := rfl

@[simp] theorem modPeer_approval (f : PeerView → PeerView) (s : State) :
    (modPeer f s).approval = s.approval := rfl

@[simp] theorem modPeer_fault (f : PeerView → PeerView) (s : State) :
    (modPeer f s).fault = s.fault := rfl

@[simp] theorem modPeer_bus (f : PeerView → PeerView) (s : State) :
    (modPeer f s).bus = s.bus := rfl

@[simp] theorem modPeer_lane (f : PeerView → PeerView) (s : State) :
    (modPeer f s).lane = s.lane := rfl

@[simp] theorem modPeer_drives (f : PeerView → PeerView) (s : State) :
    (modPeer f s).drives = s.drives := rfl

@[simp] theorem modPeer_board (f : PeerView → PeerView) (s : State) :
    (modPeer f s).board = s.board := rfl

@[simp] theorem modPeer_free (f : PeerView → PeerView) (s : State) :
    (modPeer f s).free = s.free := rfl

@[simp] theorem modPeer_pending (f : PeerView → PeerView) (s : State) :
    (modPeer f s).pending = s.pending := rfl

/-! ### modApproval -/

@[simp] theorem modApproval_config (f : Approval → Approval) (s : State) :
    (modApproval f s).config = s.config := rfl

@[simp] theorem modApproval_cash (f : Approval → Approval) (s : State) :
    (modApproval f s).cash = s.cash := rfl

@[simp] theorem modApproval_chP (f : Approval → Approval) (s : State) :
    (modApproval f s).chP = s.chP := rfl

@[simp] theorem modApproval_chQ (f : Approval → Approval) (s : State) :
    (modApproval f s).chQ = s.chQ := rfl

@[simp] theorem modApproval_cal (f : Approval → Approval) (s : State) :
    (modApproval f s).cal = s.cal := rfl

@[simp] theorem modApproval_disp (f : Approval → Approval) (s : State) :
    (modApproval f s).disp = s.disp := rfl

@[simp] theorem modApproval_dispenserJam (f : Approval → Approval) (s : State) :
    (modApproval f s).dispenserJam = s.dispenserJam := rfl

@[simp] theorem modApproval_dep (f : Approval → Approval) (s : State) :
    (modApproval f s).dep = s.dep := rfl

@[simp] theorem modApproval_throatJam (f : Approval → Approval) (s : State) :
    (modApproval f s).throatJam = s.throatJam := rfl

@[simp] theorem modApproval_capture (f : Approval → Approval) (s : State) :
    (modApproval f s).capture = s.capture := rfl

@[simp] theorem modApproval_peer (f : Approval → Approval) (s : State) :
    (modApproval f s).peer = s.peer := rfl

@[simp] theorem modApproval_alarm (f : Approval → Approval) (s : State) :
    (modApproval f s).alarm = s.alarm := rfl

@[simp] theorem modApproval_approval (f : Approval → Approval) (s : State) :
    (modApproval f s).approval = f s.approval := rfl

@[simp] theorem modApproval_fault (f : Approval → Approval) (s : State) :
    (modApproval f s).fault = s.fault := rfl

@[simp] theorem modApproval_bus (f : Approval → Approval) (s : State) :
    (modApproval f s).bus = s.bus := rfl

@[simp] theorem modApproval_lane (f : Approval → Approval) (s : State) :
    (modApproval f s).lane = s.lane := rfl

@[simp] theorem modApproval_drives (f : Approval → Approval) (s : State) :
    (modApproval f s).drives = s.drives := rfl

@[simp] theorem modApproval_board (f : Approval → Approval) (s : State) :
    (modApproval f s).board = s.board := rfl

@[simp] theorem modApproval_free (f : Approval → Approval) (s : State) :
    (modApproval f s).free = s.free := rfl

@[simp] theorem modApproval_pending (f : Approval → Approval) (s : State) :
    (modApproval f s).pending = s.pending := rfl

/-! ### modLane -/

@[simp] theorem modLane_config (f : Lane → Lane) (s : State) :
    (modLane f s).config = s.config := rfl

@[simp] theorem modLane_cash (f : Lane → Lane) (s : State) :
    (modLane f s).cash = s.cash := rfl

@[simp] theorem modLane_chP (f : Lane → Lane) (s : State) :
    (modLane f s).chP = s.chP := rfl

@[simp] theorem modLane_chQ (f : Lane → Lane) (s : State) :
    (modLane f s).chQ = s.chQ := rfl

@[simp] theorem modLane_cal (f : Lane → Lane) (s : State) :
    (modLane f s).cal = s.cal := rfl

@[simp] theorem modLane_disp (f : Lane → Lane) (s : State) :
    (modLane f s).disp = s.disp := rfl

@[simp] theorem modLane_dispenserJam (f : Lane → Lane) (s : State) :
    (modLane f s).dispenserJam = s.dispenserJam := rfl

@[simp] theorem modLane_dep (f : Lane → Lane) (s : State) :
    (modLane f s).dep = s.dep := rfl

@[simp] theorem modLane_throatJam (f : Lane → Lane) (s : State) :
    (modLane f s).throatJam = s.throatJam := rfl

@[simp] theorem modLane_capture (f : Lane → Lane) (s : State) :
    (modLane f s).capture = s.capture := rfl

@[simp] theorem modLane_peer (f : Lane → Lane) (s : State) :
    (modLane f s).peer = s.peer := rfl

@[simp] theorem modLane_alarm (f : Lane → Lane) (s : State) :
    (modLane f s).alarm = s.alarm := rfl

@[simp] theorem modLane_approval (f : Lane → Lane) (s : State) :
    (modLane f s).approval = s.approval := rfl

@[simp] theorem modLane_fault (f : Lane → Lane) (s : State) :
    (modLane f s).fault = s.fault := rfl

@[simp] theorem modLane_bus (f : Lane → Lane) (s : State) :
    (modLane f s).bus = s.bus := rfl

@[simp] theorem modLane_lane (f : Lane → Lane) (s : State) :
    (modLane f s).lane = f s.lane := rfl

@[simp] theorem modLane_drives (f : Lane → Lane) (s : State) :
    (modLane f s).drives = s.drives := rfl

@[simp] theorem modLane_board (f : Lane → Lane) (s : State) :
    (modLane f s).board = s.board := rfl

@[simp] theorem modLane_free (f : Lane → Lane) (s : State) :
    (modLane f s).free = s.free := rfl

@[simp] theorem modLane_pending (f : Lane → Lane) (s : State) :
    (modLane f s).pending = s.pending := rfl

/-! ### modDrives -/

@[simp] theorem modDrives_config (f : Drives → Drives) (s : State) :
    (modDrives f s).config = s.config := rfl

@[simp] theorem modDrives_cash (f : Drives → Drives) (s : State) :
    (modDrives f s).cash = s.cash := rfl

@[simp] theorem modDrives_chP (f : Drives → Drives) (s : State) :
    (modDrives f s).chP = s.chP := rfl

@[simp] theorem modDrives_chQ (f : Drives → Drives) (s : State) :
    (modDrives f s).chQ = s.chQ := rfl

@[simp] theorem modDrives_cal (f : Drives → Drives) (s : State) :
    (modDrives f s).cal = s.cal := rfl

@[simp] theorem modDrives_disp (f : Drives → Drives) (s : State) :
    (modDrives f s).disp = s.disp := rfl

@[simp] theorem modDrives_dispenserJam (f : Drives → Drives) (s : State) :
    (modDrives f s).dispenserJam = s.dispenserJam := rfl

@[simp] theorem modDrives_dep (f : Drives → Drives) (s : State) :
    (modDrives f s).dep = s.dep := rfl

@[simp] theorem modDrives_throatJam (f : Drives → Drives) (s : State) :
    (modDrives f s).throatJam = s.throatJam := rfl

@[simp] theorem modDrives_capture (f : Drives → Drives) (s : State) :
    (modDrives f s).capture = s.capture := rfl

@[simp] theorem modDrives_peer (f : Drives → Drives) (s : State) :
    (modDrives f s).peer = s.peer := rfl

@[simp] theorem modDrives_alarm (f : Drives → Drives) (s : State) :
    (modDrives f s).alarm = s.alarm := rfl

@[simp] theorem modDrives_approval (f : Drives → Drives) (s : State) :
    (modDrives f s).approval = s.approval := rfl

@[simp] theorem modDrives_fault (f : Drives → Drives) (s : State) :
    (modDrives f s).fault = s.fault := rfl

@[simp] theorem modDrives_bus (f : Drives → Drives) (s : State) :
    (modDrives f s).bus = s.bus := rfl

@[simp] theorem modDrives_lane (f : Drives → Drives) (s : State) :
    (modDrives f s).lane = s.lane := rfl

@[simp] theorem modDrives_drives (f : Drives → Drives) (s : State) :
    (modDrives f s).drives = f s.drives := rfl

@[simp] theorem modDrives_board (f : Drives → Drives) (s : State) :
    (modDrives f s).board = s.board := rfl

@[simp] theorem modDrives_free (f : Drives → Drives) (s : State) :
    (modDrives f s).free = s.free := rfl

@[simp] theorem modDrives_pending (f : Drives → Drives) (s : State) :
    (modDrives f s).pending = s.pending := rfl

/-! ### modCash -/

@[simp] theorem modCash_config (f : CassetteUnit → CassetteUnit) (s : State) :
    (modCash f s).config = s.config := rfl

@[simp] theorem modCash_cash (f : CassetteUnit → CassetteUnit) (s : State) :
    (modCash f s).cash = f s.cash := rfl

@[simp] theorem modCash_chP (f : CassetteUnit → CassetteUnit) (s : State) :
    (modCash f s).chP = s.chP := rfl

@[simp] theorem modCash_chQ (f : CassetteUnit → CassetteUnit) (s : State) :
    (modCash f s).chQ = s.chQ := rfl

@[simp] theorem modCash_cal (f : CassetteUnit → CassetteUnit) (s : State) :
    (modCash f s).cal = s.cal := rfl

@[simp] theorem modCash_disp (f : CassetteUnit → CassetteUnit) (s : State) :
    (modCash f s).disp = s.disp := rfl

@[simp] theorem modCash_dispenserJam (f : CassetteUnit → CassetteUnit) (s : State) :
    (modCash f s).dispenserJam = s.dispenserJam := rfl

@[simp] theorem modCash_dep (f : CassetteUnit → CassetteUnit) (s : State) :
    (modCash f s).dep = s.dep := rfl

@[simp] theorem modCash_throatJam (f : CassetteUnit → CassetteUnit) (s : State) :
    (modCash f s).throatJam = s.throatJam := rfl

@[simp] theorem modCash_capture (f : CassetteUnit → CassetteUnit) (s : State) :
    (modCash f s).capture = s.capture := rfl

@[simp] theorem modCash_peer (f : CassetteUnit → CassetteUnit) (s : State) :
    (modCash f s).peer = s.peer := rfl

@[simp] theorem modCash_alarm (f : CassetteUnit → CassetteUnit) (s : State) :
    (modCash f s).alarm = s.alarm := rfl

@[simp] theorem modCash_approval (f : CassetteUnit → CassetteUnit) (s : State) :
    (modCash f s).approval = s.approval := rfl

@[simp] theorem modCash_fault (f : CassetteUnit → CassetteUnit) (s : State) :
    (modCash f s).fault = s.fault := rfl

@[simp] theorem modCash_bus (f : CassetteUnit → CassetteUnit) (s : State) :
    (modCash f s).bus = s.bus := rfl

@[simp] theorem modCash_lane (f : CassetteUnit → CassetteUnit) (s : State) :
    (modCash f s).lane = s.lane := rfl

@[simp] theorem modCash_drives (f : CassetteUnit → CassetteUnit) (s : State) :
    (modCash f s).drives = s.drives := rfl

@[simp] theorem modCash_board (f : CassetteUnit → CassetteUnit) (s : State) :
    (modCash f s).board = s.board := rfl

@[simp] theorem modCash_free (f : CassetteUnit → CassetteUnit) (s : State) :
    (modCash f s).free = s.free := rfl

@[simp] theorem modCash_pending (f : CassetteUnit → CassetteUnit) (s : State) :
    (modCash f s).pending = s.pending := rfl

/-! ### modCapture -/

@[simp] theorem modCapture_config (f : Capture → Capture) (s : State) :
    (modCapture f s).config = s.config := rfl

@[simp] theorem modCapture_cash (f : Capture → Capture) (s : State) :
    (modCapture f s).cash = s.cash := rfl

@[simp] theorem modCapture_chP (f : Capture → Capture) (s : State) :
    (modCapture f s).chP = s.chP := rfl

@[simp] theorem modCapture_chQ (f : Capture → Capture) (s : State) :
    (modCapture f s).chQ = s.chQ := rfl

@[simp] theorem modCapture_cal (f : Capture → Capture) (s : State) :
    (modCapture f s).cal = s.cal := rfl

@[simp] theorem modCapture_disp (f : Capture → Capture) (s : State) :
    (modCapture f s).disp = s.disp := rfl

@[simp] theorem modCapture_dispenserJam (f : Capture → Capture) (s : State) :
    (modCapture f s).dispenserJam = s.dispenserJam := rfl

@[simp] theorem modCapture_dep (f : Capture → Capture) (s : State) :
    (modCapture f s).dep = s.dep := rfl

@[simp] theorem modCapture_throatJam (f : Capture → Capture) (s : State) :
    (modCapture f s).throatJam = s.throatJam := rfl

@[simp] theorem modCapture_capture (f : Capture → Capture) (s : State) :
    (modCapture f s).capture = f s.capture := rfl

@[simp] theorem modCapture_peer (f : Capture → Capture) (s : State) :
    (modCapture f s).peer = s.peer := rfl

@[simp] theorem modCapture_alarm (f : Capture → Capture) (s : State) :
    (modCapture f s).alarm = s.alarm := rfl

@[simp] theorem modCapture_approval (f : Capture → Capture) (s : State) :
    (modCapture f s).approval = s.approval := rfl

@[simp] theorem modCapture_fault (f : Capture → Capture) (s : State) :
    (modCapture f s).fault = s.fault := rfl

@[simp] theorem modCapture_bus (f : Capture → Capture) (s : State) :
    (modCapture f s).bus = s.bus := rfl

@[simp] theorem modCapture_lane (f : Capture → Capture) (s : State) :
    (modCapture f s).lane = s.lane := rfl

@[simp] theorem modCapture_drives (f : Capture → Capture) (s : State) :
    (modCapture f s).drives = s.drives := rfl

@[simp] theorem modCapture_board (f : Capture → Capture) (s : State) :
    (modCapture f s).board = s.board := rfl

@[simp] theorem modCapture_free (f : Capture → Capture) (s : State) :
    (modCapture f s).free = s.free := rfl

@[simp] theorem modCapture_pending (f : Capture → Capture) (s : State) :
    (modCapture f s).pending = s.pending := rfl

/-! ### modDisp -/

@[simp] theorem modDisp_config (f : Dispense → Dispense) (s : State) :
    (modDisp f s).config = s.config := rfl

@[simp] theorem modDisp_cash (f : Dispense → Dispense) (s : State) :
    (modDisp f s).cash = s.cash := rfl

@[simp] theorem modDisp_chP (f : Dispense → Dispense) (s : State) :
    (modDisp f s).chP = s.chP := rfl

@[simp] theorem modDisp_chQ (f : Dispense → Dispense) (s : State) :
    (modDisp f s).chQ = s.chQ := rfl

@[simp] theorem modDisp_cal (f : Dispense → Dispense) (s : State) :
    (modDisp f s).cal = s.cal := rfl

@[simp] theorem modDisp_disp (f : Dispense → Dispense) (s : State) :
    (modDisp f s).disp = f s.disp := rfl

@[simp] theorem modDisp_dispenserJam (f : Dispense → Dispense) (s : State) :
    (modDisp f s).dispenserJam = s.dispenserJam := rfl

@[simp] theorem modDisp_dep (f : Dispense → Dispense) (s : State) :
    (modDisp f s).dep = s.dep := rfl

@[simp] theorem modDisp_throatJam (f : Dispense → Dispense) (s : State) :
    (modDisp f s).throatJam = s.throatJam := rfl

@[simp] theorem modDisp_capture (f : Dispense → Dispense) (s : State) :
    (modDisp f s).capture = s.capture := rfl

@[simp] theorem modDisp_peer (f : Dispense → Dispense) (s : State) :
    (modDisp f s).peer = s.peer := rfl

@[simp] theorem modDisp_alarm (f : Dispense → Dispense) (s : State) :
    (modDisp f s).alarm = s.alarm := rfl

@[simp] theorem modDisp_approval (f : Dispense → Dispense) (s : State) :
    (modDisp f s).approval = s.approval := rfl

@[simp] theorem modDisp_fault (f : Dispense → Dispense) (s : State) :
    (modDisp f s).fault = s.fault := rfl

@[simp] theorem modDisp_bus (f : Dispense → Dispense) (s : State) :
    (modDisp f s).bus = s.bus := rfl

@[simp] theorem modDisp_lane (f : Dispense → Dispense) (s : State) :
    (modDisp f s).lane = s.lane := rfl

@[simp] theorem modDisp_drives (f : Dispense → Dispense) (s : State) :
    (modDisp f s).drives = s.drives := rfl

@[simp] theorem modDisp_board (f : Dispense → Dispense) (s : State) :
    (modDisp f s).board = s.board := rfl

@[simp] theorem modDisp_free (f : Dispense → Dispense) (s : State) :
    (modDisp f s).free = s.free := rfl

@[simp] theorem modDisp_pending (f : Dispense → Dispense) (s : State) :
    (modDisp f s).pending = s.pending := rfl

/-! ### modDep -/

@[simp] theorem modDep_config (f : Deposit → Deposit) (s : State) :
    (modDep f s).config = s.config := rfl

@[simp] theorem modDep_cash (f : Deposit → Deposit) (s : State) :
    (modDep f s).cash = s.cash := rfl

@[simp] theorem modDep_chP (f : Deposit → Deposit) (s : State) :
    (modDep f s).chP = s.chP := rfl

@[simp] theorem modDep_chQ (f : Deposit → Deposit) (s : State) :
    (modDep f s).chQ = s.chQ := rfl

@[simp] theorem modDep_cal (f : Deposit → Deposit) (s : State) :
    (modDep f s).cal = s.cal := rfl

@[simp] theorem modDep_disp (f : Deposit → Deposit) (s : State) :
    (modDep f s).disp = s.disp := rfl

@[simp] theorem modDep_dispenserJam (f : Deposit → Deposit) (s : State) :
    (modDep f s).dispenserJam = s.dispenserJam := rfl

@[simp] theorem modDep_dep (f : Deposit → Deposit) (s : State) :
    (modDep f s).dep = f s.dep := rfl

@[simp] theorem modDep_throatJam (f : Deposit → Deposit) (s : State) :
    (modDep f s).throatJam = s.throatJam := rfl

@[simp] theorem modDep_capture (f : Deposit → Deposit) (s : State) :
    (modDep f s).capture = s.capture := rfl

@[simp] theorem modDep_peer (f : Deposit → Deposit) (s : State) :
    (modDep f s).peer = s.peer := rfl

@[simp] theorem modDep_alarm (f : Deposit → Deposit) (s : State) :
    (modDep f s).alarm = s.alarm := rfl

@[simp] theorem modDep_approval (f : Deposit → Deposit) (s : State) :
    (modDep f s).approval = s.approval := rfl

@[simp] theorem modDep_fault (f : Deposit → Deposit) (s : State) :
    (modDep f s).fault = s.fault := rfl

@[simp] theorem modDep_bus (f : Deposit → Deposit) (s : State) :
    (modDep f s).bus = s.bus := rfl

@[simp] theorem modDep_lane (f : Deposit → Deposit) (s : State) :
    (modDep f s).lane = s.lane := rfl

@[simp] theorem modDep_drives (f : Deposit → Deposit) (s : State) :
    (modDep f s).drives = s.drives := rfl

@[simp] theorem modDep_board (f : Deposit → Deposit) (s : State) :
    (modDep f s).board = s.board := rfl

@[simp] theorem modDep_free (f : Deposit → Deposit) (s : State) :
    (modDep f s).free = s.free := rfl

@[simp] theorem modDep_pending (f : Deposit → Deposit) (s : State) :
    (modDep f s).pending = s.pending := rfl

/-! ### modCal -/

@[simp] theorem modCal_config (f : Calibration → Calibration) (s : State) :
    (modCal f s).config = s.config := rfl

@[simp] theorem modCal_cash (f : Calibration → Calibration) (s : State) :
    (modCal f s).cash = s.cash := rfl

@[simp] theorem modCal_chP (f : Calibration → Calibration) (s : State) :
    (modCal f s).chP = s.chP := rfl

@[simp] theorem modCal_chQ (f : Calibration → Calibration) (s : State) :
    (modCal f s).chQ = s.chQ := rfl

@[simp] theorem modCal_cal (f : Calibration → Calibration) (s : State) :
    (modCal f s).cal = f s.cal := rfl

@[simp] theorem modCal_disp (f : Calibration → Calibration) (s : State) :
    (modCal f s).disp = s.disp := rfl

@[simp] theorem modCal_dispenserJam (f : Calibration → Calibration) (s : State) :
    (modCal f s).dispenserJam = s.dispenserJam := rfl

@[simp] theorem modCal_dep (f : Calibration → Calibration) (s : State) :
    (modCal f s).dep = s.dep := rfl

@[simp] theorem modCal_throatJam (f : Calibration → Calibration) (s : State) :
    (modCal f s).throatJam = s.throatJam := rfl

@[simp] theorem modCal_capture (f : Calibration → Calibration) (s : State) :
    (modCal f s).capture = s.capture := rfl

@[simp] theorem modCal_peer (f : Calibration → Calibration) (s : State) :
    (modCal f s).peer = s.peer := rfl

@[simp] theorem modCal_alarm (f : Calibration → Calibration) (s : State) :
    (modCal f s).alarm = s.alarm := rfl

@[simp] theorem modCal_approval (f : Calibration → Calibration) (s : State) :
    (modCal f s).approval = s.approval := rfl

@[simp] theorem modCal_fault (f : Calibration → Calibration) (s : State) :
    (modCal f s).fault = s.fault := rfl

@[simp] theorem modCal_bus (f : Calibration → Calibration) (s : State) :
    (modCal f s).bus = s.bus := rfl

@[simp] theorem modCal_lane (f : Calibration → Calibration) (s : State) :
    (modCal f s).lane = s.lane := rfl

@[simp] theorem modCal_drives (f : Calibration → Calibration) (s : State) :
    (modCal f s).drives = s.drives := rfl

@[simp] theorem modCal_board (f : Calibration → Calibration) (s : State) :
    (modCal f s).board = s.board := rfl

@[simp] theorem modCal_free (f : Calibration → Calibration) (s : State) :
    (modCal f s).free = s.free := rfl

@[simp] theorem modCal_pending (f : Calibration → Calibration) (s : State) :
    (modCal f s).pending = s.pending := rfl

/-! ### modAlarm -/

@[simp] theorem modAlarm_config (f : Alarm → Alarm) (s : State) :
    (modAlarm f s).config = s.config := rfl

@[simp] theorem modAlarm_cash (f : Alarm → Alarm) (s : State) :
    (modAlarm f s).cash = s.cash := rfl

@[simp] theorem modAlarm_chP (f : Alarm → Alarm) (s : State) :
    (modAlarm f s).chP = s.chP := rfl

@[simp] theorem modAlarm_chQ (f : Alarm → Alarm) (s : State) :
    (modAlarm f s).chQ = s.chQ := rfl

@[simp] theorem modAlarm_cal (f : Alarm → Alarm) (s : State) :
    (modAlarm f s).cal = s.cal := rfl

@[simp] theorem modAlarm_disp (f : Alarm → Alarm) (s : State) :
    (modAlarm f s).disp = s.disp := rfl

@[simp] theorem modAlarm_dispenserJam (f : Alarm → Alarm) (s : State) :
    (modAlarm f s).dispenserJam = s.dispenserJam := rfl

@[simp] theorem modAlarm_dep (f : Alarm → Alarm) (s : State) :
    (modAlarm f s).dep = s.dep := rfl

@[simp] theorem modAlarm_throatJam (f : Alarm → Alarm) (s : State) :
    (modAlarm f s).throatJam = s.throatJam := rfl

@[simp] theorem modAlarm_capture (f : Alarm → Alarm) (s : State) :
    (modAlarm f s).capture = s.capture := rfl

@[simp] theorem modAlarm_peer (f : Alarm → Alarm) (s : State) :
    (modAlarm f s).peer = s.peer := rfl

@[simp] theorem modAlarm_alarm (f : Alarm → Alarm) (s : State) :
    (modAlarm f s).alarm = f s.alarm := rfl

@[simp] theorem modAlarm_approval (f : Alarm → Alarm) (s : State) :
    (modAlarm f s).approval = s.approval := rfl

@[simp] theorem modAlarm_fault (f : Alarm → Alarm) (s : State) :
    (modAlarm f s).fault = s.fault := rfl

@[simp] theorem modAlarm_bus (f : Alarm → Alarm) (s : State) :
    (modAlarm f s).bus = s.bus := rfl

@[simp] theorem modAlarm_lane (f : Alarm → Alarm) (s : State) :
    (modAlarm f s).lane = s.lane := rfl

@[simp] theorem modAlarm_drives (f : Alarm → Alarm) (s : State) :
    (modAlarm f s).drives = s.drives := rfl

@[simp] theorem modAlarm_board (f : Alarm → Alarm) (s : State) :
    (modAlarm f s).board = s.board := rfl

@[simp] theorem modAlarm_free (f : Alarm → Alarm) (s : State) :
    (modAlarm f s).free = s.free := rfl

@[simp] theorem modAlarm_pending (f : Alarm → Alarm) (s : State) :
    (modAlarm f s).pending = s.pending := rfl

/-! ### modShift -/

@[simp] theorem modShift_config (f : ShiftTotals → ShiftTotals) (s : State) :
    (modShift f s).config = s.config := rfl

@[simp] theorem modShift_cash (f : ShiftTotals → ShiftTotals) (s : State) :
    (modShift f s).cash = s.cash := rfl

@[simp] theorem modShift_chP (f : ShiftTotals → ShiftTotals) (s : State) :
    (modShift f s).chP = s.chP := rfl

@[simp] theorem modShift_chQ (f : ShiftTotals → ShiftTotals) (s : State) :
    (modShift f s).chQ = s.chQ := rfl

@[simp] theorem modShift_cal (f : ShiftTotals → ShiftTotals) (s : State) :
    (modShift f s).cal = s.cal := rfl

@[simp] theorem modShift_disp (f : ShiftTotals → ShiftTotals) (s : State) :
    (modShift f s).disp = s.disp := rfl

@[simp] theorem modShift_dispenserJam (f : ShiftTotals → ShiftTotals) (s : State) :
    (modShift f s).dispenserJam = s.dispenserJam := rfl

@[simp] theorem modShift_dep (f : ShiftTotals → ShiftTotals) (s : State) :
    (modShift f s).dep = s.dep := rfl

@[simp] theorem modShift_throatJam (f : ShiftTotals → ShiftTotals) (s : State) :
    (modShift f s).throatJam = s.throatJam := rfl

@[simp] theorem modShift_capture (f : ShiftTotals → ShiftTotals) (s : State) :
    (modShift f s).capture = s.capture := rfl

@[simp] theorem modShift_peer (f : ShiftTotals → ShiftTotals) (s : State) :
    (modShift f s).peer = s.peer := rfl

@[simp] theorem modShift_alarm (f : ShiftTotals → ShiftTotals) (s : State) :
    (modShift f s).alarm = s.alarm := rfl

@[simp] theorem modShift_approval (f : ShiftTotals → ShiftTotals) (s : State) :
    (modShift f s).approval = s.approval := rfl

@[simp] theorem modShift_fault (f : ShiftTotals → ShiftTotals) (s : State) :
    (modShift f s).fault = { s.fault with shift := f s.fault.shift } := rfl

@[simp] theorem modShift_bus (f : ShiftTotals → ShiftTotals) (s : State) :
    (modShift f s).bus = s.bus := rfl

@[simp] theorem modShift_lane (f : ShiftTotals → ShiftTotals) (s : State) :
    (modShift f s).lane = s.lane := rfl

@[simp] theorem modShift_drives (f : ShiftTotals → ShiftTotals) (s : State) :
    (modShift f s).drives = s.drives := rfl

@[simp] theorem modShift_board (f : ShiftTotals → ShiftTotals) (s : State) :
    (modShift f s).board = s.board := rfl

@[simp] theorem modShift_free (f : ShiftTotals → ShiftTotals) (s : State) :
    (modShift f s).free = s.free := rfl

@[simp] theorem modShift_pending (f : ShiftTotals → ShiftTotals) (s : State) :
    (modShift f s).pending = s.pending := rfl

/-! ### drawFree -/

@[simp] theorem drawFree_config (s : State) :
    (drawFree s).config = s.config := rfl

@[simp] theorem drawFree_cash (s : State) :
    (drawFree s).cash = s.cash := rfl

@[simp] theorem drawFree_chP (s : State) :
    (drawFree s).chP = s.chP := rfl

@[simp] theorem drawFree_chQ (s : State) :
    (drawFree s).chQ = s.chQ := rfl

@[simp] theorem drawFree_cal (s : State) :
    (drawFree s).cal = s.cal := rfl

@[simp] theorem drawFree_disp (s : State) :
    (drawFree s).disp = s.disp := rfl

@[simp] theorem drawFree_dispenserJam (s : State) :
    (drawFree s).dispenserJam = s.dispenserJam := rfl

@[simp] theorem drawFree_dep (s : State) :
    (drawFree s).dep = s.dep := rfl

@[simp] theorem drawFree_throatJam (s : State) :
    (drawFree s).throatJam = s.throatJam := rfl

@[simp] theorem drawFree_capture (s : State) :
    (drawFree s).capture = s.capture := rfl

@[simp] theorem drawFree_peer (s : State) :
    (drawFree s).peer = s.peer := rfl

@[simp] theorem drawFree_alarm (s : State) :
    (drawFree s).alarm = s.alarm := rfl

@[simp] theorem drawFree_approval (s : State) :
    (drawFree s).approval = s.approval := rfl

@[simp] theorem drawFree_fault (s : State) :
    (drawFree s).fault = s.fault := rfl

@[simp] theorem drawFree_bus (s : State) :
    (drawFree s).bus = s.bus := rfl

@[simp] theorem drawFree_lane (s : State) :
    (drawFree s).lane = s.lane := rfl

@[simp] theorem drawFree_drives (s : State) :
    (drawFree s).drives = s.drives := rfl

@[simp] theorem drawFree_board (s : State) :
    (drawFree s).board = s.board := rfl

@[simp] theorem drawFree_free (s : State) :
    (drawFree s).free = s.free + 1 := rfl

@[simp] theorem drawFree_pending (s : State) :
    (drawFree s).pending = s.pending := rfl

/-! ### setHeld -/

@[simp] theorem setHeld_config (h : HeldCash) (s : State) :
    (setHeld h s).config = s.config := rfl

@[simp] theorem setHeld_cash (h : HeldCash) (s : State) :
    (setHeld h s).cash = s.cash := rfl

@[simp] theorem setHeld_chP (h : HeldCash) (s : State) :
    (setHeld h s).chP = s.chP := rfl

@[simp] theorem setHeld_chQ (h : HeldCash) (s : State) :
    (setHeld h s).chQ = s.chQ := rfl

@[simp] theorem setHeld_cal (h : HeldCash) (s : State) :
    (setHeld h s).cal = s.cal := rfl

@[simp] theorem setHeld_disp (h : HeldCash) (s : State) :
    (setHeld h s).disp = s.disp := rfl

@[simp] theorem setHeld_dispenserJam (h : HeldCash) (s : State) :
    (setHeld h s).dispenserJam = s.dispenserJam := rfl

@[simp] theorem setHeld_dep (h : HeldCash) (s : State) :
    (setHeld h s).dep = s.dep := rfl

@[simp] theorem setHeld_throatJam (h : HeldCash) (s : State) :
    (setHeld h s).throatJam = s.throatJam := rfl

@[simp] theorem setHeld_capture (h : HeldCash) (s : State) :
    (setHeld h s).capture = s.capture := rfl

@[simp] theorem setHeld_peer (h : HeldCash) (s : State) :
    (setHeld h s).peer = { s.peer with held := h, kept := h } := rfl

@[simp] theorem setHeld_alarm (h : HeldCash) (s : State) :
    (setHeld h s).alarm = s.alarm := rfl

@[simp] theorem setHeld_approval (h : HeldCash) (s : State) :
    (setHeld h s).approval = s.approval := rfl

@[simp] theorem setHeld_fault (h : HeldCash) (s : State) :
    (setHeld h s).fault = s.fault := rfl

@[simp] theorem setHeld_bus (h : HeldCash) (s : State) :
    (setHeld h s).bus = s.bus := rfl

@[simp] theorem setHeld_lane (h : HeldCash) (s : State) :
    (setHeld h s).lane = s.lane := rfl

@[simp] theorem setHeld_drives (h : HeldCash) (s : State) :
    (setHeld h s).drives = s.drives := rfl

@[simp] theorem setHeld_board (h : HeldCash) (s : State) :
    (setHeld h s).board = s.board := rfl

@[simp] theorem setHeld_free (h : HeldCash) (s : State) :
    (setHeld h s).free = s.free := rfl

@[simp] theorem setHeld_pending (h : HeldCash) (s : State) :
    (setHeld h s).pending = s.pending := rfl

/-! ### setShutter -/

@[simp] theorem setShutter_config (b : Bool) (s : State) :
    (setShutter b s).config = s.config := rfl

@[simp] theorem setShutter_cash (b : Bool) (s : State) :
    (setShutter b s).cash = s.cash := rfl

@[simp] theorem setShutter_chP (b : Bool) (s : State) :
    (setShutter b s).chP = s.chP := rfl

@[simp] theorem setShutter_chQ (b : Bool) (s : State) :
    (setShutter b s).chQ = s.chQ := rfl

@[simp] theorem setShutter_cal (b : Bool) (s : State) :
    (setShutter b s).cal = s.cal := rfl

@[simp] theorem setShutter_disp (b : Bool) (s : State) :
    (setShutter b s).disp = s.disp := rfl

@[simp] theorem setShutter_dispenserJam (b : Bool) (s : State) :
    (setShutter b s).dispenserJam = s.dispenserJam := rfl

@[simp] theorem setShutter_dep (b : Bool) (s : State) :
    (setShutter b s).dep = s.dep := rfl

@[simp] theorem setShutter_throatJam (b : Bool) (s : State) :
    (setShutter b s).throatJam = s.throatJam := rfl

@[simp] theorem setShutter_capture (b : Bool) (s : State) :
    (setShutter b s).capture = s.capture := rfl

@[simp] theorem setShutter_peer (b : Bool) (s : State) :
    (setShutter b s).peer = s.peer := rfl

@[simp] theorem setShutter_alarm (b : Bool) (s : State) :
    (setShutter b s).alarm = s.alarm := rfl

@[simp] theorem setShutter_approval (b : Bool) (s : State) :
    (setShutter b s).approval = s.approval := rfl

@[simp] theorem setShutter_fault (b : Bool) (s : State) :
    (setShutter b s).fault = s.fault := rfl

@[simp] theorem setShutter_bus (b : Bool) (s : State) :
    (setShutter b s).bus = s.bus := rfl

@[simp] theorem setShutter_lane (b : Bool) (s : State) :
    (setShutter b s).lane = s.lane := rfl

@[simp] theorem setShutter_drives (b : Bool) (s : State) :
    (setShutter b s).drives = { s.drives with pocketShutter := b } := rfl

@[simp] theorem setShutter_board (b : Bool) (s : State) :
    (setShutter b s).board = s.board := rfl

@[simp] theorem setShutter_free (b : Bool) (s : State) :
    (setShutter b s).free = s.free := rfl

@[simp] theorem setShutter_pending (b : Bool) (s : State) :
    (setShutter b s).pending = s.pending := rfl

/-! ### reshutter -/

@[simp] theorem reshutter_config (s : State) :
    (reshutter s).config = s.config := rfl

@[simp] theorem reshutter_cash (s : State) :
    (reshutter s).cash = s.cash := rfl

@[simp] theorem reshutter_chP (s : State) :
    (reshutter s).chP = s.chP := rfl

@[simp] theorem reshutter_chQ (s : State) :
    (reshutter s).chQ = s.chQ := rfl

@[simp] theorem reshutter_cal (s : State) :
    (reshutter s).cal = s.cal := rfl

@[simp] theorem reshutter_disp (s : State) :
    (reshutter s).disp = s.disp := rfl

@[simp] theorem reshutter_dispenserJam (s : State) :
    (reshutter s).dispenserJam = s.dispenserJam := rfl

@[simp] theorem reshutter_dep (s : State) :
    (reshutter s).dep = s.dep := rfl

@[simp] theorem reshutter_throatJam (s : State) :
    (reshutter s).throatJam = s.throatJam := rfl

@[simp] theorem reshutter_capture (s : State) :
    (reshutter s).capture = { s.capture with shutter := shutterWanted s } := rfl

@[simp] theorem reshutter_peer (s : State) :
    (reshutter s).peer = s.peer := rfl

@[simp] theorem reshutter_alarm (s : State) :
    (reshutter s).alarm = s.alarm := rfl

@[simp] theorem reshutter_approval (s : State) :
    (reshutter s).approval = s.approval := rfl

@[simp] theorem reshutter_fault (s : State) :
    (reshutter s).fault = s.fault := rfl

@[simp] theorem reshutter_bus (s : State) :
    (reshutter s).bus = s.bus := rfl

@[simp] theorem reshutter_lane (s : State) :
    (reshutter s).lane = s.lane := rfl

@[simp] theorem reshutter_drives (s : State) :
    (reshutter s).drives = s.drives := rfl

@[simp] theorem reshutter_board (s : State) :
    (reshutter s).board = s.board := rfl

@[simp] theorem reshutter_free (s : State) :
    (reshutter s).free = s.free := rfl

@[simp] theorem reshutter_pending (s : State) :
    (reshutter s).pending = s.pending := rfl

/-! ### recordFault -/

@[simp] theorem recordFault_config (r : FaultReport) (s : State) :
    (recordFault r s).config = s.config := rfl

@[simp] theorem recordFault_cash (r : FaultReport) (s : State) :
    (recordFault r s).cash = s.cash := rfl

@[simp] theorem recordFault_chP (r : FaultReport) (s : State) :
    (recordFault r s).chP = s.chP := rfl

@[simp] theorem recordFault_chQ (r : FaultReport) (s : State) :
    (recordFault r s).chQ = s.chQ := rfl

@[simp] theorem recordFault_cal (r : FaultReport) (s : State) :
    (recordFault r s).cal = s.cal := rfl

@[simp] theorem recordFault_disp (r : FaultReport) (s : State) :
    (recordFault r s).disp = s.disp := rfl

@[simp] theorem recordFault_dispenserJam (r : FaultReport) (s : State) :
    (recordFault r s).dispenserJam = s.dispenserJam := rfl

@[simp] theorem recordFault_dep (r : FaultReport) (s : State) :
    (recordFault r s).dep = s.dep := rfl

@[simp] theorem recordFault_throatJam (r : FaultReport) (s : State) :
    (recordFault r s).throatJam = s.throatJam := rfl

@[simp] theorem recordFault_capture (r : FaultReport) (s : State) :
    (recordFault r s).capture = s.capture := rfl

@[simp] theorem recordFault_peer (r : FaultReport) (s : State) :
    (recordFault r s).peer = s.peer := rfl

@[simp] theorem recordFault_alarm (r : FaultReport) (s : State) :
    (recordFault r s).alarm = s.alarm := rfl

@[simp] theorem recordFault_approval (r : FaultReport) (s : State) :
    (recordFault r s).approval = s.approval := rfl

@[simp] theorem recordFault_fault (r : FaultReport) (s : State) :
    (recordFault r s).fault = latchFault r { s.fault with flags := s.fault.flags.set (faultKindIdx r.kind) true } := rfl

@[simp] theorem recordFault_bus (r : FaultReport) (s : State) :
    (recordFault r s).bus = s.bus := rfl

@[simp] theorem recordFault_lane (r : FaultReport) (s : State) :
    (recordFault r s).lane = s.lane := rfl

@[simp] theorem recordFault_drives (r : FaultReport) (s : State) :
    (recordFault r s).drives = s.drives := rfl

@[simp] theorem recordFault_board (r : FaultReport) (s : State) :
    (recordFault r s).board = s.board := rfl

@[simp] theorem recordFault_free (r : FaultReport) (s : State) :
    (recordFault r s).free = s.free := rfl

@[simp] theorem recordFault_pending (r : FaultReport) (s : State) :
    (recordFault r s).pending = s.pending := rfl

/-! ### raiseSoft -/

@[simp] theorem raiseSoft_config (k : FaultKind) (o : FaultOp) (p : Option FaultPlace) (n : Option Nat) (s : State) :
    (raiseSoft k o p n s).config = s.config := rfl

@[simp] theorem raiseSoft_cash (k : FaultKind) (o : FaultOp) (p : Option FaultPlace) (n : Option Nat) (s : State) :
    (raiseSoft k o p n s).cash = s.cash := rfl

@[simp] theorem raiseSoft_chP (k : FaultKind) (o : FaultOp) (p : Option FaultPlace) (n : Option Nat) (s : State) :
    (raiseSoft k o p n s).chP = s.chP := rfl

@[simp] theorem raiseSoft_chQ (k : FaultKind) (o : FaultOp) (p : Option FaultPlace) (n : Option Nat) (s : State) :
    (raiseSoft k o p n s).chQ = s.chQ := rfl

@[simp] theorem raiseSoft_cal (k : FaultKind) (o : FaultOp) (p : Option FaultPlace) (n : Option Nat) (s : State) :
    (raiseSoft k o p n s).cal = s.cal := rfl

@[simp] theorem raiseSoft_disp (k : FaultKind) (o : FaultOp) (p : Option FaultPlace) (n : Option Nat) (s : State) :
    (raiseSoft k o p n s).disp = s.disp := rfl

@[simp] theorem raiseSoft_dispenserJam (k : FaultKind) (o : FaultOp) (p : Option FaultPlace) (n : Option Nat) (s : State) :
    (raiseSoft k o p n s).dispenserJam = s.dispenserJam := rfl

@[simp] theorem raiseSoft_dep (k : FaultKind) (o : FaultOp) (p : Option FaultPlace) (n : Option Nat) (s : State) :
    (raiseSoft k o p n s).dep = s.dep := rfl

@[simp] theorem raiseSoft_throatJam (k : FaultKind) (o : FaultOp) (p : Option FaultPlace) (n : Option Nat) (s : State) :
    (raiseSoft k o p n s).throatJam = s.throatJam := rfl

@[simp] theorem raiseSoft_capture (k : FaultKind) (o : FaultOp) (p : Option FaultPlace) (n : Option Nat) (s : State) :
    (raiseSoft k o p n s).capture = s.capture := rfl

@[simp] theorem raiseSoft_peer (k : FaultKind) (o : FaultOp) (p : Option FaultPlace) (n : Option Nat) (s : State) :
    (raiseSoft k o p n s).peer = s.peer := rfl

@[simp] theorem raiseSoft_alarm (k : FaultKind) (o : FaultOp) (p : Option FaultPlace) (n : Option Nat) (s : State) :
    (raiseSoft k o p n s).alarm = s.alarm := rfl

@[simp] theorem raiseSoft_approval (k : FaultKind) (o : FaultOp) (p : Option FaultPlace) (n : Option Nat) (s : State) :
    (raiseSoft k o p n s).approval = s.approval := rfl

@[simp] theorem raiseSoft_fault (k : FaultKind) (o : FaultOp) (p : Option FaultPlace) (n : Option Nat) (s : State) :
    (raiseSoft k o p n s).fault = (recordFault (faultReport k o p n s) s).fault := rfl

@[simp] theorem raiseSoft_bus (k : FaultKind) (o : FaultOp) (p : Option FaultPlace) (n : Option Nat) (s : State) :
    (raiseSoft k o p n s).bus = s.bus := rfl

@[simp] theorem raiseSoft_lane (k : FaultKind) (o : FaultOp) (p : Option FaultPlace) (n : Option Nat) (s : State) :
    (raiseSoft k o p n s).lane = s.lane := rfl

@[simp] theorem raiseSoft_drives (k : FaultKind) (o : FaultOp) (p : Option FaultPlace) (n : Option Nat) (s : State) :
    (raiseSoft k o p n s).drives = s.drives := rfl

@[simp] theorem raiseSoft_board (k : FaultKind) (o : FaultOp) (p : Option FaultPlace) (n : Option Nat) (s : State) :
    (raiseSoft k o p n s).board = s.board := rfl

@[simp] theorem raiseSoft_free (k : FaultKind) (o : FaultOp) (p : Option FaultPlace) (n : Option Nat) (s : State) :
    (raiseSoft k o p n s).free = s.free := rfl

@[simp] theorem raiseSoft_pending (k : FaultKind) (o : FaultOp) (p : Option FaultPlace) (n : Option Nat) (s : State) :
    (raiseSoft k o p n s).pending = s.pending := rfl

/-! ### stopPickTransport -/

@[simp] theorem stopPickTransport_config (s : State) :
    (stopPickTransport s).config = s.config := rfl

@[simp] theorem stopPickTransport_cash (s : State) :
    (stopPickTransport s).cash = s.cash := rfl

@[simp] theorem stopPickTransport_chP (s : State) :
    (stopPickTransport s).chP = s.chP := rfl

@[simp] theorem stopPickTransport_chQ (s : State) :
    (stopPickTransport s).chQ = s.chQ := rfl

@[simp] theorem stopPickTransport_cal (s : State) :
    (stopPickTransport s).cal = s.cal := rfl

@[simp] theorem stopPickTransport_disp (s : State) :
    (stopPickTransport s).disp = s.disp := rfl

@[simp] theorem stopPickTransport_dispenserJam (s : State) :
    (stopPickTransport s).dispenserJam = s.dispenserJam := rfl

@[simp] theorem stopPickTransport_dep (s : State) :
    (stopPickTransport s).dep = s.dep := rfl

@[simp] theorem stopPickTransport_throatJam (s : State) :
    (stopPickTransport s).throatJam = s.throatJam := rfl

@[simp] theorem stopPickTransport_capture (s : State) :
    (stopPickTransport s).capture = s.capture := rfl

@[simp] theorem stopPickTransport_peer (s : State) :
    (stopPickTransport s).peer = s.peer := rfl

@[simp] theorem stopPickTransport_alarm (s : State) :
    (stopPickTransport s).alarm = s.alarm := rfl

@[simp] theorem stopPickTransport_approval (s : State) :
    (stopPickTransport s).approval = s.approval := rfl

@[simp] theorem stopPickTransport_fault (s : State) :
    (stopPickTransport s).fault = s.fault := rfl

@[simp] theorem stopPickTransport_bus (s : State) :
    (stopPickTransport s).bus = s.bus := rfl

@[simp] theorem stopPickTransport_lane (s : State) :
    (stopPickTransport s).lane = s.lane := rfl

@[simp] theorem stopPickTransport_drives (s : State) :
    (stopPickTransport s).drives = { s.drives with pickTransport := false, pickGate := none } := rfl

@[simp] theorem stopPickTransport_board (s : State) :
    (stopPickTransport s).board = s.board := rfl

@[simp] theorem stopPickTransport_free (s : State) :
    (stopPickTransport s).free = s.free := rfl

@[simp] theorem stopPickTransport_pending (s : State) :
    (stopPickTransport s).pending = s.pending := rfl

/-! ### shutThroat -/

@[simp] theorem shutThroat_config (s : State) :
    (shutThroat s).config = s.config := rfl

@[simp] theorem shutThroat_cash (s : State) :
    (shutThroat s).cash = s.cash := rfl

@[simp] theorem shutThroat_chP (s : State) :
    (shutThroat s).chP = s.chP := rfl

@[simp] theorem shutThroat_chQ (s : State) :
    (shutThroat s).chQ = s.chQ := rfl

@[simp] theorem shutThroat_cal (s : State) :
    (shutThroat s).cal = s.cal := rfl

@[simp] theorem shutThroat_disp (s : State) :
    (shutThroat s).disp = s.disp := rfl

@[simp] theorem shutThroat_dispenserJam (s : State) :
    (shutThroat s).dispenserJam = s.dispenserJam := rfl

@[simp] theorem shutThroat_dep (s : State) :
    (shutThroat s).dep = s.dep := rfl

@[simp] theorem shutThroat_throatJam (s : State) :
    (shutThroat s).throatJam = s.throatJam := rfl

@[simp] theorem shutThroat_capture (s : State) :
    (shutThroat s).capture = s.capture := rfl

@[simp] theorem shutThroat_peer (s : State) :
    (shutThroat s).peer = s.peer := rfl

@[simp] theorem shutThroat_alarm (s : State) :
    (shutThroat s).alarm = s.alarm := rfl

@[simp] theorem shutThroat_approval (s : State) :
    (shutThroat s).approval = s.approval := rfl

@[simp] theorem shutThroat_fault (s : State) :
    (shutThroat s).fault = s.fault := rfl

@[simp] theorem shutThroat_bus (s : State) :
    (shutThroat s).bus = s.bus := rfl

@[simp] theorem shutThroat_lane (s : State) :
    (shutThroat s).lane = s.lane := rfl

@[simp] theorem shutThroat_drives (s : State) :
    (shutThroat s).drives = { s.drives with throatGate := false, throatTransport := false } := rfl

@[simp] theorem shutThroat_board (s : State) :
    (shutThroat s).board = s.board := rfl

@[simp] theorem shutThroat_free (s : State) :
    (shutThroat s).free = s.free := rfl

@[simp] theorem shutThroat_pending (s : State) :
    (shutThroat s).pending = s.pending := rfl

/-! ### shutGate -/

@[simp] theorem shutGate_config (s : State) :
    (shutGate s).config = s.config := rfl

@[simp] theorem shutGate_cash (s : State) :
    (shutGate s).cash = s.cash := rfl

@[simp] theorem shutGate_chP (s : State) :
    (shutGate s).chP = s.chP := rfl

@[simp] theorem shutGate_chQ (s : State) :
    (shutGate s).chQ = s.chQ := rfl

@[simp] theorem shutGate_cal (s : State) :
    (shutGate s).cal = s.cal := rfl

@[simp] theorem shutGate_disp (s : State) :
    (shutGate s).disp = s.disp := rfl

@[simp] theorem shutGate_dispenserJam (s : State) :
    (shutGate s).dispenserJam = s.dispenserJam := rfl

@[simp] theorem shutGate_dep (s : State) :
    (shutGate s).dep = s.dep := rfl

@[simp] theorem shutGate_throatJam (s : State) :
    (shutGate s).throatJam = s.throatJam := rfl

@[simp] theorem shutGate_capture (s : State) :
    (shutGate s).capture = s.capture := rfl

@[simp] theorem shutGate_peer (s : State) :
    (shutGate s).peer = s.peer := rfl

@[simp] theorem shutGate_alarm (s : State) :
    (shutGate s).alarm = s.alarm := rfl

@[simp] theorem shutGate_approval (s : State) :
    (shutGate s).approval = s.approval := rfl

@[simp] theorem shutGate_fault (s : State) :
    (shutGate s).fault = s.fault := rfl

@[simp] theorem shutGate_bus (s : State) :
    (shutGate s).bus = s.bus := rfl

@[simp] theorem shutGate_lane (s : State) :
    (shutGate s).lane = s.lane := rfl

@[simp] theorem shutGate_drives (s : State) :
    (shutGate s).drives = { s.drives with throatGate := false } := rfl

@[simp] theorem shutGate_board (s : State) :
    (shutGate s).board = s.board := rfl

@[simp] theorem shutGate_free (s : State) :
    (shutGate s).free = s.free := rfl

@[simp] theorem shutGate_pending (s : State) :
    (shutGate s).pending = s.pending := rfl

/-! ### setPresence -/

@[simp] theorem setPresence_config (i : Nat) (b : Bool) (s : State) :
    (setPresence i b s).config = s.config := rfl

@[simp] theorem setPresence_cash (i : Nat) (b : Bool) (s : State) :
    (setPresence i b s).cash = s.cash := rfl

@[simp] theorem setPresence_chP (i : Nat) (b : Bool) (s : State) :
    (setPresence i b s).chP = s.chP := rfl

@[simp] theorem setPresence_chQ (i : Nat) (b : Bool) (s : State) :
    (setPresence i b s).chQ = s.chQ := rfl

@[simp] theorem setPresence_cal (i : Nat) (b : Bool) (s : State) :
    (setPresence i b s).cal = s.cal := rfl

@[simp] theorem setPresence_disp (i : Nat) (b : Bool) (s : State) :
    (setPresence i b s).disp = s.disp := rfl

@[simp] theorem setPresence_dispenserJam (i : Nat) (b : Bool) (s : State) :
    (setPresence i b s).dispenserJam = s.dispenserJam := rfl

@[simp] theorem setPresence_dep (i : Nat) (b : Bool) (s : State) :
    (setPresence i b s).dep = s.dep := rfl

@[simp] theorem setPresence_throatJam (i : Nat) (b : Bool) (s : State) :
    (setPresence i b s).throatJam = s.throatJam := rfl

@[simp] theorem setPresence_capture (i : Nat) (b : Bool) (s : State) :
    (setPresence i b s).capture = s.capture := rfl

@[simp] theorem setPresence_peer (i : Nat) (b : Bool) (s : State) :
    (setPresence i b s).peer = s.peer := rfl

@[simp] theorem setPresence_alarm (i : Nat) (b : Bool) (s : State) :
    (setPresence i b s).alarm = s.alarm := rfl

@[simp] theorem setPresence_approval (i : Nat) (b : Bool) (s : State) :
    (setPresence i b s).approval = s.approval := rfl

@[simp] theorem setPresence_fault (i : Nat) (b : Bool) (s : State) :
    (setPresence i b s).fault = s.fault := rfl

@[simp] theorem setPresence_bus (i : Nat) (b : Bool) (s : State) :
    (setPresence i b s).bus = s.bus := rfl

@[simp] theorem setPresence_lane (i : Nat) (b : Bool) (s : State) :
    (setPresence i b s).lane = s.lane := rfl

@[simp] theorem setPresence_drives (i : Nat) (b : Bool) (s : State) :
    (setPresence i b s).drives = s.drives := rfl

@[simp] theorem setPresence_board (i : Nat) (b : Bool) (s : State) :
    (setPresence i b s).board = { s.board with presence := s.board.presence.set i b } := rfl

@[simp] theorem setPresence_free (i : Nat) (b : Bool) (s : State) :
    (setPresence i b s).free = s.free := rfl

@[simp] theorem setPresence_pending (i : Nat) (b : Bool) (s : State) :
    (setPresence i b s).pending = s.pending := rfl

/-! ### modChan -/

@[simp] theorem modChan_config (ch : ChannelId) (f : Channel → Channel) (s : State) :
    (modChan ch f s).config = s.config := by cases ch <;> rfl

@[simp] theorem modChan_cash (ch : ChannelId) (f : Channel → Channel) (s : State) :
    (modChan ch f s).cash = s.cash := by cases ch <;> rfl

@[simp] theorem modChan_p_chP (f : Channel → Channel) (s : State) :
    (modChan .p f s).chP = f s.chP := rfl

@[simp] theorem modChan_q_chP (f : Channel → Channel) (s : State) :
    (modChan .q f s).chP = s.chP := rfl

@[simp] theorem modChan_q_chQ (f : Channel → Channel) (s : State) :
    (modChan .q f s).chQ = f s.chQ := rfl

@[simp] theorem modChan_p_chQ (f : Channel → Channel) (s : State) :
    (modChan .p f s).chQ = s.chQ := rfl

@[simp] theorem modChan_cal (ch : ChannelId) (f : Channel → Channel) (s : State) :
    (modChan ch f s).cal = s.cal := by cases ch <;> rfl

@[simp] theorem modChan_disp (ch : ChannelId) (f : Channel → Channel) (s : State) :
    (modChan ch f s).disp = s.disp := by cases ch <;> rfl

@[simp] theorem modChan_dispenserJam (ch : ChannelId) (f : Channel → Channel) (s : State) :
    (modChan ch f s).dispenserJam = s.dispenserJam := by cases ch <;> rfl

@[simp] theorem modChan_dep (ch : ChannelId) (f : Channel → Channel) (s : State) :
    (modChan ch f s).dep = s.dep := by cases ch <;> rfl

@[simp] theorem modChan_throatJam (ch : ChannelId) (f : Channel → Channel) (s : State) :
    (modChan ch f s).throatJam = s.throatJam := by cases ch <;> rfl

@[simp] theorem modChan_capture (ch : ChannelId) (f : Channel → Channel) (s : State) :
    (modChan ch f s).capture = s.capture := by cases ch <;> rfl

@[simp] theorem modChan_peer (ch : ChannelId) (f : Channel → Channel) (s : State) :
    (modChan ch f s).peer = s.peer := by cases ch <;> rfl

@[simp] theorem modChan_alarm (ch : ChannelId) (f : Channel → Channel) (s : State) :
    (modChan ch f s).alarm = s.alarm := by cases ch <;> rfl

@[simp] theorem modChan_approval (ch : ChannelId) (f : Channel → Channel) (s : State) :
    (modChan ch f s).approval = s.approval := by cases ch <;> rfl

@[simp] theorem modChan_fault (ch : ChannelId) (f : Channel → Channel) (s : State) :
    (modChan ch f s).fault = s.fault := by cases ch <;> rfl

@[simp] theorem modChan_bus (ch : ChannelId) (f : Channel → Channel) (s : State) :
    (modChan ch f s).bus = s.bus := by cases ch <;> rfl

@[simp] theorem modChan_lane (ch : ChannelId) (f : Channel → Channel) (s : State) :
    (modChan ch f s).lane = s.lane := by cases ch <;> rfl

@[simp] theorem modChan_drives (ch : ChannelId) (f : Channel → Channel) (s : State) :
    (modChan ch f s).drives = s.drives := by cases ch <;> rfl

@[simp] theorem modChan_board (ch : ChannelId) (f : Channel → Channel) (s : State) :
    (modChan ch f s).board = s.board := by cases ch <;> rfl

@[simp] theorem modChan_free (ch : ChannelId) (f : Channel → Channel) (s : State) :
    (modChan ch f s).free = s.free := by cases ch <;> rfl

@[simp] theorem modChan_pending (ch : ChannelId) (f : Channel → Channel) (s : State) :
    (modChan ch f s).pending = s.pending := by cases ch <;> rfl

end Sys2Proof.Machine
end

