-- ==== Sys2Proof/Laws/Ops.lean ====
section
/-! SUPPORT. One lemma for each shared operation, which says what it does where the transmit queue has room: the claims'
own words (`Safety.lean`) for it. Proofs cite these and do not unfold the operation. -/

namespace Sys2Proof.Machine

/-! ### The end of a step -/

theorem finish_of_not_due {s : State} (h : s.lane.resetDue = false) : finish s = s := by simp [finish, h]

theorem finish_of_fits {t : State} (h : Fits t) : finish t = t := finish_of_not_due h.2

/-! ### The transmit queue -/

theorem enqueue_room {e : TxEntry} {s : State} (h : s.bus.queue.length < 16) : enqueue e s = queued [e] s := by
  simp [enqueue, h, queued, modBus]

@[simp] theorem queued_queue (l : List TxEntry) (s : State) : (queued l s).bus.queue = s.bus.queue ++ l := rfl

@[simp] theorem queued_queued (l m : List TxEntry) (s : State) : queued m (queued l s) = queued (l ++ m) s := by
  simp [queued]

@[simp] theorem queued_nil (s : State) : queued [] s = s := by simp [queued]

theorem reportEntries_length (cls : FrameClass) (kind : FrameKind) (dst : Nat) (red : Bool) (owner : Owner) (no : Nat)
    (content : List Byte) :
    (reportEntries cls kind dst red owner no content).length = (reportPayloads content).length := by
  simp [reportEntries]

/-- A series of frames is queued one after the other. -/
theorem foldl_enqueue_room (f : Bool × List Byte → TxEntry) (l : List (Bool × List Byte)) (s : State)
    (h : s.bus.queue.length + l.length ≤ 16) :
    l.foldl (fun t p => enqueue (f p) t) s = queued (l.map f) s := by
  induction l generalizing s with
  | nil => simp
  | cons p l ih =>
    have h' : s.bus.queue.length + (l.length + 1) ≤ 16 := by simpa using h
    have hq : (queued [f p] s).bus.queue.length + l.length ≤ 16 := by
      simp only [queued_queue, List.length_append, List.length_singleton]; omega
    rw [List.foldl_cons, enqueue_room (by omega), ih _ hq]
    simp

theorem report_room {cls : FrameClass} {kind : FrameKind} {dst : Nat} {red : Bool} {owner : Owner}
    {content : List Byte} {s : State} (h : s.bus.queue.length + (reportPayloads content).length ≤ 16) :
    report cls kind dst red owner content s = reported cls kind dst red owner content s := by
  exact foldl_enqueue_room
    (fun p => { frame := plainFrame cls dst p.1 red kind s.bus.reportNo p.2, owner := owner }) _
    (modBus (fun b => { b with reportNo := (b.reportNo + 1) % 256 }) s) h

theorem reported_queue_length (cls : FrameClass) (kind : FrameKind) (dst : Nat) (red : Bool) (owner : Owner)
    (content : List Byte) (s : State) :
    (reported cls kind dst red owner content s).bus.queue.length =
      s.bus.queue.length + (reportPayloads content).length := by
  simp [reported, reportEntries]

/-- A report has its place where the queue with it does not pass 16 frames. -/
theorem report_fits {cls : FrameClass} {kind : FrameKind} {dst : Nat} {red : Bool} {owner : Owner}
    {content : List Byte} {s : State}
    (h : (reported cls kind dst red owner content s).bus.queue.length ≤ 16) :
    report cls kind dst red owner content s = reported cls kind dst red owner content s :=
  report_room (by rw [← reported_queue_length cls kind dst red owner content s]; exact h)

theorem noticeAll_fits {k : NoticeKind} {content : List Byte} {s : State}
    (h : (toldAll k content s).bus.queue.length ≤ 16) : noticeAll k content s = toldAll k content s :=
  report_fits h

theorem noticeBound_fits {k : NoticeKind} {content : List Byte} {s : State}
    (h : (toldBound k content s).bus.queue.length ≤ 16) : noticeBound k content s = toldBound k content s :=
  report_fits h

theorem toldAll_queue_length (k : NoticeKind) (content : List Byte) (s : State) :
    (toldAll k content s).bus.queue.length = s.bus.queue.length + (reportPayloads content).length :=
  reported_queue_length ..

theorem toldBound_queue_length (k : NoticeKind) (content : List Byte) (s : State) :
    (toldBound k content s).bus.queue.length = s.bus.queue.length + (reportPayloads content).length :=
  reported_queue_length ..

theorem raiseHard_fits {k : FaultKind} {o : FaultOp} {p : Option FaultPlace} {n : Option Nat} {s : State}
    (h : (faulted k o p n s).bus.queue.length ≤ 16) : raiseHard k o p n s = faulted k o p n s :=
  noticeAll_fits h

theorem askPosition_fits {s : State} (hs : s.lane.state ≠ .starting)
    (h : (positioned s).bus.queue.length ≤ 16) : askPosition s = positioned s := by
  unfold askPosition positioned at *
  by_cases hp : positionPending s.bus.queue = true
  · simp [hs, hp, modPeer]
  · have hl : s.bus.queue.length < 16 := by simp [hp] at h; omega
    simp [hs, hp, modPeer, enqueue, hl, modBus]

theorem setLaneState_fits {st : LaneState} {s : State} (hs : st ≠ .starting)
    (h : (laneEntered st s).bus.queue.length ≤ 16) : setLaneState st s = laneEntered st s :=
  askPosition_fits (by simpa using hs) h

/-! ### Replies -/

theorem sendReply_fits {h : Header} {k : CmdKind} {p : List Byte} {s : State} (hk : k ≠ .query)
    (hf : (replied h k p s).bus.queue.length ≤ 16) :
    sendReply h k (replyFrame h k false p) s = replied h k p s := by
  have hl : s.bus.queue.length < 16 := by simp [replied] at hf; omega
  simp [sendReply, hk, enqueue, hl, modBus, replied]

theorem replyAccepted_fits {h : Header} {k : CmdKind} {p : List Byte} {s : State} (hk : k ≠ .query)
    (hf : (acceptedReply h k p s).bus.queue.length ≤ 16) : replyAccepted h k p s = acceptedReply h k p s :=
  sendReply_fits hk hf

theorem replyDone_fits {h : Header} {k : CmdKind} {p : List Byte} {s : State} (hk : k ≠ .query)
    (hf : (doneReply h k p s).bus.queue.length ≤ 16) : replyDone h k p s = doneReply h k p s :=
  sendReply_fits hk hf

theorem refuse_fits {h : Header} {k : CmdKind} {r : Reason} {s : State} (hk : k ≠ .query)
    (hf : (refusedReply h k r s).bus.queue.length ≤ 16) : refuse h k r s = refusedReply h k r s :=
  sendReply_fits hk hf

/-- A COMMAND that comes is judged on what the peer view leaves (R179 to R181, R186). -/
theorem takeCommand_comes {h : Header} {k : CmdKind} {inFault : Bool} {check : State → Option Reason}
    {effect : State → State} {s : State} (hc : Comes h s) :
    takeCommand h k inFault check effect s =
      if (heard h s).lane.state == .configFault && !inFault then refuse h k .configFault (heard h s)
      else judge h k check effect (heard h s) := by
  obtain ⟨h1, h2, h3, h4, h5, d1, d2, d3, d4⟩ := hc
  have hd : settleDue s = s := by simp [settleDue, d1, d2, d3, d4]
  have h6 : ¬ 31 ≤ h.src := by omega
  simp [takeCommand, h1, h2, h4, h6, hd, judgeCommand, repeatedReply, h5, heard]

/-- A RETRY whose REPLY is remembered gets it again, and its command is not taken again (R180, R181). -/
theorem takeCommand_repeated {h : Header} {k : CmdKind} {inFault : Bool} {check : State → Option Reason}
    {effect : State → State} {s : State} {e : ReplyEntry} (hc : Comes { h with retry := false } s) (hr : h.retry = true)
    (hk : k ≠ .query)
    (he : (heard h s).bus.memory.find? (fun e => e.src == h.src && e.tag == h.tag && e.kind == k) = some e) :
    takeCommand h k inFault check effect s = resend e (heard h s) := by
  obtain ⟨h1, h2, h3, h4, -, d1, d2, d3, d4⟩ := hc
  have hd : settleDue s = s := by simp [settleDue, d1, d2, d3, d4]
  have h6 : ¬ 31 ≤ h.src := Nat.not_le.mpr (Nat.lt_succ_of_le h3)
  have he' : (applyFrame h.src .console false id s).bus.memory.find?
      (fun e => e.src == h.src && e.tag == h.tag && e.kind == k) = some e := he
  simp_all [takeCommand, judgeCommand, repeatedReply, heard]

/-- An answer to a lane strapped 31 is not judged (R160). -/
theorem takeAnswer_toAll {src slot ask verdict kind amount : Nat} {s : State} (h : s.lane.station = 31) :
    takeAnswer src slot ask verdict kind amount s = applyFrame src .console false id s := by simp [takeAnswer, h]

/-- Any other is judged on what the peer view leaves (R160). -/
theorem takeAnswer_addressed {src slot ask verdict kind amount : Nat} {s : State} (h : s.lane.station ≠ 31) :
    takeAnswer src slot ask verdict kind amount s =
      judgeAnswer src slot ask verdict kind amount (applyFrame src .console false id s) := by simp [takeAnswer, h]

/-- The escrow stacking of a recovery is under way with its transport running, or is not with it stopped (R187). -/
theorem runRecoveryStacking_eq (runs : Bool) (s : State) :
    runRecoveryStacking runs s =
      { s with
          lane := { s.lane with recovery := { s.lane.recovery with escrow := if runs then .running else .none } },
          drives := { s.drives with throatTransport := runs } } := rfl

/-! ### Reservations and endings -/

theorem retestIntent_none {s : State} (h : s.peer.request = none) : retestIntent s = s := by
  simp [retestIntent, h]

theorem positioned_request (s : State) : (positioned s).peer.request = s.peer.request := rfl

theorem releaseDispense_fits {s : State} (hs : s.lane.state ≠ .starting) (hr : s.peer.request = none)
    (h : (released .dispense s).bus.queue.length ≤ 16) : releaseDispense s = released .dispense s := by
  by_cases h0 : s.peer.held.dispense = 0
  · simp [releaseDispense, released, h0, reservationOf]
  · simp only [released, h0, if_false, reservationOf] at h ⊢
    have e := askPosition_fits (s := setHeld (withoutReservation .dispense s.peer.held) s) hs h
    simp only [releaseDispense, beq_iff_eq, h0, if_false, heldFell]
    rw [show ({ s.peer.held with h := s.peer.held.h - s.peer.held.dispense, dispense := 0 } : HeldCash) =
      withoutReservation .dispense s.peer.held from rfl, e]
    exact retestIntent_none hr

theorem releaseDeposit_fits {s : State} (hs : s.lane.state ≠ .starting) (hr : s.peer.request = none)
    (h : (released .deposit s).bus.queue.length ≤ 16) : releaseDeposit s = released .deposit s := by
  by_cases h0 : s.peer.held.deposit = 0
  · simp [releaseDeposit, released, h0, reservationOf]
  · simp only [released, h0, if_false, reservationOf] at h ⊢
    have e := askPosition_fits (s := setHeld (withoutReservation .deposit s.peer.held) s) hs h
    simp only [releaseDeposit, beq_iff_eq, h0, if_false, heldFell]
    rw [show ({ s.peer.held with h := s.peer.held.h - s.peer.held.deposit, deposit := 0 } : HeldCash) =
      withoutReservation .deposit s.peer.held from rfl, e]
    exact retestIntent_none hr

theorem released_approval (k : IntentKind) (s : State) : (released k s).approval = s.approval := by
  unfold released; dsimp only; split <;> rfl

theorem released_lane (k : IntentKind) (s : State) : (released k s).lane = s.lane := by
  unfold released; dsimp only; split <;> rfl

theorem released_disp (k : IntentKind) (s : State) : (released k s).disp = s.disp := by
  unfold released; dsimp only; split <;> rfl

theorem released_dep (k : IntentKind) (s : State) : (released k s).dep = s.dep := by
  unfold released; dsimp only; split <;> rfl

theorem afterTransaction_not_pending {s : State} (h : s.approval.unbindPending = false) : afterTransaction s = s := by
  simp [afterTransaction, h]

/-- A transaction has ended with the unbind pending mark set (R156): another that is still open keeps the binding, and
else the stale console is unbound. -/
theorem afterTransaction_pending {s : State} {b : Nat} (hu : s.approval.unbindPending = true)
    (hb : s.approval.bound = some b)
    (h : (toldAll .unbound (be 1 b ++ be 1 1)
      { s with approval := { s.approval with bound := none, bindTime := none, unbindPending := false } }).bus.queue.length
        ≤ 16) :
    afterTransaction s =
      if txnOpen s then s
      else toldAll .unbound (be 1 b ++ be 1 1)
        { s with approval := { s.approval with bound := none, bindTime := none, unbindPending := false } } := by
  cases ht : txnOpen s
  · simp only [afterTransaction, unbindStale, modApproval, hu, hb, ht]
    exact noticeAll_fits h
  · simp [afterTransaction, ht]

theorem endDispense_fits {o : DispOutcome} {s : State} (hq : QuietEnd s)
    (h : (dispenseEnded o s).bus.queue.length ≤ 16) : endDispense o s = dispenseEnded o s := by
  obtain ⟨hu, hr, hs⟩ := hq
  have hl : (toldBound .completion (dispCompletion { s.disp with outcome := some o })
      (released .dispense { s with disp := { s.disp with outcome := some o } })).bus.queue.length ≤ 16 := h
  have hl2 : (released .dispense { s with disp := { s.disp with outcome := some o } }).bus.queue.length ≤ 16 := by
    rw [toldBound_queue_length] at hl; omega
  have e1 : releaseDispense (modDisp (fun d => { d with outcome := some o }) s) =
      released .dispense { s with disp := { s.disp with outcome := some o } } :=
    releaseDispense_fits (s := { s with disp := { s.disp with outcome := some o } }) hs hr hl2
  simp only [endDispense, e1, notifyDispense, released_disp]
  rw [noticeBound_fits hl, afterTransaction_not_pending]
  · rfl
  · simpa [toldBound, reported, released_approval] using hu

theorem endDeposit_fits {o : DepOutcome} {s : State} (hq : QuietEnd s)
    (h : (depositEnded o s).bus.queue.length ≤ 16) : endDeposit o s = depositEnded o s := by
  obtain ⟨hu, hr, hs⟩ := hq
  have hl : (toldBound .completion (depCompletion s.peer.held.deposit { s.dep with outcome := some o })
      (released .deposit { s with dep := { s.dep with outcome := some o } })).bus.queue.length ≤ 16 := h
  have hl2 : (released .deposit { s with dep := { s.dep with outcome := some o } }).bus.queue.length ≤ 16 := by
    rw [toldBound_queue_length] at hl; omega
  have e1 : releaseDeposit (modDep (fun d => { d with outcome := some o }) s) =
      released .deposit { s with dep := { s.dep with outcome := some o } } :=
    releaseDeposit_fits (s := { s with dep := { s.dep with outcome := some o } }) hs hr hl2
  simp only [endDeposit, e1, released_dep]
  rw [noticeBound_fits hl, afterTransaction_not_pending]
  · rfl
  · simpa [toldBound, reported, released_approval] using hu

theorem endCal_fits {o : CalOutcome} {s : State} (hu : s.approval.unbindPending = false)
    (h : (calEnded o s).bus.queue.length ≤ 16) : endCal o s = calEnded o s := by
  have hl : (toldBound .completion
      (calCompletion { s.cal with outcome := some o, gainAfter := (chanAt s s.cal.channel).gain })
      { s with cal := { s.cal with outcome := some o, gainAfter := (chanAt s s.cal.channel).gain } }).bus.queue.length
        ≤ 16 := h
  simp only [endCal]
  have e1 := noticeBound_fits hl
  simp only [modCal] at *
  rw [e1, afterTransaction_not_pending]
  · rfl
  · simpa [toldBound, reported] using hu

/-! ### Approval slots -/

theorem takeSlot_fits {i : Nat} {k : OpKind} {a r : Nat} {x : List Byte} {s : State}
    (h : (slotTaken i k a r x s).bus.queue.length ≤ 16) : takeSlot i k a r x s = slotTaken i k a r x s := by
  have hl : s.bus.queue.length < 16 := by simp [slotTaken, queued] at h; omega
  simp only [takeSlot, slotTaken, slotTag]
  rw [enqueue_room (by simpa using hl)]
  rfl

/-- The owner `settleSlot` gives its notice. -/
theorem closingOwner_eq (k : Option OpKind) (how : Settling) :
    (match k, how with
      | some .resetLane, .given _ => Owner.resetNotice
      | _, _ => Owner.nobody) = closingOwner k how := by
  cases how <;> (try cases k with | none => rfl | some k => cases k <;> rfl)

/-- A WAITING slot is settled by an answer or by its timer. -/
theorem settleSlot_fits {i : Nat} {how : Settling} {s : State}
    (hk : (s.approval.slots.getD i {}).kind.isSome) (hw : how ≠ .withdrawn)
    (h : (slotClosed i how s).bus.queue.length ≤ 16) : settleSlot i how s = slotClosed i how s := by
  have hw' : (how == Settling.withdrawn) = false := by simpa using hw
  have e := report_fits h
  simp only [settleSlot, hk, if_true, hw', slotTag]
  exact e

/-- A WAITING slot is withdrawn by its owner. -/
theorem settleSlot_withdrawn_fits {i : Nat} {s : State} (hk : (s.approval.slots.getD i {}).kind.isSome)
    (h : (slotClosed i .withdrawn s).bus.queue.length ≤ 16) : settleSlot i .withdrawn s = slotWithdrawn i s := by
  have e := report_fits h
  have e2 : settleSlot i .withdrawn s =
      modBus
        (fun b =>
          { b with
              queue := b.queue.filter fun e => !isPendingAsk i (slotTag i (s.approval.slots.getD i {}).ask) e })
        (slotClosed i .withdrawn s) := by
    rw [show slotClosed i .withdrawn s = _ from e.symm]
    simp only [settleSlot, hk, if_true, beq_self_eq_true, slotTag]
    rfl
  rw [e2]
  rfl

/-! ### The current pair of a plan -/

/-- Moving to the next pair writes the current pair and nothing else. -/
theorem toNextPair_eq (d : Dispense) : toNextPair d = { d with pair := (toNextPair d).pair } := rfl

theorem toNextPair_of_left {d : Dispense} {i : Nat} (h : nextPair d = some i) :
    toNextPair d = { d with pair := i } := by simp [toNextPair, h]

theorem toNextPair_of_picked {d : Dispense} (h : nextPair d = none) : toNextPair d = d := by simp [toNextPair, h]

end Sys2Proof.Machine
end

