-- ==== Sys2Proof/Laws/Bus.lean ====
section
/-! SUPPORT. What queueing a frame, asking for a POSITION, testing a held-back request and applying a peer's frame can
change, however full the transmit queue is: the bus unit, the fault unit, the peer view and the mark of a commanded
reset, and nothing else. -/

namespace Sys2Proof.Machine

/-- `t` differs from `s` in the bus unit, the fault unit, the request, orphan mark and period of the peer view, and the
mark of a commanded reset, at most. -/
def BusOnly (s t : State) : Prop :=
  t = { s with
          bus := t.bus, fault := t.fault,
          peer := { s.peer with request := t.peer.request, orphan := t.peer.orphan, periodMs := t.peer.periodMs },
          lane := { s.lane with resetDue := t.lane.resetDue } }

theorem BusOnly.refl (s : State) : BusOnly s s := rfl

theorem BusOnly.trans {s t u : State} (h1 : BusOnly s t) (h2 : BusOnly t u) : BusOnly s u := by
  unfold BusOnly at *
  rw [h1] at h2
  exact h2

theorem BusOnly.config {s t : State} (h : BusOnly s t) : t.config = s.config := by rw [h]
theorem BusOnly.cash {s t : State} (h : BusOnly s t) : t.cash = s.cash := by rw [h]
theorem BusOnly.chP {s t : State} (h : BusOnly s t) : t.chP = s.chP := by rw [h]
theorem BusOnly.chQ {s t : State} (h : BusOnly s t) : t.chQ = s.chQ := by rw [h]
theorem BusOnly.cal {s t : State} (h : BusOnly s t) : t.cal = s.cal := by rw [h]
theorem BusOnly.disp {s t : State} (h : BusOnly s t) : t.disp = s.disp := by rw [h]
theorem BusOnly.dispenserJam {s t : State} (h : BusOnly s t) : t.dispenserJam = s.dispenserJam := by rw [h]
theorem BusOnly.dep {s t : State} (h : BusOnly s t) : t.dep = s.dep := by rw [h]
theorem BusOnly.throatJam {s t : State} (h : BusOnly s t) : t.throatJam = s.throatJam := by rw [h]
theorem BusOnly.capture {s t : State} (h : BusOnly s t) : t.capture = s.capture := by rw [h]
theorem BusOnly.alarm {s t : State} (h : BusOnly s t) : t.alarm = s.alarm := by rw [h]
theorem BusOnly.approval {s t : State} (h : BusOnly s t) : t.approval = s.approval := by rw [h]
theorem BusOnly.drives {s t : State} (h : BusOnly s t) : t.drives = s.drives := by rw [h]
theorem BusOnly.board {s t : State} (h : BusOnly s t) : t.board = s.board := by rw [h]
theorem BusOnly.free {s t : State} (h : BusOnly s t) : t.free = s.free := by rw [h]
theorem BusOnly.pending {s t : State} (h : BusOnly s t) : t.pending = s.pending := by rw [h]
theorem BusOnly.held {s t : State} (h : BusOnly s t) : t.peer.held = s.peer.held := by rw [h]
theorem BusOnly.kept {s t : State} (h : BusOnly s t) : t.peer.kept = s.peer.kept := by rw [h]
theorem BusOnly.entries {s t : State} (h : BusOnly s t) : t.peer.entries = s.peer.entries := by rw [h]
theorem BusOnly.duplicate {s t : State} (h : BusOnly s t) : t.peer.duplicate = s.peer.duplicate := by rw [h]
theorem BusOnly.laneState {s t : State} (h : BusOnly s t) : t.lane.state = s.lane.state := by rw [h]
theorem BusOnly.station {s t : State} (h : BusOnly s t) : t.lane.station = s.lane.station := by rw [h]

theorem frameLost_busOnly (e : TxEntry) (s : State) : BusOnly s (frameLost e s) := by
  unfold frameLost BusOnly
  cases e.owner <;> dsimp only <;> (try split) <;> rfl

theorem enqueue_busOnly (e : TxEntry) (s : State) : BusOnly s (enqueue e s) := by
  unfold enqueue
  split
  · exact rfl
  · dsimp only
    split
    · split
      · refine BusOnly.trans ?_ (frameLost_busOnly _ _); exact rfl
      · refine BusOnly.trans ?_ (frameLost_busOnly _ _); exact rfl
    · refine BusOnly.trans ?_ (frameLost_busOnly _ _); exact rfl

theorem askPosition_busOnly (s : State) : BusOnly s (askPosition s) := by
  unfold askPosition
  split
  · exact rfl
  · dsimp only
    split
    · exact rfl
    · refine BusOnly.trans ?_ (enqueue_busOnly _ _); exact rfl

theorem refuseIntent_busOnly (s : State) : BusOnly s (refuseIntent s) := by
  refine BusOnly.trans ?_ (askPosition_busOnly _); exact rfl

theorem retestIntent_busOnly (s : State) : BusOnly s (retestIntent s) := by
  unfold retestIntent
  split
  · split
    · split
      · exact refuseIntent_busOnly s
      · refine BusOnly.trans ?_ (enqueue_busOnly _ _); exact rfl
    · exact rfl
  · exact rfl

/-- `t` differs from `s` as `BusOnly` allows, in the entries of the peer view and in the unbind pending mark at most. -/
def FrameOnly (s t : State) : Prop :=
  t = { s with
          bus := t.bus, fault := t.fault,
          peer :=
            { s.peer with entries := t.peer.entries, request := t.peer.request, orphan := t.peer.orphan,
                          periodMs := t.peer.periodMs },
          approval := { s.approval with unbindPending := t.approval.unbindPending },
          lane := { s.lane with resetDue := t.lane.resetDue } }

theorem FrameOnly.trans {s t u : State} (h1 : FrameOnly s t) (h2 : FrameOnly t u) : FrameOnly s u := by
  unfold FrameOnly at *
  rw [h1] at h2
  exact h2

theorem BusOnly.frameOnly {s t : State} (h : BusOnly s t) : FrameOnly s t := by
  unfold BusOnly FrameOnly at *
  rw [h]

theorem applyFrame_frameOnly (src : Nat) (k : PeerKind) (p : Bool) (f : PeerEntry → PeerEntry) (s : State) :
    FrameOnly s (applyFrame src k p f s) := by
  unfold applyFrame
  split
  · exact rfl
  · dsimp only
    split <;> split
    · refine FrameOnly.trans ?_ (retestIntent_busOnly _).frameOnly; exact rfl
    · exact rfl
    · refine FrameOnly.trans ?_ (retestIntent_busOnly _).frameOnly; exact rfl
    · exact rfl

theorem heard_frameOnly (h : Header) (s : State) : FrameOnly s (heard h s) := applyFrame_frameOnly ..

@[simp] theorem heard_config (h : Header) (s : State) : (heard h s).config = s.config := by
  rw [heard_frameOnly h s]

@[simp] theorem heard_cash (h : Header) (s : State) : (heard h s).cash = s.cash := by
  rw [heard_frameOnly h s]

@[simp] theorem heard_chP (h : Header) (s : State) : (heard h s).chP = s.chP := by
  rw [heard_frameOnly h s]

@[simp] theorem heard_chQ (h : Header) (s : State) : (heard h s).chQ = s.chQ := by
  rw [heard_frameOnly h s]

@[simp] theorem heard_cal (h : Header) (s : State) : (heard h s).cal = s.cal := by
  rw [heard_frameOnly h s]

@[simp] theorem heard_disp (h : Header) (s : State) : (heard h s).disp = s.disp := by
  rw [heard_frameOnly h s]

@[simp] theorem heard_dispenserJam (h : Header) (s : State) : (heard h s).dispenserJam = s.dispenserJam := by
  rw [heard_frameOnly h s]

@[simp] theorem heard_dep (h : Header) (s : State) : (heard h s).dep = s.dep := by
  rw [heard_frameOnly h s]

@[simp] theorem heard_throatJam (h : Header) (s : State) : (heard h s).throatJam = s.throatJam := by
  rw [heard_frameOnly h s]

@[simp] theorem heard_capture (h : Header) (s : State) : (heard h s).capture = s.capture := by
  rw [heard_frameOnly h s]

@[simp] theorem heard_alarm (h : Header) (s : State) : (heard h s).alarm = s.alarm := by
  rw [heard_frameOnly h s]

@[simp] theorem heard_drives (h : Header) (s : State) : (heard h s).drives = s.drives := by
  rw [heard_frameOnly h s]

@[simp] theorem heard_board (h : Header) (s : State) : (heard h s).board = s.board := by
  rw [heard_frameOnly h s]

@[simp] theorem heard_free (h : Header) (s : State) : (heard h s).free = s.free := by
  rw [heard_frameOnly h s]

@[simp] theorem heard_pending (h : Header) (s : State) : (heard h s).pending = s.pending := by
  rw [heard_frameOnly h s]

@[simp] theorem heard_held (h : Header) (s : State) : (heard h s).peer.held = s.peer.held := by
  rw [heard_frameOnly h s]

@[simp] theorem heard_kept (h : Header) (s : State) : (heard h s).peer.kept = s.peer.kept := by
  rw [heard_frameOnly h s]

@[simp] theorem heard_duplicate (h : Header) (s : State) : (heard h s).peer.duplicate = s.peer.duplicate := by
  rw [heard_frameOnly h s]

@[simp] theorem heard_slots (h : Header) (s : State) : (heard h s).approval.slots = s.approval.slots := by
  rw [heard_frameOnly h s]

@[simp] theorem heard_bound (h : Header) (s : State) : (heard h s).approval.bound = s.approval.bound := by
  rw [heard_frameOnly h s]

@[simp] theorem heard_bindTime (h : Header) (s : State) : (heard h s).approval.bindTime = s.approval.bindTime := by
  rw [heard_frameOnly h s]

@[simp] theorem heard_laneState (h : Header) (s : State) : (heard h s).lane.state = s.lane.state := by
  rw [heard_frameOnly h s]

@[simp] theorem heard_station (h : Header) (s : State) : (heard h s).lane.station = s.lane.station := by
  rw [heard_frameOnly h s]

@[simp] theorem heard_lanePending (h : Header) (s : State) : (heard h s).lane.pending = s.lane.pending := by
  rw [heard_frameOnly h s]

@[simp] theorem heard_laneTarget (h : Header) (s : State) : (heard h s).lane.target = s.lane.target := by
  rw [heard_frameOnly h s]

@[simp] theorem heard_power (h : Header) (s : State) : (heard h s).lane.power = s.lane.power := by
  rw [heard_frameOnly h s]

@[simp] theorem heard_startCount (h : Header) (s : State) : (heard h s).lane.startCount = s.lane.startCount := by
  rw [heard_frameOnly h s]

@[simp] theorem heard_timeMs (h : Header) (s : State) : (heard h s).lane.timeMs = s.lane.timeMs := by
  rw [heard_frameOnly h s]

@[simp] theorem heard_release (h : Header) (s : State) : (heard h s).lane.release = s.lane.release := by
  rw [heard_frameOnly h s]

@[simp] theorem heard_unpowered (h : Header) (s : State) : (heard h s).lane.unpowered = s.lane.unpowered := by
  rw [heard_frameOnly h s]

@[simp] theorem heard_resetWait (h : Header) (s : State) : (heard h s).lane.resetWait = s.lane.resetWait := by
  rw [heard_frameOnly h s]

@[simp] theorem heard_cause (h : Header) (s : State) : (heard h s).lane.cause = s.lane.cause := by
  rw [heard_frameOnly h s]

@[simp] theorem heard_recovery (h : Header) (s : State) : (heard h s).lane.recovery = s.lane.recovery := by
  rw [heard_frameOnly h s]

/-! ### The queue with one pending POSITION, and the samples of a step -/

/-- R177: what stays of the queue stands in its order. -/
theorem onePosition_sublist (l : List TxEntry) : List.Sublist (onePosition l) l := by
  induction l with
  | nil => exact .slnil
  | cons e l ih =>
    unfold onePosition
    split
    · exact (List.filter_sublist).cons_cons e
    · exact ih.cons_cons e

/-- R130: at most one POSITION is pending in it. -/
theorem onePosition_atMostOne (l : List TxEntry) : (onePosition l).countP isPendingPosition ≤ 1 := by
  induction l with
  | nil => simp [onePosition]
  | cons e l ih =>
    unfold onePosition
    split
    · rename_i h
      have : (l.filter fun x => !isPendingPosition x).countP isPendingPosition = 0 := by
        simp [List.countP_eq_zero]
      rw [List.countP_cons, this, if_pos h]
    · rename_i h
      rw [List.countP_cons, if_neg h]
      exact ih

/-- R23, R24: the samples of a step change the flow of their channel and nothing else. -/
theorem takeSamples_p (raws : List Nat) (s : State) :
    takeSamples .p raws s = { s with chP := { s.chP with flow := feedFlow (zeroOf s.chP) s.chP.gain raws s.chP.flow } } :=
  rfl

theorem takeSamples_q (raws : List Nat) (s : State) :
    takeSamples .q raws s = { s with chQ := { s.chQ with flow := feedFlow (zeroOf s.chQ) s.chQ.gain raws s.chQ.flow } } :=
  rfl

/-- No samples leave a channel as it is. -/
@[simp] theorem feedFlow_nil (z g : Nat) (f : Flow) : feedFlow z g [] f = f := by
  cases f <;> simp [feedFlow, feedRun, feedTail]

end Sys2Proof.Machine
end

