-- ==== Sys2Proof/WellFormed.lean ====
section
/-! DEFINITION. Which terms of `Instr` a frame, a converter, a sensor or a board can give: every figure inside the
field the spec gives it (12.1, 12.2, section 6.1). The steps themselves are total: they do not rest on this check. -/

namespace Sys2Proof

/-- The source field of a frame (12.1). -/
def sourceOk (n : Nat) : Bool := n ≤ 31

/-- A command's source and tag fit their fields (12.1). -/
def Header.wf (h : Header) : Bool := sourceOk h.src && h.tag ≤ 255

/-- A three-byte figure. -/
def amountOk (n : Nat) : Bool := n ≤ maxAmount

/-- A one-byte figure. -/
def byteOk (n : Nat) : Bool := n ≤ 255

/-- A two-byte figure. -/
def halfOk (n : Nat) : Bool := n ≤ 65535

/-- Raw samples of the 12-bit converters (R22). -/
def rawsOk (l : List Nat) : Bool := l.all (· ≤ 4095)

/-- A DISPENSE of payload length 3 is an amount; one of even length 2 to 16 is a list of 1 to 8 pairs (12.2). -/
def Request.wf : Request → Bool
  | .amount n => amountOk n
  | .pairs l => 1 ≤ l.length && l.length ≤ 8 && l.all fun p => byteOk p.1 && byteOk p.2

/-- The straps are five pins, a read that is acknowledged gives 115 bytes, and there are four switches. -/
def Board.wf (b : Board) : Bool :=
  b.straps ≤ 31 && (b.image.all fun l => l.length == 115) && b.presence.length == 4

/-- The figures of a POSITION fit their fields (12.2). -/
def PositionFigures.wf (p : PositionFigures) : Bool := amountOk p.held && amountOk p.cap && byteOk p.slots

/-- A kind byte that names no command is one byte. -/
def CmdKind.wf : CmdKind → Bool
  | .unknown k => byteOk k
  | _ => true

/-- A cassette switch is one of C1 to C4. -/
def cassetteNoOk (c : Nat) : Bool := 1 ≤ c && c ≤ 4

/-- A zone is one of Z1 to Z12. -/
def zoneNoOk (z : Nat) : Bool := 1 ≤ z && z ≤ 12

/-- Every operand lies inside the field that carries it. -/
def Instr.wf : Instr → Bool
  | .dispense h req => h.wf && req.wf
  | .depositCloseThroat h raws | .depositAccept h raws | .depositReturn h raws => h.wf && rawsOk raws
  | .calibrate h channel k cassette _ => h.wf && byteOk channel && halfOk k && byteOk cassette
  | .cassetteLoad h slot den count => h.wf && byteOk slot && byteOk den && halfOk count
  | .cassetteUnload h slot => h.wf && byteOk slot
  | .query h record index => h.wf && byteOk record && byteOk index
  | .alarmClear h latch => h.wf && byteOk latch
  | .unknownCommand h kind => h.wf && kind.wf
  | .cancel h | .depositOpen h | .clearPurge h | .depositCassetteExchange h | .bind h | .unbind h
  | .queryZonesClear h | .laneOpen h | .laneClose h | .laneNight h | .clearJam h _ _ | .clearFaults h
  | .clearCause h | .binServiceOpen h | .binServiceClose h _ | .shiftClose h | .resetLane h => h.wf
  | .approvalAnswer src slot ask verdict kind amount =>
      sourceOk src && slot ≤ 3 && ask ≤ 63 && byteOk verdict && byteOk kind && amountOk amount
  | .peerPosition src p => sourceOk src && p.wf
  | .peerIntent src amount => sourceOk src && amountOk amount
  | .peerAlarm src dst _ => sourceOk src && sourceOk dst
  | .peerFrame src _ => sourceOk src
  | .peerStale station => station ≤ 30
  | .approvalTimeout slot => slot ≤ 3
  | .throatIdleTimeout raws | .pickMiss raws | .stackerCountIn raws | .escrowPush raws
  | .refusedNoteAtPocket raws | .calibrationTakeTimeout raws | .pickJam raws | .depositJam raws => rawsOk raws
  | .zoneScan readings _ raws => readings.length == 12 && readings.all (· ≤ 1023) && rawsOk raws
  | .zoneChange zone _ raws | .zoneRestored zone _ raws => zoneNoOk zone && rawsOk raws
  | .troubleCleared zone => zoneNoOk zone
  | .zeroCaptureDone _ raws => raws.length == 64 && rawsOk raws
  | .runStart _ raws first => rawsOk raws && first ≤ 4095
  | .runEnd _ raws | .runCutOff _ raws | .tailEnd _ raws => rawsOk raws
  | .envelopeJam mm | .lengthMeasured mm | .thicknessTrip mm => halfOk mm
  | .cassetteRemoved c | .cassetteReseated c => cassetteNoOk c
  | .ownFrameCompleted b | .transmissionComplained b | .powerOn b | .supplyDip b | .resetLine b => b.wf
  | .duplicateStation | .frameComplained | .intentCompletion | .querySegmentCompleted | .arbitrationLost
  | .idlePoint | .positionPeriod | .intentSpacingEnd | .dispenseCeilingTimeout | .depositCeilingTimeout
  | .dispenseTakeTimeout | .returnTakeTimeout | .clearanceTakeTimeout
  | .dispenseTaken | .returnTaken | .refusedNotesTaken | .clearanceTaken | .calibrationNoteTaken
  | .zeroCaptureStall _ | .stackerPurgeJam | .presentJam | .stackerReversalJam | .retractJam | .recoveryPurgeJam
  | .recoveryStackingJam | .wakingEnd _ | .wallLineRecognised
  | .wallLineReleased | .noteStacked _ | .returnBundleInPocket | .presentMovementEnd | .purgeMovementEnd
  | .stackerReversalEnd | .returnReversalEnd | .calibrationNoteAtPocket | .retractMovementEnd
  | .envelopeArrival | .envelopeWithdrawn | .envelopeClearsSlot | .lengthSensorReached | .envelopeTooLong
  | .imprintStart | .envelopeDrop | .envelopeReversalEnd | .returnedEnvelopeCleared | .binServiceOpened
  | .pendingRequestApplied | .lockdownExit | .recoveryEnd | .mechanicsCheck _ => true

end Sys2Proof
end

