-- ==== Sys2Proof/Tests/Slice0.lean ====
section
/-! SUPPORT. Three kinds of test. A `witness_<statement>` applies the statement to concrete states and operands, one for
each clause, and proves every hypothesis of the clause, so that each statement is about something; its conclusion is then
the clause's own, weakened to what is short to write. The worked cases check single operations against figures the spec
works out by hand. The last tests give every check of WellFormed a term that fails it alone. -/

open Sys2Proof Sys2Proof.Machine
namespace Sys2Proof.Tests

/-- A console that is station 20. -/
def hdr : Header := ⟨20, 7, false⟩

/-- A note of 20 or 50, 600 in length, 100 thick. -/
def d20 : Denom := { used := true, face := 20, nomLength := 600, window := 5, nomThick := 100, ref := 100, basis := 100 }
def d50 : Denom := { used := true, face := 50, nomLength := 700, window := 5, nomThick := 100, ref := 100, basis := 100 }

/-- Cassettes of 20 and of 50. -/
def c20 : Cassette :=
  { st := .active, denom := some 0, face := some 20, count := 100, loaded := 100, setpoint := 10, ref := 100 }
def c50 : Cassette :=
  { st := .low, denom := some 7, face := some 50, count := 10, loaded := 100, setpoint := 10, ref := 100 }

/-- A channel with its window open over a gap, and one with its zero set. -/
def gapOpen : Channel := { zero := some 50, gain := 1024, gainBasis := 1024, window := true, flow := .gap 0 0 }

/-- A configured lane in CLOSED, strapped 3, with console 20 bound and nothing going on. -/
def base : State :=
  { config :=
      { wallCeiling := 100000, laneCap := 60000, defaultPeerCap := 50000, s1 := 2000, duressLimit := 500,
        depositAllowance := 10000, takeTimeout := 30, approvalTimeout := 20, gainP := 1024, gainQ := 1024,
        captureBand := 8 },
    cash := { denoms := [d20, {}, {}, {}, {}, {}, {}, d50], cassettes := [c20, c50, {}, {}] },
    chP := { gain := 1024, gainBasis := 1024 }, chQ := { gain := 1024, gainBasis := 1024 },
    capture :=
      { journal := [{ seq := 9, startCount := 1, laneTime := 2, length := 200, bound := none }], lastSeq := 9,
        bundles := [{ kind := .dispense, tag := some 1, count := 5, value := 100, startCount := 1, laneTime := 3,
                      unverified := false }] },
    approval := { bound := some 20, bindTime := some 0 },
    bus := { reportNo := 255, part := true }, free := 3, pending := [.shiftClose ⟨20, 9, false⟩],
    lane := { state := .closed, power := .on, station := 3, startCount := 1, timeMs := 5000 },
    board := ⟨true, 3, none, [true, true, true, true]⟩ }

/-- The same lane in OPEN, and in another state. -/
def inState (st : LaneState) : State := { base with lane := { base.lane with state := st } }
def opened : State := inState .opened

/-- With a dispense, a deposit, a calibration or a capture unit as given. -/
def withDisp (d : Dispense) : State := { opened with disp := d }
def withDep (d : Deposit) : State := { opened with dep := d }
def withCal (k : Calibration) : State := { base with cal := k }
def withCapture (c : Capture) : State := { opened with capture := c }
def withAlarm (a : Alarm) : State := { base with alarm := a }
def withQueue (q : List TxEntry) : State := { opened with bus := { base.bus with queue := q } }

/-- A slot WAITING for an operation. -/
def waits (k : OpKind) (amount : Nat) : Approval :=
  { base.approval with
      slots := [{ kind := some k, amount := some amount, requester := some 20, ask := 1 }, {}, {}, {}] }

/-- Twelve zones, all unused but the first. -/
def zonesWith (z : Zone) : List Zone := z :: List.replicate 11 {}

/-- The samples of a note of 600: the last of its run and the eight that end it. -/
def noteEnd : List Nat := 150 :: List.replicate 8 50
def clear8 : List Nat := List.replicate 8 50
def run119 : List Nat := List.replicate 119 100
def run120 : List Nat := List.replicate 120 100

/-! #### AskingCommandsTakeASlot -/

def duressOn : State := withAlarm { duress := true, zones := zonesWith { type := .duress, state := .quiet } }
def attackOn : State :=
  { inState .lockdown with alarm := { attack := true, zones := zonesWith { type := .attack, state := .quiet } } }

theorem witness_AskingCommandsTakeASlot :
    Obligations.AskingCommandsTakeASlot →
      (∃ t, exec (.cassetteLoad hdr 4 7 2500) base = .next t) ∧
      (∃ t, exec (.depositCassetteExchange hdr) base = .next t) ∧
      (∃ t, exec (.binServiceOpen hdr) base = .next t) ∧
      (∃ t, exec (.alarmClear hdr 1) duressOn = .next t) ∧
      (∃ t, exec (.alarmClear hdr 2) attackOn = .next t) ∧
      (∃ t, exec (.resetLane hdr) base = .next t) := by
  intro O
  refine
    ⟨⟨_, (O hdr 0 base ?_ ?_).1 4 7 2500 ?_ ?_ ?_ ?_ ?_ ?_ ?_ ?_ ?_ ?_ ?_⟩,
      ⟨_, (O hdr 0 base ?_ ?_).2.1 ?_ ?_ ?_ ?_⟩,
      ⟨_, (O hdr 0 base ?_ ?_).2.2.1 ?_ ?_ ?_ ?_⟩,
      ⟨_, (O hdr 0 duressOn ?_ ?_).2.2.2.1 ?_ ?_ ?_ ?_ ?_⟩,
      ⟨_, (O hdr 0 attackOn ?_ ?_).2.2.2.2.1 ?_ ?_ ?_ ?_ ?_⟩,
      ⟨_, (O hdr 0 base ?_ ?_).2.2.2.2.2 ?_ ?_ ?_⟩⟩ <;> decide

/-! #### CassetteAndTrayRecordsEmpty -/

def recoveryNoRoom : State :=
  { base with
      lane := { base.lane with state := .recovery, recovery := { active := true, stacker := .noRoom } },
      cash := { base.cash with purge := { total := 100, perCassette := [100, 0, 0, 0], full := true } } }
def removedFour : State :=
  { base with
      cash := { base.cash with cassettes := [c20, c50, {}, { c20 with st := .removed }] },
      board := ⟨true, 3, none, [true, true, true, false]⟩ }

theorem witness_CassetteAndTrayRecordsEmpty :
    Obligations.CassetteAndTrayRecordsEmpty →
      (∃ t, exec (.cassetteUnload hdr (0 + 1)) base = .next t) ∧
      (∃ t, exec (.clearPurge hdr) base = .next t) ∧
      (∃ t, exec (.clearPurge hdr) recoveryNoRoom = .next t) ∧
      (∃ t, exec (.cassetteRemoved (3 + 1)) base = .next t) ∧
      (∃ t, exec (.cassetteReseated (3 + 1)) removedFour = .next t) := by
  intro O
  refine
    ⟨⟨_, (O.1 hdr base ?_).1 0 c20 ?_ ?_ ?_ ?_ ?_ ?_ ?_⟩,
      ⟨_, ((O.1 hdr base ?_).2 ?_ ?_).1 ?_ ?_⟩,
      ⟨_, ((O.1 hdr recoveryNoRoom ?_).2 ?_ ?_).2 ?_ ?_ ?_⟩,
      ⟨_, (O.2 base 3 ({}) ?_ ?_ ?_).1 ?_ ?_⟩,
      ⟨_, (O.2 removedFour 3 ({ c20 with st := .removed }) ?_ ?_ ?_).2 ?_ ?_⟩⟩ <;> decide

/-! #### ZeroCapturesSucceedOrFail -/

def raws64 : List Nat := 48 :: 96 :: List.replicate 62 70
def chEmpty : Channel := { gain := 1024, gainBasis := 1024, drift := 3, lost := true, capturing := true }
def dispCapture : State :=
  { withDisp { st := .zeroCapture, console := 20, tag := 3, plan := [⟨0, 2, 0⟩], planValue := 40 } with
      chP := chEmpty,
      peer := { held := ⟨540, 40, 500⟩ } }
def w_zero_calP : State := { withCal { phase := .zeroCapture, channel := .p, cassette := 1 } with chP := chEmpty }
def depCapture : State :=
  { withDep { st := .zeroCapture, console := 20, tag := 3 } with chQ := chEmpty, peer := { held := ⟨540, 40, 500⟩ } }
def w_zero_calQ : State := { withCal { phase := .zeroCapture, channel := .q, cassette := 1 } with chQ := chEmpty }
def badRaws : List Nat := 48 :: 97 :: List.replicate 62 70
def w_zero_failCP : State :=
  { withCal { phase := .zeroCapture, channel := .p, cassette := 1, tag := 4 } with chP := chEmpty }
def w_zero_failCP2 : State :=
  { withCal { phase := .zeroCapture, channel := .p, cassette := 0, tag := 4, locked := true } with chP := chEmpty }
def w_zero_failCQ : State :=
  { withCal { phase := .zeroCapture, channel := .q, k := 100, tag := 4 } with chQ := chEmpty }

theorem witness_ZeroCapturesSucceedOrFail :
    Obligations.ZeroCapturesSucceedOrFail →
      (∃ t, exec (.zeroCaptureDone .p raws64) dispCapture = .next t) ∧
      (∃ t, exec (.zeroCaptureDone .p raws64) w_zero_calP = .next t) ∧
      (∃ t, exec (.zeroCaptureDone .q raws64) depCapture = .next t) ∧
      (∃ t, exec (.zeroCaptureDone .q raws64) w_zero_calQ = .next t) ∧
      (∃ t, exec (.zeroCaptureDone .p badRaws) dispCapture = .next t) ∧
      (∃ t, exec (.zeroCaptureDone .q badRaws) depCapture = .next t) ∧
      (∃ t, exec (.zeroCaptureDone .p badRaws) w_zero_failCP = .next t) ∧
      (∃ t, exec (.zeroCaptureDone .p (30 :: 60 :: List.replicate 62 30)) w_zero_failCP2 = .next t) ∧
      (∃ t, exec (.zeroCaptureDone .q badRaws) w_zero_failCQ = .next t) := by
  intro O
  refine
    ⟨⟨_, ((O.1 raws64 dispCapture ?_ ?_ ?_).1 ?_ ?_).1 0 0 ?_ ?_ ?_ ?_⟩,
      ⟨_, ((O.1 raws64 w_zero_calP ?_ ?_ ?_).1 ?_ ?_).2 ?_ ?_⟩,
      ⟨_, ((O.1 raws64 depCapture ?_ ?_ ?_).2 ?_ ?_).1 ?_ ?_⟩,
      ⟨_, ((O.1 raws64 w_zero_calQ ?_ ?_ ?_).2 ?_ ?_).2 ?_ ?_⟩,
      ⟨_, (O.2.1 badRaws dispCapture ?_ ?_ ?_ ?_).1 ?_ ?_ ?_ ?_⟩,
      ⟨_, (O.2.1 badRaws depCapture ?_ ?_ ?_ ?_).2 ?_ ?_ ?_ ?_⟩,
      ⟨_, (O.2.2 badRaws w_zero_failCP ?_ ?_ ?_ ?_).1 ?_ ?_ ?_ ?_ ?_⟩,
      ⟨_, (O.2.2 (30 :: 60 :: List.replicate 62 30) w_zero_failCP2 ?_ ?_ ?_ ?_).1 ?_ ?_ ?_ ?_ ?_⟩,
      ⟨_, (O.2.2 badRaws w_zero_failCQ ?_ ?_ ?_ ?_).2 ?_ ?_ ?_ ?_ ?_⟩⟩ <;> decide

/-! #### ZeroAndReferenceFollowTheNotes -/

def gap8 : State := { base with chP := { gapOpen with drift := 7 } }
def w_gap_out : State := { base with chP := { gapOpen with drift := 6 } }
def w_gap_lost : State := { base with chQ := { gapOpen with drift := 7 } }
def w_win_gap : State := { base with chP := { gapOpen with flow := .gap 8 (8*59), drift := 7 } }
def w_win_gap7 : State := { base with chQ := { gapOpen with flow := .gap 7 700, capturing := true } }
def w_win_none : State := { base with chP := { gapOpen with window := false, flow := .gap 9 459 } }
def w_win_none2 : State := { base with chQ := { gapOpen with flow := .none, capturing := true } }
def w_win_run : State := { base with chQ := { gapOpen with flow := .run run119 [50] } }
def w_win_tail : State := { base with chP := { gapOpen with flow := .tail [50] } }

theorem witness_ZeroAndReferenceFollowTheNotes :
    Obligations.ZeroAndReferenceFollowTheNotes →
      (∃ t, endGap .p 7 700 gap8 = t) ∧
      (∃ t, endGap .p 8 (8 * 42) gap8 = t) ∧
      (∃ t, endGap .p 8 (8 * 59) w_gap_out = t) ∧
      (∃ t, endGap .q 8 (8 * 59) w_gap_lost = t) ∧
      (∃ t, closeWindow .p w_win_gap = t) ∧
      (∃ t, closeWindow .q w_win_gap7 = t) ∧
      (∃ t, closeWindow .p w_win_none = t) ∧
      (∃ t, closeWindow .q w_win_none2 = t) ∧
      (∃ t, closeWindow .q w_win_run = t) ∧
      (∃ t, closeWindow .p w_win_tail = t) ∧
      (∃ t, learn 88 88 100 3 = t) ∧
      (∃ t, learn 112 112 100 3 = t) ∧
      (∃ t, learn 130 113 100 6 = t) ∧
      (∃ t, learn 130 87 100 7 = t) := by
  intro O
  refine
    ⟨⟨_, (O.1 (.p) 7 700 50 gap8 ?_).1 ?_⟩,
      ⟨_, ((O.1 (.p) 8 ((8*42)) 50 gap8 ?_).2 ?_ ?_).1 ?_⟩,
      ⟨_, (((O.1 (.p) 8 ((8*59)) 50 w_gap_out ?_).2 ?_ ?_).2 ?_).1 ?_⟩,
      ⟨_, (((O.1 (.q) 8 ((8*59)) 50 w_gap_lost ?_).2 ?_ ?_).2 ?_).2 ?_ ?_⟩,
      ⟨_, (O.2.1 (.p) w_win_gap).1 8 (8*59) ?_ ?_⟩,
      ⟨_, (O.2.1 (.q) w_win_gap7).1 7 700 ?_ ?_⟩,
      ⟨_, (O.2.1 (.p) w_win_none).2.1 ?_⟩,
      ⟨_, (O.2.1 (.q) w_win_none2).2.1 ?_⟩,
      ⟨_, (O.2.1 (.q) w_win_run).2.2 run119 [50] ?_⟩,
      ⟨_, (O.2.1 (.p) w_win_tail).2.2 [] [50] ?_⟩,
      ⟨_, O.2.2 88 88 100 3⟩,
      ⟨_, O.2.2 112 112 100 3⟩,
      ⟨_, O.2.2 130 113 100 6⟩,
      ⟨_, O.2.2 130 87 100 7⟩⟩ <;> decide

/-! #### RunStartsAtPresentSample -/

def picking : State :=
  { withDisp { st := .picking, pick := .gateOpen, console := 20, tag := 3, plan := [⟨0, 2, 0⟩], planValue := 40, lastCassette := some 0 } with
      chP := gapOpen,
      cash := { base.cash with cassettes := [{ c20 with misses := 2 }, c50, {}, {}]} }
def w_run_calP : State := { withCal { phase := .waiting, channel := .p, cassette := 1 } with chP := gapOpen }
def w_run_stk : State :=
  { picking with
      disp := { picking.disp with pick := .toStacker, owed := 1 },
      chP := { gapOpen with flow := .gap 3 150 } }
def w_run_dep : State := { withDep { st := .feeding, idleMs := some 5 } with chQ := gapOpen }
def w_run_close : State :=
  { withDep { st := .feeding, closing := some { giveBack := true } } with chQ := { gapOpen with flow := .gap 9 450 } }
def w_run_close2 : State :=
  { withDep { st := .feeding, closing := some { } } with chQ := { gapOpen with flow := .gap 9 450 } }
def w_run_calQ : State := { withCal { phase := .waiting, channel := .q, takeMs := some 9 } with chQ := gapOpen }

theorem witness_RunStartsAtPresentSample :
    Obligations.RunStartsAtPresentSample →
      (∃ t, exec (.runStart .p [42, 42, 42, 42, 42, 42, 42, 79] 80) picking = .next t) ∧
      (∃ t, exec (.runStart .p [42, 42, 42, 42, 42, 42, 42, 79] 80) w_run_calP = .next t) ∧
      (∃ t, exec (.runStart .p [42] 80) w_run_stk = .next t) ∧
      (∃ t, exec (.runStart .q [] 80) w_run_dep = .next t) ∧
      (∃ t, exec (.runStart .q [] 80) w_run_close = .next t) ∧
      (∃ t, exec (.runStart .q [] 80) w_run_close2 = .next t) ∧
      (∃ t, exec (.runStart .q [] 80) w_run_calQ = .next t) := by
  intro O
  refine
    ⟨⟨_, ((O [42, 42, 42, 42,42,42,42,79] 80 0 0 picking).1 ?_ ?_).1 0 ?_ ?_ ?_⟩,
      ⟨_, ((O [42, 42, 42, 42,42,42,42,79] 80 0 0 w_run_calP).1 ?_ ?_).2 ?_ ?_⟩,
      ⟨_, ((O [42] 80 3 150 w_run_stk).1 ?_ ?_).1 0 ?_ ?_ ?_⟩,
      ⟨_, ((O [] 80 0 0 w_run_dep).2 ?_ ?_).1 ?_ ?_ ?_⟩,
      ⟨_, ((O [] 80 9 450 w_run_close).2 ?_ ?_).2.1 ?_ ?_⟩,
      ⟨_, ((O [] 80 9 450 w_run_close2).2 ?_ ?_).2.1 ?_ ?_⟩,
      ⟨_, ((O [] 80 0 0 w_run_calQ).2 ?_ ?_).2.2 ?_ ?_⟩⟩ <;> decide

/-! #### SingleNoteGoesToTheStacker -/

def pickRun : State :=
  { withDisp { st := .picking, pick := .running, console := 20, tag := 3, plan := [⟨0, 2, 0⟩], planValue := 40, lastCassette := some 0 } with
      chP := { gapOpen with flow := .run run119 [] } }

set_option maxRecDepth 20000 in
theorem witness_SingleNoteGoesToTheStacker :
    Obligations.SingleNoteGoesToTheStacker →
      (∃ t, exec (.runEnd .p noteEnd) pickRun = .next t) := by
  intro O
  refine ⟨_, O noteEnd run119 run120 [] clear8 pickRun 0 100 100 c20 ?_ ?_ ?_ ?_ ?_ ?_ ?_ ?_ ?_ ?_ ?_ ?_⟩ <;> decide

/-! #### RejectedNoteIsCharged -/

def rejRun (n thick total rejects sn : Nat) : State :=
  { withDisp { st := .picking, pick := .running, console := 20, tag := 3, plan := [⟨0, 2, 0⟩], planValue := 40, lastCassette := some 0, rejects := rejects, stackerNotes := sn } with
      chP := { gapOpen with flow := .run (List.replicate n thick) [] },
      cash := { base.cash with purge := { total := total, perCassette := [total, 0, 0, 0] } } }
def w_rej_next : State := rejRun 119 300 97 9 3
def w_rej_short : State :=
  { rejRun 119 300 97 9 3 with disp := { (rejRun 119 300 97 9 3).disp with plan := [⟨5, 2, 0⟩] } }
def w_rej_short0 : State :=
  { rejRun 119 300 97 9 0 with disp := { (rejRun 119 300 97 9 0).disp with plan := [⟨5, 2, 0⟩] } }
def w_rej_limit : State := rejRun 119 40 96 10 3
def w_rej_limit0 : State := rejRun 119 300 97 10 0
def w_rej_limit1 : State := rejRun 119 300 97 10 1
def w_rej_full : State := rejRun 119 300 98 10 3
def w_rej_full0 : State := rejRun 119 300 100 0 0
def w_rej_full_owed : State :=
  { rejRun 119 300 98 10 3 with disp := { (rejRun 119 300 98 10 3).disp with owed := 1 } }
def w_rej_owed : State := { rejRun 119 300 97 9 3 with disp := { (rejRun 119 300 97 9 3).disp with owed := 1 } }
def w_rej_owed2 : State := { rejRun 119 300 97 10 3 with disp := { (rejRun 119 300 97 10 3).disp with owed := 1 } }
def w_rej_cut : State := rejRun 399 100 98 9 3
def w_cut_limit : State := rejRun 399 100 98 10 0
def w_cut_full : State := rejRun 399 100 99 10 2

set_option maxRecDepth 20000 in
theorem witness_RejectedNoteIsCharged :
    Obligations.RejectedNoteIsCharged →
      (∃ t, exec (.runEnd .p noteEnd) w_rej_next = .next t) ∧
      (∃ t, exec (.runEnd .p noteEnd) w_rej_short = .next t) ∧
      (∃ t, exec (.runEnd .p noteEnd) w_rej_short0 = .next t) ∧
      (∃ t, exec (.runEnd .p noteEnd) w_rej_limit = .next t) ∧
      (∃ t, exec (.runEnd .p noteEnd) w_rej_limit0 = .next t) ∧
      (∃ t, exec (.runEnd .p noteEnd) w_rej_limit1 = .next t) ∧
      (∃ t, exec (.runEnd .p noteEnd) w_rej_full = .next t) ∧
      (∃ t, exec (.runEnd .p noteEnd) w_rej_full0 = .next t) ∧
      (∃ t, exec (.runEnd .p noteEnd) w_rej_full_owed = .next t) ∧
      (∃ t, exec (.runEnd .p noteEnd) w_rej_owed = .next t) ∧
      (∃ t, exec (.runEnd .p noteEnd) w_rej_owed2 = .next t) ∧
      (∃ t, exec (.runCutOff .p [150]) w_rej_cut = .next t) ∧
      (∃ t, exec (.runCutOff .p [150]) w_cut_limit = .next t) ∧
      (∃ t, exec (.runCutOff .p [150]) w_cut_full = .next t) := by
  intro O
  refine
    ⟨⟨_, (((O noteEnd (List.replicate 119 300) (100 :: List.replicate 119 300) [] clear8 w_rej_next 0 0 c20 ?_ ?_ ?_
            ?_ ?_ ?_ ?_ ?_ ?_ ?_ ?_).1 ?_ ?_).1 ?_).1 0 ?_ ?_ ?_ ?_ ?_⟩,
      ⟨_, (((O noteEnd (List.replicate 119 300) (100 :: List.replicate 119 300) [] clear8 w_rej_short 0 0 c20 ?_ ?_
            ?_ ?_ ?_ ?_ ?_ ?_ ?_ ?_ ?_).1 ?_ ?_).1 ?_).2.1 ?_ ?_ ?_ ?_ ?_⟩,
      ⟨_, (((O noteEnd (List.replicate 119 300) (100 :: List.replicate 119 300) [] clear8 w_rej_short0 0 0 c20 ?_ ?_
            ?_ ?_ ?_ ?_ ?_ ?_ ?_ ?_ ?_).1 ?_ ?_).1 ?_).2.1 ?_ ?_ ?_ ?_ ?_⟩,
      ⟨_, (((O noteEnd (List.replicate 119 40) (100 :: List.replicate 119 40) [] clear8 w_rej_limit 0 0 c20 ?_ ?_ ?_
            ?_ ?_ ?_ ?_ ?_ ?_ ?_ ?_).1 ?_ ?_).1 ?_).2.2.1 ?_ ?_ ?_⟩,
      ⟨_, (((O noteEnd (List.replicate 119 300) (100 :: List.replicate 119 300) [] clear8 w_rej_limit0 0 0 c20 ?_ ?_
            ?_ ?_ ?_ ?_ ?_ ?_ ?_ ?_ ?_).1 ?_ ?_).1 ?_).2.2.1 ?_ ?_ ?_⟩,
      ⟨_, (((O noteEnd (List.replicate 119 300) (100 :: List.replicate 119 300) [] clear8 w_rej_limit1 0 0 c20 ?_ ?_
            ?_ ?_ ?_ ?_ ?_ ?_ ?_ ?_ ?_).1 ?_ ?_).1 ?_).2.2.1 ?_ ?_ ?_⟩,
      ⟨_, (((O noteEnd (List.replicate 119 300) (100 :: List.replicate 119 300) [] clear8 w_rej_full 0 0 c20 ?_ ?_ ?_
            ?_ ?_ ?_ ?_ ?_ ?_ ?_ ?_).1 ?_ ?_).2 ?_).1 ?_ ?_⟩,
      ⟨_, (((O noteEnd (List.replicate 119 300) (100 :: List.replicate 119 300) [] clear8 w_rej_full0 0 0 c20 ?_ ?_
            ?_ ?_ ?_ ?_ ?_ ?_ ?_ ?_ ?_).1 ?_ ?_).2 ?_).1 ?_ ?_⟩,
      ⟨_, (((O noteEnd (List.replicate 119 300) (100 :: List.replicate 119 300) [] clear8 w_rej_full_owed 0 0 c20 ?_
            ?_ ?_ ?_ ?_ ?_ ?_ ?_ ?_ ?_ ?_).1 ?_ ?_).2 ?_).2 ?_ ?_⟩,
      ⟨_, (((O noteEnd (List.replicate 119 300) (100 :: List.replicate 119 300) [] clear8 w_rej_owed 0 0 c20 ?_ ?_ ?_
            ?_ ?_ ?_ ?_ ?_ ?_ ?_ ?_).1 ?_ ?_).1 ?_).2.2.2 ?_ ?_⟩,
      ⟨_, (((O noteEnd (List.replicate 119 300) (100 :: List.replicate 119 300) [] clear8 w_rej_owed2 0 0 c20 ?_ ?_
            ?_ ?_ ?_ ?_ ?_ ?_ ?_ ?_ ?_).1 ?_ ?_).1 ?_).2.2.2 ?_ ?_⟩,
      ⟨_, ((O [150] (List.replicate 399 100) (List.replicate 400 100) [] [] w_rej_cut 0 0 c20 ?_ ?_ ?_ ?_ ?_ ?_ ?_ ?_
            ?_ ?_ ?_).2 ?_).1 ?_ ?_ ?_⟩,
      ⟨_, ((O [150] (List.replicate 399 100) (List.replicate 400 100) [] [] w_cut_limit 0 0 c20 ?_ ?_ ?_ ?_ ?_ ?_ ?_
            ?_ ?_ ?_ ?_).2 ?_).2.1 ?_ ?_ ?_ ?_⟩,
      ⟨_, ((O [150] (List.replicate 399 100) (List.replicate 400 100) [] [] w_cut_full 0 0 c20 ?_ ?_ ?_ ?_ ?_ ?_ ?_
            ?_ ?_ ?_ ?_).2 ?_).2.2 ?_ ?_ ?_⟩⟩ <;> decide

/-! #### DepositNotesAreSorted -/

def feedRunState (n thick : Nat) (d : Deposit) : State :=
  { withDep d with
      chQ := { gapOpen with flow := .run (List.replicate n thick) [] },
      peer := { held := ⟨540, 40, 60⟩ } }
def feeding : Deposit := { st := .feeding, limit := 3, escrow := [⟨0, 20, 100⟩], toEscrow := [⟨0, 20, 100⟩] }
def w_dep_single : State := feedRunState 119 100 feeding
def w_dep_lost : State :=
  { feedRunState 119 100 (feeding) with chQ := { (feedRunState 119 100 (feeding)).chQ with lost := true } }
def w_dep_lost2 : State :=
  { feedRunState 119 100 ({ feeding with closing := some { giveBack := true } }) with
      chQ := { (feedRunState 119 100 ({ feeding with closing := some { giveBack := true } })).chQ with lost := true } }
def w_dep_clamp : State := feedRunState 119 100 { feeding with clamp := true }
def w_dep_full : State := feedRunState 119 100 { feeding with limit := 2, limitNotice := true }
def w_dep_full2 : State := feedRunState 119 100 { feeding with limit := 2 }
def w_dep_full3 : State := { feedRunState 119 100 feeding with peer := { held := ⟨540, 40, 59⟩ } }
def w_dep_reject : State := feedRunState 119 300 feeding
def w_dep_rlost : State :=
  { feedRunState 119 300 (feeding) with chQ := { (feedRunState 119 300 (feeding)).chQ with lost := true } }
def w_dep_cut : State := feedRunState 399 100 feeding
def w_dep_tail : State := { withDep feeding with chQ := { gapOpen with flow := .tail [] } }

set_option maxRecDepth 20000 in
theorem witness_DepositNotesAreSorted :
    Obligations.DepositNotesAreSorted →
      (∃ t, exec (.runEnd .q noteEnd) w_dep_single = .next t) ∧
      (∃ t, exec (.runEnd .q noteEnd) w_dep_lost = .next t) ∧
      (∃ t, exec (.runEnd .q noteEnd) w_dep_lost2 = .next t) ∧
      (∃ t, exec (.runEnd .q noteEnd) w_dep_clamp = .next t) ∧
      (∃ t, exec (.runEnd .q noteEnd) w_dep_full = .next t) ∧
      (∃ t, exec (.runEnd .q noteEnd) w_dep_full2 = .next t) ∧
      (∃ t, exec (.runEnd .q noteEnd) w_dep_full3 = .next t) ∧
      (∃ t, exec (.runEnd .q noteEnd) w_dep_reject = .next t) ∧
      (∃ t, exec (.runEnd .q noteEnd) w_dep_rlost = .next t) ∧
      (∃ t, exec (.runCutOff .q [150]) w_dep_cut = .next t) ∧
      (∃ t, exec (.tailEnd .q clear8) w_dep_tail = .next t) := by
  intro O
  refine
    ⟨⟨_, (((O noteEnd run119 run120 [] clear8 w_dep_single ?_ ?_ ?_).1 ?_ ?_).1 0 100 100 ?_ ?_ ?_ ?_).1 ?_ ?_⟩,
      ⟨_, (((O noteEnd run119 run120 [] clear8 w_dep_lost ?_ ?_ ?_).1 ?_ ?_).1 0 100 100 ?_ ?_ ?_ ?_).1 ?_ ?_⟩,
      ⟨_, (((O noteEnd run119 run120 [] clear8 w_dep_lost2 ?_ ?_ ?_).1 ?_ ?_).1 0 100 100 ?_ ?_ ?_ ?_).1 ?_ ?_⟩,
      ⟨_, (((O noteEnd run119 run120 [] clear8 w_dep_clamp ?_ ?_ ?_).1 ?_ ?_).1 0 100 100 ?_ ?_ ?_ ?_).2.1 ?_⟩,
      ⟨_, (((O noteEnd run119 run120 [] clear8 w_dep_full ?_ ?_ ?_).1 ?_ ?_).1 0 100 100 ?_ ?_ ?_ ?_).2.2.1 ?_ ?_ ?_⟩,
      ⟨_, (((O noteEnd run119 run120 [] clear8 w_dep_full2 ?_ ?_ ?_).1 ?_ ?_).1 0 100 100 ?_ ?_ ?_ ?_).2.2.2 ?_ ?_ ?_
            ?_⟩,
      ⟨_, (((O noteEnd run119 run120 [] clear8 w_dep_full3 ?_ ?_ ?_).1 ?_ ?_).1 0 100 100 ?_ ?_ ?_ ?_).2.2.2 ?_ ?_ ?_
            ?_⟩,
      ⟨_, ((O noteEnd (List.replicate 119 300) (100 :: List.replicate 119 300) [] clear8 w_dep_reject ?_ ?_ ?_).1 ?_
            ?_).2 ?_⟩,
      ⟨_, ((O noteEnd (List.replicate 119 300) (100 :: List.replicate 119 300) [] clear8 w_dep_rlost ?_ ?_ ?_).1 ?_
            ?_).2 ?_⟩,
      ⟨_, (O [150] (List.replicate 399 100) (List.replicate 400 100) [] clear8 w_dep_cut ?_ ?_ ?_).2.1 ?_ ?_⟩,
      ⟨_, (O clear8 [] [] [] [] w_dep_tail ?_ ?_ ?_).2.2 clear8 ?_ ?_ ?_⟩⟩ <;> decide

/-! #### CalibrationsStartAndSetTheGain -/

def w_cal_q : State := { base with cash := { base.cash with deposit := { count := 1499 } } }
def calRun (n thick : Nat) : State :=
  { withCal { phase := .running, channel := .q, k := 100, tag := 4 } with
      chQ := { gapOpen with flow := .run (List.replicate n thick) [] } }
def noteEndAt (v : Nat) : List Nat := (v + 50) :: List.replicate 8 50
def w_cal_ok : State := calRun 15 64
def w_cal_fail : State := calRun 15 63
def w_cal_frag : State := calRun 14 63
def w_cal_cut : State := calRun 399 100
def w_cal_qtail : State :=
  { withCal { phase := .tail, channel := .q, k := 100, tag := 4, outcome := some .calFailed } with
      chQ := { gapOpen with flow := .tail [] } }
def calRunP (n thick total : Nat) : State :=
  { withCal { phase := .running, channel := .p, k := 100, tag := 4, cassette := 0 } with
      chP := { gapOpen with flow := .run (List.replicate n thick) [] },
      cash := { base.cash with purge := { total := total, perCassette := [total, 0, 0, 0] } } }
def w_calp_ok : State := calRunP 15 64 97
def w_calp_fail : State := calRunP 119 63 97
def w_calp_frag : State := calRunP 14 63 97
def w_calp_full : State := calRunP 15 64 100
def w_calp_lock : State :=
  { calRunP 15 64 97 with
      cal := { (calRunP 15 64 97).cal with locked := true },
      lane := { base.lane with state := .lockdown } }
def w_calp_lockf : State :=
  { calRunP 15 64 100 with
      cal := { (calRunP 15 64 100).cal with locked := true },
      lane := { base.lane with state := .lockdown } }
def w_calp_cut : State := calRunP 399 100 97
def w_calp_cutf : State := calRunP 399 100 99
def w_calp_cutl : State :=
  { calRunP 399 100 97 with
      cal := { (calRunP 399 100 97).cal with locked := true },
      lane := { base.lane with state := .lockdown } }
def w_calp_tail : State :=
  { withCal { phase := .tail, channel := .p, k := 100, tag := 4, outcome := some .calFailed } with
      chP := { gapOpen with flow := .tail [] } }
def w_calp_tail2 : State :=
  { withCal { phase := .tail, channel := .p, k := 100, tag := 4, outcome := some .lockdown } with
      chP := { gapOpen with flow := .tail [] } }
def w_calp_miss : State :=
  { withCal { phase := .waiting, channel := .p, k := 100, tag := 4 } with chP := { gapOpen with flow := .gap 6 300 } }
def w_calp_miss1 : State :=
  { withCal { phase := .waiting, channel := .p, k := 100, tag := 4 } with
      chP := { gapOpen with flow := .gap 6 300 },
      cash := { base.cash with cassettes := [{ c20 with misses := 1 }, c50, {}, {}] } }
def w_calp_miss2 : State :=
  { withCal { phase := .waiting, channel := .p, k := 100, tag := 4 } with
      chP := { gapOpen with flow := .gap 6 300 },
      cash := { base.cash with cassettes := [{ c20 with misses := 2 }, c50, {}, {}] } }
def w_calp_missl : State :=
  { withCal { phase := .waiting, channel := .p, k := 100, tag := 4, locked := true } with
      chP := { gapOpen with flow := .gap 6 300 },
      cash := { base.cash with cassettes := [{ c20 with misses := 2 }, c50, {}, {}] } }

set_option maxRecDepth 20000 in
theorem witness_CalibrationsStartAndSetTheGain :
    Obligations.CalibrationsStartAndSetTheGain →
      (∃ t, exec (.calibrate hdr 1 50 2 true) base = .next t) ∧
      (∃ t, exec (.calibrate hdr 2 1000 0 false) w_cal_q = .next t) ∧
      (∃ t, exec (.runEnd .q (noteEndAt 64)) w_cal_ok = .next t) ∧
      (∃ t, exec (.runEnd .q (noteEndAt 63)) w_cal_fail = .next t) ∧
      (∃ t, exec (.runEnd .q (noteEndAt 63)) w_cal_frag = .next t) ∧
      (∃ t, exec (.runCutOff .q [150]) w_cal_cut = .next t) ∧
      (∃ t, exec (.tailEnd .q clear8) w_cal_qtail = .next t) ∧
      (∃ t, exec (.runEnd .p (noteEndAt 64)) w_calp_ok = .next t) ∧
      (∃ t, exec (.runEnd .p (noteEndAt 63)) w_calp_fail = .next t) ∧
      (∃ t, exec (.runEnd .p (noteEndAt 63)) w_calp_frag = .next t) ∧
      (∃ t, exec (.runEnd .p (noteEndAt 64)) w_calp_full = .next t) ∧
      (∃ t, exec (.runEnd .p (noteEndAt 64)) w_calp_lock = .next t) ∧
      (∃ t, exec (.runEnd .p (noteEndAt 64)) w_calp_lockf = .next t) ∧
      (∃ t, exec (.runCutOff .p [150]) w_calp_cut = .next t) ∧
      (∃ t, exec (.runCutOff .p [150]) w_calp_cutf = .next t) ∧
      (∃ t, exec (.runCutOff .p [150]) w_calp_cutl = .next t) ∧
      (∃ t, exec (.tailEnd .p clear8) w_calp_tail = .next t) ∧
      (∃ t, exec (.tailEnd .p clear8) w_calp_tail2 = .next t) ∧
      (∃ t, exec (.pickMiss [42, 42]) w_calp_miss = .next t) ∧
      (∃ t, exec (.pickMiss [42, 42]) w_calp_miss1 = .next t) ∧
      (∃ t, exec (.pickMiss [42, 42]) w_calp_miss2 = .next t) ∧
      (∃ t, exec (.pickMiss [42, 42]) w_calp_missl = .next t) := by
  intro O
  refine
    ⟨⟨_, (O.1 hdr 50 2 true base ?_ ?_ ?_ ?_ ?_).1 ?_ ?_ ?_ ?_ ?_ ?_ ?_ ?_ ?_⟩,
      ⟨_, (O.1 hdr 1000 0 false w_cal_q ?_ ?_ ?_ ?_ ?_).2 ?_ ?_ ?_ ?_⟩,
      ⟨_, (O.2.1 (noteEndAt 64) (List.replicate 15 64) (List.replicate 16 64) [] clear8 w_cal_ok 64 ?_ ?_ ?_ ?_ ?_
            ?_).1 ?_ ?_ ?_⟩,
      ⟨_, (O.2.1 (noteEndAt 63) (List.replicate 15 63) (List.replicate 16 63) [] clear8 w_cal_fail 63 ?_ ?_ ?_ ?_ ?_
            ?_).2 ?_ ?_⟩,
      ⟨_, (O.2.1 (noteEndAt 63) (List.replicate 14 63) (List.replicate 15 63) [] clear8 w_cal_frag 63 ?_ ?_ ?_ ?_ ?_
            ?_).2 ?_ ?_⟩,
      ⟨_, (O.2.2.1 [150] (List.replicate 399 100) (List.replicate 400 100) [] [] w_cal_cut ?_).1 ?_ ?_ ?_ ?_ ?_⟩,
      ⟨_, (O.2.2.1 clear8 [] [] [] clear8 w_cal_qtail ?_).2 ?_ ?_ ?_ ?_ ?_⟩,
      ⟨_, ((((O.2.2.2 (noteEndAt 64) (List.replicate 15 64) (List.replicate 16 64) [] clear8 [] w_calp_ok 0 c20 ?_ ?_
            ?_ ?_).1 ?_ ?_ ?_ ?_).1 ?_).1 ?_).1 64 ?_ ?_ ?_⟩,
      ⟨_, ((((O.2.2.2 (noteEndAt 63) (List.replicate 119 63) (List.replicate 120 63) [] clear8 [] w_calp_fail 0 c20
            ?_ ?_ ?_ ?_).1 ?_ ?_ ?_ ?_).1 ?_).1 ?_).2 ?_ ?_⟩,
      ⟨_, ((((O.2.2.2 (noteEndAt 63) (List.replicate 14 63) (List.replicate 15 63) [] clear8 [] w_calp_frag 0 c20 ?_
            ?_ ?_ ?_).1 ?_ ?_ ?_ ?_).1 ?_).1 ?_).2 ?_ ?_⟩,
      ⟨_, ((((O.2.2.2 (noteEndAt 64) (List.replicate 15 64) (List.replicate 16 64) [] clear8 [] w_calp_full 0 c20 ?_
            ?_ ?_ ?_).1 ?_ ?_ ?_ ?_).1 ?_).1 ?_).1 64 ?_ ?_ ?_⟩,
      ⟨_, (((O.2.2.2 (noteEndAt 64) (List.replicate 15 64) (List.replicate 16 64) [] clear8 [] w_calp_lock 0 c20 ?_
            ?_ ?_ ?_).1 ?_ ?_ ?_ ?_).1 ?_).2 ?_ ?_⟩,
      ⟨_, (((O.2.2.2 (noteEndAt 64) (List.replicate 15 64) (List.replicate 16 64) [] clear8 [] w_calp_lockf 0 c20 ?_
            ?_ ?_ ?_).1 ?_ ?_ ?_ ?_).1 ?_).2 ?_ ?_⟩,
      ⟨_, ((O.2.2.2 [150] (List.replicate 399 100) (List.replicate 400 100) [] [] [] w_calp_cut 0 c20 ?_ ?_ ?_ ?_).1
            ?_ ?_ ?_ ?_).2 ?_ ?_⟩,
      ⟨_, ((O.2.2.2 [150] (List.replicate 399 100) (List.replicate 400 100) [] [] [] w_calp_cutf 0 c20 ?_ ?_ ?_ ?_).1
            ?_ ?_ ?_ ?_).2 ?_ ?_⟩,
      ⟨_, ((O.2.2.2 [150] (List.replicate 399 100) (List.replicate 400 100) [] [] [] w_calp_cutl 0 c20 ?_ ?_ ?_ ?_).1
            ?_ ?_ ?_ ?_).2 ?_ ?_⟩,
      ⟨_, (O.2.2.2 clear8 [] [] [] [] clear8 w_calp_tail 0 c20 ?_ ?_ ?_ ?_).2.1 (.calFailed) ?_ ?_ ?_ ?_ ?_⟩,
      ⟨_, (O.2.2.2 clear8 [] [] [] [] clear8 w_calp_tail2 0 c20 ?_ ?_ ?_ ?_).2.1 (.lockdown) ?_ ?_ ?_ ?_ ?_⟩,
      ⟨_, (O.2.2.2 [42, 42] [] [] [] [] [] w_calp_miss 0 c20 ?_ ?_ ?_ ?_).2.2 ?_ ?_ ?_⟩,
      ⟨_, (O.2.2.2 [42, 42] [] [] [] [] [] w_calp_miss1 0 ({ c20 with misses := 1 }) ?_ ?_ ?_ ?_).2.2 ?_ ?_ ?_⟩,
      ⟨_, (O.2.2.2 [42, 42] [] [] [] [] [] w_calp_miss2 0 ({ c20 with misses := 2 }) ?_ ?_ ?_ ?_).2.2 ?_ ?_ ?_⟩,
      ⟨_, (O.2.2.2 [42, 42] [] [] [] [] [] w_calp_missl 0 ({ c20 with misses := 2 }) ?_ ?_ ?_ ?_).2.2 ?_ ?_ ?_⟩⟩ <;> decide

/-! #### DispenseIsPlannedAndAdmitted -/

def w_disp_plan : State := { opened with config := { opened.config with s1 := 1100 } }
def held1 (st : State) : State := { st with peer := { st.peer with held := ⟨59500, 0, 0⟩ } }
def w_disp_plan2 : State := held1 opened
def w_disp_duress : State := { opened with alarm := { duress := true } }
def w_disp_ask : State := { opened with config := { opened.config with s1 := 1099 } }
def w_disp_cap : State := held1 opened
def w_disp_busy : State :=
  { opened with
      config := { opened.config with s1 := 519 },
      approval := { bound := some 20, slots := List.replicate 4 { kind := some .alarmClear, ask := 1 } } }
def w_disp_zero : State :=
  { opened with alarm := { duress := true }, config := { opened.config with duressLimit := 0 } }

theorem witness_DispenseIsPlannedAndAdmitted :
    Obligations.DispenseIsPlannedAndAdmitted →
      (∃ t, exec (.dispense hdr (.pairs [(7, 10), (0, 30)])) w_disp_plan = .next t) ∧
      (∃ t, exec (.dispense hdr (.amount 90)) w_disp_plan2 = .next t) ∧
      (∃ t, exec (.dispense hdr (.amount 900)) w_disp_duress = .next t) ∧
      (∃ t, exec (.dispense hdr (.pairs [(7, 10), (0, 30)])) w_disp_ask = .next t) ∧
      (∃ t, exec (.dispense hdr (.amount 30)) opened = .next t) ∧
      (∃ t, exec (.dispense hdr (.amount 520)) w_disp_cap = .next t) ∧
      (∃ t, exec (.dispense hdr (.amount 520)) w_disp_busy = .next t) ∧
      (∃ t, exec (.dispense hdr (.amount 20)) w_disp_zero = .next t) ∧
      (∃ t, planRequest opened (.pairs [(7, 11)]) = t) ∧
      (∃ t, planRequest opened (.pairs [(0, 41)]) = t) ∧
      (∃ t, (planRequest opened (.pairs [(0, 30), (7, 10)])).isSome = t) ∧
      [(⟨7, 10, 0⟩ : PlanPair), ⟨0, 30, 0⟩].Perm ([(0, 30), (7, 10)].map fun p => ⟨p.1, p.2, 0⟩) ∧
      (∃ t, clampRequest opened (.amount 501) = t) ∧
      (∃ t, clampRequest opened (.pairs [(0, 26)]) = t) := by
  intro O
  refine
    ⟨⟨_, O.1 hdr (.pairs [(7, 10), (0, 30)]) w_disp_plan [⟨7, 10, 0⟩, ⟨0, 30, 0⟩] 1100 ?_ ?_ ?_ ?_ ?_ ?_ ?_⟩,
      ⟨_, O.1 hdr (.amount 90) w_disp_plan2 [⟨7, 1, 0⟩, ⟨0, 2, 0⟩] 90 ?_ ?_ ?_ ?_ ?_ ?_ ?_⟩,
      ⟨_, O.1 hdr (.amount 900) w_disp_duress [⟨7, 10, 0⟩] 500 ?_ ?_ ?_ ?_ ?_ ?_ ?_⟩,
      ⟨_, O.2.1 hdr (.pairs [(7, 10), (0, 30)]) w_disp_ask [⟨7, 10, 0⟩, ⟨0, 30, 0⟩] 1100 0 ?_ ?_ ?_ ?_ ?_ ?_ ?_⟩,
      ⟨_, (O.2.2.1 hdr (.amount 30) opened ?_).1 ?_ ?_ ?_⟩,
      ⟨_, (O.2.2.1 hdr (.amount 520) w_disp_cap ?_).2.1 [⟨7, 10, 0⟩, ⟨0, 1, 0⟩] 520 ?_ ?_ ?_ ?_⟩,
      ⟨_, (O.2.2.1 hdr (.amount 520) w_disp_busy ?_).2.2.1 [⟨7, 10, 0⟩, ⟨0, 1, 0⟩] 520 ?_ ?_ ?_ ?_ ?_ ?_⟩,
      ⟨_, (O.2.2.1 hdr (.amount 20) w_disp_zero ?_).2.2.2 ?_ ?_ ?_⟩,
      ⟨_, (O.2.2.2 opened 0 [(7, 11)]).2.2.1 ?_⟩,
      ⟨_, (O.2.2.2 opened 0 [(0, 41)]).2.2.1 ?_⟩,
      ⟨_, ((O.2.2.2 opened 0 [(0, 30), (7, 10)]).2.2.2 ?_ ?_ ?_).1⟩,
      (((O.2.2.2 opened 0 [(0, 30), (7, 10)]).2.2.2 ?_ ?_ ?_).2 [⟨7, 10, 0⟩, ⟨0, 30, 0⟩] 1100 ?_).2.1,
      ⟨_, (O.2.2.2 opened 501 [(0, 26)]).1⟩,
      ⟨_, (O.2.2.2 opened 501 [(0, 26)]).2.1⟩⟩ <;> decide

/-! #### CancelActsByEngineState -/

def d0 : Dispense :=
  { console := 20,
    tag := 3,
    plan := [⟨0, 2, 1⟩],
    planValue := 40,
    lastCassette := some 0,
    stackerNotes := 1,
    stackerValue := 20 }
def w_cancel_appr : State :=
  { withDisp { d0 with st := .awaitApproval, slot := some ⟨0, 1⟩ } with
      approval := waits .dispense 40,
      bus := { part := true, queue := [{ frame := plainFrame .approval 31 false false .ask 1 [], owner := .ask 0 }] } }
def requested (st : State) (k : IntentKind) : State :=
  { st with
      peer := { st.peer with request := some { kind := k, amount := 40, refusals := 2 } },
      bus := { st.bus with queue := [intentFrame k] } }
def dispIn (st : DispState) : State := { withDisp { d0 with st := st } with peer := { held := ⟨540, 500, 40⟩ } }
def w_cancel_ceil : State := requested (dispIn .awaitCeiling) .dispense
def requestedTx (st : State) (k : IntentKind) : State :=
  { st with
      peer := { st.peer with request := some { kind := k, amount := 40, refusals := 2 } },
      bus := { st.bus with queue := [positionFrame, { intentFrame k with inTx := true }] } }
def w_cancel_ceil2 : State := requestedTx (dispIn .awaitCeiling) .dispense
def w_cancel_zero : State := { dispIn .zeroCapture with chP := { capturing := true } }
def w_cancel_pick : State := dispIn .picking
def w_cancel_pick2 : State :=
  { dispIn .picking with disp := { (dispIn .picking).disp with stop := some .rejectLimit } }
def w_cancel_late : State := dispIn .retracting

theorem witness_CancelActsByEngineState :
    Obligations.CancelActsByEngineState →
      (∃ t, exec (.cancel hdr) w_cancel_appr = .next t) ∧
      (∃ t, exec (.cancel hdr) w_cancel_ceil = .next t) ∧
      (∃ t, exec (.cancel hdr) w_cancel_ceil2 = .next t) ∧
      (∃ t, exec (.cancel hdr) w_cancel_zero = .next t) ∧
      (∃ t, exec (.cancel hdr) w_cancel_pick = .next t) ∧
      (∃ t, exec (.cancel hdr) w_cancel_pick2 = .next t) ∧
      (∃ t, exec (.cancel hdr) opened = .next t) ∧
      (∃ t, exec (.cancel hdr) w_cancel_late = .next t) := by
  intro O
  refine
    ⟨⟨_, (O hdr w_cancel_appr ?_ ?_).1 (⟨0, 1⟩) ?_ ?_ ?_ ?_ ?_ ?_⟩,
      ⟨_, (O hdr w_cancel_ceil ?_ ?_).2.1 ?_ ?_ ?_ ?_ ?_⟩,
      ⟨_, (O hdr w_cancel_ceil2 ?_ ?_).2.1 ?_ ?_ ?_ ?_ ?_⟩,
      ⟨_, (O hdr w_cancel_zero ?_ ?_).2.2.1 ?_ ?_ ?_ ?_⟩,
      ⟨_, (O hdr w_cancel_pick ?_ ?_).2.2.2.1 ?_ ?_⟩,
      ⟨_, (O hdr w_cancel_pick2 ?_ ?_).2.2.2.1 ?_ ?_⟩,
      ⟨_, (O hdr opened ?_ ?_).2.2.2.2.1 ?_ ?_⟩,
      ⟨_, (O hdr w_cancel_late ?_ ?_).2.2.2.2.2 ?_ ?_⟩⟩ <;> decide

/-! #### RequestsRunOutOrAreTestedAgain -/

def w_out_disp : State := requestedTx (dispIn .awaitCeiling) .dispense
def depIn (st : DepState) : State :=
  { withDep { st := st, console := 20, tag := 3, escrow := [⟨0, 20, 100⟩], limit := 60, pocketRefusals := 2 } with
      peer := { held := ⟨540, 0, 540⟩ } }
def w_out_dep : State := requested (depIn .awaitCeiling) .deposit
def heldReq (n : Nat) : IntentRequest :=
  { kind := .dispense, amount := n, phase := .heldBack, refusedAt := some 4, refusals := 255 }
def heldBackState (n : Nat) : State :=
  { dispIn .awaitCeiling with
      peer := {
          held := ⟨60000, 0, 0⟩,
          request := some (heldReq n),
          entries := (List.replicate 31 {
 }
            ).set 5 { kind := some .lane, status := .live, held := 39000, cap := 50000, known := true } } }
def w_retest_ok : State := heldBackState 1000
def w_retest_no : State := heldBackState 1001
def w_retest_pos : State := heldBackState 1001

theorem witness_RequestsRunOutOrAreTestedAgain :
    Obligations.RequestsRunOutOrAreTestedAgain →
      (∃ t, exec .dispenseCeilingTimeout w_out_disp = .next t) ∧
      (∃ t, exec .depositCeilingTimeout w_out_dep = .next t) ∧
      (∃ t, exec .intentSpacingEnd w_retest_ok = .next t) ∧
      (∃ t, exec .intentSpacingEnd w_retest_no = .next t) ∧
      (∃ t, exec (.peerPosition 5 {
          held := 38999,
          cap := 50000,
          laneState := .opened,
          summary := .none,
          vehicle := false,
          slots := 0 }) w_retest_pos = .next t) := by
  intro O
  refine
    ⟨⟨_, (O.1 w_out_disp ?_ ?_ ?_).1 ?_ ?_⟩,
      ⟨_, (O.1 w_out_dep ?_ ?_ ?_).2 ?_ ?_⟩,
      ⟨_, (O.2 w_retest_ok (heldReq 1000) ?_ ?_ ?_).1 ?_ ?_⟩,
      ⟨_, (O.2 w_retest_no (heldReq 1001) ?_ ?_ ?_).2.1 ?_ ?_⟩,
      ⟨_, (O.2 w_retest_pos (heldReq 1001) ?_ ?_ ?_).2.2 5 (⟨38999, 50000, .opened, .none, false, 0⟩) ?_ ?_ ?_ ?_ ?_
            ?_ ?_ ?_⟩⟩ <;> decide

/-! #### TakesCloseTheShutter -/

def shutterOpen (s : State) : State := { s with drives := { s.drives with pocketShutter := true } }
def pres : Dispense :=
  { d0 with
      st := .presenting,
      presentedNotes := 1,
      presentedValue := 20,
      takeMs := some 0,
      stackerNotes := 0,
      stackerValue := 0 }
def w_taken : State :=
  shutterOpen { withDisp pres with
      peer := { held := ⟨540, 500, 40⟩ },
      fault := { shift := { dispValue := 16777200 } } }
def w_ret_taken : State := shutterOpen (depIn .returnPresented)
def w_ref_taken : State := shutterOpen (depIn .feeding)
def clearing (st : DepState) (e : List EscrowEntry) : State :=
  shutterOpen { withDep { st := st, console := 20, tag := 3, escrow := e, limit := 60, pocketRefusals := 2, clearance := .opened, takeMs := some 0 } with
      peer := { held := ⟨540, 0, 540⟩ } }
def w_clr_taken : State := clearing .holding []
def w_clr_taken2 : State := clearing .stacking []
def w_cal_taken : State :=
  shutterOpen (withCal { phase := .inPocket, channel := .q, outcome := some .calibrated, tag := 5 })

theorem witness_TakesCloseTheShutter :
    Obligations.TakesCloseTheShutter →
      (∃ t, exec .dispenseTaken w_taken = .next t) ∧
      (∃ t, exec .returnTaken w_ret_taken = .next t) ∧
      (∃ t, exec .refusedNotesTaken w_ref_taken = .next t) ∧
      (∃ t, exec .clearanceTaken w_clr_taken = .next t) ∧
      (∃ t, exec .clearanceTaken w_clr_taken2 = .next t) ∧
      (∃ t, exec .calibrationNoteTaken w_cal_taken = .next t) := by
  intro O
  refine
    ⟨⟨_, (O w_taken).1 ?_ ?_ ?_ ?_⟩,
      ⟨_, (O w_ret_taken).2.1 ?_ ?_ ?_⟩,
      ⟨_, (O w_ref_taken).2.2.1 ?_ ?_⟩,
      ⟨_, ((O w_clr_taken).2.2.2.1 ?_ ?_).1 ?_ ?_⟩,
      ⟨_, ((O w_clr_taken2).2.2.2.1 ?_ ?_).2 ?_ ?_ ?_ ?_⟩,
      ⟨_, (O w_cal_taken).2.2.2.2 (.calibrated) ?_ ?_ ?_ ?_⟩⟩ <;> decide

/-! #### TakeTimersRetractThePocket -/

def w_tt_disp : State := shutterOpen (withDisp pres)
def w_tt_ret : State := shutterOpen (withDep { st := .returnPresented, presentedNotes := 196, presentedValue := 900 })
def w_tt_clr : State := clearing .holding []
def w_tt_cal : State :=
  shutterOpen (withCal { phase := .inPocket, channel := .q, outcome := some .calibrated, tag := 5 })
def w_tt_cal2 : State :=
  { withCal { phase := .waiting, channel := .q, tag := 5, takeMs := some 0 } with
      chQ := { gapOpen with flow := .gap 8 (8*42) } }

theorem witness_TakeTimersRetractThePocket :
    Obligations.TakeTimersRetractThePocket →
      (∃ t, exec .dispenseTakeTimeout w_tt_disp = .next t) ∧
      (∃ t, exec .returnTakeTimeout w_tt_ret = .next t) ∧
      (∃ t, exec .clearanceTakeTimeout w_tt_clr = .next t) ∧
      (∃ t, exec (.calibrationTakeTimeout [42, 42]) w_tt_cal = .next t) ∧
      (∃ t, exec (.calibrationTakeTimeout [42, 42]) w_tt_cal2 = .next t) := by
  intro O
  refine
    ⟨⟨_, (O [42, 42] w_tt_disp).1 ?_ ?_ ?_⟩,
      ⟨_, (O [42, 42] w_tt_ret).2.1 ?_ ?_⟩,
      ⟨_, (O [42, 42] w_tt_clr).2.2.1 ?_ ?_⟩,
      ⟨_, (O [42, 42] w_tt_cal).2.2.2.1 ?_ ?_⟩,
      ⟨_, (O [42, 42] w_tt_cal2).2.2.2.2 ?_ ?_ ?_ ?_ ?_⟩⟩ <;> decide

/-! #### MissedPickCountsAndGoesOn -/

def missing (m : Nat) : State :=
  { withDisp { st := .picking, pick := .gateOpen, console := 20, tag := 3, plan := [⟨0, 2, 0⟩], planValue := 40, lastCassette := some 0 } with
      chP := gapOpen,
      cash := { base.cash with cassettes := [{ c20 with misses := m }, c50, c20, {}]} }
def w_miss1 : State := missing 1
def w_miss3 : State := missing 2
def w_miss_short : State :=
  { missing 1 with disp := { (missing 1).disp with plan := [⟨5, 2, 0⟩], stackerNotes := 3 } }
def w_miss_short3 : State :=
  { missing 2 with disp := { (missing 2).disp with plan := [⟨5, 2, 0⟩], stackerNotes := 0 } }
def w_miss_stop : State := { missing 2 with disp := { (missing 2).disp with stop := some .cancelled } }
def w_miss_lost : State :=
  { missing 0 with
      disp := { (missing 0).disp with stackerNotes := 3 },
      chP := { gapOpen with lost := true },
      cash := { (missing 0).cash with purge := { total := 98 } } }

theorem witness_MissedPickCountsAndGoesOn :
    Obligations.MissedPickCountsAndGoesOn →
      (∃ t, exec (.pickMiss [42, 90, 42]) w_miss1 = .next t) ∧
      (∃ t, exec (.pickMiss [42, 42]) w_miss3 = .next t) ∧
      (∃ t, exec (.pickMiss [42, 42]) w_miss_short = .next t) ∧
      (∃ t, exec (.pickMiss [42, 42]) w_miss_short3 = .next t) ∧
      (∃ t, exec (.pickMiss [42, 42]) w_miss_stop = .next t) ∧
      (∃ t, exec (.pickMiss [42, 42]) w_miss_lost = .next t) := by
  intro O
  refine
    ⟨⟨_, (O.2.2 [42, 90, 42] w_miss1 0 0 ({ c20 with misses := 1 }) ?_ ?_ ?_ ?_ ?_).1 0 ?_ ?_ ?_⟩,
      ⟨_, (O.2.2 [42, 42] w_miss3 0 0 ({ c20 with misses := 2 }) ?_ ?_ ?_ ?_ ?_).1 2 ?_ ?_ ?_⟩,
      ⟨_, (O.2.2 [42, 42] w_miss_short 0 0 ({ c20 with misses := 1 }) ?_ ?_ ?_ ?_ ?_).2.1 ?_ ?_ ?_⟩,
      ⟨_, (O.2.2 [42, 42] w_miss_short3 0 0 ({ c20 with misses := 2 }) ?_ ?_ ?_ ?_ ?_).2.1 ?_ ?_ ?_⟩,
      ⟨_, (O.2.2 [42, 42] w_miss_stop 0 0 ({ c20 with misses := 2 }) ?_ ?_ ?_ ?_ ?_).2.2 (.cancelled) ?_ ?_⟩,
      ⟨_, (O.2.2 [42, 42] w_miss_lost 0 0 ({ c20 with misses := 0 }) ?_ ?_ ?_ ?_ ?_).2.2 (.zeroFault) ?_ ?_⟩⟩ <;> decide

/-! #### PicksEndAtTheStackerOrTheTail -/

def toStk (n : Nat) : State :=
  { withDisp { st := .picking, pick := .toStacker, owed := 1, console := 20, tag := 3, plan := [⟨0, n, 0⟩], planValue := 40, lastCassette := some 0 } with
      chP := gapOpen }
def w_stk_last : State := toStk 1
def w_stk_next : State := toStk 2
def w_stk_stands : State := { toStk 3 with disp := { (toStk 3).disp with owed := 2 } }
def w_stk_run : State :=
  { toStk 3 with disp := { (toStk 3).disp with pick := .running }, chP := { gapOpen with flow := .run [40] [] } }
def w_stk_pair : State := { toStk 1 with disp := { (toStk 1).disp with plan := [⟨0, 1, 0⟩, ⟨7, 1, 0⟩], owed := 2 } }
def w_stk_pair2 : State := { toStk 1 with disp := { (toStk 1).disp with plan := [⟨0, 1, 0⟩, ⟨7, 1, 0⟩] } }
def w_stk_short : State := { toStk 1 with disp := { (toStk 1).disp with plan := [⟨0, 1, 0⟩, ⟨5, 1, 0⟩] } }
def w_stk_zero : State := { toStk 1 with chP := { gapOpen with drift := 7 } }
def w_stk_stop : State := { toStk 2 with disp := { (toStk 2).disp with stop := some .cancelled } }
def w_stk_stop2 : State :=
  { toStk 1 with disp := { (toStk 1).disp with stop := some .lockdown, owed := 2, pick := .running } }
def w_stk_lost : State := { toStk 2 with chP := { gapOpen with lost := true } }
def w_stk_tail : State :=
  { withDisp { st := .picking, pick := .tail, console := 20, tag := 3, plan := [⟨0, 2, 0⟩], planValue := 40, lastCassette := some 0 } with
      chP := { gapOpen with flow := .tail [50, 50] } }
def w_stk_tail2 : State :=
  { withDisp { st := .picking, pick := .tail, owed := 1, console := 20, tag := 3, plan := [⟨0, 2, 0⟩], planValue := 40, lastCassette := some 0 } with
      chP := { gapOpen with flow := .tail [50, 50] } }
def w_tail_short : State :=
  { withDisp { st := .picking, pick := .tail, console := 20, tag := 3, plan := [⟨5, 2, 0⟩], planValue := 40, lastCassette := some 0, stackerNotes := 1 } with
      chP := { gapOpen with flow := .tail [] } }
def w_tail_stop : State :=
  { withDisp { st := .picking, pick := .tail, console := 20, tag := 3, plan := [⟨0, 2, 0⟩], planValue := 40, lastCassette := some 0, stop := some .cancelled } with
      chP := { gapOpen with flow := .tail [] } }
def w_tail_lost : State :=
  { withDisp { st := .picking, pick := .tail, console := 20, tag := 3, plan := [⟨0, 2, 0⟩], planValue := 40, lastCassette := some 0 } with
      chP := { gapOpen with flow := .tail [], lost := true } }

theorem witness_PicksEndAtTheStackerOrTheTail :
    Obligations.PicksEndAtTheStackerOrTheTail →
      (∃ t, exec (.stackerCountIn [42, 42, 42, 42, 42, 42, 42, 42]) w_stk_last = .next t) ∧
      (∃ t, exec (.stackerCountIn [42, 42]) w_stk_next = .next t) ∧
      (∃ t, exec (.stackerCountIn [42, 42]) w_stk_stands = .next t) ∧
      (∃ t, exec (.stackerCountIn [90, 92]) w_stk_run = .next t) ∧
      (∃ t, exec (.stackerCountIn [42, 42]) w_stk_pair = .next t) ∧
      (∃ t, exec (.stackerCountIn [42, 42]) w_stk_pair2 = .next t) ∧
      (∃ t, exec (.stackerCountIn [42, 42]) w_stk_short = .next t) ∧
      (∃ t, exec (.stackerCountIn [59, 59, 59, 59, 59, 59, 59, 59]) w_stk_zero = .next t) ∧
      (∃ t, exec (.stackerCountIn [42]) w_stk_stop = .next t) ∧
      (∃ t, exec (.stackerCountIn [42]) w_stk_stop2 = .next t) ∧
      (∃ t, exec (.stackerCountIn [42]) w_stk_lost = .next t) ∧
      (∃ t, exec (.tailEnd .p [200, 50, 50, 50, 50, 50, 50, 50, 50]) w_stk_tail = .next t) ∧
      (∃ t, exec (.tailEnd .p [200, 50, 50, 50, 50, 50, 50, 50, 50]) w_stk_tail2 = .next t) ∧
      (∃ t, exec (.tailEnd .p clear8) w_tail_short = .next t) ∧
      (∃ t, exec (.tailEnd .p clear8) w_tail_stop = .next t) ∧
      (∃ t, exec (.tailEnd .p clear8) w_tail_lost = .next t) := by
  intro O
  refine
    ⟨⟨_, ((O.1 [42, 42, 42, 42, 42, 42, 42, 42] w_stk_last 0 20 c20 ?_ ?_ ?_ ?_ ?_ ?_).1 ?_ ?_).1 ?_ ?_⟩,
      ⟨_, ((O.1 [42, 42] w_stk_next 0 20 c20 ?_ ?_ ?_ ?_ ?_ ?_).2.1 0 ?_ ?_ ?_ ?_).1 0 ?_⟩,
      ⟨_, (O.1 [42, 42] w_stk_stands 0 20 c20 ?_ ?_ ?_ ?_ ?_ ?_).2.2.2.2 ?_ ?_⟩,
      ⟨_, (O.1 [90, 92] w_stk_run 0 20 c20 ?_ ?_ ?_ ?_ ?_ ?_).2.2.2.2 ?_ ?_⟩,
      ⟨_, (O.1 [42, 42] w_stk_pair 0 20 c20 ?_ ?_ ?_ ?_ ?_ ?_).2.2.2.2 ?_ ?_⟩,
      ⟨_, ((O.1 [42, 42] w_stk_pair2 0 20 c20 ?_ ?_ ?_ ?_ ?_ ?_).2.1 1 ?_ ?_ ?_ ?_).1 1 ?_⟩,
      ⟨_, ((O.1 [42, 42] w_stk_short 0 20 c20 ?_ ?_ ?_ ?_ ?_ ?_).2.1 1 ?_ ?_ ?_ ?_).2 ?_ ?_⟩,
      ⟨_, ((O.1 [59, 59, 59, 59, 59, 59, 59, 59] w_stk_zero 0 20 c20 ?_ ?_ ?_ ?_ ?_ ?_).1 ?_ ?_).2 ?_ ?_⟩,
      ⟨_, (O.1 [42] w_stk_stop 0 20 c20 ?_ ?_ ?_ ?_ ?_ ?_).2.2.1 (.cancelled) ?_ ?_ ?_⟩,
      ⟨_, (O.1 [42] w_stk_stop2 0 20 c20 ?_ ?_ ?_ ?_ ?_ ?_).2.2.1 (.lockdown) ?_ ?_ ?_⟩,
      ⟨_, (O.1 [42] w_stk_lost 0 20 c20 ?_ ?_ ?_ ?_ ?_ ?_).2.2.2.1 ?_ ?_ ?_ ?_ ?_⟩,
      ⟨_, (((O.2 [200, 50, 50, 50, 50, 50, 50, 50, 50] [50, 50] clear8 w_stk_tail ?_ ?_ ?_ ?_ ?_ ?_).2 ?_).1 0 ?_ ?_
            ?_).1 0 ?_⟩,
      ⟨_, (O.2 [200, 50, 50, 50, 50, 50, 50, 50, 50] [50, 50] clear8 w_stk_tail2 ?_ ?_ ?_ ?_ ?_ ?_).1 ?_⟩,
      ⟨_, (((O.2 clear8 [] clear8 w_tail_short ?_ ?_ ?_ ?_ ?_ ?_).2 ?_).1 0 ?_ ?_ ?_).2 ?_ ?_⟩,
      ⟨_, ((O.2 clear8 [] clear8 w_tail_stop ?_ ?_ ?_ ?_ ?_ ?_).2 ?_).2 (.cancelled) ?_ ?_⟩,
      ⟨_, ((O.2 clear8 [] clear8 w_tail_lost ?_ ?_ ?_ ?_ ?_ ?_).2 ?_).2 (.zeroFault) ?_ ?_⟩⟩ <;> decide

/-! #### StackerMovementsEnd -/

def presenting (m : StackerMove) (sn : Nat) (total : Nat) : State :=
  { withDisp { st := .presenting, move := m, console := 20, tag := 3, plan := [⟨0, 2, 2⟩], planValue := 40, lastCassette := some 0, stackerNotes := sn, stackerValue := 20 * sn } with
      peer := { held := ⟨540, 500, 40⟩ },
      cash := { base.cash with purge := { total := total } } }
def w_mv_present : State := presenting .present 2 5
def returning : State :=
  withDep { st := .returning, move := .toPocket, escrow := [⟨0, 20, 100⟩], pocketRefusals := 2, tag := 3 }
def w_mv_cal : State := withCal { phase := .toPocket, channel := .q, outcome := some .calFailed }
def w_mv_purge : State :=
  { presenting .purge 2 98 with
      disp := { (presenting .purge 2 98).disp with st := .purging, decided := some .short } }
def recov (r : Recovery) : State := { base with lane := { base.lane with state := .recovery, recovery := r } }
def w_mv_rec : State := recov { active := true, stacker := .running, stackerValue := 16777215 }
def w_mv_rev1 : State := presenting .reverse 2 98
def w_mv_rev2 : State := presenting .reverse 0 98
def w_mv_rev3 : State := presenting .reverse 3 98

theorem witness_StackerMovementsEnd :
    Obligations.StackerMovementsEnd →
      (∃ t, exec .presentMovementEnd w_mv_present = .next t) ∧
      (∃ t, exec .returnBundleInPocket returning = .next t) ∧
      (∃ t, exec .calibrationNoteAtPocket w_mv_cal = .next t) ∧
      (∃ t, exec .purgeMovementEnd w_mv_purge = .next t) ∧
      (∃ t, exec .purgeMovementEnd w_mv_rec = .next t) ∧
      (∃ t, exec .stackerReversalEnd w_mv_rev1 = .next t) ∧
      (∃ t, exec .stackerReversalEnd w_mv_rev2 = .next t) ∧
      (∃ t, exec .stackerReversalEnd w_mv_rev3 = .next t) := by
  intro O
  refine
    ⟨⟨_, (O.1 w_mv_present).1 ?_ ?_⟩,
      ⟨_, (O.1 returning).2.1 ?_ ?_⟩,
      ⟨_, (O.1 w_mv_cal).2.2 ?_⟩,
      ⟨_, (O.2 w_mv_purge).1 (.short) ?_ ?_ ?_ ?_ ?_⟩,
      ⟨_, (O.2 w_mv_rec).2.1 ?_ ?_ ?_⟩,
      ⟨_, ((O.2 w_mv_rev1).2.2 ?_ ?_).1 ?_ ?_ ?_⟩,
      ⟨_, ((O.2 w_mv_rev2).2.2 ?_ ?_).2.1 ?_ ?_ ?_⟩,
      ⟨_, ((O.2 w_mv_rev3).2.2 ?_ ?_).2.2 ?_ ?_ ?_⟩⟩ <;> decide

/-! #### DispenserJams -/

def w_jam_zero : State :=
  { withDisp { st := .zeroCapture, console := 20, tag := 3, lastCassette := some 2 } with
      chP := { capturing := true, flow := .none },
      peer := { held := ⟨540, 500, 40⟩ } }
def w_jam_czero : State :=
  { withCal { phase := .zeroCapture, channel := .p, tag := 4 } with chP := { capturing := true } }
def w_jam_crun : State := calRunP 5 60 4
def w_jam_clock : State :=
  { calRunP 5 60 4 with
      cal := { (calRunP 5 60 4).cal with locked := true },
      lane := { base.lane with state := .lockdown } }
def w_jam_ctail : State :=
  { withCal { phase := .tail, channel := .p, outcome := some .calFailed, locked := true } with
      chP := { gapOpen with flow := .tail [50] } }
def pickJam (sn total : Nat) : State :=
  { withDisp { st := .picking, pick := .tail, console := 20, tag := 3, lastCassette := some 2, stackerNotes := sn } with
      chP := { gapOpen with flow := .gap 8 (8*42) },
      peer := { held := ⟨540, 500, 40⟩ },
      cash := { base.cash with purge := { total := total } } }
def w_jam_pick1 : State := pickJam 2 98
def w_jam_pick2 : State := pickJam 0 100
def w_jam_pick3 : State := pickJam 2 99
def w_jam_stop : State :=
  { pickJam 2 98 with disp := { (pickJam 2 98).disp with stop := some .cancelled, owed := 1 } }
def w_jam_purge : State :=
  { presenting .purge 2 98 with
      disp := { (presenting .purge 2 98).disp with st := .purging, decided := some .short } }
def w_jam_present : State := presenting .present 2 5
def w_jam_reverse : State := presenting .reverse 2 5

theorem witness_DispenserJams :
    Obligations.DispenserJams →
      (∃ t, exec (.zeroCaptureStall .p) w_jam_zero = .next t) ∧
      (∃ t, exec (.zeroCaptureStall .p) w_jam_czero = .next t) ∧
      (∃ t, exec (.pickJam [42, 90]) w_jam_crun = .next t) ∧
      (∃ t, exec .pickJam w_jam_clock = .next t) ∧
      (∃ t, exec .pickJam w_jam_ctail = .next t) ∧
      (∃ t, exec (.pickJam [42, 90]) w_jam_pick1 = .next t) ∧
      (∃ t, exec (.pickJam [42, 90]) w_jam_pick2 = .next t) ∧
      (∃ t, exec (.pickJam [42, 90]) w_jam_pick3 = .next t) ∧
      (∃ t, exec (.pickJam [42]) w_jam_stop = .next t) ∧
      (∃ t, exec .stackerPurgeJam w_jam_purge = .next t) ∧
      (∃ t, exec .presentJam w_jam_present = .next t) ∧
      (∃ t, exec .stackerReversalJam w_jam_reverse = .next t) := by
  intro O
  refine
    ⟨⟨_, (O [42, 90] w_jam_zero).1 ?_ ?_ ?_ ?_ ?_⟩,
      ⟨_, ((O [42, 90] w_jam_czero).2.1 ?_ ?_).1 ?_ ?_ ?_⟩,
      ⟨_, ((O [42, 90] w_jam_crun).2.1 ?_ ?_).2 ?_ ?_ ?_⟩,
      ⟨_, ((O [] w_jam_clock).2.1 ?_ ?_).2 ?_ ?_ ?_⟩,
      ⟨_, ((O [] w_jam_ctail).2.1 ?_ ?_).2 ?_ ?_ ?_⟩,
      ⟨_, (O [42, 90] w_jam_pick1).2.2.1 ?_ ?_ ?_⟩,
      ⟨_, (O [42, 90] w_jam_pick2).2.2.1 ?_ ?_ ?_⟩,
      ⟨_, (O [42, 90] w_jam_pick3).2.2.1 ?_ ?_ ?_⟩,
      ⟨_, (O [42] w_jam_stop).2.2.1 ?_ ?_ ?_⟩,
      ⟨_, (O [42, 90] w_jam_purge).2.2.2.1 (.short) ?_ ?_ ?_⟩,
      ⟨_, (O [42, 90] w_jam_present).2.2.2.2.1 ?_ ?_⟩,
      ⟨_, (O [42, 90] w_jam_reverse).2.2.2.2.2 ?_ ?_⟩⟩ <;> decide

/-! #### DepositJams -/

def w_dj_zero : State :=
  { withDep { st := .zeroCapture, console := 20, tag := 3 } with
      chQ := { capturing := true },
      peer := { held := ⟨540, 40, 500⟩ } }
def w_dj_czero : State :=
  { withCal { phase := .zeroCapture, channel := .q, tag := 4 } with chQ := { capturing := true } }
def w_dj_crun : State := calRun 5 60
def w_dj_ctail : State :=
  { withCal { phase := .tail, channel := .q, outcome := some .calFailed, tag := 4 } with
      chQ := { gapOpen with flow := .tail [50] } }
def w_dj_cpock : State := withCal { phase := .toPocket, channel := .q, outcome := some .calibrated, tag := 4 }
def w_dj_cstack : State := withCal { phase := .stacking, channel := .q, outcome := some .calFailed, tag := 4 }
def depMoving (p : Nat) (st : DepState) : State :=
  { withDep { st := st, console := 20, tag := 3, escrow := [⟨0, 20, 100⟩], pocketRefusals := p, toPocket := 1, closing := some {} } with
      chQ := { gapOpen with flow := .gap 8 (8*42) } }
def w_dj_move : State := depMoving 0 .feeding
def w_dj_move2 : State := depMoving 1 .feeding
def accept7 : WaitingAccept := { header := hdr }
def hdr8 : Header := ⟨20, 8, false⟩
def accept8 : WaitingAccept := { header := hdr8 }
def w_dj_accepts : State :=
  { depMoving 0 .feeding with
      dep := { (depMoving 0 .feeding).dep with closing := some { giveBack := true, accepts := [accept7, accept8] } } }
def w_dj_lockdown : State := { depMoving 1 .feeding with lane := { base.lane with state := .lockdown } }

theorem witness_DepositJams :
    Obligations.DepositJams →
      (∃ t, exec (.zeroCaptureStall .q) w_dj_zero = .next t) ∧
      (∃ t, exec (.zeroCaptureStall .q) w_dj_czero = .next t) ∧
      (∃ t, exec (.depositJam [42, 90]) w_dj_crun = .next t) ∧
      (∃ t, exec (.depositJam [42]) w_dj_ctail = .next t) ∧
      (∃ t, exec .depositJam w_dj_cpock = .next t) ∧
      (∃ t, exec .depositJam w_dj_cstack = .next t) ∧
      (∃ t, exec (.depositJam [42, 90]) w_dj_move = .next t) ∧
      (∃ t, exec (.depositJam [42, 90]) w_dj_move2 = .next t) ∧
      (∃ t, exec (.depositJam [42, 90]) returning = .next t) ∧
      (∃ t, exec (.depositJam [42]) w_dj_accepts = .next t) ∧
      (∃ t, exec (.depositJam [42]) w_dj_lockdown = .next t) := by
  intro O
  refine
    ⟨⟨_, (O [42, 90] w_dj_zero).1 ?_ ?_ ?_ ?_ ?_⟩,
      ⟨_, ((O [42, 90] w_dj_czero).2.1 ?_ ?_).1 ?_ ?_ ?_⟩,
      ⟨_, ((O [42, 90] w_dj_crun).2.1 ?_ ?_).2.1 ?_ ?_⟩,
      ⟨_, ((O [42] w_dj_ctail).2.1 ?_ ?_).2.1 ?_ ?_⟩,
      ⟨_, ((O [] w_dj_cpock).2.1 ?_ ?_).2.1 ?_ ?_⟩,
      ⟨_, ((O [] w_dj_cstack).2.1 ?_ ?_).2.2 (.calFailed) ?_ ?_ ?_⟩,
      ⟨_, ((O [42, 90] w_dj_move).2.2 ?_ ?_ ?_).1 ?_⟩,
      ⟨_, ((O [42, 90] w_dj_move2).2.2 ?_ ?_ ?_).2 ?_ ?_⟩,
      ⟨_, ((O [42, 90] returning).2.2 ?_ ?_ ?_).1 ?_⟩,
      ⟨_, ((O [42] w_dj_accepts).2.2 ?_ ?_ ?_).1 ?_⟩,
      ⟨_, ((O [42] w_dj_lockdown).2.2 ?_ ?_ ?_).2 ?_ ?_⟩⟩ <;> decide

/-! #### DepositOpenAsksForReservation -/

def withDeposited (n : Nat) : State := { opened with cash := { base.cash with deposit := { count := n } } }
def w_do_ask : State := { withDeposited 1499 with peer := { held := ⟨59999, 0, 0⟩ } }
def w_do_full : State := withDeposited 1500
def w_do_cap : State := { withDeposited 1499 with peer := { held := ⟨60000, 0, 0⟩ } }

theorem witness_DepositOpenAsksForReservation :
    Obligations.DepositOpenAsksForReservation →
      (∃ t, exec (.depositOpen hdr) w_do_ask = .next t) ∧
      (∃ t, exec (.depositOpen hdr) w_do_full = .next t) ∧
      (∃ t, exec (.depositOpen hdr) w_do_cap = .next t) := by
  intro O
  refine
    ⟨⟨_, (O hdr w_do_ask ?_ ?_ ?_ ?_ ?_).1 ?_ ?_ ?_ ?_⟩,
      ⟨_, (O hdr w_do_full ?_ ?_ ?_ ?_ ?_).2.1 ?_ ?_⟩,
      ⟨_, (O hdr w_do_cap ?_ ?_ ?_ ?_ ?_).2.2 ?_ ?_ ?_⟩⟩ <;> decide

/-! #### ThroatClosesIntoHolding -/

def feed (d : Deposit) : State :=
  { withDep { d with st := .feeding, idleMs := some 0 } with
      chQ := gapOpen,
      drives := { throatGate := true, throatTransport := true } }
def w_th_idle : State := feed { pocketRefusals := 1 }
def w_th_idle2 : State := feed { toPocket := 1 }
def w_th_cmd : State := feed {}
def w_th_cmd2 : State := feed { toEscrow := [⟨0, 20, 100⟩] }
def closingFeed (c : Closing) (d : Deposit) : State :=
  { feed { d with closing := some c, console := 20, tag := 3, idleMs := none } with
      drives := { throatTransport := true },
      peer := { held := ⟨540, 40, 500⟩ } }
def w_th_cmd3 : State := closingFeed { accepts := [accept8] } { toPocket := 1 }
def w_th_cmd4 : State := closingFeed { giveBack := true, accepts := [accept8] } {}
def w_tp_busy : State := closingFeed {} { limit := 60, toEscrow := [⟨0, 20, 100⟩, ⟨0, 20, 90⟩] }
def w_tp_hold : State := closingFeed {} { limit := 60, toEscrow := [⟨0, 20, 100⟩], pocketRefusals := 1 }
def w_tp_limit : State := closingFeed {} { limit := 1, toEscrow := [⟨0, 20, 100⟩] }
def w_tp_limit2 : State := closingFeed {} { limit := 1, limitNotice := true, toEscrow := [⟨0, 20, 100⟩] }
def w_tp_back : State :=
  closingFeed { giveBack := true, accepts := [accept7] } { limit := 60, toEscrow := [⟨0, 20, 100⟩] }
def w_tp_stack : State := closingFeed { accepts := [accept7, accept8] } { limit := 60, toEscrow := [⟨0, 20, 100⟩] }
def costly (s : State) : State := { s with config := { base.config with s1 := 39 } }
def w_tp_ask : State :=
  costly (closingFeed {
      accepts := [accept7, accept8] }
    { limit := 60, escrow := [⟨0, 20, 90⟩], toEscrow := [⟨0, 20, 100⟩] })
def noSlots : Approval := { bound := some 20, slots := List.replicate 4 { kind := some .alarmClear, ask := 1 } }
def w_tp_none : State :=
  { costly (closingFeed { accepts := [accept7, accept8] } { limit := 60, escrow := [⟨0, 20, 90⟩], toEscrow := [⟨0, 20, 100⟩] }) with
      approval := noSlots }
def w_tp_dur : State :=
  costly (closingFeed {
      accepts := [{ accept7 with duress := true }, accept8] }
    { limit := 60, escrow := [⟨0, 20, 90⟩], toEscrow := [⟨0, 20, 100⟩] })
def w_tp_dur2 : State :=
  { costly (closingFeed { accepts := [accept7, { accept8 with duress := true }] } { limit := 60, escrow := [⟨0, 20, 90⟩], toEscrow := [⟨0, 20, 100⟩] }) with
      approval := noSlots }
def w_tp_dur3 : State :=
  { costly (closingFeed { accepts := [accept7, accept8] } { limit := 60, escrow := [⟨0, 20, 90⟩], toEscrow := [⟨0, 20, 100⟩] }) with
      alarm := { duress := true } }
def w_tp_dur4 : State :=
  costly (closingFeed {
      accepts := [accept7, { accept8 with duress := true }] }
    { limit := 60, escrow := [⟨0, 20, 90⟩], toEscrow := [⟨0, 20, 100⟩] })
def w_tk_pock : State := closingFeed { accepts := [accept7] } { toPocket := 1 }
def w_tk_ret : State := closingFeed { giveBack := true } { toPocket := 1, refused := 65535 }
def w_tk_99 : State := feed { toPocket := 2, pocketRefusals := 99 }
def w_tk_99b : State := feed { toPocket := 1, pocketRefusals := 99 }
def w_tk_tail : State := { closingFeed {} { pocketRefusals := 1 } with chQ := { gapOpen with flow := .tail [] } }
def w_tk_tail2 : State := { closingFeed {} { toPocket := 1 } with chQ := { gapOpen with flow := .tail [] } }
def w_tk_tail3 : State :=
  { closingFeed { giveBack := true, accepts := [accept7] } {} with chQ := { gapOpen with flow := .tail [] } }
def w_tk_end : State :=
  { closingFeed { accepts := [accept7, accept8] } {} with chQ := { gapOpen with flow := .tail [] } }

theorem witness_ThroatClosesIntoHolding :
    Obligations.ThroatClosesIntoHolding →
      (∃ t, exec (.throatIdleTimeout [42, 42, 42, 42, 42, 42, 42, 42]) w_th_idle = .next t) ∧
      (∃ t, exec (.throatIdleTimeout [42]) w_th_idle2 = .next t) ∧
      (∃ t, exec (.depositCloseThroat hdr [42]) w_th_cmd = .next t) ∧
      (∃ t, exec (.depositCloseThroat hdr [42]) w_th_cmd2 = .next t) ∧
      (∃ t, exec (.depositCloseThroat hdr [42]) w_th_cmd3 = .next t) ∧
      (∃ t, exec (.depositCloseThroat hdr []) w_th_cmd4 = .next t) ∧
      (∃ t, exec (.escrowPush [42]) w_tp_busy = .next t) ∧
      (∃ t, exec (.escrowPush [42]) w_tp_hold = .next t) ∧
      (∃ t, exec (.escrowPush [42]) w_tp_limit = .next t) ∧
      (∃ t, exec (.escrowPush [42]) w_tp_limit2 = .next t) ∧
      (∃ t, exec (.escrowPush [42]) w_tp_back = .next t) ∧
      (∃ t, exec (.escrowPush [42]) w_tp_stack = .next t) ∧
      (∃ t, exec (.escrowPush [42]) w_tp_ask = .next t) ∧
      (∃ t, exec (.escrowPush [42]) w_tp_none = .next t) ∧
      (∃ t, exec (.escrowPush [42]) w_tp_dur = .next t) ∧
      (∃ t, exec (.escrowPush [42]) w_tp_dur2 = .next t) ∧
      (∃ t, exec (.escrowPush [42]) w_tp_dur3 = .next t) ∧
      (∃ t, exec (.escrowPush [42]) w_tp_dur4 = .next t) ∧
      (∃ t, exec (.refusedNoteAtPocket [42]) w_tk_pock = .next t) ∧
      (∃ t, exec (.refusedNoteAtPocket []) w_tk_ret = .next t) ∧
      (∃ t, exec (.refusedNoteAtPocket [42]) w_tk_99 = .next t) ∧
      (∃ t, exec (.refusedNoteAtPocket [42]) w_tk_99b = .next t) ∧
      (∃ t, exec (.tailEnd .q clear8) w_tk_tail = .next t) ∧
      (∃ t, exec (.tailEnd .q clear8) w_tk_tail2 = .next t) ∧
      (∃ t, exec (.tailEnd .q clear8) w_tk_tail3 = .next t) ∧
      (∃ t, exec (.tailEnd .q clear8) w_tk_end = .next t) := by
  intro O
  refine
    ⟨⟨_, (((O.1 hdr [42, 42, 42, 42, 42, 42, 42, 42] w_th_idle ?_).1 ?_).2 ?_).1 ?_ ?_ ?_⟩,
      ⟨_, ((O.1 hdr [42] w_th_idle2 ?_).1 ?_).1 ?_ ?_⟩,
      ⟨_, (((O.1 hdr [42] w_th_cmd ?_).2 ?_ ?_).2 ?_).1 ?_ ?_ ?_⟩,
      ⟨_, ((O.1 hdr [42] w_th_cmd2 ?_).2 ?_ ?_).1 ?_ ?_⟩,
      ⟨_, ((O.1 hdr [42] w_th_cmd3 ?_).2 ?_ ?_).1 ?_ ?_⟩,
      ⟨_, (((O.1 hdr [] w_th_cmd4 ?_).2 ?_ ?_).2 ?_).2.2.1 ?_ ?_ ?_ ?_ ?_⟩,
      ⟨_, ((O.2.1 [42] w_tp_busy ({}) (⟨0, 20, 100⟩) [⟨0, 20, 90⟩] ?_ ?_ ?_ ?_).1 ?_).1 ?_ ?_⟩,
      ⟨_, (((O.2.1 [42] w_tp_hold ({}) (⟨0, 20, 100⟩) [] ?_ ?_ ?_ ?_).1 ?_).2 ?_).1 ?_ ?_ ?_⟩,
      ⟨_, (((O.2.1 [42] w_tp_limit ({}) (⟨0, 20, 100⟩) [] ?_ ?_ ?_ ?_).2.2 ?_ ?_ ?_).2 ?_).1 ?_ ?_ ?_⟩,
      ⟨_, (((O.2.1 [42] w_tp_limit2 ({}) (⟨0, 20, 100⟩) [] ?_ ?_ ?_ ?_).2.1 ?_ ?_).2 ?_).1 ?_ ?_ ?_⟩,
      ⟨_, (((O.2.1 [42] w_tp_back ({
            giveBack := true,
            accepts := [accept7] }
          ) (⟨0, 20, 100⟩) [] ?_ ?_ ?_ ?_).1 ?_).2 ?_).2.1 ?_ ?_ ?_⟩,
      ⟨_, (((((O.2.1 [42] w_tp_stack ({
            accepts := [accept7, accept8] }
          ) (⟨0, 20, 100⟩) [] ?_ ?_ ?_ ?_).1 ?_).2 ?_).2.2.2 ?_ ?_).1 [] accept7 [accept8] ?_ ?_ ?_).1 ?_ ?_⟩,
      ⟨_, ((((O.2.1 [42] w_tp_ask ({
            accepts := [accept7, accept8] }
          ) (⟨0, 20, 100⟩) [] ?_ ?_ ?_ ?_).1 ?_).2 ?_).2.2.2 ?_ ?_).2.1 accept7 [accept8] 0 ?_ ?_ ?_ ?_⟩,
      ⟨_, ((((O.2.1 [42] w_tp_none ({
            accepts := [accept7, accept8] }
          ) (⟨0, 20, 100⟩) [] ?_ ?_ ?_ ?_).1 ?_).2 ?_).2.2.2 ?_ ?_).2.2 ?_ ?_ ?_⟩,
      ⟨_, (((((O.2.1 [42] w_tp_dur ({
            accepts := [{ accept7 with duress := true }, accept8] }
          ) (⟨0, 20, 100⟩) [] ?_ ?_ ?_ ?_).1 ?_).2 ?_).2.2.2 ?_ ?_).1 [] ({ accept7 with
              duress := true }) [accept8] ?_ ?_ ?_).1 ?_ ?_⟩,
      ⟨_, (((((O.2.1 [42] w_tp_dur2 ({
            accepts := [accept7, { accept8 with duress := true }] }
          ) (⟨0, 20, 100⟩) [] ?_ ?_ ?_ ?_).1 ?_).2 ?_).2.2.2 ?_ ?_).1 [accept7] ({ accept8 with
              duress := true }) [] ?_ ?_ ?_).1 ?_ ?_⟩,
      ⟨_, (((((O.2.1 [42] w_tp_dur3 ({
            accepts := [accept7, accept8] }
          ) (⟨0, 20, 100⟩) [] ?_ ?_ ?_ ?_).1 ?_).2 ?_).2.2.2 ?_ ?_).1 [] accept7 [accept8] ?_ ?_ ?_).1 ?_ ?_⟩,
      ⟨_, ((((O.2.1 [42] w_tp_dur4 ({
            accepts := [accept7, { accept8 with duress := true }] }
          ) (⟨0, 20, 100⟩) [] ?_ ?_ ?_ ?_).1 ?_).2 ?_).2.2.2 ?_ ?_).2.1 accept7 [{ accept8 with
              duress := true }] 0 ?_ ?_ ?_ ?_⟩,
      ⟨_, (((((O.2.2 [42] [] [] w_tk_pock ?_).1 ({
            accepts := [accept7] }
          ) ?_ ?_).2 ?_).2.2.2 ?_ ?_).1 [] accept7 [] ?_ ?_ ?_).1 ?_ ?_⟩,
      ⟨_, (((O.2.2 [] [] [] w_tk_ret ?_).1 ({ giveBack := true }) ?_ ?_).2 ?_).2.1 ?_ ?_ ?_⟩,
      ⟨_, ((O.2.2 [42] [] [] w_tk_99 ?_).2.1 ?_ ?_ ?_).1 ?_ ?_⟩,
      ⟨_, (((O.2.2 [42] [] [] w_tk_99b ?_).2.1 ?_ ?_ ?_).2 ?_).1 ?_ ?_ ?_⟩,
      ⟨_, (((O.2.2 clear8 [] clear8 w_tk_tail ?_).2.2 ({}) ?_ ?_ ?_ ?_).2 ?_).1 ?_ ?_ ?_⟩,
      ⟨_, ((O.2.2 clear8 [] clear8 w_tk_tail2 ?_).2.2 ({}) ?_ ?_ ?_ ?_).1 ?_ ?_⟩,
      ⟨_, (((O.2.2 clear8 [] clear8 w_tk_tail3 ?_).2.2 ({
            giveBack := true,
            accepts := [accept7] }
          ) ?_ ?_ ?_ ?_).2 ?_).2.2.1 ?_ ?_ ?_ ?_ ?_⟩,
      ⟨_, (((((O.2.2 clear8 [] clear8 w_tk_end ?_).2.2 ({
            accepts := [accept7, accept8] }
          ) ?_ ?_ ?_ ?_).2 ?_).2.2.2 ?_ ?_).1 [] accept7 [accept8] ?_ ?_ ?_).2 ?_ ?_ ?_ ?_⟩⟩ <;> decide

/-! #### DepositAcceptStacksOrAsks -/

def holding (e : List EscrowEntry) (s1 : Nat) : State :=
  { withDep { st := .holding, console := 20, tag := 3, escrow := e } with
      config := { base.config with s1 := s1 },
      peer := { held := ⟨540, 40, 500⟩ } }
def w_acc_stack : State := holding [⟨0, 20, 100⟩] 20
def w_acc_empty : State := holding [] 0
def w_acc_ask : State := holding [⟨0, 20, 100⟩] 19
def w_acc_busy : State :=
  { holding [⟨0, 20, 100⟩] 19 with
      approval := { bound := some 20, slots := List.replicate 4 { kind := some .alarmClear, ask := 1 } } }
def w_acc_feed : State := feed { toEscrow := [⟨0, 20, 100⟩] }
def w_acc_dur : State :=
  { feed { toEscrow := [⟨0, 20, 100⟩] } with alarm := { duress := true }, config := { base.config with s1 := 0 } }
def w_acc_more : State :=
  { feed { toEscrow := [⟨0, 20, 100⟩], closing := some { accepts := [accept7] } } with
      chQ := { gapOpen with flow := .run [60] [] } }
def w_acf_stack : State := feed { escrow := [⟨0, 20, 100⟩], pocketRefusals := 2 }
def w_acf_empty : State := feed { }
def w_acf_clear : State := feed { pocketRefusals := 2 }
def w_acf_ask : State := { feed { escrow := [⟨0, 20, 100⟩] } with config := { base.config with s1 := 19 } }
def w_acf_busy : State :=
  { feed { escrow := [⟨0, 20, 100⟩] } with
      config := { base.config with s1 := 19 },
      approval := { bound := some 20, slots := List.replicate 4 { kind := some .alarmClear, ask := 1 } } }
def w_acr_2 : State := withDep { st := .zeroCapture }
def w_acr_3 : State := withDep { st := .awaitApproval }
def w_acr_4 : State := { holding [] 0 with throatJam := true }

theorem witness_DepositAcceptStacksOrAsks :
    Obligations.DepositAcceptStacksOrAsks →
      (∃ t, exec (.depositAccept hdr []) w_acc_stack = .next t) ∧
      (∃ t, exec (.depositAccept hdr []) w_acc_empty = .next t) ∧
      (∃ t, exec (.depositAccept hdr []) w_acc_ask = .next t) ∧
      (∃ t, exec (.depositAccept hdr []) w_acc_busy = .next t) ∧
      (∃ t, exec (.depositAccept hdr [42]) w_acc_feed = .next t) ∧
      (∃ t, exec (.depositAccept hdr [42]) w_acc_dur = .next t) ∧
      (∃ t, exec (.depositAccept hdr [42, 90]) w_acc_more = .next t) ∧
      (∃ t, exec (.depositAccept hdr [42, 42]) w_acf_stack = .next t) ∧
      (∃ t, exec (.depositAccept hdr [42, 42]) w_acf_empty = .next t) ∧
      (∃ t, exec (.depositAccept hdr [42, 42]) w_acf_clear = .next t) ∧
      (∃ t, exec (.depositAccept hdr [42, 42]) w_acf_ask = .next t) ∧
      (∃ t, exec (.depositAccept hdr [42, 42]) w_acf_busy = .next t) ∧
      (∃ t, exec (.depositAccept hdr [42, 42]) opened = .next t) ∧
      (∃ t, exec (.depositAccept hdr [42, 42]) w_acr_2 = .next t) ∧
      (∃ t, exec (.depositAccept hdr [42, 42]) w_acr_3 = .next t) ∧
      (∃ t, exec (.depositAccept hdr [42, 42]) w_acr_4 = .next t) := by
  intro O
  refine
    ⟨⟨_, ((O hdr [] w_acc_stack ?_).1 ?_ ?_ ?_ ?_).1 ?_ ?_ ?_⟩,
      ⟨_, ((O hdr [] w_acc_empty ?_).1 ?_ ?_ ?_ ?_).2.1 ?_ ?_ ?_ ?_ ?_⟩,
      ⟨_, ((O hdr [] w_acc_ask ?_).1 ?_ ?_ ?_ ?_).2.2.1 0 ?_ ?_ ?_⟩,
      ⟨_, ((O hdr [] w_acc_busy ?_).1 ?_ ?_ ?_ ?_).2.2.2 ?_ ?_ ?_⟩,
      ⟨_, (O hdr [42] w_acc_feed ?_).2.2.1 ?_ ?_ ?_ ?_⟩,
      ⟨_, (O hdr [42] w_acc_dur ?_).2.2.1 ?_ ?_ ?_ ?_⟩,
      ⟨_, (O hdr [42, 90] w_acc_more ?_).2.2.1 ?_ ?_ ?_ ?_⟩,
      ⟨_, ((O hdr [42, 42] w_acf_stack ?_).2.1 ?_ ?_ ?_ ?_ ?_).1 ?_ ?_ ?_⟩,
      ⟨_, ((O hdr [42, 42] w_acf_empty ?_).2.1 ?_ ?_ ?_ ?_ ?_).2.1 ?_ ?_ ?_ ?_ ?_⟩,
      ⟨_, ((O hdr [42, 42] w_acf_clear ?_).2.1 ?_ ?_ ?_ ?_ ?_).1 ?_ ?_ ?_⟩,
      ⟨_, ((O hdr [42, 42] w_acf_ask ?_).2.1 ?_ ?_ ?_ ?_ ?_).2.2.1 0 ?_ ?_ ?_⟩,
      ⟨_, ((O hdr [42, 42] w_acf_busy ?_).2.1 ?_ ?_ ?_ ?_ ?_).2.2.2 ?_ ?_ ?_⟩,
      ⟨_, (O hdr [42, 42] opened ?_).2.2.2 (.nothing) ?_ ?_⟩,
      ⟨_, (O hdr [42, 42] w_acr_2 ?_).2.2.2 (.laneState) ?_ ?_⟩,
      ⟨_, (O hdr [42, 42] w_acr_3 ?_).2.2.2 (.busy) ?_ ?_⟩,
      ⟨_, (O hdr [42, 42] w_acr_4 ?_).2.2.2 (.dispenserState) ?_ ?_⟩⟩ <;> decide

/-! #### DepositReturnGivesBack -/

def w_rt_ceil : State := requested (withDep { st := .awaitCeiling }) .deposit
def w_rt_zero : State := { withDep { st := .zeroCapture } with chQ := { capturing := true } }
def w_rt_hold : State := holding [⟨0, 20, 100⟩] 19
def w_rt_appr : State :=
  { withDep { st := .awaitApproval, slot := some ⟨0, 1⟩, pocketRefusals := 1, clearance := .opened, takeMs := some 4 } with
      approval := waits .depositAccept 0 }
def w_rt_empty : State := holding [] 0
def w_rt_feed : State := feed { toEscrow := [⟨0, 20, 100⟩] }
def w_rt_late : State := feed { toEscrow := [⟨0, 20, 100⟩], closing := some { accepts := [accept7] } }
def w_rtf_1 : State := feed { escrow := [⟨0, 20, 100⟩], pocketRefusals := 2 }
def w_rtf_2 : State := feed { }
def w_rtr_2 : State := withDep { st := .stacking }
def w_rtr_3 : State := { holding [] 0 with throatJam := true }
def w_rtr_4 : State := withDep { st := .holding, clearance := .retracting }
def w_rtr_5 : State := withDep { st := .awaitApproval, clearance := .retracting }

theorem witness_DepositReturnGivesBack :
    Obligations.DepositReturnGivesBack →
      (∃ t, exec (.depositReturn hdr []) w_rt_ceil = .next t) ∧
      (∃ t, exec (.depositReturn hdr []) w_rt_zero = .next t) ∧
      (∃ t, exec (.depositReturn hdr []) w_rt_hold = .next t) ∧
      (∃ t, exec (.depositReturn hdr []) w_rt_appr = .next t) ∧
      (∃ t, exec (.depositReturn hdr []) w_rt_empty = .next t) ∧
      (∃ t, exec (.depositReturn hdr [42]) w_rt_feed = .next t) ∧
      (∃ t, exec (.depositReturn hdr [42]) w_rt_late = .next t) ∧
      (∃ t, exec (.depositReturn hdr [42, 42]) w_rtf_1 = .next t) ∧
      (∃ t, exec (.depositReturn hdr [42, 42]) w_rtf_2 = .next t) ∧
      (∃ t, exec (.depositReturn hdr [42, 42]) opened = .next t) ∧
      (∃ t, exec (.depositReturn hdr [42, 42]) w_rtr_2 = .next t) ∧
      (∃ t, exec (.depositReturn hdr [42, 42]) w_rtr_3 = .next t) ∧
      (∃ t, exec (.depositReturn hdr [42, 42]) w_rtr_4 = .next t) ∧
      (∃ t, exec (.depositReturn hdr [42, 42]) w_rtr_5 = .next t) := by
  intro O
  refine
    ⟨⟨_, (O hdr [] w_rt_ceil ?_).1 ?_ ?_ ?_ ?_ ?_⟩,
      ⟨_, (O hdr [] w_rt_zero ?_).2.1 ?_ ?_ ?_ ?_⟩,
      ⟨_, ((O hdr [] w_rt_hold ?_).2.2.1 ?_).1 ?_ ?_ ?_ ?_⟩,
      ⟨_, ((O hdr [] w_rt_appr ?_).2.2.1 ?_).2.1 (⟨0, 1⟩) ?_ ?_ ?_ ?_ ?_ ?_⟩,
      ⟨_, ((O hdr [] w_rt_empty ?_).2.2.1 ?_).2.2.1 ?_ ?_ ?_ ?_ ?_ ?_⟩,
      ⟨_, ((O hdr [42] w_rt_feed ?_).2.2.1 ?_).2.2.2.1 ?_ ?_ ?_ ?_⟩,
      ⟨_, ((O hdr [42] w_rt_late ?_).2.2.1 ?_).2.2.2.1 ?_ ?_ ?_ ?_⟩,
      ⟨_, (((O hdr [42, 42] w_rtf_1 ?_).2.2.1 ?_).2.2.2.2 ?_ ?_ ?_ ?_).1 ?_ ?_⟩,
      ⟨_, (((O hdr [42, 42] w_rtf_2 ?_).2.2.1 ?_).2.2.2.2 ?_ ?_ ?_ ?_).2 ?_ ?_ ?_ ?_⟩,
      ⟨_, (O hdr [42, 42] opened ?_).2.2.2 (.nothing) ?_ ?_⟩,
      ⟨_, (O hdr [42, 42] w_rtr_2 ?_).2.2.2 (.late) ?_ ?_⟩,
      ⟨_, (O hdr [42, 42] w_rtr_3 ?_).2.2.2 (.dispenserState) ?_ ?_⟩,
      ⟨_, (O hdr [42, 42] w_rtr_4 ?_).2.2.2 (.busy) ?_ ?_⟩,
      ⟨_, (O hdr [42, 42] w_rtr_5 ?_).2.2.2 (.busy) ?_ ?_⟩⟩ <;> decide

/-! #### FedNotesReachEscrowOrPocket -/

def fed (d : Deposit) : State :=
  { withDep { d with st := .feeding, limit := 3 } with chQ := gapOpen, peer := { held := ⟨540, 40, 500⟩ } }
def ee : EscrowEntry := ⟨0, 20, 100⟩
def w_esc_1 : State := fed { escrow := [ee], toEscrow := [ee, ee] }
def w_esc_lim : State := fed { escrow := [ee, ee], toEscrow := [ee] }
def inLock (s : State) : State := { s with lane := { s.lane with state := .lockdown } }
def w_esc_sec : State := inLock (fed { escrow := [ee], toEscrow := [ee], securing := true })
def w_esc_sec2 : State := inLock (fed { escrow := [ee], toEscrow := [ee, ee], securing := true })
def w_pock : State := fed { toPocket := 1, pocketRefusals := 98, refused := 65534 }
def w_pock2 : State := fed { toPocket := 1, pocketRefusals := 98, refused := 65535 }

theorem witness_FedNotesReachEscrowOrPocket :
    Obligations.FedNotesReachEscrowOrPocket →
      (∃ t, exec (.escrowPush [42]) w_esc_1 = .next t) ∧
      (∃ t, exec (.escrowPush [42]) w_esc_lim = .next t) ∧
      (∃ t, exec (.escrowPush [42]) w_esc_sec = .next t) ∧
      (∃ t, exec (.escrowPush [42]) w_esc_sec2 = .next t) ∧
      (∃ t, exec (.refusedNoteAtPocket [42]) w_pock = .next t) ∧
      (∃ t, exec (.refusedNoteAtPocket [42]) w_pock2 = .next t) := by
  intro O
  refine
    ⟨⟨_, (((O [42] w_esc_1).1 ee [ee] ?_ ?_).1 ?_ ?_).1 ?_⟩,
      ⟨_, (((O [42] w_esc_lim).1 ee [] ?_ ?_).1 ?_ ?_).2 ?_ ?_ ?_⟩,
      ⟨_, ((((O [42] w_esc_sec).1 ee [] ?_ ?_).2 ?_ ?_).2 ?_ ?_ ?_).1 ?_⟩,
      ⟨_, (((O [42] w_esc_sec2).1 ee [ee] ?_ ?_).2 ?_ ?_).1 ?_⟩,
      ⟨_, (O [42] w_pock).2 ?_ ?_ ?_ ?_ ?_⟩,
      ⟨_, (O [42] w_pock2).2 ?_ ?_ ?_ ?_ ?_⟩⟩ <;> decide

/-! #### StackedNotesAreCredited -/

def stackingS (e : List EscrowEntry) (sec : Bool) : State :=
  { withDep { st := .stacking, move := .stacking, escrow := e, tag := 3, securing := sec } with
      peer := { held := ⟨540, 40, 500⟩ },
      fault := { shift := { depNotes := 65535, depValue := 16777200, unconfNotes := 65535, unconfValue := 16777200 } } }
def w_st_1 : State := stackingS [⟨7, 50, 100⟩, ee] false
def w_st_2 : State := stackingS [⟨7, 50, 100⟩] false
def w_st_3 : State := stackingS [⟨7, 50, 100⟩] true
def w_st_4 : State := recov { active := true, escrow := .running }
def w_st_5 : State := recov { active := true, escrow := .running }
def w_st_c : State := withCal { phase := .stacking, channel := .q, outcome := some .calibrated, tag := 4 }
def w_st_6 : State := withDep { st := .returning, move := .reversing, escrow := [ee] }

theorem witness_StackedNotesAreCredited :
    Obligations.StackedNotesAreCredited →
      (∃ t, exec (.noteStacked false) w_st_1 = .next t) ∧
      (∃ t, exec (.noteStacked true) w_st_2 = .next t) ∧
      (∃ t, exec (.noteStacked true) w_st_3 = .next t) ∧
      (∃ t, exec (.noteStacked true) w_st_4 = .next t) ∧
      (∃ t, exec (.noteStacked false) w_st_5 = .next t) ∧
      (∃ t, exec (.noteStacked true) w_st_c = .next t) ∧
      (∃ t, exec .returnReversalEnd w_st_6 = .next t) := by
  intro O
  refine
    ⟨⟨_, ((O w_st_1).1 false (⟨7, 50, 100⟩) [ee] ?_ ?_).1 ?_ ?_⟩,
      ⟨_, (((O w_st_2).1 true (⟨7, 50, 100⟩) [] ?_ ?_).2 ?_ ?_ ?_ ?_).1 ?_ ?_⟩,
      ⟨_, (((O w_st_3).1 true (⟨7, 50, 100⟩) [] ?_ ?_).2 ?_ ?_ ?_ ?_).2 ?_ ?_ ?_ ?_⟩,
      ⟨_, (O w_st_4).2.1 true ?_ ?_ ?_ ?_⟩,
      ⟨_, (O w_st_5).2.1 false ?_ ?_ ?_ ?_⟩,
      ⟨_, (O w_st_c).2.2.1 true (.calibrated) ?_ ?_ ?_ ?_ ?_⟩,
      ⟨_, (O w_st_6).2.2.2 ?_ ?_ ?_ ?_ ?_⟩⟩ <;> decide

/-! #### ArbiterGrantsInOrder -/

def req (w : Requester) (n : Nat) (g b : Bool) : RetractRequest :=
  { requester := w, kind := .depositReturn, tag := some 4, count := n, value := 16777215, blocked := b, granted := g }
def w_arb_jam : State := withCapture { transport := .stopped, retract := some (req .dispense 1 false false) }
def w_arb_env : State := withCapture { waiting := true, shutter := true }
def bundle (n : Nat) : Bundle :=
  { kind := .depositReturn, tag := none, count := n, value := 7, startCount := 1, laneTime := 1, unverified := false }
def w_arb_ret : State :=
  withCapture {
      waiting := true,
      bundles := bundle 190 :: List.replicate 30 (bundle 0),
      retract := some (req .dispense 10 false true) }
def w_arb_blk : State :=
  withCapture {
      waiting := true,
      bundles := bundle 190 :: List.replicate 30 (bundle 0),
      retract := some (req .calibration 11 false false) }
def w_arb_blk2 : State :=
  withCapture { bundles := List.replicate 32 (bundle 0), retract := some (req .recovery 0 false true) }

theorem witness_ArbiterGrantsInOrder :
    Obligations.ArbiterGrantsInOrder →
      (∃ t, arbitrate w_arb_jam = t) ∧
      (∃ t, arbitrate opened = t) ∧
      (∃ t, arbitrate w_arb_env = t) ∧
      (∃ t, arbitrate w_arb_ret = t) ∧
      (∃ t, arbitrate w_arb_blk = t) ∧
      (∃ t, arbitrate w_arb_blk2 = t) := by
  intro O
  refine
    ⟨⟨_, (O w_arb_jam).1 ?_⟩,
      ⟨_, (O opened).2.1 ?_ ?_ ?_ ?_⟩,
      ⟨_, (O w_arb_env).2.2.1 ?_ ?_ ?_ ?_⟩,
      ⟨_, ((O w_arb_ret).2.2.2 (req .dispense 10 false true) ?_ ?_ ?_ ?_ ?_).1 ?_ ?_⟩,
      ⟨_, ((O w_arb_blk).2.2.2 (req .calibration 11 false false) ?_ ?_ ?_ ?_ ?_).2 ?_ ?_⟩,
      ⟨_, ((O w_arb_blk2).2.2.2 (req .recovery 0 false true) ?_ ?_ ?_ ?_ ?_).2 ?_ ?_⟩⟩ <;> decide

/-! #### RetractMovementEnds -/

def carrying (w : Requester) (s : State) : State :=
  { s with
      capture := {
          transport := .carryingRetract,
          waiting := true,
          retract := some (req w 3 true false),
          bundles := [{ bundle 3 with unverified := true }] } }
def w_ret_disp : State :=
  carrying .dispense { withDisp { st := .retracting, console := 20, tag := 3, presentedNotes := 1 } with
      peer := { held := ⟨540, 500, 40⟩ } }
def w_ret_dep : State :=
  carrying .deposit { withDep { st := .returnRetracting, console := 20, tag := 3, decided := some .lockdown } with
      peer := { held := ⟨540, 500, 40⟩ } }
def w_ret_clr : State := carrying .deposit (withDep { st := .holding, clearance := .retracting, pocketRefusals := 3 })
def w_ret_sec : State :=
  inLock (carrying .deposit (withDep {
      st := .holding,
      clearance := .retracting,
      pocketRefusals := 3,
      securing := true,
      console := 20,
      tag := 3 }))
def w_ret_sec2 : State :=
  inLock (carrying .deposit (withDep {
      st := .stacking,
      move := .stacking,
      escrow := [ee],
      clearance := .retracting,
      pocketRefusals := 3,
      securing := true }))
def w_ret_cal : State :=
  carrying .calibration (withCal { phase := .retracting, channel := .q, outcome := some .calFailed })
def w_ret_rec : State := carrying .recovery (recov { active := true, pocket := .running })

theorem witness_RetractMovementEnds :
    Obligations.RetractMovementEnds →
      (∃ t, exec .retractMovementEnd w_ret_disp = .next t) ∧
      (∃ t, exec .retractMovementEnd w_ret_dep = .next t) ∧
      (∃ t, exec .retractMovementEnd w_ret_clr = .next t) ∧
      (∃ t, exec .retractMovementEnd w_ret_sec = .next t) ∧
      (∃ t, exec .retractMovementEnd w_ret_sec2 = .next t) ∧
      (∃ t, exec .retractMovementEnd w_ret_cal = .next t) ∧
      (∃ t, exec .retractMovementEnd w_ret_rec = .next t) := by
  intro O
  refine
    ⟨⟨_, (O w_ret_disp (req .dispense 3 true false) ?_ ?_ ?_ ?_ ?_).1 (.retracted) ?_ ?_ ?_ ?_ ?_⟩,
      ⟨_, (O w_ret_dep (req .deposit 3 true false) ?_ ?_ ?_ ?_ ?_).2.1 (.lockdown) ?_ ?_ ?_ ?_ ?_⟩,
      ⟨_, (O w_ret_clr (req .deposit 3 true false) ?_ ?_ ?_ ?_ ?_).2.2.1 ?_ ?_ ?_ ?_ ?_⟩,
      ⟨_, (((O w_ret_sec (req .deposit 3 true false) ?_ ?_ ?_ ?_ ?_).2.2.2.1 ?_ ?_ ?_ ?_).2 ?_ ?_ ?_).2.2 ?_ ?_ ?_ ?_
            ?_⟩,
      ⟨_, ((O w_ret_sec2 (req .deposit 3 true false) ?_ ?_ ?_ ?_ ?_).2.2.2.1 ?_ ?_ ?_ ?_).1 ?_ ?_⟩,
      ⟨_, (O w_ret_cal (req .calibration 3 true false) ?_ ?_ ?_ ?_ ?_).2.2.2.2.1 (.calFailed) ?_ ?_ ?_ ?_ ?_⟩,
      ⟨_, (O w_ret_rec (req .recovery 3 true false) ?_ ?_ ?_ ?_ ?_).2.2.2.2.2 ?_ ?_⟩⟩ <;> decide

/-! #### CaptureAndRecoveryJams -/

def w_cj_ret : State := carrying .dispense (withDisp { st := .retracting })
def w_cj_env : State :=
  withCapture {
      transport := .carryingEnvelope,
      shutter := true,
      envelope := some { stage := .imprinting, mm := 200, passed := true, seq := some 10 } }
def w_cj_env2 : State := withCapture { transport := .carryingEnvelope, envelope := some { stage := .measuring } }
def w_cj_rec : State := recov { active := true, stacker := .running }
def w_cj_rec2 : State := recov { active := true, escrow := .running }

theorem witness_CaptureAndRecoveryJams :
    Obligations.CaptureAndRecoveryJams →
      (∃ t, exec .retractJam w_cj_ret = .next t) ∧
      (∃ t, exec (.envelopeJam 77) w_cj_env = .next t) ∧
      (∃ t, exec (.envelopeJam 77) w_cj_env2 = .next t) ∧
      (∃ t, exec .recoveryPurgeJam w_cj_rec = .next t) ∧
      (∃ t, exec .recoveryStackingJam w_cj_rec2 = .next t) := by
  intro O
  refine
    ⟨⟨_, (O.1 w_cj_ret).1 ?_ ?_⟩,
      ⟨_, (O.1 w_cj_env).2 ({ stage := .imprinting, mm := 200, passed := true, seq := some 10 }) 77 ?_ ?_⟩,
      ⟨_, (O.1 w_cj_env2).2 ({ stage := .measuring }) 77 ?_ ?_⟩,
      ⟨_, (O.2 w_cj_rec).1 ?_ ?_⟩,
      ⟨_, (O.2 w_cj_rec2).2 ?_ ?_⟩⟩ <;> decide

/-! #### EnvelopeFromSlotToLength -/

def w_en_arr : State := withCapture { shutter := true }
def w_en_wd : State := withCapture { waiting := true }
def w_en_ret : State := withCapture { returned := true, shutter := true }
def carryingE (m : EnvelopeMove) (n : Nat) : State :=
  withCapture { transport := .carryingEnvelope, lastSeq := n, envelope := some m, journal := base.capture.journal }
def w_en_clr : State := carryingE {} 9
def w_en_len : State := carryingE {} 9
def measuring : EnvelopeMove := { stage := .measuring, cleared := true }
def w_en_long : State := carryingE measuring 9
def w_en_m140 : State := carryingE measuring 9
def w_en_m139 : State := carryingE measuring 9
def w_en_m260 : State := carryingE measuring 9
def w_en_thick : State := carryingE measuring 9

theorem witness_EnvelopeFromSlotToLength :
    Obligations.EnvelopeFromSlotToLength →
      (∃ t, exec .envelopeArrival w_en_arr = .next t) ∧
      (∃ t, exec .envelopeWithdrawn w_en_wd = .next t) ∧
      (∃ t, exec .returnedEnvelopeCleared w_en_ret = .next t) ∧
      (∃ t, exec .envelopeClearsSlot w_en_clr = .next t) ∧
      (∃ t, exec .lengthSensorReached w_en_len = .next t) ∧
      (∃ t, exec .envelopeTooLong w_en_long = .next t) ∧
      (∃ t, exec (.lengthMeasured 140) w_en_m140 = .next t) ∧
      (∃ t, exec (.lengthMeasured 139) w_en_m139 = .next t) ∧
      (∃ t, exec (.lengthMeasured 260) w_en_m260 = .next t) ∧
      (∃ t, exec (.thicknessTrip 55) w_en_thick = .next t) := by
  intro O
  refine
    ⟨⟨_, (O w_en_arr).1 ?_ ?_ ?_ ?_ ?_ ?_ ?_⟩,
      ⟨_, (O w_en_wd).2.1 ?_⟩,
      ⟨_, (O w_en_ret).2.2.1 ?_⟩,
      ⟨_, ((O w_en_clr).2.2.2 ({}) ?_).1⟩,
      ⟨_, (((O w_en_len).2.2.2 ({}) ?_).2 ?_).1 ?_⟩,
      ⟨_, (((O w_en_long).2.2.2 measuring ?_).2 ?_).2.1 ?_ ?_⟩,
      ⟨_, (((O w_en_m140).2.2.2 measuring ?_).2 ?_).2.2.1 140 ?_ ?_⟩,
      ⟨_, (((O w_en_m139).2.2.2 measuring ?_).2 ?_).2.2.1 139 ?_ ?_⟩,
      ⟨_, (((O w_en_m260).2.2.2 measuring ?_).2 ?_).2.2.1 260 ?_ ?_⟩,
      ⟨_, (((O w_en_thick).2.2.2 measuring ?_).2 ?_).2.2.2 55 ?_⟩⟩ <;> decide

/-! #### EnvelopeImprintDropAndReturn -/

def w_im_1 : State := carryingE { measuring with passed := true, mm := 200 } 16777215
def imprinting : EnvelopeMove :=
  { stage := .imprinting, cleared := true, passed := true, mm := 200, seq := some 16777215 }
def w_im_2 : State := carryingE imprinting 16777215
def reversing : EnvelopeMove := { stage := .reversing, cleared := true, refusal := some .length, mm := 261 }
def w_im_3 : State :=
  { carryingE reversing 9 with
      capture := { (carryingE reversing 9).capture with retract := some (req .deposit 3 false false) } }

theorem witness_EnvelopeImprintDropAndReturn :
    Obligations.EnvelopeImprintDropAndReturn →
      (∃ t, exec .imprintStart w_im_1 = .next t) ∧
      (∃ t, exec .envelopeDrop w_im_2 = .next t) ∧
      (∃ t, exec .envelopeReversalEnd w_im_3 = .next t) := by
  intro O
  refine
    ⟨⟨_, (O w_im_1 ({ measuring with passed := true, mm := 200 }) ?_).1 ?_ ?_ ?_⟩,
      ⟨_, (O w_im_2 imprinting ?_).2.1 16777215 ?_ ?_ ?_ ?_⟩,
      ⟨_, (O w_im_3 reversing ?_).2.2 (.length) ?_ ?_ ?_ ?_⟩⟩ <;> decide

/-! #### GivenApprovalsTakeEffect -/

def asking (k : OpKind) (amount : Nat) (s : State) : State := { s with approval := waits k amount }
def w_g_disp : State :=
  asking .dispense 40 (withDisp { st := .awaitApproval, slot := some ⟨0, 1⟩, planValue := 40, tag := 3 })
def w_g_dep : State :=
  asking .depositAccept 40 (withDep { st := .awaitApproval, slot := some ⟨0, 1⟩, escrow := [⟨0, 20, 100⟩], tag := 3 })
def loadW (n : Nat) : LoadWait := { slot := ⟨0, 1⟩, tag := 3, cassette := 1, den := 0, count := n }
def loading (n : Nat) : State := asking .cassetteLoad 0 { base with cash := { base.cash with loads := [loadW n] } }
def w_g_load : State := loading 11
def w_g_load2 : State := loading 10
def exchanging : State :=
  asking .depositCassetteExchange 40 { base with
      cash := { base.cash with exchange := some ⟨⟨0, 1⟩, 3⟩, deposit := { count := 1500 } } }
def binAsk : State :=
  asking .binService 40 { base with capture := { base.capture with bin := .awaitApproval, binSlot := some ⟨0, 1⟩ } }
def duressAsk : State :=
  asking .alarmClear 0 (withAlarm {
      duress := true,
      duressClear := some ⟨0, 1⟩,
      drive := true,
      zones := zonesWith { type := .duress, state := .quiet } })
def attackAsk : State :=
  asking .alarmClear 0 { inState .lockdown with
      alarm := {
          attack := true,
          attackClear := some ⟨0, 1⟩,
          drive := true,
          zones := zonesWith { type := .attack, state := .quiet } } }
def resetAsk : State := asking .resetLane 0 { base with lane := { base.lane with resetWait := some ⟨0, 1⟩ } }
def shut0 (s : State) : State := { s with board := ⟨true, 3, none, [true, false, true, true]⟩ }
def w_ga_load : State := shut0 (loading 11)
def w_ga_load2 : State := { loading 11 with lane := { base.lane with state := .opened } }
def w_ga_exch : State := { exchanging with lane := { base.lane with state := .recovery } }
def w_ga_bin : State := { binAsk with lane := { base.lane with state := .opened } }
def zset0 (z : Zone) (s : State) : State := { s with alarm := { s.alarm with zones := s.alarm.zones.set 0 z } }
def w_ga_dur : State := zset0 { type := .duress, state := .active } duressAsk
def w_ga_att : State := zset0 { type := .attack, state := .quiet, frozen := true } attackAsk

theorem witness_GivenApprovalsTakeEffect :
    Obligations.GivenApprovalsTakeEffect →
      (∃ t, exec (.approvalAnswer 21 0 1 1 (opKindPos .dispense) 40) w_g_disp = .next t) ∧
      (∃ t, exec (.approvalAnswer 21 0 1 1 (opKindPos .depositAccept) 40) w_g_dep = .next t) ∧
      (∃ t, exec (.approvalAnswer 21 0 1 1 (opKindPos .cassetteLoad) 0) w_g_load = .next t) ∧
      (∃ t, exec (.approvalAnswer 21 0 1 1 (opKindPos .cassetteLoad) 0) w_g_load2 = .next t) ∧
      (∃ t, exec (.approvalAnswer 21 0 1 1 (opKindPos .depositCassetteExchange) 40) exchanging = .next t) ∧
      (∃ t, exec (.approvalAnswer 21 0 1 1 (opKindPos .binService) 40) binAsk = .next t) ∧
      (∃ t, exec (.approvalAnswer 21 0 1 1 (opKindPos .alarmClear) 0) duressAsk = .next t) ∧
      (∃ t, exec (.approvalAnswer 21 0 1 1 (opKindPos .alarmClear) 0) attackAsk = .next t) ∧
      (∃ t, exec (.approvalAnswer 21 0 1 1 (opKindPos .resetLane) 0) resetAsk = .next t) ∧
      (∃ t, exec (.approvalAnswer 21 0 1 1 (opKindPos .cassetteLoad) 0) w_ga_load = .next t) ∧
      (∃ t, exec (.approvalAnswer 21 0 1 1 (opKindPos .cassetteLoad) 0) w_ga_load2 = .next t) ∧
      (∃ t, exec (.approvalAnswer 21 0 1 1 (opKindPos .depositCassetteExchange) 40) w_ga_exch = .next t) ∧
      (∃ t, exec (.approvalAnswer 21 0 1 1 (opKindPos .binService) 40) w_ga_bin = .next t) ∧
      (∃ t, exec (.approvalAnswer 21 0 1 1 (opKindPos .alarmClear) 0) w_ga_dur = .next t) ∧
      (∃ t, exec (.approvalAnswer 21 0 1 1 (opKindPos .alarmClear) 0) w_ga_att = .next t) := by
  intro O
  refine
    ⟨⟨_, (O 21 0 1 40 w_g_disp).1 ?_ ?_ ?_ ?_ ?_⟩,
      ⟨_, (O 21 0 1 40 w_g_dep).2.1 ?_ ?_ ?_ ?_ ?_ ?_⟩,
      ⟨_, (O 21 0 1 0 w_g_load).2.2.1 (loadW 11) c50 d20 ?_ ?_ ?_ ?_ ?_ ?_ ?_⟩,
      ⟨_, (O 21 0 1 0 w_g_load2).2.2.1 (loadW 10) c50 d20 ?_ ?_ ?_ ?_ ?_ ?_ ?_⟩,
      ⟨_, (O 21 0 1 40 exchanging).2.2.2.1 (⟨⟨0, 1⟩, 3⟩) ?_ ?_ ?_ ?_ ?_⟩,
      ⟨_, (O 21 0 1 40 binAsk).2.2.2.2.1 ?_ ?_ ?_ ?_ ?_⟩,
      ⟨_, (O 21 0 1 0 duressAsk).2.2.2.2.2.1 ?_ ?_ ?_ ?_⟩,
      ⟨_, (O 21 0 1 0 attackAsk).2.2.2.2.2.2.1 ?_ ?_ ?_ ?_ ?_⟩,
      ⟨_, (O 21 0 1 0 resetAsk).2.2.2.2.2.2.2.1 ?_ ?_ ?_⟩,
      ⟨_, (O 21 0 1 0 w_ga_load).2.2.2.2.2.2.2.2.1 (loadW 11) ?_ ?_ ?_ ?_⟩,
      ⟨_, (O 21 0 1 0 w_ga_load2).2.2.2.2.2.2.2.2.1 (loadW 11) ?_ ?_ ?_ ?_⟩,
      ⟨_, (O 21 0 1 40 w_ga_exch).2.2.2.2.2.2.2.2.2.1 (⟨⟨0, 1⟩, 3⟩) ?_ ?_ ?_ ?_ ?_⟩,
      ⟨_, (O 21 0 1 40 w_ga_bin).2.2.2.2.2.2.2.2.2.2.1 ?_ ?_ ?_ ?_ ?_ ?_⟩,
      ⟨_, ((O 21 0 1 0 w_ga_dur).2.2.2.2.2.2.2.2.2.2.2 ?_).1 ?_ ?_ ?_⟩,
      ⟨_, ((O 21 0 1 0 w_ga_att).2.2.2.2.2.2.2.2.2.2.2 ?_).2 ?_ ?_ ?_ ?_⟩⟩ <;> decide

/-! #### DeniedOrExpiredApprovalsEnd -/

def askDisp : State :=
  asking .dispense 40 { withDisp { st := .awaitApproval, slot := some ⟨0, 1⟩, planValue := 40, tag := 3 } with
      peer := { held := ⟨100, 0, 100⟩ } }
def askDep : State :=
  asking .depositAccept 40 (withDep { st := .awaitApproval, slot := some ⟨0, 1⟩, escrow := [⟨0, 20, 100⟩], tag := 3 })
def w_d_load : State := loading 5
def w_e_load : State := loading 5

theorem witness_DeniedOrExpiredApprovalsEnd :
    Obligations.DeniedOrExpiredApprovalsEnd →
      (∃ t, exec (.approvalAnswer 21 0 1 2 (opKindPos .dispense) 40) askDisp = .next t) ∧
      (∃ t, exec (.approvalTimeout 0) askDisp = .next t) ∧
      (∃ t, exec (.approvalAnswer 21 0 1 2 (opKindPos .depositAccept) 40) askDep = .next t) ∧
      (∃ t, exec (.approvalTimeout 0) askDep = .next t) ∧
      (∃ t, exec (.approvalAnswer 21 0 1 2 (opKindPos .cassetteLoad) 0) w_d_load = .next t) ∧
      (∃ t, exec (.approvalTimeout 0) w_e_load = .next t) ∧
      (∃ t, exec (.approvalAnswer 21 0 1 2 (opKindPos .depositCassetteExchange) 40) exchanging = .next t) ∧
      (∃ t, exec (.approvalTimeout 0) exchanging = .next t) ∧
      (∃ t, exec (.approvalAnswer 21 0 1 2 (opKindPos .binService) 40) binAsk = .next t) ∧
      (∃ t, exec (.approvalTimeout 0) binAsk = .next t) ∧
      (∃ t, exec (.approvalAnswer 21 0 1 2 (opKindPos .alarmClear) 0) duressAsk = .next t) ∧
      (∃ t, exec (.approvalTimeout 0) duressAsk = .next t) ∧
      (∃ t, exec (.approvalAnswer 21 0 1 2 (opKindPos .resetLane) 0) resetAsk = .next t) ∧
      (∃ t, exec (.approvalTimeout 0) resetAsk = .next t) ∧
      (∃ t, exec (.approvalAnswer 21 0 1 2 (opKindPos .alarmClear) 0) attackAsk = .next t) ∧
      (∃ t, exec (.approvalTimeout 0) attackAsk = .next t) := by
  intro O
  refine
    ⟨⟨_, (O 21 0 1 40 (.dispense) askDisp _ ?_ ?_).1 ?_ ?_ rfl⟩,
      ⟨_, (O 21 0 1 40 (.dispense) askDisp _ ?_ ?_).2 (askDisp.approval.slots.getD 0 {}) ?_ ?_ ?_ rfl⟩,
      ⟨_, (O 21 0 1 40 (.depositAccept) askDep _ ?_ ?_).1 ?_ ?_ rfl⟩,
      ⟨_, (O 21 0 1 40 (.depositAccept) askDep _ ?_ ?_).2 (askDep.approval.slots.getD 0 {}) ?_ ?_ ?_ rfl⟩,
      ⟨_, (O 21 0 1 0 (.cassetteLoad) w_d_load _ ?_ ?_).1 ?_ ?_ rfl⟩,
      ⟨_, (O 21 0 1 0 (.cassetteLoad) w_e_load _ ?_ ?_).2 ((loading 5).approval.slots.getD 0 {}) ?_ ?_ ?_ rfl⟩,
      ⟨_, (O 21 0 1 40 (.depositCassetteExchange) exchanging _ ?_ ?_).1 ?_ ?_ rfl⟩,
      ⟨_, (O 21 0 1 40 (.depositCassetteExchange) exchanging _ ?_ ?_).2 (exchanging.approval.slots.getD 0 {
 }) ?_ ?_ ?_ rfl⟩,
      ⟨_, (O 21 0 1 40 (.binService) binAsk _ ?_ ?_).1 ?_ ?_ rfl⟩,
      ⟨_, (O 21 0 1 40 (.binService) binAsk _ ?_ ?_).2 (binAsk.approval.slots.getD 0 {}) ?_ ?_ ?_ rfl⟩,
      ⟨_, (O 21 0 1 0 (.alarmClear) duressAsk _ ?_ ?_).1 ?_ ?_ rfl⟩,
      ⟨_, (O 21 0 1 0 (.alarmClear) duressAsk _ ?_ ?_).2 (duressAsk.approval.slots.getD 0 {}) ?_ ?_ ?_ rfl⟩,
      ⟨_, (O 21 0 1 0 (.resetLane) resetAsk _ ?_ ?_).1 ?_ ?_ rfl⟩,
      ⟨_, (O 21 0 1 0 (.resetLane) resetAsk _ ?_ ?_).2 (resetAsk.approval.slots.getD 0 {}) ?_ ?_ ?_ rfl⟩,
      ⟨_, (O 21 0 1 0 (.alarmClear) attackAsk _ ?_ ?_).1 ?_ ?_ rfl⟩,
      ⟨_, (O 21 0 1 0 (.alarmClear) attackAsk _ ?_ ?_).2 (attackAsk.approval.slots.getD 0 {}) ?_ ?_ ?_ rfl⟩⟩ <;> decide

/-! #### IgnoredAnswersAreRecorded -/

def w_ign31 : State := { resetAsk with lane := { resetAsk.lane with state := .configFault, station := 31 } }

theorem witness_IgnoredAnswersAreRecorded :
    Obligations.IgnoredAnswersAreRecorded →
      (∃ t, exec (.approvalAnswer 21 0 1 3 7 0) resetAsk = .next t) ∧
      (∃ t, exec (.approvalAnswer 21 0 1 1 7 0) w_ign31 = .next t) ∧
      (∃ t, exec (.approvalAnswer 20 0 1 2 7 0) resetAsk = .next t) := by
  intro O
  refine
    ⟨⟨_, (O 21 0 1 3 7 0 resetAsk ?_ ?_ ?_ ?_).2.1 ?_ ?_⟩,
      ⟨_, (O 21 0 1 1 7 0 w_ign31 ?_ ?_ ?_ ?_).1 ?_⟩,
      ⟨_, (O 20 0 1 2 7 0 resetAsk ?_ ?_ ?_ ?_).2.2 (resetAsk.approval.slots.getD 0 {}) ?_ ?_ ?_ ?_ ?_ ?_ ?_ ?_ ?_⟩⟩ <;> decide

/-! #### BindingFollowsItsCommands -/

def unboundS : State := { opened with approval := {} }

theorem witness_BindingFollowsItsCommands :
    Obligations.BindingFollowsItsCommands →
      (∃ t, exec (.bind hdr) unboundS = .next t) ∧
      (∃ t, exec (.bind hdr) opened = .next t) ∧
      (∃ t, exec (.bind { src := 21, tag := 3, retry := false }) opened = .next t) ∧
      (∃ t, exec (.unbind hdr) opened = .next t) ∧
      (∃ t, exec (.unbind hdr) unboundS = .next t) := by
  intro O
  refine
    ⟨⟨_, (O hdr unboundS ?_ ?_ ?_).1 ?_ ?_ ?_⟩,
      ⟨_, (O hdr opened ?_ ?_ ?_).2.1 ?_ ?_ ?_⟩,
      ⟨_, (O (⟨21, 3, false⟩) opened ?_ ?_ ?_).2.2.1 ?_ ?_ ?_⟩,
      ⟨_, (O hdr opened ?_ ?_ ?_).2.2.2.1 ?_ ?_⟩,
      ⟨_, (O hdr unboundS ?_ ?_ ?_).2.2.2.2 ?_ ?_⟩⟩ <;> decide

/-! #### PeerFramesUpdateTheirEntry -/

def withPeer (n : Nat) (e : PeerEntry) : State :=
  { opened with peer := { entries := (List.replicate 31 {}).set n e } }
def lpE : PeerEntry := { kind := some .console, status := .stale, held := 7, cap := 9, known := true, age := 2000 }
def w_pf1 : State := withPeer 30 lpE
def ll : PeerEntry := { kind := some .lane, status := .stale, held := 7, cap := 16777215, known := true, age := 2000 }
def w_pf2 : State := withPeer 30 ll
def w_pf2b : State := withPeer 30 lpE
def w_pf3 : State := withPeer 30 lpE
def w_pf3b : State := withPeer 30 ll
def w_pf4 : State := withPeer 30 {}
def w_pf5 : State := withPeer 30 ll
def w_pf5b : State := withPeer 30 {}
def markedE (e : PeerEntry) : State :=
  { withPeer 20 e with approval := { bound := some 20, bindTime := some 5, unbindPending := true } }
def w_pf6 : State := markedE lpE
def w_pf6a : State := markedE {}
def w_pf6b : State := markedE lpE
def w_pf6c : State := markedE ll
def w_pf6d : State := markedE { lpE with status := .live }
def w_pn1 : State := { withPeer 30 ll with bus := { part := false } }
def w_pn2 : State := { withPeer 30 ll with bus := { part := false } }
def w_pn3 : State := { withPeer 30 ll with bus := { part := false } }
def w_pn4 : State := { withPeer 30 ll with bus := { part := false } }
def w_pn5 : State := { withPeer 30 ll with bus := { part := false } }
def w_pn6 : State := { withPeer 30 ll with bus := { part := false } }

theorem witness_PeerFramesUpdateTheirEntry :
    Obligations.PeerFramesUpdateTheirEntry →
      (∃ t, exec (.peerPosition 30 {
          held := 1,
          cap := 2,
          laneState := .opened,
          summary := .attack,
          vehicle := true,
          slots := 4 }) w_pf1 = .next t) ∧
      (∃ t, exec (.peerIntent 30 5) w_pf2 = .next t) ∧
      (∃ t, exec (.peerIntent 30 5) w_pf2b = .next t) ∧
      (∃ t, exec (.peerAlarm 30 3 .duress) w_pf3 = .next t) ∧
      (∃ t, exec (.peerAlarm 30 4 .duress) w_pf3b = .next t) ∧
      (∃ t, exec (.peerFrame 30 .reply) w_pf4 = .next t) ∧
      (∃ t, exec (.peerFrame 30 .presence) w_pf5 = .next t) ∧
      (∃ t, exec (.peerFrame 30 .command) w_pf5b = .next t) ∧
      (∃ t, exec (.peerFrame 20 .presence) w_pf6 = .next t) ∧
      (∃ t, exec (.peerFrame 20 .answer) w_pf6a = .next t) ∧
      (∃ t, heard hdr w_pf6b = t) ∧
      (∃ t, heard hdr w_pf6c = t) ∧
      (∃ t, exec (.peerFrame 20 .command) w_pf6d = .next t) ∧
      (∃ t, exec (.peerPosition 30 {
          held := 1,
          cap := 2,
          laneState := .opened,
          summary := .attack,
          vehicle := true,
          slots := 4 }) w_pn1 = .next t) ∧
      (∃ t, exec (.peerIntent 30 5) w_pn2 = .next t) ∧
      (∃ t, exec (.peerAlarm 30 31 .duress) w_pn3 = .next t) ∧
      (∃ t, exec (.peerFrame 30 .reply) w_pn4 = .next t) ∧
      (∃ t, exec (.approvalAnswer 30 0 1 1 1 5) w_pn5 = .next t) ∧
      (∃ t, exec .duplicateStation w_pn6 = .next t) := by
  intro O
  refine
    ⟨⟨_, (O.1 30 w_pf1 ?_ ?_ ?_ ?_ ?_ ?_).1 (⟨1, 2, .opened, .attack, true, 4⟩)⟩,
      ⟨_, (O.1 30 w_pf2 ?_ ?_ ?_ ?_ ?_ ?_).2.1 5⟩,
      ⟨_, (O.1 30 w_pf2b ?_ ?_ ?_ ?_ ?_ ?_).2.1 5⟩,
      ⟨_, (O.1 30 w_pf3 ?_ ?_ ?_ ?_ ?_ ?_).2.2.1 3 (.duress)⟩,
      ⟨_, (O.1 30 w_pf3b ?_ ?_ ?_ ?_ ?_ ?_).2.2.1 4 (.duress)⟩,
      ⟨_, (O.1 30 w_pf4 ?_ ?_ ?_ ?_ ?_ ?_).2.2.2.1 (.reply) ?_⟩,
      ⟨_, (O.1 30 w_pf5 ?_ ?_ ?_ ?_ ?_ ?_).2.2.2.2.1 (.presence) ?_⟩,
      ⟨_, (O.1 30 w_pf5b ?_ ?_ ?_ ?_ ?_ ?_).2.2.2.2.1 (.command) ?_⟩,
      ⟨_, (O.1 20 w_pf6 ?_ ?_ ?_ ?_ ?_ ?_).2.2.2.2.1 (.presence) ?_⟩,
      ⟨_, (O.1 20 w_pf6a ?_ ?_ ?_ ?_ ?_ ?_).2.2.2.2.1 (.answer) ?_⟩,
      ⟨_, (O.1 20 w_pf6b ?_ ?_ ?_ ?_ ?_ ?_).2.2.2.2.2 hdr ?_⟩,
      ⟨_, (O.1 20 w_pf6c ?_ ?_ ?_ ?_ ?_ ?_).2.2.2.2.2 hdr ?_⟩,
      ⟨_, (O.1 20 w_pf6d ?_ ?_ ?_ ?_ ?_ ?_).2.2.2.2.1 (.command) ?_⟩,
      ⟨_, (O.2 30 w_pn1 ?_ ?_).1 (⟨1, 2, .opened, .attack, true, 4⟩)⟩,
      ⟨_, (O.2 30 w_pn2 ?_ ?_).2.1 5⟩,
      ⟨_, (O.2 30 w_pn3 ?_ ?_).2.2.1 31 (.duress)⟩,
      ⟨_, (O.2 30 w_pn4 ?_ ?_).2.2.2.1 (.reply)⟩,
      ⟨_, (O.2 30 w_pn5 ?_ ?_).2.2.2.2.1 0 1 1 1 5⟩,
      ⟨_, (O.2 30 w_pn6 ?_ ?_).2.2.2.2.2⟩⟩ <;> decide

/-! #### OwnIntentIsDecidedAtCompletion -/

def intentTx (k : IntentKind) (a : Nat) (o : Bool) : TxEntry :=
  { intentFrame k with inTx := true, carried := a, orphan := o }
def ir (k : IntentKind) (a n : Nat) : IntentRequest := { kind := k, amount := a, refusals := n }
def deciding (k : IntentKind) (a : Nat) : State :=
  { opened with
      disp := { st := .awaitCeiling, ceilingMs := some 1 },
      dep := { st := .awaitCeiling, ceilingMs := some 1 },
      bus := { part := true, queue := [positionFrame, intentTx k a false, positionFrame] },
      peer := { held := ⟨99960, 0, 0⟩, request := some (ir k a 254) } }
def w_oi1 : State := deciding .dispense 40
def w_oi2 : State := deciding .deposit 40
def w_oi3 : State := deciding .deposit 41
def w_oi4 : State :=
  { opened with bus := { part := true, queue := [intentTx .deposit 41 true] }, peer := { orphan := true } }
def w_oi5 : State :=
  { opened with
      peer := {
          held := ⟨540, 500, 40⟩,
          entries := ({
              kind := some .lane,
              status := .live,
              held := 7,
              cap := 9 }
            :: {
                status := .awaited }
              :: {
                  kind := some .lane,
                  status := .stale,
                  held := 3,
                  cap := 90,
                  laneState := some .night,
                  announced := some 5 }
                :: {
                    kind := some .lane,
                    status := .live,
                    held := 700 }
                  :: {
                      kind := some .lane,
                      status := .stale,
                      cap := 7000,
                      laneState := some .night,
                      announced := some 0 }
                    :: { kind := some .console, status := .live, held := 50000 } :: List.replicate 25 {}) } }

theorem witness_OwnIntentIsDecidedAtCompletion :
    Obligations.OwnIntentIsDecidedAtCompletion →
      (∃ t, exec .intentCompletion w_oi1 = .next t) ∧
      (∃ t, exec .intentCompletion w_oi2 = .next t) ∧
      (∃ t, exec .intentCompletion w_oi3 = .next t) ∧
      (∃ t, exec .intentCompletion w_oi4 = .next t) ∧
      (∃ t, wallSum w_oi5 = t) := by
  intro O
  refine
    ⟨⟨_, (((O.1 w_oi1 (intentTx .dispense 40 false) ?_ ?_).1 ?_ (ir .dispense 40 254) ?_).1 ?_ ?_ ?_).1 ?_ ?_⟩,
      ⟨_, (((O.1 w_oi2 (intentTx .deposit 40 false) ?_ ?_).1 ?_ (ir .deposit 40 254) ?_).1 ?_ ?_ ?_).2 ?_⟩,
      ⟨_, ((O.1 w_oi3 (intentTx .deposit 41 false) ?_ ?_).1 ?_ (ir .deposit 41 254) ?_).2 ?_ ?_ ?_⟩,
      ⟨_, (O.1 w_oi4 (intentTx .deposit 41 true) ?_ ?_).2 ?_ ?_ ?_⟩,
      ⟨_, O.2 w_oi5 ?_⟩⟩ <;> decide

/-! #### StalePeersPositionsAndDuplicates -/

def w_sp1 : State := withPeer 30 { ll with status := .live, age := 1999 }
def w_sp2 : State := { withPeer 20 { lpE with status := .live, age := 2001 } with cal := { phase := .waiting } }
def w_sp3 : State := withPeer 20 { lpE with status := .live, age := 2001 }
def marked (s : State) : State :=
  { s with
      approval := { bound := some 20, bindTime := some 5, unbindPending := true },
      peer := { held := ⟨540, 500, 40⟩ } }
def w_su1 : State := marked (withDisp { st := .purging })
def w_su2 : State := marked (withDep { st := .stacking })
def w_su3 : State := marked { opened with cal := { phase := .stacking } }
def w_su4 : State := marked (withDisp { st := .presenting, takeMs := some 1, presentedValue := 40 })
def w_su4b : State := marked { withDisp { st := .presenting, takeMs := some 1 } with dep := { st := .holding } }
def w_su5 : State := marked (withDep { st := .returnPresented, console := 20, tag := 3 })
def w_su6 : State :=
  marked { opened with cal := { phase := .inPocket, channel := .q, outcome := some .calFailed, tag := 4 } }

theorem witness_StalePeersPositionsAndDuplicates :
    Obligations.StalePeersPositionsAndDuplicates →
      (∃ t, exec (.peerStale 30) w_sp1 = .next t) ∧
      (∃ t, exec (.peerStale 20) w_sp2 = .next t) ∧
      (∃ t, exec (.peerStale 20) w_sp3 = .next t) ∧
      (∃ t, endDispense DispOutcome.short w_su1 = t) ∧
      (∃ t, endDeposit DepOutcome.stacked w_su2 = t) ∧
      (∃ t, endCal CalOutcome.lockdown w_su3 = t) ∧
      (∃ t, exec .dispenseTaken w_su4 = .next t) ∧
      (∃ t, exec .dispenseTaken w_su4b = .next t) ∧
      (∃ t, exec .returnTaken w_su5 = .next t) ∧
      (∃ t, exec .calibrationNoteTaken w_su6 = .next t) ∧
      (∃ t, exec .positionPeriod base = .next t) ∧
      (∃ t, exec .duplicateStation base = .next t) := by
  intro O
  refine
    ⟨⟨_, (O.1 30 w_sp1 ({ ll with status := .live, age := 1999 }) ?_ ?_ ?_).1 ?_ ?_⟩,
      ⟨_, ((O.1 20 w_sp2 ({ lpE with status := .live, age := 2001 }) ?_ ?_ ?_).2 ?_ ?_).1 ?_ ?_⟩,
      ⟨_, ((O.1 20 w_sp3 ({ lpE with status := .live, age := 2001 }) ?_ ?_ ?_).2 ?_ ?_).2 ?_ ?_⟩,
      ⟨_, (O.2.1 w_su1 20 ?_ ?_ ?_ ?_).1 (.short) ?_⟩,
      ⟨_, (O.2.1 w_su2 20 ?_ ?_ ?_ ?_).2.1 (.stacked) ?_⟩,
      ⟨_, (O.2.1 w_su3 20 ?_ ?_ ?_ ?_).2.2.1 (.lockdown) ?_⟩,
      ⟨_, (O.2.1 w_su4 20 ?_ ?_ ?_ ?_).2.2.2.1 ?_ ?_ ?_⟩,
      ⟨_, (O.2.1 w_su4b 20 ?_ ?_ ?_ ?_).2.2.2.1 ?_ ?_ ?_⟩,
      ⟨_, (O.2.1 w_su5 20 ?_ ?_ ?_ ?_).2.2.2.2.1 ?_ ?_⟩,
      ⟨_, (O.2.1 w_su6 20 ?_ ?_ ?_ ?_).2.2.2.2.2 (.calFailed) ?_ ?_ ?_⟩,
      ⟨_, (O.2.2 base ?_).1 ?_⟩,
      ⟨_, (O.2.2 base ?_).2 ?_ ?_ ?_⟩⟩ <;> decide

/-! #### OwnTransmissionsEnd -/

def sending (e : TxEntry) : State :=
  { withQueue [positionFrame, e, positionFrame] with
      bus := { part := true, queue := [positionFrame, e, positionFrame], series := some ⟨20, 3, []⟩ } }
def tx (o : Owner) (c : Nat) : TxEntry :=
  { frame := plainFrame .notice 31 false false (.notice .fault) 4 [], owner := o, complaints := c, inTx := true }
def b0 : Board := ⟨true, 4, none, [true, false, false, false]⟩
def w_tx1 : State := sending (tx (.ask 2) 0)
def w_tx2 : State := sending (tx .resetNotice 0)
def w_tx3 : State := sending (tx .querySegment 0)
def fullQ : State :=
  { opened with
      bus := {
          part := true,
          queue := tx .querySegment 0 :: List.replicate 15 positionFrame,
          series := some ⟨20, 3, [(false, [1])]⟩ } }
def w_tx5 : State := sending (tx .nobody 3)
def w_tx6 : State := sending (intentTx .deposit 5 true)
def w_tx7 : State := sending (tx .resetNotice 2)
def w_tx8 : State := sending (tx .nobody 3)
def w_tx8b : State :=
  { sending (intentTx .deposit 5 false) with
      peer := { request := some (ir .deposit 5 254) },
      bus := { (sending { intentTx .deposit 5 false with complaints := 3 }).bus with part := true } }
def w_tx9 : State := sending (tx .resetNotice 3)
def w_tx10 : State :=
  { withQueue [positionFrame, { positionFrame with inTx := true }, positionFrame] with lane := opened.lane }
def w_en1 : State := withQueue (List.replicate 15 positionFrame)
def fullOf (e : TxEntry) : State := withQueue (List.replicate 15 positionFrame ++ [e])
def wk (c : FrameClass) (o : Owner) (b : Bool) : TxEntry :=
  { frame := plainFrame c 31 false false .ask 4 [], owner := o, inTx := b }
def w_en2 : State := fullOf (wk .position .position true)
def w_en3 : State := withQueue (List.replicate 16 (wk .reply .nobody false))
def w_en4 : State :=
  { withQueue (List.replicate 16 (wk .alarm .nobody false)) with peer := { request := some (ir .deposit 5 254) } }
def w_en5 : State := withQueue (List.replicate 16 (wk .alarm .nobody false))

theorem witness_OwnTransmissionsEnd :
    Obligations.OwnTransmissionsEnd →
      (∃ t, exec (.ownFrameCompleted b0) w_tx1 = .next t) ∧
      (∃ t, exec (.ownFrameCompleted b0) w_tx2 = .next t) ∧
      (∃ t, exec .querySegmentCompleted w_tx3 = .next t) ∧
      (∃ t, exec .querySegmentCompleted fullQ = .next t) ∧
      (∃ t, exec .arbitrationLost w_tx5 = .next t) ∧
      (∃ t, exec .arbitrationLost w_tx6 = .next t) ∧
      (∃ t, exec (.transmissionComplained b0) w_tx7 = .next t) ∧
      (∃ t, exec (.transmissionComplained b0) w_tx8 = .next t) ∧
      (∃ t, exec (.transmissionComplained b0) w_tx8b = .next t) ∧
      (∃ t, exec (.transmissionComplained b0) w_tx9 = .next t) ∧
      (∃ t, exec .arbitrationLost w_tx10 = .next t) ∧
      (∃ t, enqueue positionFrame w_en1 = t) ∧
      (∃ t, enqueue (wk FrameClass.alarm Owner.nobody false) w_en2 = t) ∧
      (∃ t, enqueue (wk FrameClass.notice Owner.nobody false) w_en3 = t) ∧
      (∃ t, enqueue (intentFrame IntentKind.deposit) w_en4 = t) ∧
      (∃ t, enqueue (wk FrameClass.notice Owner.resetNotice false) w_en5 = t) := by
  intro O
  refine
    ⟨⟨_, (O.1 w_tx1 b0 (tx (.ask 2) 0) ?_ ?_).1 ?_⟩,
      ⟨_, (O.1 w_tx2 b0 (tx .resetNotice 0) ?_ ?_).2.1 ?_⟩,
      ⟨_, ((O.1 w_tx3 b0 (tx .querySegment 0) ?_ ?_).2.2.1 ?_ (⟨20, 3, []⟩) ?_).1 ?_⟩,
      ⟨_, ((O.1 fullQ b0 (tx .querySegment 0) ?_ ?_).2.2.1 ?_ (⟨20, 3, [(false, [1])]⟩) ?_).2 ((false, [1])) [] ?_ ?_⟩,
      ⟨_, (O.1 w_tx5 b0 (tx .nobody 3) ?_ ?_).2.2.2.1 ?_⟩,
      ⟨_, (O.1 w_tx6 b0 (intentTx .deposit 5 true) ?_ ?_).2.2.2.2.1 ?_⟩,
      ⟨_, (O.1 w_tx7 b0 (tx .resetNotice 2) ?_ ?_).2.2.2.2.2.1 ?_ ?_⟩,
      ⟨_, ((O.1 w_tx8 b0 (tx .nobody 3) ?_ ?_).2.2.2.2.2.2 ?_).1 ?_⟩,
      ⟨_, ((O.1 w_tx8b b0 ({ intentTx .deposit 5 false with complaints := 3 }) ?_ ?_).2.2.2.2.2.2 ?_).1 ?_⟩,
      ⟨_, ((O.1 w_tx9 b0 (tx .resetNotice 3) ?_ ?_).2.2.2.2.2.2 ?_).2 ?_⟩,
      ⟨_, (O.1 w_tx10 b0 ({ positionFrame with inTx := true }) ?_ ?_).2.2.2.1 ?_⟩,
      ⟨_, (O.2 positionFrame w_en1).1 ?_⟩,
      ⟨_, ((O.2 (wk .alarm .nobody false) w_en2).2 ?_).1 (List.replicate 14 positionFrame) [wk .position .position
            true] positionFrame ?_ ?_ ?_ ?_ ?_⟩,
      ⟨_, ((O.2 (wk .notice .nobody false) w_en3).2 ?_).2 ?_⟩,
      ⟨_, ((O.2 (intentFrame .deposit) w_en4).2 ?_).2 ?_⟩,
      ⟨_, ((O.2 (wk .notice .resetNotice false) w_en5).2 ?_).2 ?_⟩⟩ <;> decide

/-! #### IdlePointOffersTheStrongestFrame -/

def w_ip0 : State := withQueue [positionFrame, { positionFrame with inTx := true }]
def w_ip00 : State := { opened with bus := { part := false } }
def entry (c : FrameClass) (o : Owner) : TxEntry := { frame := plainFrame c 31 false false .ask 4 [], owner := o }
def w_ip1 : State := withQueue [positionFrame, entry .notice (.ask 1), entry .notice .nobody, positionFrame]
def w_ip2 : State :=
  { withQueue [positionFrame] with
      peer := { held := ⟨5, 0, 5⟩, duplicate := true },
      alarm := { attack := true, duress := true, zones := zonesWith { type := .vehicle, state := .active } },
      approval := waits .dispense 3 }
def w_ip3 : State :=
  { withQueue [positionFrame, intentFrame .deposit] with
      peer := { request := some ⟨.deposit, 77, .queued, none, 0, 0⟩ } }

theorem witness_IdlePointOffersTheStrongestFrame :
    Obligations.IdlePointOffersTheStrongestFrame →
      (∃ t, exec .idlePoint w_ip0 = .next t) ∧
      (∃ t, exec .idlePoint w_ip00 = .next t) ∧
      (∃ t, exec .idlePoint w_ip1 = .next t) ∧
      (∃ t, exec .idlePoint w_ip2 = .next t) ∧
      (∃ t, exec .idlePoint w_ip3 = .next t) := by
  intro O
  refine
    ⟨⟨_, (O.1 w_ip0).1 ?_⟩,
      ⟨_, (O.1 w_ip00).2 ?_ ?_⟩,
      ⟨_, (O.2 w_ip1 [positionFrame] [entry .notice .nobody, positionFrame] (entry .notice (.ask 1)) ?_ ?_ ?_ ?_
            ?_).1 ?_⟩,
      ⟨_, (O.2 w_ip2 [] [] positionFrame ?_ ?_ ?_ ?_ ?_).2.1 ?_ ?_⟩,
      ⟨_, (O.2 w_ip3 [positionFrame] [] (intentFrame .deposit) ?_ ?_ ?_ ?_ ?_).2.2 (⟨.deposit, 77, .queued, none, 0,
            0⟩) ?_ ?_⟩⟩ <;> decide

/-! #### QueriesRetriesAndUnknownCommands -/

def seg0 : Bool × List Byte :=
  ((segments ((queryRecord (heard hdr opened) 1 0).getD []).length 0 ((queryRecord (heard hdr opened) 1 0).getD
      [])).headD default)
def segR : List (Bool × List Byte) :=
  ((segments ((queryRecord (heard hdr opened) 1 0).getD []).length 0 ((queryRecord (heard hdr opened) 1 0).getD
      [])).tail)
def w_q_busy : State := { opened with bus := { part := true, series := some ⟨21, 3, []⟩ } }
def w_q_busy2 : State := { opened with bus := { part := true, series := some ⟨21, 3, []⟩ } }
def remembered : ReplyEntry := ⟨20, 7, .cancel, replyFrame hdr .cancel false [1, 2]⟩
def w_q3 : State :=
  { opened with
      bus := {
          part := true,
          memory := [⟨20, 7, .cancel, replyFrame hdr (.cancel) false [1, 2]⟩, { remembered with src := 4 }] } }
def w_q3a : State :=
  { opened with
      bus := {
          part := true,
          memory := [⟨20, 7, .dispense, replyFrame hdr (.dispense) false [1, 2]⟩, { remembered with src := 4 }] } }
def w_q3b : State :=
  { opened with
      bus := {
          part := true,
          memory := [⟨20, 7, .resetLane, replyFrame hdr (.resetLane) false [1, 2]⟩, { remembered with src := 4 }] } }
def w_q3c : State :=
  { { opened with bus := { part := true, memory := [⟨20, 7, .depositAccept, replyFrame hdr (.depositAccept) false [1, 2]⟩, { remembered with src := 4 }] } } with
      lane := { opened.lane with state := .lockdown } }
def w_q3d : State :=
  { { opened with bus := { part := true, memory := [⟨20, 7, .clearPurge, replyFrame hdr (.clearPurge) false [1, 2]⟩, { remembered with src := 4 }] } } with
      lane := { opened.lane with state := .configFault } }
def w_q3e : State :=
  { opened with
      bus := {
          part := true,
          memory := [⟨20, 7, .unknown 200, replyFrame hdr (.unknown 200) false [1, 2]⟩, { remembered with src := 4 }] } }
def w_q3f : State :=
  { opened with
      bus := {
          part := true,
          memory := [⟨20, 7, .dispense, replyFrame hdr (.dispense) false [1, 2]⟩, { remembered with src := 4 }] } }
def w_q3g : State :=
  { opened with
      bus := {
          part := true,
          memory := [⟨20, 7, .unknown 200, replyFrame hdr (.unknown 200) false [1, 2]⟩, { remembered with src := 4 }] } }
def w_q3h : State :=
  { feed { toPocket := 1 } with
      bus := ({ opened with
          bus := {
              part := true,
              memory := [⟨20, 7, .unknown 200, replyFrame hdr (.unknown 200) false [1, 2]⟩, { remembered with
                  src := 4 }] } }).bus }
def w_q3i : State :=
  { feed { toEscrow := [ee], closing := some { accepts := [accept8] } } with
      bus := ({ opened with
          bus := {
              part := true,
              memory := [⟨20, 7, .unknown 200, replyFrame hdr (.unknown 200) false [1, 2]⟩, { remembered with
                  src := 4 }] } }).bus }
def w_q3j : State :=
  { feed {} with
      bus := ({ opened with
          bus := {
              part := true,
              memory := [⟨20, 7, .dispense, replyFrame hdr (.dispense) false [1, 2]⟩, { remembered with src := 4 }] } }).bus }

set_option maxRecDepth 20000 in
theorem witness_QueriesRetriesAndUnknownCommands :
    Obligations.QueriesRetriesAndUnknownCommands →
      (∃ t, exec (.query hdr 1 0) opened = .next t) ∧
      (∃ t, exec (.unknownCommand hdr (.unknown 255)) opened = .next t) ∧
      (∃ t, exec (.unknownCommand hdr .query) opened = .next t) ∧
      (∃ t, exec (.unknownCommand { src := hdr.src, tag := hdr.tag, retry := true } .query) opened = .next t) ∧
      (∃ t, exec (.query hdr 1 0) w_q_busy = .next t) ∧
      (∃ t, exec (.query hdr 14 0) w_q_busy2 = .next t) ∧
      (∃ t, exec (.query hdr 0 1) opened = .next t) ∧
      (∃ t, exec (.query hdr 14 1) opened = .next t) ∧
      (∃ t, exec (.query hdr 2 5) opened = .next t) ∧
      (∃ t, exec (.query hdr 3 8) opened = .next t) ∧
      (∃ t, exec (.query hdr 6 1) opened = .next t) ∧
      (∃ t, exec (.query hdr 7 1) opened = .next t) ∧
      (∃ t, exec (.query hdr 8 0) opened = .next t) ∧
      (∃ t, exec (.query hdr 9 31) opened = .next t) ∧
      (∃ t, exec (.query { src := hdr.src, tag := hdr.tag, retry := true } 4 0) opened = .next t) ∧
      (∃ t, exec (.cancel { src := hdr.src, tag := hdr.tag, retry := true }) w_q3 = .next t) ∧
      (∃ t, exec (.dispense { src := hdr.src, tag := hdr.tag, retry := true } (.amount 40)) w_q3a = .next t) ∧
      (∃ t, exec (.resetLane { src := hdr.src, tag := hdr.tag, retry := true }) w_q3b = .next t) ∧
      (∃ t, exec (.depositAccept { src := hdr.src, tag := hdr.tag, retry := true } []) w_q3c = .next t) ∧
      (∃ t, exec (.clearPurge { src := hdr.src, tag := hdr.tag, retry := true }) w_q3d = .next t) ∧
      (∃ t, exec (.unknownCommand { src := hdr.src, tag := hdr.tag, retry := true } (.unknown 200)) w_q3e = .next t) ∧
      (∃ t, exec (.cancel { src := hdr.src, tag := hdr.tag, retry := true }) w_q3f = .next t) ∧
      (∃ t, exec (.unknownCommand { src := hdr.src, tag := hdr.tag, retry := true } (.unknown 201)) w_q3g = .next t) ∧
      (∃ t, exec (.depositAccept { src := hdr.src, tag := hdr.tag, retry := true } []) w_q3h = .next t) ∧
      (∃ t, exec (.depositAccept { src := hdr.src, tag := hdr.tag, retry := true } []) w_q3i = .next t) ∧
      (∃ t, exec (.depositAccept { src := hdr.src, tag := hdr.tag, retry := true } []) w_q3j = .next t) ∧
      (∃ t, exec .frameComplained opened = .next t) := by
  intro O
  refine
    ⟨⟨_, (O.1 hdr opened).1 1 0 ((queryRecord (heard hdr opened) 1 0).getD []) seg0 segR ?_ ?_ ?_ ?_ ?_⟩,
      ⟨_, (O.1 hdr opened).2.2.2.2.1 (.unknown 255) ?_ ?_ ?_⟩,
      ⟨_, (O.1 hdr opened).2.2.2.2.2.1 ?_ ?_⟩,
      ⟨_, (O.1 ({ hdr with retry := true }) opened).2.2.2.2.2.2.1⟩,
      ⟨_, (O.1 hdr w_q_busy).2.1 1 0 ?_ ?_ ?_⟩,
      ⟨_, (O.1 hdr w_q_busy2).2.1 14 0 ?_ ?_ ?_⟩,
      ⟨_, (O.1 hdr opened).2.2.1 0 1 ?_ ?_ ?_ ?_⟩,
      ⟨_, (O.1 hdr opened).2.2.1 14 1 ?_ ?_ ?_ ?_⟩,
      ⟨_, (O.1 hdr opened).2.2.1 2 5 ?_ ?_ ?_ ?_⟩,
      ⟨_, (O.1 hdr opened).2.2.1 3 8 ?_ ?_ ?_ ?_⟩,
      ⟨_, (O.1 hdr opened).2.2.1 6 1 ?_ ?_ ?_ ?_⟩,
      ⟨_, (O.1 hdr opened).2.2.1 7 1 ?_ ?_ ?_ ?_⟩,
      ⟨_, (O.1 hdr opened).2.2.1 8 0 ?_ ?_ ?_ ?_⟩,
      ⟨_, (O.1 hdr opened).2.2.1 9 31 ?_ ?_ ?_ ?_⟩,
      ⟨_, (O.1 ({ hdr with retry := true }) opened).2.2.2.1 4 0⟩,
      ⟨_, (O.2.1 ({ hdr with
            retry := true }
          ) w_q3 (.amount 40) [] 2 100 5 true false ?_ ?_).1 (.cancel) (.cancel { hdr with
              retry := true }) remembered ?_ ?_ ?_⟩,
      ⟨_, (O.2.1 ({ hdr with
            retry := true }
          ) w_q3a (.amount 40) [] 2 100 5 true false ?_ ?_).1 (.dispense) (.dispense { hdr with
              retry := true }
            (.amount 40)) (⟨20, 7, .dispense, replyFrame hdr .dispense false [1, 2]⟩) ?_ ?_ ?_⟩,
      ⟨_, (O.2.1 ({ hdr with
            retry := true }
          ) w_q3b (.amount 40) [] 2 100 5 true false ?_ ?_).1 (.resetLane) (.resetLane { hdr with
              retry := true }
            ) (⟨20, 7, .resetLane, replyFrame hdr .resetLane false [1, 2]⟩) ?_ ?_ ?_⟩,
      ⟨_, (O.2.1 ({ hdr with
            retry := true }
          ) w_q3c (.amount 40) [] 2 100 5 true false ?_ ?_).1 (.depositAccept) (.depositAccept { hdr with
              retry := true }
            []) (⟨20, 7, .depositAccept, replyFrame hdr .depositAccept false [1, 2]⟩) ?_ ?_ ?_⟩,
      ⟨_, (O.2.1 ({ hdr with
            retry := true }
          ) w_q3d (.amount 40) [] 2 100 5 true false ?_ ?_).1 (.clearPurge) (.clearPurge { hdr with
              retry := true }
            ) (⟨20, 7, .clearPurge, replyFrame hdr .clearPurge false [1, 2]⟩) ?_ ?_ ?_⟩,
      ⟨_, (O.2.1 ({ hdr with
            retry := true }
          ) w_q3e (.amount 40) [] 2 100 5 true false ?_ ?_).2.1 (.unknown 200) (⟨20, 7, .unknown 200, replyFrame hdr
              (.unknown 200) false [1, 2]⟩) ?_ ?_ ?_⟩,
      ⟨_, (O.2.1 ({ hdr with
            retry := true }
          ) w_q3f (.amount 40) [] 2 100 5 true false ?_ ?_).2.2.1 1 (.cancel) (.cancel { hdr with
              retry := true }) (.cancel hdr) ?_ ?_ ?_ ?_⟩,
      ⟨_, (O.2.1 ({ hdr with
            retry := true }
          ) w_q3g (.amount 40) [] 2 100 5 true false ?_ ?_).2.2.2.1 (.unknown 201) ?_⟩,
      ⟨_, (O.2.1 ({ hdr with
            retry := true }
          ) w_q3h (.amount 40) [] 2 100 5 true false ?_ ?_).2.2.2.2 ?_ ?_ ?_ ?_ ?_ ?_⟩,
      ⟨_, (O.2.1 ({ hdr with
            retry := true }
          ) w_q3i (.amount 40) [] 2 100 5 true false ?_ ?_).2.2.2.2 ?_ ?_ ?_ ?_ ?_ ?_⟩,
      ⟨_, (O.2.1 ({ hdr with
            retry := true }
          ) w_q3j (.amount 40) [] 2 100 5 true false ?_ ?_).2.2.1 4 (.depositAccept) (.depositAccept { hdr with
              retry := true }
            []) (.depositAccept hdr []) ?_ ?_ ?_ ?_⟩,
      ⟨_, (O.1 hdr opened).2.2.2.2.2.2.2⟩⟩ <;> decide

/-! #### ScansFollowTheReadings -/

def zs (l : List Zone) : State := withAlarm { zones := l ++ List.replicate (12 - l.length) {} }
def w_sc1 : State :=
  { zs [{ type := .door, state := .quiet }, { type := .duress }, { type := .attack }, { type := .vehicle, frozen := true, hold := 49 }] with
      alarm := { (zs [{ type := .door, state := .quiet }, { type := .duress }, { type := .attack }, { type := .vehicle, frozen := true, hold := 49 }]).alarm with
          asserted := 4 } }
def w_sc2 : State := { zs [] with alarm := { recognised := true, released := 49 } }
def w_sc3 : State := { zs [] with alarm := { asserted := 4, drive := true } }

theorem witness_ScansFollowTheReadings :
    Obligations.ScansFollowTheReadings →
      (∃ t, scanZone 99 {} = t) ∧
      (∃ t, scanZone 100 { type := .door, candidate := some .quiet, count := 4 } = t) ∧
      (∃ t, scanZone 399 {
          type := .vehicle,
          candidate := some .active,
          count := 19,
          trouble := true,
          restore := 19,
          frozen := true } = t) ∧
      (∃ t, scanZone 400 { type := .door, candidate := some .active, count := 5, frozen := true, hold := 49 } = t) ∧
      (∃ t, scanZone 799 { type := .door, candidate := some .active, count := 5, frozen := true, hold := 50 } = t) ∧
      (∃ t, scanZone 800 { type := .attack, candidate := some .active, count := 1 } = t) ∧
      (∃ t, scanZone 99 { type := .bin, candidate := some .active, count := 1 } = t) ∧
      (∃ t, exec (.zoneScan [99, 400, 800, 50] true [42, 90]) w_sc1 = .next t) ∧
      (∃ t, exec (.zoneScan [99, 400] false) w_sc2 = .next t) ∧
      (∃ t, exec (.zoneScan [99, 400] false [42]) w_sc3 = .next t) := by
  intro O
  refine
    ⟨⟨_, (O.1 99 ({})).1 ?_⟩,
      ⟨_, ((O.1 100 ({ type := .door, candidate := some .quiet, count := 4 })).2 ?_).1 ?_⟩,
      ⟨_, ((O.1 399 ({
            type := .vehicle,
            candidate := some .active,
            count := 19,
            trouble := true,
            frozen := true,
            restore := 19 })).2 ?_).1 ?_⟩,
      ⟨_, ((O.1 400 ({
            type := .door,
            candidate := some .active,
            count := 5,
            frozen := true,
            hold := 49 })).2 ?_).2.1 ?_⟩,
      ⟨_, ((O.1 799 ({
            type := .door,
            candidate := some .active,
            count := 5,
            frozen := true,
            hold := 50 })).2 ?_).2.1 ?_⟩,
      ⟨_, (((O.1 800 ({ type := .attack, candidate := some .active, count := 1 })).2 ?_).2.2 ?_).1 ?_⟩,
      ⟨_, (((O.1 99 ({ type := .bin, candidate := some .active, count := 1 })).2 ?_).2.2 ?_).2 ?_⟩,
      ⟨_, O.2 [99, 400, 800, 50] true [42, 90] w_sc1 ?_ ?_ ?_ ?_ ?_ ?_⟩,
      ⟨_, O.2 [99, 400] false [] w_sc2 ?_ ?_ ?_ ?_ ?_ ?_⟩,
      ⟨_, O.2 [99, 400] false [42] w_sc3 ?_ ?_ ?_ ?_ ?_ ?_⟩⟩ <;> decide

/-! #### ZoneChangesAreFlaggedAndReported -/

def zat (i : Nat) (z : Zone) (s : State) : State :=
  { s with alarm := { s.alarm with zones := (List.replicate 12 {}).set i z } }
def due (t : ZoneType) (old new : ZoneState) (r : Bool) : Zone :=
  { type := t, report := r, candidate := some new, count := 20, state := old }
def w_zc1 : State := zat 11 (due .door .unknown .quiet true) opened
def w_zc2 : State := zat 0 (due .duress .active .quiet true) opened
def w_zc3 : State := zat 0 (due .vehicle .quiet .active true) opened
def vgone : State :=
  { zat 0 (due .vehicle .active .quiet true) (withDisp { st := .presenting, takeMs := some 5001 }) with
      drives := { pocketShutter := true } }
def w_zc5 : State := zat 0 (due .duress .unknown .active true) opened
def dz (s : State) : State :=
  { zat 0 (due .duress .quiet .active true) s with config := { s.config with duressLimit := 500 } }
def zcd (st : DispState) (v : Nat) (a : Approval) : State :=
  { dz { dispIn st with approval := a } with
      disp := { (dispIn st).disp with planValue := v, slot := if st = .awaitApproval then some ⟨0, 1⟩ else none } }
def w_zd1 : State := zcd .awaitApproval 500 (waits .dispense 500)
def w_zd2 : State := zcd .awaitApproval 501 (waits .dispense 501)
def w_zd3 : State :=
  { zcd .awaitApproval 501 (waits .dispense 501) with config := { base.config with duressLimit := 0 } }
def w_zd3b : State :=
  { zcd .awaitApproval 501 (waits .dispense 501) with config := { base.config with duressLimit := 15 } }
def reqd (s : State) : State := { s with peer := { s.peer with request := some (ir .dispense 900 3) } }
def w_zd4 : State := reqd (zcd .awaitCeiling 500 {})
def w_zd5 : State := reqd (zcd .awaitCeiling 900 {})
def w_zd6 : State := { reqd (zcd .awaitCeiling 900 {}) with config := { base.config with duressLimit := 0 } }
def w_zd7 : State := zcd .zeroCapture 500 {}
def w_zd8 : State := { zcd .zeroCapture 900 {} with peer := { held := ⟨940, 900, 40⟩ } }
def w_zd9 : State :=
  { zcd .zeroCapture 900 {} with
      peer := { held := ⟨940, 900, 40⟩ },
      config := { base.config with duressLimit := 0 },
      chP := { capturing := true } }
def w_zd10 : State :=
  dz { withDep { st := .awaitApproval, slot := some ⟨0, 1⟩, escrow := [⟨0, 20, 100⟩], tag := 3 } with
      approval := waits .depositAccept 20 }
def w_zc6 : State := zat 3 (due .attack .quiet .active true) (withDep { st := .feeding, escrow := [⟨0, 20, 100⟩] })
def w_zc1n : State := zat 11 (due .door .active .quiet false) opened
def w_zc2b : State :=
  (fun s => { s with alarm := { s.alarm with duress := true } }) (zat 0 (due .duress .quiet .active true) opened)
def w_zc2c : State :=
  (fun s => { s with
      alarm := { s.alarm with attack := true },
      lane := { s.lane with state := .lockdown, release := true } }
    ) (zat 0 (due .attack .quiet .active false) opened)
def w_zc3n : State := zat 0 (due .vehicle .quiet .active false) opened
def w_zc4n : State :=
  { zat 0 (due .vehicle .active .quiet false) (withDisp { st := .presenting, takeMs := some 5001 }) with
      drives := { pocketShutter := true } }
def w_zc4m : State :=
  { zat 0 (due .vehicle .active .quiet true) (withDep { st := .returnPresented, takeMs := some 4999 }) with
      drives := { pocketShutter := true } }
def w_zc5n : State := zat 0 (due .duress .quiet .active false) opened
def w_zc6n : State := zat 3 (due .attack .unknown .active false) base
def w_zc6c : State :=
  { zat 3 (due .attack .quiet .active true) opened with lane := { opened.lane with state := .configFault } }
def w_zc6l : State :=
  { zat 3 (due .attack .quiet .active false) opened with
      lane := { opened.lane with state := .lockdown, release := true } }

theorem witness_ZoneChangesAreFlaggedAndReported :
    Obligations.ZoneChangesAreFlaggedAndReported →
      (∃ t, exec (.zoneChange (11 + 1) false [42, 90]) w_zc1 = .next t) ∧
      (∃ t, exec (.zoneChange (0 + 1) false [42, 90]) w_zc2 = .next t) ∧
      (∃ t, exec (.zoneChange (0 + 1) true [42, 90]) w_zc3 = .next t) ∧
      (∃ t, exec (.zoneChange (0 + 1) true [42, 90]) vgone = .next t) ∧
      (∃ t, exec (.zoneChange (0 + 1) true [42, 90]) w_zc5 = .next t) ∧
      (∃ t, exec (.zoneChange (0 + 1) true) w_zd1 = .next t) ∧
      (∃ t, exec (.zoneChange (0 + 1) true) w_zd2 = .next t) ∧
      (∃ t, exec (.zoneChange (0 + 1) true) w_zd3 = .next t) ∧
      (∃ t, exec (.zoneChange (0 + 1) true) w_zd3b = .next t) ∧
      (∃ t, exec (.zoneChange (0 + 1) true) w_zd4 = .next t) ∧
      (∃ t, exec (.zoneChange (0 + 1) true) w_zd5 = .next t) ∧
      (∃ t, exec (.zoneChange (0 + 1) true) w_zd6 = .next t) ∧
      (∃ t, exec (.zoneChange (0 + 1) true) w_zd7 = .next t) ∧
      (∃ t, exec (.zoneChange (0 + 1) true) w_zd8 = .next t) ∧
      (∃ t, exec (.zoneChange (0 + 1) true) w_zd9 = .next t) ∧
      (∃ t, exec (.zoneChange (0 + 1) true) w_zd10 = .next t) ∧
      (∃ t, exec (.zoneChange (3 + 1) true [42, 90]) w_zc6 = .next t) ∧
      (∃ t, exec (.zoneChange (11 + 1) false [42, 90]) w_zc1n = .next t) ∧
      (∃ t, exec (.zoneChange (0 + 1) false [42, 90]) w_zc2b = .next t) ∧
      (∃ t, exec (.zoneChange (0 + 1) false) w_zc2c = .next t) ∧
      (∃ t, exec (.zoneChange (0 + 1) true [42, 90]) w_zc3n = .next t) ∧
      (∃ t, exec (.zoneChange (0 + 1) true [42, 90]) w_zc4n = .next t) ∧
      (∃ t, exec (.zoneChange (0 + 1) true [42, 90]) w_zc4m = .next t) ∧
      (∃ t, exec (.zoneChange (0 + 1) true [42, 90]) w_zc5n = .next t) ∧
      (∃ t, exec (.zoneChange (3 + 1) true [42, 90]) w_zc6n = .next t) ∧
      (∃ t, exec (.zoneChange (3 + 1) true [42, 90]) w_zc6c = .next t) ∧
      (∃ t, exec (.zoneChange (3 + 1) true [42, 90]) w_zc6l = .next t) := by
  intro O
  refine
    ⟨⟨_, ((O 11 false [42, 90] w_zc1 (due .door .unknown .quiet true) (.quiet) ?_ ?_ ?_ ?_ ?_).1 ?_).1 ?_⟩,
      ⟨_, ((O 0 false [42, 90] w_zc2 (due .duress .active .quiet true) (.quiet) ?_ ?_ ?_ ?_ ?_).1 ?_).2 ?_ ?_⟩,
      ⟨_, ((O 0 true [42, 90] w_zc3 (due .vehicle .quiet .active true) (.active) ?_ ?_ ?_ ?_ ?_).2.1 ?_ ?_).1 ?_⟩,
      ⟨_, ((O 0 true [42, 90] vgone (due .vehicle .active .quiet true) (.quiet) ?_ ?_ ?_ ?_ ?_).2.1 ?_ ?_).2 ?_ ?_ ?_
            ?_⟩,
      ⟨_, ((O 0 true [42, 90] w_zc5 (due .duress .unknown .active true) (.active) ?_ ?_ ?_ ?_ ?_).2.2.1 ?_ ?_ ?_ ?_
            ?_).1 ?_ ?_ ?_ ?_⟩,
      ⟨_, (((O 0 true [] w_zd1 (due .duress .quiet .active true) (.active) ?_ ?_ ?_ ?_ ?_).2.2.1 ?_ ?_ ?_ ?_ ?_).2.1
            (⟨0, 1⟩) ?_ ?_ ?_ ?_ ?_ ?_).1 ?_ ?_⟩,
      ⟨_, (((O 0 true [] w_zd2 (due .duress .quiet .active true) (.active) ?_ ?_ ?_ ?_ ?_).2.2.1 ?_ ?_ ?_ ?_ ?_).2.1
            (⟨0, 1⟩) ?_ ?_ ?_ ?_ ?_ ?_).2.1 [⟨7, 10, 0⟩] ?_ ?_ ?_ ?_⟩,
      ⟨_, (((O 0 true [] w_zd3 (due .duress .quiet .active true) (.active) ?_ ?_ ?_ ?_ ?_).2.2.1 ?_ ?_ ?_ ?_ ?_).2.1
            (⟨0, 1⟩) ?_ ?_ ?_ ?_ ?_ ?_).2.2 (.clampedZero) ?_ ?_ ?_ ?_⟩,
      ⟨_, (((O 0 true [] w_zd3b (due .duress .quiet .active true) (.active) ?_ ?_ ?_ ?_ ?_).2.2.1 ?_ ?_ ?_ ?_ ?_).2.1
            (⟨0, 1⟩) ?_ ?_ ?_ ?_ ?_ ?_).2.2 (.noMix) ?_ ?_ ?_ ?_⟩,
      ⟨_, (((O 0 true [] w_zd4 (due .duress .quiet .active true) (.active) ?_ ?_ ?_ ?_ ?_).2.2.1 ?_ ?_ ?_ ?_
            ?_).2.2.1 ?_ ?_).1 ?_⟩,
      ⟨_, (((O 0 true [] w_zd5 (due .duress .quiet .active true) (.active) ?_ ?_ ?_ ?_ ?_).2.2.1 ?_ ?_ ?_ ?_
            ?_).2.2.1 ?_ ?_).2.1 [⟨7, 10, 0⟩] ?_ ?_ ?_⟩,
      ⟨_, (((O 0 true [] w_zd6 (due .duress .quiet .active true) (.active) ?_ ?_ ?_ ?_ ?_).2.2.1 ?_ ?_ ?_ ?_
            ?_).2.2.1 ?_ ?_).2.2 (.clampedZero) ?_ ?_ ?_ ?_ ?_⟩,
      ⟨_, (((O 0 true [] w_zd7 (due .duress .quiet .active true) (.active) ?_ ?_ ?_ ?_ ?_).2.2.1 ?_ ?_ ?_ ?_
            ?_).2.2.2.1 ?_ ?_).1 ?_⟩,
      ⟨_, (((O 0 true [] w_zd8 (due .duress .quiet .active true) (.active) ?_ ?_ ?_ ?_ ?_).2.2.1 ?_ ?_ ?_ ?_
            ?_).2.2.2.1 ?_ ?_).2.1 [⟨7, 10, 0⟩] ?_ ?_ ?_ ?_ ?_ ?_⟩,
      ⟨_, (((O 0 true [] w_zd9 (due .duress .quiet .active true) (.active) ?_ ?_ ?_ ?_ ?_).2.2.1 ?_ ?_ ?_ ?_
            ?_).2.2.2.1 ?_ ?_).2.2 (.clampedZero) ?_ ?_ ?_ ?_ ?_⟩,
      ⟨_, ((O 0 true [] w_zd10 (due .duress .quiet .active true) (.active) ?_ ?_ ?_ ?_ ?_).2.2.1 ?_ ?_ ?_ ?_
            ?_).2.2.2.2 (⟨0, 1⟩) ?_ ?_ ?_ ?_ ?_ ?_ ?_ ?_⟩,
      ⟨_, ((O 3 true [42, 90] w_zc6 (due .attack .quiet .active true) (.active) ?_ ?_ ?_ ?_ ?_).2.2.2 ?_ ?_ ?_ ?_
            ?_).1 ?_ ?_ ?_⟩,
      ⟨_, ((O 11 false [42, 90] w_zc1n (due .door .active .quiet false) (.quiet) ?_ ?_ ?_ ?_ ?_).1 ?_).1 ?_⟩,
      ⟨_, ((O 0 false [42, 90] w_zc2b (due .duress .quiet .active true) (.active) ?_ ?_ ?_ ?_ ?_).1 ?_).2 ?_ ?_⟩,
      ⟨_, ((O 0 false [] w_zc2c (due .attack .quiet .active false) (.active) ?_ ?_ ?_ ?_ ?_).1 ?_).1 ?_⟩,
      ⟨_, ((O 0 true [42, 90] w_zc3n (due .vehicle .quiet .active false) (.active) ?_ ?_ ?_ ?_ ?_).2.1 ?_ ?_).1 ?_⟩,
      ⟨_, ((O 0 true [42, 90] w_zc4n (due .vehicle .active .quiet false) (.quiet) ?_ ?_ ?_ ?_ ?_).2.1 ?_ ?_).2 ?_ ?_
            ?_ ?_⟩,
      ⟨_, ((O 0 true [42, 90] w_zc4m (due .vehicle .active .quiet true) (.quiet) ?_ ?_ ?_ ?_ ?_).2.1 ?_ ?_).2 ?_ ?_
            ?_ ?_⟩,
      ⟨_, ((O 0 true [42, 90] w_zc5n (due .duress .quiet .active false) (.active) ?_ ?_ ?_ ?_ ?_).2.2.1 ?_ ?_ ?_ ?_
            ?_).1 ?_ ?_ ?_ ?_⟩,
      ⟨_, ((O 3 true [42, 90] w_zc6n (due .attack .unknown .active false) (.active) ?_ ?_ ?_ ?_ ?_).2.2.2 ?_ ?_ ?_ ?_
            ?_).1 ?_ ?_ ?_⟩,
      ⟨_, ((O 3 true [42, 90] w_zc6c (due .attack .quiet .active true) (.active) ?_ ?_ ?_ ?_ ?_).2.2.2 ?_ ?_ ?_ ?_
            ?_).2.1 ?_⟩,
      ⟨_, ((O 3 true [42, 90] w_zc6l (due .attack .quiet .active false) (.active) ?_ ?_ ?_ ?_ ?_).2.2.2 ?_ ?_ ?_ ?_
            ?_).2.2 ?_⟩⟩ <;> decide

/-! #### LockdownAnnouncesAndSecures -/

def w_ld1 : State :=
  { inState .waking with
      lane := { (inState .waking).lane with
          pending := some .opened,
          target := some .opened,
          power := .warming,
          resetWait := some ⟨1, 1⟩ } }
def w_ld1b : State :=
  { opened with
      lane := { opened.lane with pending := some .closed },
      capture := { base.capture with shutter := true },
      drives := { pocketShutter := true } }
def w_ld1c : State :=
  { base with capture := { base.capture with bin := .opening, retract := some (req .recovery 2 false false) } }
def w_lc1 : State := { loading 11 with capture := { base.capture with bin := .opening } }
def w_lc2 : State :=
  { dispIn .picking with approval := waits .dispense 3, lane := { opened.lane with resetWait := some ⟨1, 1⟩ } }
def w_lc3 : State := feed { toPocket := 1, escrow := [⟨0, 20, 100⟩], closing := some { accepts := [accept7] } }
def w_lc5 : State := { inState .night with cal := { phase := .waiting, channel := .q } }
def w_ls_1b : State := { base with approval := waits .alarmClear 0 }
def w_ls_2 : State := { base with approval := waits .dispense 3 }
def w_ls_3 : State := loading 11
def w_ls_5 : State :=
  { loading 11 with cash := { base.cash with loads := [loadW 11, { loadW 12 with slot := ⟨1, 1⟩ }] } }
def w_ls_6 : State := { binAsk with lane := { base.lane with state := .lockdown, resetWait := some ⟨1, 1⟩ } }
def w_ls_7 : State :=
  { base with capture := { base.capture with bin := .opening }, lane := { base.lane with state := .lockdown } }
def w_ls_8 : State := { base with lane := { base.lane with state := .lockdown, resetWait := some ⟨1, 1⟩ } }
def w_ld2 : State := withDisp { d0 with st := .purging, stranded := true }
def w_ld3 : State := dispIn .retracting
def w_ld4 : State := dispIn .awaitApproval
def w_ld5 : State := requestedTx (dispIn .awaitCeiling) .dispense
def w_ld5b : State := { dispIn .zeroCapture with chP := { capturing := true } }
def w_ld6 : State := dispIn .picking
def w_ld7 : State := withDisp { d0 with st := .presenting, move := .present }
def w_ld8 : State := withDisp { d0 with st := .presenting, takeMs := some 4, presentedNotes := 2 }
def w_le1 : State := withDep { st := .returnRetracting }
def w_le2 : State := inLock (requested (withDep { st := .awaitCeiling }) .deposit)
def w_le3 : State := { withDep { st := .zeroCapture } with chQ := { capturing := true } }
def le (d : Deposit) : State :=
  { inLock (withDep { d with st := .feeding }) with chQ := { gapOpen with flow := .gap 8 (8*42) } }
def w_le4 : State := le { toPocket := 1, escrow := [ee], closing := some { accepts := [accept7] } }
def w_le5 : State := le { escrow := [ee], pocketRefusals := 2 }
def w_le6 : State := le { pocketRefusals := 2 }
def w_le7 : State := le {}
def w_le8 : State :=
  inLock { withDep { st := .awaitApproval, escrow := [ee], slot := some ⟨0, 1⟩ } with throatJam := true }
def w_le9 : State := inLock (holding [ee] 4)
def w_le10 : State := inLock (clearing .holding [])
def w_le11 : State := inLock { holding [] 4 with dep := { (holding [] 4).dep with unconfirmed := 1 } }
def w_le12 : State := inLock (clearing .stacking [ee])
def w_le13 : State := inLock { returning with dep := { returning.dep with pocketRefusals := 2 } }
def w_le14 : State :=
  inLock (shutterOpen (withDep {
      st := .returnPresented,
      presentedNotes := 2,
      presentedValue := 40,
      takeMs := some 3 }))
def w_lk2 : State :=
  inLock { withCal { phase := .waiting, channel := .q, tag := 4 } with chQ := { gapOpen with flow := .gap 8 (8*42) } }
def w_lk2b : State :=
  inLock { withCal { phase := .zeroCapture, channel := .p, tag := 4 } with chP := { capturing := true } }
def w_lk3 : State := inLock (calRunP 5 60 4)
def w_lk4 : State := inLock (withCal { phase := .tail, channel := .p, outcome := some .calFailed })
def w_lk5 : State := inLock (calRun 5 60)
def w_lk5b : State :=
  inLock { withCal { phase := .tail, channel := .q, outcome := some .calFailed } with
      chQ := { gapOpen with flow := .tail [50] } }
def w_lk6 : State := inLock (withCal { phase := .toPocket, channel := .q, outcome := some .calibrated })
def w_lk7 : State :=
  inLock (shutterOpen (withCal { phase := .inPocket, channel := .q, outcome := some .calibrated, takeMs := some 3 }))

theorem witness_LockdownAnnouncesAndSecures :
    Obligations.LockdownAnnouncesAndSecures →
      (∃ t, enterLockdown w_ld1 = t) ∧
      (∃ t, enterLockdown w_ld1b = t) ∧
      (∃ t, enterLockdown w_ld1c = t) ∧
      (∃ t, enterLockdown w_lc1 = t) ∧
      (∃ t, enterLockdown w_lc2 = t) ∧
      (∃ t, enterLockdown w_lc3 = t) ∧
      (∃ t, enterLockdown binAsk = t) ∧
      (∃ t, enterLockdown w_lc5 = t) ∧
      (∃ t, lockdownSlot base 0 = t) ∧
      (∃ t, lockdownSlot w_ls_1b 0 = t) ∧
      (∃ t, lockdownSlot w_ls_2 0 = t) ∧
      (∃ t, endLoad LoadOutcome.lockdown (loadW 11) w_ls_3 = t) ∧
      (∃ t, lockdownServices exchanging = t) ∧
      (∃ t, lockdownServices w_ls_5 = t) ∧
      (∃ t, lockdownServices w_ls_6 = t) ∧
      (∃ t, lockdownServices w_ls_7 = t) ∧
      (∃ t, lockdownServices w_ls_8 = t) ∧
      (∃ t, lockdownDispense w_ld2 = t) ∧
      (∃ t, lockdownDispense w_ld3 = t) ∧
      (∃ t, lockdownDispense w_ld4 = t) ∧
      (∃ t, lockdownDispense w_ld5 = t) ∧
      (∃ t, lockdownDispense w_ld5b = t) ∧
      (∃ t, lockdownDispense w_ld6 = t) ∧
      (∃ t, lockdownDispense w_ld7 = t) ∧
      (∃ t, lockdownDispense w_ld8 = t) ∧
      (∃ t, lockdownDeposit w_le1 = t) ∧
      (∃ t, lockdownDeposit w_le2 = t) ∧
      (∃ t, lockdownDeposit w_le3 = t) ∧
      (∃ t, lockdownDeposit w_le4 = t) ∧
      (∃ t, lockdownDeposit w_le5 = t) ∧
      (∃ t, lockdownDeposit w_le6 = t) ∧
      (∃ t, lockdownDeposit w_le7 = t) ∧
      (∃ t, lockdownDeposit w_le8 = t) ∧
      (∃ t, lockdownDeposit w_le9 = t) ∧
      (∃ t, lockdownDeposit w_le10 = t) ∧
      (∃ t, lockdownDeposit w_le11 = t) ∧
      (∃ t, lockdownDeposit w_le12 = t) ∧
      (∃ t, lockdownDeposit w_le13 = t) ∧
      (∃ t, lockdownDeposit w_le14 = t) ∧
      (∃ t, lockdownCal base = t) ∧
      (∃ t, lockdownCal w_lk2 = t) ∧
      (∃ t, lockdownCal w_lk2b = t) ∧
      (∃ t, lockdownCal w_lk3 = t) ∧
      (∃ t, lockdownCal w_lk4 = t) ∧
      (∃ t, lockdownCal w_lk5 = t) ∧
      (∃ t, lockdownCal w_lk5b = t) ∧
      (∃ t, lockdownCal w_lk6 = t) ∧
      (∃ t, lockdownCal w_lk7 = t) := by
  intro O
  refine
    ⟨⟨_, (O.1 w_ld1 ?_ ?_ ?_ ?_ ?_).1 ?_ ?_⟩,
      ⟨_, (O.1 w_ld1b ?_ ?_ ?_ ?_ ?_).1 ?_ ?_⟩,
      ⟨_, (O.1 w_ld1c ?_ ?_ ?_ ?_ ?_).2 ?_ ?_⟩,
      ⟨_, O.2.1 w_lc1 ?_ ?_⟩,
      ⟨_, O.2.1 w_lc2 ?_ ?_⟩,
      ⟨_, O.2.1 w_lc3 ?_ ?_⟩,
      ⟨_, O.2.1 binAsk ?_ ?_⟩,
      ⟨_, O.2.1 w_lc5 ?_ ?_⟩,
      ⟨_, (O.2.2.1 base).1 0 ?_⟩,
      ⟨_, (O.2.2.1 w_ls_1b).1 0 ?_⟩,
      ⟨_, (O.2.2.1 w_ls_2).2.1 0 (.dispense) ?_ ?_ ?_⟩,
      ⟨_, (O.2.2.1 w_ls_3).2.2.1 [] (loadW 11) ?_ ?_ ?_⟩,
      ⟨_, (O.2.2.1 exchanging).2.2.2.1 (⟨⟨0, 1⟩, 3⟩) ?_ ?_ ?_ ?_⟩,
      ⟨_, (O.2.2.1 w_ls_5).2.2.2.2.1 [{ loadW 12 with slot := ⟨1, 1⟩ }] (loadW 11) ?_ ?_⟩,
      ⟨_, ((O.2.2.1 w_ls_6).2.2.2.2.2 ?_ ?_ ?_).1 ?_ ?_⟩,
      ⟨_, ((O.2.2.1 w_ls_7).2.2.2.2.2 ?_ ?_ ?_).1 ?_ ?_⟩,
      ⟨_, ((O.2.2.1 w_ls_8).2.2.2.2.2 ?_ ?_ ?_).2 ?_⟩,
      ⟨_, (O.2.2.2.1 w_ld2).1 ?_⟩,
      ⟨_, ((O.2.2.2.1 w_ld3).2 ?_).1 ?_⟩,
      ⟨_, ((O.2.2.2.1 w_ld4).2 ?_).2.1 ?_ ?_ ?_⟩,
      ⟨_, ((O.2.2.2.1 w_ld5).2 ?_).2.2.1 ?_ ?_ ?_ ?_ ?_⟩,
      ⟨_, ((O.2.2.2.1 w_ld5b).2 ?_).2.2.2.1 ?_ ?_ ?_ ?_⟩,
      ⟨_, ((O.2.2.2.1 w_ld6).2 ?_).2.2.2.2.1 ?_⟩,
      ⟨_, ((O.2.2.2.1 w_ld7).2 ?_).2.2.2.2.2.1 ?_ ?_⟩,
      ⟨_, ((O.2.2.2.1 w_ld8).2 ?_).2.2.2.2.2.2 ?_ ?_ ?_⟩,
      ⟨_, (O.2.2.2.2.1 w_le1).1 ?_⟩,
      ⟨_, (O.2.2.2.2.1 w_le2).2.1 ?_ ?_ ?_ ?_ ?_⟩,
      ⟨_, (O.2.2.2.2.1 w_le3).2.2.1 ?_ ?_ ?_ ?_⟩,
      ⟨_, ((O.2.2.2.2.1 w_le4).2.2.2.1 ?_ ?_).1 ?_⟩,
      ⟨_, (((O.2.2.2.2.1 w_le5).2.2.2.1 ?_ ?_).2 ?_ ?_ ?_).1 ?_⟩,
      ⟨_, (((O.2.2.2.2.1 w_le6).2.2.2.1 ?_ ?_).2 ?_ ?_ ?_).2.1 ?_ ?_⟩,
      ⟨_, (((O.2.2.2.2.1 w_le7).2.2.2.1 ?_ ?_).2 ?_ ?_ ?_).2.2 ?_ ?_ ?_ ?_⟩,
      ⟨_, ((O.2.2.2.2.1 w_le8).2.2.2.2.1 ?_).1 ?_⟩,
      ⟨_, (((O.2.2.2.2.1 w_le9).2.2.2.2.1 ?_).2 ?_ ?_ ?_).1 ?_⟩,
      ⟨_, (((O.2.2.2.2.1 w_le10).2.2.2.2.1 ?_).2 ?_ ?_ ?_).2.1 ?_ ?_⟩,
      ⟨_, (((O.2.2.2.2.1 w_le11).2.2.2.2.1 ?_).2 ?_ ?_ ?_).2.2 ?_ ?_ ?_ ?_⟩,
      ⟨_, (O.2.2.2.2.1 w_le12).2.2.2.2.2.1 ?_⟩,
      ⟨_, (O.2.2.2.2.1 w_le13).2.2.2.2.2.2.1 ?_⟩,
      ⟨_, (O.2.2.2.2.1 w_le14).2.2.2.2.2.2.2 ?_⟩,
      ⟨_, (O.2.2.2.2.2 base).1 ?_⟩,
      ⟨_, (O.2.2.2.2.2 w_lk2).2.1 ?_ ?_ ?_⟩,
      ⟨_, (O.2.2.2.2.2 w_lk2b).2.1 ?_ ?_ ?_⟩,
      ⟨_, (O.2.2.2.2.2 w_lk3).2.2.1 ?_ ?_⟩,
      ⟨_, (O.2.2.2.2.2 w_lk4).2.2.2.1 ?_ ?_⟩,
      ⟨_, (O.2.2.2.2.2 w_lk5).2.2.2.2.1 ?_ ?_⟩,
      ⟨_, (O.2.2.2.2.2 w_lk5b).2.2.2.2.1 ?_ ?_⟩,
      ⟨_, (O.2.2.2.2.2 w_lk6).2.2.2.2.2.1 ?_⟩,
      ⟨_, (O.2.2.2.2.2 w_lk7).2.2.2.2.2.2 ?_⟩⟩ <;> decide

/-! #### TroubleHoldLineAndZonesQuery -/

def w_tr1 : State := zat 11 { type := .vehicle, trouble := true, frozen := true, restore := 20 } opened
def w_tr2 : State := zat 11 { type := .vehicle, frozen := true, hold := 50 } opened
def w_tr6 : State :=
  zat 3 {
      type := .duress,
      report := true,
      frozen := true,
      hold := 50,
      candidate := some .active,
      count := 3,
      state := .quiet }
    { opened with chP := { gapOpen with flow := .gap 3 150 } }
def w_tr7 : State :=
  zat 11 {
      type := .vehicle,
      report := true,
      frozen := true,
      hold := 50,
      candidate := some .quiet,
      count := 20,
      state := .active }
    { opened with chP := { gapOpen with flow := .gap 3 150 } }
def w_tr8 : State :=
  zat 11 {
      type := .door,
      report := true,
      frozen := true,
      hold := 50,
      candidate := some .active,
      count := 5,
      state := .quiet }
    { opened with chP := { gapOpen with flow := .gap 3 150 } }
def w_tr9 : State :=
  zat 11 {
      type := .bin,
      frozen := true,
      hold := 50,
      candidate := some .active,
      count := 5,
      state := .quiet }
    { opened with chP := { gapOpen with flow := .gap 3 150 } }
def w_tr10 : State :=
  zat 11 {
      type := .vehicle,
      frozen := true,
      hold := 50,
      candidate := some .quiet,
      count := 19,
      state := .active } opened
def w_tr3 : State := withAlarm { asserted := 5 }
def w_tr4 : State := withAlarm { recognised := true, released := 50 }
def w_tr5 : State := zat 11 { type := .vehicle, changed := true } opened

theorem witness_TroubleHoldLineAndZonesQuery :
    Obligations.TroubleHoldLineAndZonesQuery →
      (∃ t, exec (.troubleCleared (11 + 1)) w_tr1 = .next t) ∧
      (∃ t, exec (.zoneRestored (11 + 1) true [42, 90]) w_tr2 = .next t) ∧
      (∃ t, exec (.zoneRestored (3 + 1) true [42, 42]) w_tr6 = .next t) ∧
      (∃ t, exec (.zoneRestored (11 + 1) true [42, 42]) w_tr7 = .next t) ∧
      (∃ t, exec (.zoneRestored (11 + 1) true [42, 42]) w_tr8 = .next t) ∧
      (∃ t, exec (.zoneRestored (11 + 1) true [42, 42]) w_tr9 = .next t) ∧
      (∃ t, exec (.zoneRestored (11 + 1) true [42, 90]) w_tr10 = .next t) ∧
      (∃ t, exec .wallLineRecognised w_tr3 = .next t) ∧
      (∃ t, exec .wallLineReleased w_tr4 = .next t) ∧
      (∃ t, exec (.queryZonesClear hdr) w_tr5 = .next t) := by
  intro O
  refine
    ⟨⟨_, ((O.1 [42, 90] w_tr1).1 11 ({
            type := .vehicle,
            trouble := true,
            frozen := true,
            restore := 20 }) ?_ ?_).1 ?_ ?_⟩,
      ⟨_, (((O.1 [42, 90] w_tr2).1 11 ({
            type := .vehicle,
            frozen := true,
            hold := 50 }) ?_ ?_).2 true ?_ ?_ ?_ ?_).1 ?_⟩,
      ⟨_, ((((O.1 [42, 42] w_tr6).1 3 ({
            type := .duress,
            report := true,
            frozen := true,
            hold := 50,
            candidate := some .active,
            count := 3,
            state := .quiet }
          ) ?_ ?_).2 true ?_ ?_ ?_ ?_).2 (.active) ?_ ?_ ?_ ?_).1⟩,
      ⟨_, ((((O.1 [42, 42] w_tr7).1 11 ({
            type := .vehicle,
            report := true,
            frozen := true,
            hold := 50,
            candidate := some .quiet,
            count := 20,
            state := .active }
          ) ?_ ?_).2 true ?_ ?_ ?_ ?_).2 (.quiet) ?_ ?_ ?_ ?_).1⟩,
      ⟨_, (((((O.1 [42, 42] w_tr8).1 11 ({
            type := .door,
            report := true,
            frozen := true,
            hold := 50,
            candidate := some .active,
            count := 5,
            state := .quiet }
          ) ?_ ?_).2 true ?_ ?_ ?_ ?_).2 (.active) ?_ ?_ ?_ ?_).2 ?_).2 ?_ ?_⟩,
      ⟨_, (((((O.1 [42, 42] w_tr9).1 11 ({
            type := .bin,
            frozen := true,
            hold := 50,
            candidate := some .active,
            count := 5,
            state := .quiet }
          ) ?_ ?_).2 true ?_ ?_ ?_ ?_).2 (.active) ?_ ?_ ?_ ?_).2 ?_).1 ?_⟩,
      ⟨_, (((O.1 [42, 90] w_tr10).1 11 ({
            type := .vehicle,
            frozen := true,
            hold := 50,
            candidate := some .quiet,
            count := 19,
            state := .active }) ?_ ?_).2 true ?_ ?_ ?_ ?_).1 ?_⟩,
      ⟨_, (O.1 [] w_tr3).2.1 ?_ ?_⟩,
      ⟨_, (O.1 [] w_tr4).2.2 ?_ ?_⟩,
      ⟨_, O.2.1 hdr w_tr5 ?_ ?_ ?_⟩⟩ <;> decide

/-! #### ClearingCommandsReportWhatTheyClear -/

def heldF (h : FaultHold) (l : Option FaultReport) : State := { base with fault := { hold := h, latched := l } }
def rep (k : FaultKind) : FaultReport := faultReport k .none none none base
def w_cl1 : State := heldF .hard (some (rep .purgeFull))
def w_cl1f : State :=
  { heldF .hard (some (rep .purgeFull)) with bus := { part := true, queue := List.replicate 16 positionFrame } }
def w_cl3 : State := { base with fault := { shift := { dispValue := 5, envelopes := 4 } } }

theorem witness_ClearingCommandsReportWhatTheyClear :
    Obligations.ClearingCommandsReportWhatTheyClear →
      (∃ t, exec (.clearFaults hdr) w_cl1 = .next t) ∧
      (∃ t, exec (.clearFaults hdr) w_cl1f = .next t) ∧
      (∃ t, exec (.clearCause hdr) base = .next t) ∧
      (∃ t, exec (.shiftClose hdr) w_cl3 = .next t) := by
  intro O
  refine
    ⟨⟨_, ((O hdr w_cl1 ?_).1 ?_).1 ?_⟩,
      (((O hdr w_cl1f ?_).1 ?_).2 ?_ ?_ ?_).imp fun _ h => h.1,
      ⟨_, (O hdr base ?_).2.1 ?_ ?_⟩,
      ⟨_, (O hdr w_cl3 ?_).2.2 ?_ ?_ ?_⟩⟩ <;> decide

/-! #### ClearJamClearsTheMarks -/

def w_cj1 : State := { base with throatJam := true }
def w_cj1d : State := { base with dispenserJam := true }
def w_cj1h : State :=
  { withDep { st := .holding, console := 20, tag := 3, escrow := [ee] } with throatJam := true, dispenserJam := true }
def w_cj1c : State :=
  { withDep { st := .holding, console := 20, tag := 3, escrow := [ee], pocketRefusals := 2 } with throatJam := true }
def w_cj1s : State :=
  inLock { withDep { st := .holding, console := 20, tag := 3, escrow := [ee], securing := true } with
      throatJam := true }
def w_cj1e : State :=
  inLock { withDep { st := .holding, console := 20, tag := 3, securing := true, unconfirmed := 1 } with
      throatJam := true }
def w_cj1w : State :=
  inLock { withDep { st := .holding, console := 20, tag := 3, securing := true, clearance := .retracting, pocketRefusals := 1 } with
      throatJam := true }
def w_cj2f : State :=
  { recov { active := true, stacker := .jammed, escrow := .jammed } with
      dispenserJam := true,
      throatJam := true,
      cash := { base.cash with purge := { total := 61 } } }
def w_cj2n : State :=
  { recov { active := true, stacker := .jammed, escrow := .jammed } with dispenserJam := true, throatJam := true }
def w_cj2 : State :=
  { recov { active := true, stacker := .jammed, escrow := .jammed } with
      dispenserJam := true,
      throatJam := true,
      cash := { base.cash with purge := { total := 60 } } }
def w_cj3 : State := { opened with capture := { base.capture with jam := true } }
def w_cj5 : State :=
  { dispIn .retracting with
      capture := { base.capture with jam := true, retract := some (req .dispense 3 false false) } }
def w_cj6 : State :=
  { dispIn .retracting with
      capture := { base.capture with jam := true, retract := some (req .dispense 3 true false) } }
def w_cj7 : State :=
  { depIn .returnRetracting with
      capture := { base.capture with jam := true, retract := some (req .deposit 3 true false) } }
def w_cj8 : State :=
  { withDep { st := .holding, clearance := .retracting, pocketRefusals := 3 } with
      capture := { base.capture with jam := true, retract := some (req .deposit 3 true false) } }
def w_cj9 : State :=
  { withCal { phase := .retracting, channel := .q, outcome := some .calibrated } with
      capture := { base.capture with jam := true, retract := some (req .calibration 1 true false) } }
def w_cj10 : State :=
  { recov { active := true, pocket := .running } with
      capture := { base.capture with jam := true, retract := some (req .recovery 40 true false) } }
def w_cj11 : State :=
  { recov { active := true, pocket := .running } with
      capture := { base.capture with jam := true, retract := some (req .recovery 200 false false) } }

theorem witness_ClearJamClearsTheMarks :
    Obligations.ClearJamClearsTheMarks →
      (∃ t, exec (.clearJam hdr true false) w_cj1 = .next t) ∧
      (∃ t, exec (.clearJam hdr true false) w_cj1d = .next t) ∧
      (∃ t, exec (.clearJam hdr true false) w_cj1h = .next t) ∧
      (∃ t, exec (.clearJam hdr true false) w_cj1c = .next t) ∧
      (∃ t, exec (.clearJam hdr true false) w_cj1s = .next t) ∧
      (∃ t, exec (.clearJam hdr true false) w_cj1e = .next t) ∧
      (∃ t, exec (.clearJam hdr true false) w_cj1w = .next t) ∧
      (∃ t, exec (.clearJam hdr true true) w_cj2f = .next t) ∧
      (∃ t, exec (.clearJam hdr false true) w_cj2n = .next t) ∧
      (∃ t, exec (.clearJam hdr true false) w_cj2 = .next t) ∧
      (∃ t, exec (.clearJam hdr true false) w_cj3 = .next t) ∧
      (∃ t, exec (.clearJam hdr true false) w_cj5 = .next t) ∧
      (∃ t, exec (.clearJam hdr true false) w_cj6 = .next t) ∧
      (∃ t, exec (.clearJam hdr true false) w_cj7 = .next t) ∧
      (∃ t, exec (.clearJam hdr true false) w_cj8 = .next t) ∧
      (∃ t, exec (.clearJam hdr true false) w_cj9 = .next t) ∧
      (∃ t, exec (.clearJam hdr true false) w_cj10 = .next t) ∧
      (∃ t, exec (.clearJam hdr true false) w_cj11 = .next t) ∧
      (∃ t, exec (.clearJam hdr true false) base = .next t) := by
  intro O
  refine
    ⟨⟨_, (((O hdr true false w_cj1 ?_).1 ?_ ?_ ?_ ?_).2 ?_).1 ?_ ?_⟩,
      ⟨_, ((O hdr true false w_cj1d ?_).1 ?_ ?_ ?_ ?_).1 ?_ ?_⟩,
      ⟨_, (((O hdr true false w_cj1h ?_).1 ?_ ?_ ?_ ?_).2 ?_).1 ?_ ?_⟩,
      ⟨_, (((O hdr true false w_cj1c ?_).1 ?_ ?_ ?_ ?_).2 ?_).2.1 ?_ ?_⟩,
      ⟨_, (((((O hdr true false w_cj1s ?_).1 ?_ ?_ ?_ ?_).2 ?_).2.2 ?_).2 ?_ ?_ ?_).1 ?_⟩,
      ⟨_, (((((O hdr true false w_cj1e ?_).1 ?_ ?_ ?_ ?_).2 ?_).2.2 ?_).2 ?_ ?_ ?_).2.2 ?_ ?_ ?_ ?_⟩,
      ⟨_, (((((O hdr true false w_cj1w ?_).1 ?_ ?_ ?_ ?_).2 ?_).2.2 ?_).2 ?_ ?_ ?_).2.1 ?_ ?_⟩,
      ⟨_, (O hdr true true w_cj2f ?_).2.1 ?_ ?_ ?_ ?_ ?_⟩,
      ⟨_, (O hdr false true w_cj2n ?_).2.1 ?_ ?_ ?_ ?_ ?_⟩,
      ⟨_, (O hdr true false w_cj2 ?_).2.1 ?_ ?_ ?_ ?_ ?_⟩,
      ⟨_, (O hdr true false w_cj3 ?_).2.2.1 ?_ ?_ ?_ ?_ ?_ ?_ ?_ ?_⟩,
      ⟨_, ((O hdr true false w_cj5 ?_).2.2.2.1 (req .dispense 3 false false) ?_ ?_ ?_ ?_ ?_ ?_ ?_).1 ?_ ?_⟩,
      ⟨_, (((O hdr true false w_cj6 ?_).2.2.2.1 (req .dispense 3 true false) ?_ ?_ ?_ ?_ ?_ ?_ ?_).2 ?_).1
            (.retracted) ?_ ?_ ?_ ?_ ?_⟩,
      ⟨_, (((O hdr true false w_cj7 ?_).2.2.2.1 (req .deposit 3 true false) ?_ ?_ ?_ ?_ ?_ ?_ ?_).2 ?_).2.1
            (.returnedRetracted) ?_ ?_ ?_ ?_ ?_⟩,
      ⟨_, (((O hdr true false w_cj8 ?_).2.2.2.1 (req .deposit 3 true false) ?_ ?_ ?_ ?_ ?_ ?_ ?_).2 ?_).2.2.1 ?_ ?_
            ?_ ?_ ?_⟩,
      ⟨_, (((O hdr true false w_cj9 ?_).2.2.2.1 (req .calibration 1 true false) ?_ ?_ ?_ ?_ ?_ ?_ ?_).2 ?_).2.2.2.1
            (.calibrated) ?_ ?_ ?_ ?_ ?_⟩,
      ⟨_, (((O hdr true false w_cj10 ?_).2.2.2.1 (req .recovery 40 true false) ?_ ?_ ?_ ?_ ?_ ?_ ?_).2 ?_).2.2.2.2 ?_
            ?_⟩,
      ⟨_, ((O hdr true false w_cj11 ?_).2.2.2.1 (req .recovery 200 false false) ?_ ?_ ?_ ?_ ?_ ?_ ?_).1 ?_ ?_⟩,
      ⟨_, (O hdr true false base ?_).2.2.2.2 ?_ ?_ ?_ ?_⟩⟩ <;> decide

/-! #### BinServiceOpensAndCloses -/

def w_bs1 : State := { base with capture := { base.capture with bin := .opening } }
def w_bs2 : State :=
  { base with
      capture := { base.capture with bin := .opened, transport := .stopped },
      drives := { binUnlocked := true } }
def w_bs3 : State :=
  { recov { active := true, pocket := .running } with
      capture := { base.capture with
          bin := .opened,
          transport := .stopped,
          jam := true,
          retract := some (req .recovery 40 false true) },
      drives := { binUnlocked := true } }
def w_bs4 : State :=
  { recov { active := true, pocket := .running } with
      capture := { base.capture with
          bin := .opened,
          transport := .stopped,
          retract := some (req .recovery 200 false true) },
      drives := { binUnlocked := true, envelopePath := true } }

theorem witness_BinServiceOpensAndCloses :
    Obligations.BinServiceOpensAndCloses →
      (∃ t, exec .binServiceOpened w_bs1 = .next t) ∧
      (∃ t, exec (.binServiceClose hdr true) w_bs2 = .next t) ∧
      (∃ t, exec (.binServiceClose hdr true) w_bs3 = .next t) ∧
      (∃ t, exec (.binServiceClose hdr true) w_bs4 = .next t) := by
  intro O
  refine
    ⟨⟨_, (O w_bs1).1 ?_ ?_ ?_ ?_ ?_⟩,
      ⟨_, ((O w_bs2).2 hdr ?_ ?_ ?_ ?_ ?_).1 ?_ ?_⟩,
      ⟨_, ((O w_bs3).2 hdr ?_ ?_ ?_ ?_ ?_).1 ?_ ?_⟩,
      ⟨_, ((O w_bs4).2 hdr ?_ ?_ ?_ ?_ ?_).2 (req .recovery 200 false true) ?_ ?_ ?_ ?_ ?_⟩⟩ <;> decide

/-! #### LaneRequestsEnterPendOrTarget -/

def w_lr1 : State := { base with capture := { base.capture with bundles := [] } }
def w_lr3 : State :=
  { base with chP := { zero := some 4, flow := .tail [] }, chQ := { zero := some 4, capturing := true } }
def w_lr4 : State := inState .night
def w_lr5 : State := { inState .waking with lane := { (inState .waking).lane with target := some .opened } }
def w_lr5n : State := inState .night
def w_lr5o : State := { inState .waking with lane := { (inState .waking).lane with target := some .closed } }
def w_lr_np : State :=
  { base with
      capture := { base.capture with transport := .carryingEnvelope, envelope := some {} },
      lane := { base.lane with pending := some .night } }
def w_lr_np2 : State := withCal { phase := .running }
def w_lr6 : State := dispIn .picking
def w_lr7 : State := withCal { phase := .running }
def w_lr_cp : State := { withCal { phase := .running } with lane := { base.lane with pending := some .opened } }

theorem witness_LaneRequestsEnterPendOrTarget :
    Obligations.LaneRequestsEnterPendOrTarget →
      (∃ t, exec (.laneOpen hdr) w_lr1 = .next t) ∧
      (∃ t, exec (.laneClose hdr) opened = .next t) ∧
      (∃ t, exec (.laneNight hdr) w_lr3 = .next t) ∧
      (∃ t, exec (.laneOpen hdr) w_lr4 = .next t) ∧
      (∃ t, exec (.laneClose hdr) w_lr5 = .next t) ∧
      (∃ t, exec (.laneClose hdr) w_lr5n = .next t) ∧
      (∃ t, exec (.laneOpen hdr) w_lr5o = .next t) ∧
      (∃ t, exec (.laneNight hdr) w_lr_np = .next t) ∧
      (∃ t, exec (.laneNight hdr) w_lr_np2 = .next t) ∧
      (∃ t, exec (.laneClose hdr) w_lr6 = .next t) ∧
      (∃ t, exec (.laneOpen hdr) w_lr7 = .next t) ∧
      (∃ t, exec (.laneClose hdr) w_lr_cp = .next t) ∧
      (∃ t, exec (.laneOpen hdr) opened = .next t) := by
  intro O
  refine
    ⟨⟨_, ((O hdr w_lr1 ?_ ?_).1 ?_ ?_).1 ?_ ?_⟩,
      ⟨_, ((O hdr opened ?_ ?_).1 ?_ ?_).2.1 ?_ ?_⟩,
      ⟨_, ((O hdr w_lr3 ?_ ?_).1 ?_ ?_).2.2.1 ?_ ?_ ?_ ?_ ?_ ?_⟩,
      ⟨_, ((O hdr w_lr4 ?_ ?_).1 ?_ ?_).2.2.2.1 ?_ ?_⟩,
      ⟨_, ((O hdr w_lr5 ?_ ?_).1 ?_ ?_).2.2.2.2.2.1 ?_ ?_⟩,
      ⟨_, ((O hdr w_lr5n ?_ ?_).1 ?_ ?_).2.2.2.2.1 ?_ ?_⟩,
      ⟨_, ((O hdr w_lr5o ?_ ?_).1 ?_ ?_).2.2.2.2.2.2 ?_ ?_⟩,
      ⟨_, (O hdr w_lr_np ?_ ?_).2.1 ?_ ?_ ?_ ?_⟩,
      ⟨_, (O hdr w_lr_np2 ?_ ?_).2.1 ?_ ?_ ?_ ?_⟩,
      ⟨_, ((O hdr w_lr6 ?_ ?_).2.2.1 ?_).1 ?_ ?_⟩,
      ⟨_, ((O hdr w_lr7 ?_ ?_).2.2.1 ?_).2 ?_ ?_⟩,
      ⟨_, (O hdr w_lr_cp ?_ ?_).2.2.2.1 ?_ ?_ ?_⟩,
      ⟨_, (O hdr opened ?_ ?_).2.2.2.2 ?_ ?_ ?_ ?_⟩⟩ <;> decide

/-! #### LaneStateChangesOfItsOwn -/

def w_ls1 : State := { opened with lane := { opened.lane with pending := some .closed } }
def w_ls1a : State := { opened with lane := { (opened).lane with pending := some .opened } }
def w_ls1b : State :=
  { { base with peer := { held := ⟨1, 0, 1⟩ } } with
      lane := { ({ base with peer := { held := ⟨1, 0, 1⟩ } }).lane with pending := some .night } }
def w_ls1c : State := { inState .recovery with lane := { (inState .recovery).lane with pending := some .closed } }
def w_ls1d : State := { base with lane := { (base).lane with pending := some .opened } }
def w_ls1e : State :=
  { { base with chP := { zero := some 4 }, chQ := { zero := some 4, capturing := true } } with
      lane := { ({ base with chP := { zero := some 4 }, chQ := { zero := some 4, capturing := true } }).lane with
          pending := some .night } }
def w_ls1f : State :=
  { { base with capture := { base.capture with bin := .opened } } with
      lane := { ({ base with capture := { base.capture with bin := .opened } }).lane with pending := some .opened } }
def ending (l : Lane) : State := { base with lane := { l with state := .lockdown, release := true, station := 3 } }
def w_ls2 : State := ending {}
def w_ls3 : State :=
  { ending { recovery := { active := true, pocket := .running }, unpowered := true } with
      capture := { base.capture with retract := some (req .recovery 40 false true) } }
def w_ls3b : State :=
  { ending { recovery := { active := true, stackerValue := 5 } } with peer := { held := ⟨540, 500, 40⟩ } }
def w_ls4 : State := ending { unpowered := true, power := .off }
def w_ls5 : State := { recov { active := true, stackerValue := 5 } with peer := { held := ⟨540, 500, 40⟩ } }
def w_ls6 : State :=
  { ending { recovery := { active := true, stackerValue := 5 } } with peer := { held := ⟨540, 500, 40⟩ } }
def w_ls7 : State :=
  { inState .waking with lane := { (inState .waking).lane with target := some .opened, power := .warming } }
def w_ls8 : State := { inState .waking with capture := { base.capture with shutter := true } }
def w_ls9 : State := { inState .waking with capture := { base.capture with shutter := true } }

theorem witness_LaneStateChangesOfItsOwn :
    Obligations.LaneStateChangesOfItsOwn →
      (∃ t, exec .pendingRequestApplied w_ls1 = .next t) ∧
      (∃ t, exec .pendingRequestApplied w_ls1a = .next t) ∧
      (∃ t, exec .pendingRequestApplied w_ls1b = .next t) ∧
      (∃ t, exec .pendingRequestApplied w_ls1c = .next t) ∧
      (∃ t, exec .pendingRequestApplied w_ls1d = .next t) ∧
      (∃ t, exec .pendingRequestApplied w_ls1e = .next t) ∧
      (∃ t, exec .pendingRequestApplied w_ls1f = .next t) ∧
      (∃ t, exec .lockdownExit w_ls2 = .next t) ∧
      (∃ t, exec .lockdownExit w_ls3 = .next t) ∧
      (∃ t, exec .lockdownExit w_ls3b = .next t) ∧
      (∃ t, exec .lockdownExit w_ls4 = .next t) ∧
      (∃ t, exec .recoveryEnd w_ls5 = .next t) ∧
      (∃ t, exec .recoveryEnd w_ls6 = .next t) ∧
      (∃ t, exec (.wakingEnd { slot := false, length := false, drop := false, retract := false }) w_ls7 = .next t) ∧
      (∃ t, exec (.wakingEnd { slot := true, length := false, drop := false, retract := true }) w_ls8 = .next t) ∧
      (∃ t, exec (.wakingEnd { slot := true, length := false, drop := false, retract := false }) w_ls9 = .next t) := by
  intro O
  refine
    ⟨⟨_, ((O w_ls1).1 (.closed) ?_ ?_).2.1 ?_ ?_ ?_⟩,
      ⟨_, ((O w_ls1a).1 (.opened) ?_ ?_).1 ?_ ?_ ?_⟩,
      ⟨_, ((O w_ls1b).1 (.night) ?_ ?_).1 ?_ ?_ ?_⟩,
      ⟨_, ((O w_ls1c).1 (.closed) ?_ ?_).1 ?_ ?_ ?_⟩,
      ⟨_, ((O w_ls1d).1 (.opened) ?_ ?_).2.2.1 ?_ ?_ ?_ ?_⟩,
      ⟨_, ((O w_ls1e).1 (.night) ?_ ?_).2.2.2 ?_ ?_ ?_ ?_ ?_ ?_ ?_ ?_⟩,
      ⟨_, ((O w_ls1f).1 (.opened) ?_ ?_).1 ?_ ?_ ?_⟩,
      ⟨_, ((O w_ls2).2.2.1 ?_ ?_ ?_ ?_).1 ?_ ?_ ?_⟩,
      ⟨_, ((O w_ls3).2.2.1 ?_ ?_ ?_ ?_).2.1 ?_ ?_ ?_⟩,
      ⟨_, ((O w_ls3b).2.2.1 ?_ ?_ ?_ ?_).2.2.1 ?_ ?_ ?_ ?_ ?_⟩,
      ⟨_, ((O w_ls4).2.2.1 ?_ ?_ ?_ ?_).2.2.2 ?_ ?_ ?_⟩,
      ⟨_, ((O w_ls5).2.2.2.1 ?_ ?_ ?_ ?_ ?_).1 ?_ ?_⟩,
      ⟨_, ((O w_ls6).2.2.2.1 ?_ ?_ ?_ ?_ ?_).2 ?_ ?_⟩,
      ⟨_, ((O w_ls7).2.2.2.2 (⟨false, false, false, false⟩) ?_ ?_).1 ?_ ?_ ?_ ?_ ?_⟩,
      ⟨_, ((O w_ls8).2.2.2.2 (⟨true, false, false, true⟩) ?_ ?_).2.1 ?_ ?_⟩,
      ⟨_, ((O w_ls9).2.2.2.2 (⟨true, false, false, false⟩) ?_ ?_).2.2 ?_ ?_ ?_ ?_ ?_⟩⟩ <;> decide

/-! #### StateAndBindingRefuse -/

def w_sa0 : State := inState .configFault
def w_sa1 : State := inState .configFault
def w_sa2 : State := inState .configFault
def w_sa3 : State := inState .configFault
def w_sa4 : State := inState .configFault
def w_sa5 : State := inState .configFault
def w_sa6 : State := inState .configFault
def w_sa7 : State := inState .configFault
def w_sa8 : State := inState .configFault
def w_sa9 : State := inState .configFault
def w_sb0 : State := inState .configFault
def w_sb1 : State := inState .configFault
def w_sb2 : State := inState .configFault
def w_sb3 : State := inState .configFault
def w_sb4 : State := inState .configFault
def w_sb5 : State := inState .configFault
def w_sb6 : State := inState .configFault
def w_sq0 : State := inState .configFault
def w_sq1 : State := inState .configFault
def w_sq2 : State := inState .configFault
def w_sq3 : State := inState .configFault
def w_sd0 : State := inState .lockdown
def w_sd1 : State := inState .lockdown
def w_sd2 : State := inState .lockdown
def w_sd3 : State := inState .lockdown
def w_sd4 : State := inState .lockdown
def w_sd5 : State := inState .lockdown
def w_sd6 : State := inState .lockdown
def w_sd7 : State := inState .lockdown
def w_sd8 : State := inState .lockdown
def w_sd9 : State := inState .lockdown
def w_se0 : State := inState .lockdown
def w_se1 : State := inState .lockdown
def w_se2 : State := inState .lockdown
def w_se3 : State := inState .lockdown
def w_se4 : State := inState .lockdown
def w_se5 : State := inState .lockdown
def w_se6 : State := inState .lockdown
def w_sf0 : State := inState .lockdown
def w_sg0 : State := inState .lockdown
def w_sh0 : State := inState .opened
def w_sh1 : State := inState .opened
def w_sh2 : State := inState .opened
def w_sh3 : State := inState .opened
def w_sh4 : State := inState .opened
def w_sh5 : State := inState .opened
def w_sh6 : State := inState .opened
def w_sh7 : State := inState .opened
def w_sh8 : State := inState .opened
def w_sh9 : State := inState .opened
def w_si0 : State := inState .lockdown
def w_sj0 : State := inState .night

theorem witness_StateAndBindingRefuse :
    Obligations.StateAndBindingRefuse →
      (∃ t, exec (.dispense hdr (.amount 5)) w_sa0 = .next t) ∧
      (∃ t, exec (.cancel hdr) w_sa1 = .next t) ∧
      (∃ t, exec (.depositOpen hdr) w_sa2 = .next t) ∧
      (∃ t, exec (.depositCloseThroat hdr []) w_sa3 = .next t) ∧
      (∃ t, exec (.depositAccept hdr []) w_sa4 = .next t) ∧
      (∃ t, exec (.depositReturn hdr []) w_sa5 = .next t) ∧
      (∃ t, exec (.calibrate hdr 1 2 3 true) w_sa6 = .next t) ∧
      (∃ t, exec (.cassetteLoad hdr 1 2 3) w_sa7 = .next t) ∧
      (∃ t, exec (.cassetteUnload hdr 1) w_sa8 = .next t) ∧
      (∃ t, exec (.depositCassetteExchange hdr) w_sa9 = .next t) ∧
      (∃ t, exec (.bind hdr) w_sb0 = .next t) ∧
      (∃ t, exec (.unbind hdr) w_sb1 = .next t) ∧
      (∃ t, exec (.laneOpen hdr) w_sb2 = .next t) ∧
      (∃ t, exec (.laneClose hdr) w_sb3 = .next t) ∧
      (∃ t, exec (.laneNight hdr) w_sb4 = .next t) ∧
      (∃ t, exec (.binServiceOpen hdr) w_sb5 = .next t) ∧
      (∃ t, exec (.shiftClose hdr) w_sb6 = .next t) ∧
      (∃ t, exec (.clearPurge hdr) w_sq0 = .next t) ∧
      (∃ t, exec (.queryZonesClear hdr) w_sq1 = .next t) ∧
      (∃ t, exec (.alarmClear hdr 1) w_sq2 = .next t) ∧
      (∃ t, exec (.binServiceClose hdr true) w_sq3 = .next t) ∧
      (∃ t, exec (.dispense hdr (.amount 5)) w_sd0 = .next t) ∧
      (∃ t, exec (.cancel hdr) w_sd1 = .next t) ∧
      (∃ t, exec (.depositOpen hdr) w_sd2 = .next t) ∧
      (∃ t, exec (.depositCloseThroat hdr []) w_sd3 = .next t) ∧
      (∃ t, exec (.depositAccept hdr []) w_sd4 = .next t) ∧
      (∃ t, exec (.depositReturn hdr []) w_sd5 = .next t) ∧
      (∃ t, exec (.calibrate hdr 1 2 3 true) w_sd6 = .next t) ∧
      (∃ t, exec (.cassetteLoad hdr 1 2 3) w_sd7 = .next t) ∧
      (∃ t, exec (.cassetteUnload hdr 1) w_sd8 = .next t) ∧
      (∃ t, exec (.depositCassetteExchange hdr) w_sd9 = .next t) ∧
      (∃ t, exec (.bind hdr) w_se0 = .next t) ∧
      (∃ t, exec (.unbind hdr) w_se1 = .next t) ∧
      (∃ t, exec (.laneOpen hdr) w_se2 = .next t) ∧
      (∃ t, exec (.laneClose hdr) w_se3 = .next t) ∧
      (∃ t, exec (.laneNight hdr) w_se4 = .next t) ∧
      (∃ t, exec (.binServiceOpen hdr) w_se5 = .next t) ∧
      (∃ t, exec (.shiftClose hdr) w_se6 = .next t) ∧
      (∃ t, exec (.resetLane hdr) w_sf0 = .next t) ∧
      (∃ t, exec (.clearPurge hdr) w_sg0 = .next t) ∧
      (∃ t, exec (.dispense { src := 21, tag := 3, retry := false } (.amount 5)) w_sh0 = .next t) ∧
      (∃ t, exec (.cancel { src := 21, tag := 3, retry := false }) w_sh1 = .next t) ∧
      (∃ t, exec (.depositOpen { src := 21, tag := 3, retry := false }) w_sh2 = .next t) ∧
      (∃ t, exec (.depositCloseThroat { src := 21, tag := 3, retry := false } []) w_sh3 = .next t) ∧
      (∃ t, exec (.depositAccept { src := 21, tag := 3, retry := false } []) w_sh4 = .next t) ∧
      (∃ t, exec (.depositReturn { src := 21, tag := 3, retry := false } []) w_sh5 = .next t) ∧
      (∃ t, exec (.calibrate { src := 21, tag := 3, retry := false } 1 2 3 true) w_sh6 = .next t) ∧
      (∃ t, exec (.cassetteLoad { src := 21, tag := 3, retry := false } 1 2 3) w_sh7 = .next t) ∧
      (∃ t, exec (.cassetteUnload { src := 21, tag := 3, retry := false } 1) w_sh8 = .next t) ∧
      (∃ t, exec (.depositCassetteExchange { src := 21, tag := 3, retry := false }) w_sh9 = .next t) ∧
      (∃ t, exec (.clearPurge { src := 21, tag := 3, retry := false }) w_si0 = .next t) ∧
      (∃ t, exec (.unbind { src := 21, tag := 3, retry := false }) w_sj0 = .next t) := by
  intro O
  refine
    ⟨⟨_, (O hdr (.amount 5) [] 1 2 3 true w_sa0 ?_).1 ?_ (.dispense) (.dispense hdr (.amount 5)) ?_ ?_⟩,
      ⟨_, (O hdr (.amount 5) [] 1 2 3 true w_sa1 ?_).1 ?_ (.cancel) (.cancel hdr) ?_ ?_⟩,
      ⟨_, (O hdr (.amount 5) [] 1 2 3 true w_sa2 ?_).1 ?_ (.depositOpen) (.depositOpen hdr) ?_ ?_⟩,
      ⟨_, (O hdr (.amount 5) [] 1 2 3 true w_sa3 ?_).1 ?_ (.depositCloseThroat) (.depositCloseThroat hdr []) ?_ ?_⟩,
      ⟨_, (O hdr (.amount 5) [] 1 2 3 true w_sa4 ?_).1 ?_ (.depositAccept) (.depositAccept hdr []) ?_ ?_⟩,
      ⟨_, (O hdr (.amount 5) [] 1 2 3 true w_sa5 ?_).1 ?_ (.depositReturn) (.depositReturn hdr []) ?_ ?_⟩,
      ⟨_, (O hdr (.amount 5) [] 1 2 3 true w_sa6 ?_).1 ?_ (.calibrate) (.calibrate hdr 1 2 3 true) ?_ ?_⟩,
      ⟨_, (O hdr (.amount 5) [] 1 2 3 true w_sa7 ?_).1 ?_ (.cassetteLoad) (.cassetteLoad hdr 1 2 3) ?_ ?_⟩,
      ⟨_, (O hdr (.amount 5) [] 1 2 3 true w_sa8 ?_).1 ?_ (.cassetteUnload) (.cassetteUnload hdr 1) ?_ ?_⟩,
      ⟨_, (O hdr (.amount 5) [] 1 2 3 true w_sa9 ?_).1 ?_ (.depositCassetteExchange) (.depositCassetteExchange hdr)
            ?_ ?_⟩,
      ⟨_, (O hdr (.amount 5) [] 1 2 3 true w_sb0 ?_).2.1 ?_ (.bind) (.bind hdr) ?_ ?_⟩,
      ⟨_, (O hdr (.amount 5) [] 1 2 3 true w_sb1 ?_).2.1 ?_ (.unbind) (.unbind hdr) ?_ ?_⟩,
      ⟨_, (O hdr (.amount 5) [] 1 2 3 true w_sb2 ?_).2.1 ?_ (.laneOpen) (.laneOpen hdr) ?_ ?_⟩,
      ⟨_, (O hdr (.amount 5) [] 1 2 3 true w_sb3 ?_).2.1 ?_ (.laneClose) (.laneClose hdr) ?_ ?_⟩,
      ⟨_, (O hdr (.amount 5) [] 1 2 3 true w_sb4 ?_).2.1 ?_ (.laneNight) (.laneNight hdr) ?_ ?_⟩,
      ⟨_, (O hdr (.amount 5) [] 1 2 3 true w_sb5 ?_).2.1 ?_ (.binServiceOpen) (.binServiceOpen hdr) ?_ ?_⟩,
      ⟨_, (O hdr (.amount 5) [] 1 2 3 true w_sb6 ?_).2.1 ?_ (.shiftClose) (.shiftClose hdr) ?_ ?_⟩,
      ⟨_, (O hdr (.amount 5) [] 1 2 3 true w_sq0 ?_).2.2.1 ?_ (.clearPurge) (.clearPurge hdr) ?_ ?_⟩,
      ⟨_, (O hdr (.amount 5) [] 1 2 3 true w_sq1 ?_).2.2.1 ?_ (.queryZonesClear) (.queryZonesClear hdr) ?_ ?_⟩,
      ⟨_, (O hdr (.amount 5) [] 1 2 3 true w_sq2 ?_).2.2.1 ?_ (.alarmClear) (.alarmClear hdr 1) ?_ ?_⟩,
      ⟨_, (O hdr (.amount 5) [] 1 2 3 true w_sq3 ?_).2.2.1 ?_ (.binServiceClose) (.binServiceClose hdr true) ?_ ?_⟩,
      ⟨_, (O hdr (.amount 5) [] 1 2 3 true w_sd0 ?_).2.2.2.1 ?_ (.dispense) (.dispense hdr (.amount 5)) ?_ ?_⟩,
      ⟨_, (O hdr (.amount 5) [] 1 2 3 true w_sd1 ?_).2.2.2.1 ?_ (.cancel) (.cancel hdr) ?_ ?_⟩,
      ⟨_, (O hdr (.amount 5) [] 1 2 3 true w_sd2 ?_).2.2.2.1 ?_ (.depositOpen) (.depositOpen hdr) ?_ ?_⟩,
      ⟨_, (O hdr (.amount 5) [] 1 2 3 true w_sd3 ?_).2.2.2.1 ?_ (.depositCloseThroat) (.depositCloseThroat hdr []) ?_
            ?_⟩,
      ⟨_, (O hdr (.amount 5) [] 1 2 3 true w_sd4 ?_).2.2.2.1 ?_ (.depositAccept) (.depositAccept hdr []) ?_ ?_⟩,
      ⟨_, (O hdr (.amount 5) [] 1 2 3 true w_sd5 ?_).2.2.2.1 ?_ (.depositReturn) (.depositReturn hdr []) ?_ ?_⟩,
      ⟨_, (O hdr (.amount 5) [] 1 2 3 true w_sd6 ?_).2.2.2.1 ?_ (.calibrate) (.calibrate hdr 1 2 3 true) ?_ ?_⟩,
      ⟨_, (O hdr (.amount 5) [] 1 2 3 true w_sd7 ?_).2.2.2.1 ?_ (.cassetteLoad) (.cassetteLoad hdr 1 2 3) ?_ ?_⟩,
      ⟨_, (O hdr (.amount 5) [] 1 2 3 true w_sd8 ?_).2.2.2.1 ?_ (.cassetteUnload) (.cassetteUnload hdr 1) ?_ ?_⟩,
      ⟨_, (O hdr (.amount 5) [] 1 2 3 true w_sd9 ?_).2.2.2.1 ?_ (.depositCassetteExchange) (.depositCassetteExchange
            hdr) ?_ ?_⟩,
      ⟨_, (O hdr (.amount 5) [] 1 2 3 true w_se0 ?_).2.2.2.2.1 ?_ (.bind) (.bind hdr) ?_ ?_⟩,
      ⟨_, (O hdr (.amount 5) [] 1 2 3 true w_se1 ?_).2.2.2.2.1 ?_ (.unbind) (.unbind hdr) ?_ ?_⟩,
      ⟨_, (O hdr (.amount 5) [] 1 2 3 true w_se2 ?_).2.2.2.2.1 ?_ (.laneOpen) (.laneOpen hdr) ?_ ?_⟩,
      ⟨_, (O hdr (.amount 5) [] 1 2 3 true w_se3 ?_).2.2.2.2.1 ?_ (.laneClose) (.laneClose hdr) ?_ ?_⟩,
      ⟨_, (O hdr (.amount 5) [] 1 2 3 true w_se4 ?_).2.2.2.2.1 ?_ (.laneNight) (.laneNight hdr) ?_ ?_⟩,
      ⟨_, (O hdr (.amount 5) [] 1 2 3 true w_se5 ?_).2.2.2.2.1 ?_ (.binServiceOpen) (.binServiceOpen hdr) ?_ ?_⟩,
      ⟨_, (O hdr (.amount 5) [] 1 2 3 true w_se6 ?_).2.2.2.2.1 ?_ (.shiftClose) (.shiftClose hdr) ?_ ?_⟩,
      ⟨_, (O hdr (.amount 5) [] 1 2 3 true w_sf0 ?_).2.2.2.2.2.1 ?_ (.resetLane) (.resetLane hdr) ?_ ?_⟩,
      ⟨_, (O hdr (.amount 5) [] 1 2 3 true w_sg0 ?_).2.2.2.2.2.2.1 ?_ ?_ (.clearPurge) (.clearPurge hdr) ?_ ?_⟩,
      ⟨_, (O (⟨21, 3, false⟩) (.amount 5) [] 1 2 3 true w_sh0 ?_).2.2.2.2.2.2.2.1 ?_ ?_ ?_ (.dispense) (.dispense
            ⟨21, 3, false⟩ (.amount 5)) ?_ ?_⟩,
      ⟨_, (O (⟨21, 3, false⟩) (.amount 5) [] 1 2 3 true w_sh1 ?_).2.2.2.2.2.2.2.1 ?_ ?_ ?_ (.cancel) (.cancel ⟨21, 3,
            false⟩) ?_ ?_⟩,
      ⟨_, (O (⟨21, 3, false⟩) (.amount 5) [] 1 2 3 true w_sh2 ?_).2.2.2.2.2.2.2.1 ?_ ?_ ?_ (.depositOpen)
            (.depositOpen ⟨21, 3, false⟩) ?_ ?_⟩,
      ⟨_, (O (⟨21, 3, false⟩) (.amount 5) [] 1 2 3 true w_sh3 ?_).2.2.2.2.2.2.2.1 ?_ ?_ ?_ (.depositCloseThroat)
            (.depositCloseThroat ⟨21, 3, false⟩ []) ?_ ?_⟩,
      ⟨_, (O (⟨21, 3, false⟩) (.amount 5) [] 1 2 3 true w_sh4 ?_).2.2.2.2.2.2.2.1 ?_ ?_ ?_ (.depositAccept)
            (.depositAccept ⟨21, 3, false⟩ []) ?_ ?_⟩,
      ⟨_, (O (⟨21, 3, false⟩) (.amount 5) [] 1 2 3 true w_sh5 ?_).2.2.2.2.2.2.2.1 ?_ ?_ ?_ (.depositReturn)
            (.depositReturn ⟨21, 3, false⟩ []) ?_ ?_⟩,
      ⟨_, (O (⟨21, 3, false⟩) (.amount 5) [] 1 2 3 true w_sh6 ?_).2.2.2.2.2.2.2.1 ?_ ?_ ?_ (.calibrate) (.calibrate
            ⟨21, 3, false⟩ 1 2 3 true) ?_ ?_⟩,
      ⟨_, (O (⟨21, 3, false⟩) (.amount 5) [] 1 2 3 true w_sh7 ?_).2.2.2.2.2.2.2.1 ?_ ?_ ?_ (.cassetteLoad)
            (.cassetteLoad ⟨21, 3, false⟩ 1 2 3) ?_ ?_⟩,
      ⟨_, (O (⟨21, 3, false⟩) (.amount 5) [] 1 2 3 true w_sh8 ?_).2.2.2.2.2.2.2.1 ?_ ?_ ?_ (.cassetteUnload)
            (.cassetteUnload ⟨21, 3, false⟩ 1) ?_ ?_⟩,
      ⟨_, (O (⟨21, 3, false⟩) (.amount 5) [] 1 2 3 true w_sh9 ?_).2.2.2.2.2.2.2.1 ?_ ?_ ?_ (.depositCassetteExchange)
            (.depositCassetteExchange ⟨21, 3, false⟩) ?_ ?_⟩,
      ⟨_, (O (⟨21, 3, false⟩) (.amount 5) [] 1 2 3 true w_si0 ?_).2.2.2.2.2.2.2.2.1 ?_ ?_ (.clearPurge) (.clearPurge
            ⟨21, 3, false⟩) ?_ ?_⟩,
      ⟨_, (O (⟨21, 3, false⟩) (.amount 5) [] 1 2 3 true w_sj0 ?_).2.2.2.2.2.2.2.2.2 20 ?_ ?_ ?_ ?_ (.unbind) (.unbind
            ⟨21, 3, false⟩) ?_ ?_⟩⟩ <;> decide

/-! #### ResetsKeepAndClear -/

def noisy : State :=
  { base with
      cash := { base.cash with purge := { total := 5 }, deposit := { count := 7 } },
      chP := { gain := 900, gainBasis := 1024, zero := some 4 },
      peer := { held := ⟨540, 500, 40⟩, kept := ⟨540, 500, 40⟩, duplicate := true },
      fault := { shift := { dispValue := 7 }, hold := .soft },
      disp := { st := .picking } }
/-- The body of an image with the given take timeout (12.3). -/
def imageBody (take : Nat) : List Byte :=
  be 3 100000 ++ be 3 60000 ++ be 3 50000 ++ be 4 0x00100021 ++ be 3 2000 ++ be 3 500 ++ be 3 10000 ++ be 1 take ++ be
      1 20 ++ be 2 1024 ++ be 2 1024 ++ be 1 8 ++ (List.range 8).flatMap (fun _ => be 1 1 ++ be 2 20 ++ be 2 600 ++ be
      1 5 ++ be 2 100) ++ (List.range 4).flatMap (fun i => be 2 (10 + i)) ++ (List.range 12).flatMap (fun i => be 1
      (if i == 0 then 129 else 5))
def image (take : Nat) : List Byte := imageBody take ++ be 2 (crc16 (imageBody take)).toNat
def b1 (ok : Bool) : Board := ⟨ok, 5, some (image 30), [true, false, true, false]⟩
def b2 (ok : Bool) : Board := ⟨ok, 5, some (image 255), [true, false, true, false]⟩
def x1 : ImageItems := (readConfiguration (b1 true)).getD default
def x2 : ImageItems := (readConfiguration (b2 true)).getD default
def silent (ok : Bool) (n : Nat) : Board := ⟨ok, n, none, [true, true, true, true]⟩
/-- An image with a byte that its CRC does not fit. -/
def badCrc (ok : Bool) : Board := { b1 ok with image := some ((image 30).set 3 7) }

set_option maxRecDepth 20000 in
/-- R186: an image whose CRC fits is read whole: the reading of its 115 bytes is evaluated once. -/
theorem test_imageIsRead : readConfiguration (b1 true) = some x1 ∧ x1.clamped = false := by decide +kernel

set_option maxRecDepth 20000 in
/-- R194: a take timeout of 255 s is clamped. -/
theorem test_imageIsClamped : readConfiguration (b2 true) = some x2 ∧ x2.clamped = true := by decide +kernel

set_option maxRecDepth 20000 in
/-- R20: a configured gain that equals the retained basis keeps the working gain of channel Q, else it is set. -/
theorem test_gainIsKept :
    (if x1.config.gainQ = noisy.chQ.gainBasis then
      ({ gain := noisy.chQ.gain, gainBasis := noisy.chQ.gainBasis } : Channel)
    else { gain := x1.config.gainQ, gainBasis := x1.config.gainQ }).gain = 1024 := by
  decide +kernel

set_option maxRecDepth 20000 in
/-- R186: the reading fails where the CRC does not match, and with a lane strapped 31. -/
theorem test_imageIsRefused :
    readConfiguration (badCrc true) = none ∧ readConfiguration { b1 true with straps := 31 } = none := by
  decide +kernel

theorem witness_ResetsKeepAndClear :
    Obligations.ResetsKeepAndClear →
      (∃ t, exec (.powerOn (silent true 5)) noisy = .next t) ∧
      (∃ t, exec (.supplyDip { b1 true with straps := 31 }) noisy = .next t) ∧
      (∃ t, exec (.resetLine (badCrc true)) noisy = .next t) ∧
      (∃ t, restart .commanded { noisy with board := badCrc true } = t) ∧
      (∃ t, exec (.supplyDip (silent false 5)) noisy = .next t) ∧
      (∃ t, exec (.resetLine (badCrc false)) noisy = .next t) := by
  intro O
  exact
    ⟨⟨_, (((O (silent true 5) noisy).2.2 .powerOn (by decide)).1 rfl rfl).2 _ (.inl ⟨rfl, rfl⟩)⟩,
      ⟨_, (((O { b1 true with straps := 31 } noisy).2.2 .supplyDip (by decide)).1 rfl test_imageIsRefused.2).2 _
        (.inr (.inl ⟨rfl, rfl⟩))⟩,
      ⟨_, (((O (badCrc true) noisy).2.2 .resetLine (by decide)).1 rfl test_imageIsRefused.1).2 _
        (.inr (.inr ⟨rfl, rfl⟩))⟩,
      ⟨_, (((O (badCrc true) noisy).2.2 .commanded (by decide)).1 rfl test_imageIsRefused.1).1⟩,
      ⟨_, (((O (silent false 5) noisy).2.2 .supplyDip (by decide)).2.1 rfl rfl).2 _ (.inr (.inl ⟨rfl, rfl⟩))⟩,
      ⟨_, (((O (badCrc false) noisy).2.2 .resetLine (by decide)).2.1 rfl test_imageIsRefused.1).2 _
        (.inr (.inr ⟨rfl, rfl⟩))⟩⟩

theorem witness_ResetsThatReadTheImage :
    Obligations.ResetsKeepAndClear →
      (∃ t, exec (.powerOn (b1 false)) noisy = .next t) ∧ (∃ t, exec (.supplyDip (b2 false)) noisy = .next t) ∧
      (∃ t, exec (.resetLine (b2 true)) noisy = .next t ∧ t.cash.cassettes.length = 4 ∧ t.fault.hold ≠ .empty) ∧
      (∃ t, exec (.supplyDip (b1 true)) noisy = .next t ∧ t.chQ.gain = 1024) := by
  intro O
  obtain ⟨t, h, -, -, -, -, -, settled, clamped, -⟩ :=
    (((O (b2 true) noisy).2.2 .resetLine (by decide)).2.2 x2 test_imageIsClamped.1).2 rfl
  obtain ⟨u, g, -, -, -, gain, -⟩ :=
    (((O (b1 true) noisy).2.2 .supplyDip (by decide)).2.2 x1 test_imageIsRead.1).2 rfl
  refine
    ⟨⟨_, ((((O (b1 false) noisy).2.2 .powerOn (by decide)).2.2 x1 test_imageIsRead.1).1 rfl).2 _ (.inl ⟨rfl, rfl⟩)⟩,
      ⟨_, ((((O (b2 false) noisy).2.2 .supplyDip (by decide)).2.2 x2 test_imageIsClamped.1).1 rfl).2 _
        (.inr (.inl ⟨rfl, rfl⟩))⟩,
      ⟨t, h.2 _ (.inr (.inr ⟨rfl, rfl⟩)), ?_, ?_⟩, ⟨u, g.2 _ (.inr (.inl ⟨rfl, rfl⟩)), ?_⟩⟩
  · rw [settled rfl]; rfl
  · exact (clamped rfl test_imageIsClamped.2).2
  · rw [gain]; exact test_gainIsKept

theorem witness_ImagesAreReadAndClamped :
    Obligations.ResetsKeepAndClear →
      ((b2 true).straps < 31 ∧ ∃ l ∈ (b2 true).image, l.length = 115 ∧
        crcOf (l.take 113) = 256 * (l.getD 113 0).toNat + (l.getD 114 0).toNat) ∧
      (readConfiguration (silent true 5)).isSome ≠ true ∧ ImageGives (image 30) x1 ∧ ImageGives (image 255) x2 := by
  intro O
  refine ⟨(O (b2 true) noisy).1.mp (by rw [test_imageIsClamped.1]; rfl), ?_, (O (b1 true) noisy).2.1 (image 30) x1 rfl
    test_imageIsRead.1, (O (b2 true) noisy).2.1 (image 255) x2 rfl test_imageIsClamped.1⟩
  rw [Ne, (O (silent true 5) noisy).1]
  rintro ⟨-, l, h, -⟩
  exact nomatch h

/-! #### MechanicsCheckEndsStarting -/

def starting (k : HeldCash) (n : Nat) : State :=
  { inState .starting with
      lane := { (inState .starting).lane with power := .warming },
      peer := { kept := k },
      cash := { base.cash with purge := { total := n } } }
def clearS : CaptureSensors := ⟨false, false, false, false⟩
def w_m1 : State := starting ⟨0, 0, 0⟩ 5
def w_m2 : State := starting ⟨0, 0, 0⟩ 60
def w_m3 : State := starting ⟨1, 1, 0⟩ 60
def w_m4 : State := starting ⟨0, 0, 0⟩ 5
def w_m5 : State := starting ⟨0, 0, 0⟩ 5
def w_m6 : State := starting ⟨540, 500, 40⟩ 61
def w_m7 : State := starting ⟨40, 0, 40⟩ 61
def w_m8 : State := starting ⟨40, 0, 40⟩ 61
def w_m9 : State := starting ⟨0, 0, 0⟩ 61
def w_m10 : State := starting ⟨540, 0, 540⟩ 5

theorem witness_MechanicsCheckEndsStarting :
    Obligations.MechanicsCheckEndsStarting →
      (∃ t, exec (.mechanicsCheck {
          capture := clearS,
          stacker := false,
          pocket := false,
          escrow := false }) w_m1 = .next t) ∧
      (∃ t, exec (.mechanicsCheck {
          capture := clearS,
          stacker := true,
          pocket := false,
          escrow := false }) w_m2 = .next t) ∧
      (∃ t, exec (.mechanicsCheck {
          capture := clearS,
          stacker := false,
          pocket := false,
          escrow := false }) w_m3 = .next t) ∧
      (∃ t, exec (.mechanicsCheck {
          capture := { slot := true, length := false, drop := false, retract := false },
          stacker := false,
          pocket := false,
          escrow := false }) w_m4 = .next t) ∧
      (∃ t, exec (.mechanicsCheck {
          capture := { slot := true, length := false, drop := true, retract := false },
          stacker := false,
          pocket := false,
          escrow := false }) w_m5 = .next t) ∧
      (∃ t, exec (.mechanicsCheck {
          capture := clearS,
          stacker := true,
          pocket := true,
          escrow := true }) w_m6 = .next t) ∧
      (∃ t, exec (.mechanicsCheck {
          capture := clearS,
          stacker := false,
          pocket := true,
          escrow := false }) w_m7 = .next t) ∧
      (∃ t, exec (.mechanicsCheck {
          capture := { slot := false, length := true, drop := false, retract := false },
          stacker := false,
          pocket := true,
          escrow := true }) w_m8 = .next t) ∧
      (∃ t, exec (.mechanicsCheck {
          capture := clearS,
          stacker := false,
          pocket := false,
          escrow := true }) w_m9 = .next t) ∧
      (∃ t, exec (.mechanicsCheck {
          capture := clearS,
          stacker := false,
          pocket := true,
          escrow := true }) w_m10 = .next t) := by
  intro O
  refine
    ⟨⟨_, (O (⟨clearS, false, false, false⟩) w_m1 ?_ ?_).1 ?_ ?_ ?_⟩,
      ⟨_, (O (⟨clearS, true, false, false⟩) w_m2 ?_ ?_).2 ?_ ?_⟩,
      ⟨_, (O (⟨clearS, false, false, false⟩) w_m3 ?_ ?_).2 ?_ ?_⟩,
      ⟨_, (O (⟨⟨true, false, false, false⟩, false, false, false⟩) w_m4 ?_ ?_).1 ?_ ?_ ?_⟩,
      ⟨_, (O (⟨⟨true, false, true, false⟩, false, false, false⟩) w_m5 ?_ ?_).1 ?_ ?_ ?_⟩,
      ⟨_, (O (⟨clearS, true, true, true⟩) w_m6 ?_ ?_).2 ?_ ?_⟩,
      ⟨_, (O (⟨clearS, false, true, false⟩) w_m7 ?_ ?_).2 ?_ ?_⟩,
      ⟨_, (O (⟨⟨false, true, false, false⟩, false, true, true⟩) w_m8 ?_ ?_).2 ?_ ?_⟩,
      ⟨_, (O (⟨clearS, false, false, true⟩) w_m9 ?_ ?_).2 ?_ ?_⟩,
      ⟨_, (O (⟨clearS, false, true, true⟩) w_m10 ?_ ?_).2 ?_ ?_⟩⟩ <;> decide

/-! #### MeasuredRecordIsClassified -/

/-- Two denominations whose windows overlap at 1,530 (section 2.10). -/
def twoWindows : State :=
  { base with
      cash :=
        { base.cash with
            denoms :=
              { used := true, nomLength := 1500, window := 40, ref := 100 } ::
                { used := true, nomLength := 1550, window := 30, ref := 100 } :: List.replicate 6 {} } }

/-- The windows of a state that a length falls in, as the statement says it. -/
def InWindow (s : State) (n d : Nat) : Prop :=
  d < 8 ∧ (s.cash.denoms.getD d {}).used = true ∧
    |(5 * n : Int) - (s.cash.denoms.getD d {}).nomLength| ≤ (s.cash.denoms.getD d {}).window

theorem inWindow_only : ∀ d, InWindow base 120 d → d = 0 := by
  have : ∀ d < 8, (base.cash.denoms.getD d {}).used = true →
      |(5 * 120 : Int) - (base.cash.denoms.getD d {}).nomLength| ≤ (base.cash.denoms.getD d {}).window → d = 0 := by
    decide
  exact fun d h => this d h.1 h.2.1 h.2.2

theorem inWindow_none : ∀ d, ¬InWindow base 1 d := by
  have : ∀ d < 8, (base.cash.denoms.getD d {}).used = true →
      ¬|(5 * 1 : Int) - (base.cash.denoms.getD d {}).nomLength| ≤ (base.cash.denoms.getD d {}).window := by
    decide
  exact fun d h => this d h.1 h.2.1 h.2.2

set_option maxRecDepth 20000 in
theorem witness_MeasuredRecordIsClassified :
    Obligations.MeasuredRecordIsClassified →
      (recordP base 0 run120 false).cls = .single ∧ (recordQ base run120 false).den = some 0 ∧
        (recordQ base [100] false).den = none ∧ (recordQ twoWindows (List.replicate 306 100) false).cls = .unclassified := by
  intro O
  refine ⟨?_, ?_, ?_, ?_⟩
  · exact (((O base 0 run120 false).1 0 (by decide)).2.2 (by decide)).2.2.2.2 rfl |>.trans (by decide)
  · exact (((O base 0 run120 false).2.2.2.1 0 (by decide) inWindow_only (by decide))).1
  · exact ((O base 0 [100] false).2.2.2.2 fun d h => absurd h (inWindow_none d)).1
  · refine ((O twoWindows 0 (List.replicate 306 100) false).2.2.2.2 ?_).2.2.2 rfl (by decide)
    intro d _
    by_cases h : d = 0
    · exact ⟨1, by decide, by omega⟩
    · exact ⟨0, by decide, by omega⟩

/-! #### MixRuleFindsTheBestChoice -/

theorem witness_MixRuleFindsTheBestChoice :
    Obligations.MixRuleFindsTheBestChoice →
      (∃ ks, MixChoice [(50, 10), (20, 100)] 90 ks ∧ ks.sum ≤ 3) ∧
        (∀ ks, ¬MixChoice [(50, 10), (20, 100)] 30 ks) ∧ ∃ t, exec (.dispense hdr (.amount 30)) opened = .next t := by
  intro O
  refine ⟨?_, ?_, ⟨_, (O opened 30).2.2.2.2 hdr ?_ ?_ ?_ ?_⟩⟩
  · obtain ⟨-, ks, hk, -, best⟩ := (O base 90).2.2.2.1 [⟨7, 1, 0⟩, ⟨0, 2, 0⟩] 90 (by decide)
    exact ⟨ks, hk, (best [1, 2] (by decide)).1⟩
  · exact (O base 30).2.2.1 (by decide)
  all_goals decide

/-! #### FirstFaultRecordFollowsTheTable -/

def latchedBy (h : FaultHold) (k : FaultKind) : State :=
  { base with fault := { hold := h, latched := some (faultReport k .none none none base) } }

/-- A lane whose transmit queue is full. -/
def packed : State := { base with bus := { part := true, queue := List.replicate 16 positionFrame } }

theorem witness_FirstFaultRecordFollowsTheTable :
    Obligations.FirstFaultRecordFollowsTheTable →
      (raiseSoft .pickMiss .dispense (some (.cassette 2)) none base).fault.hold = .soft ∧
      (raiseHard .retentionLost .none none (some 3) (latchedBy .soft .pickMiss)).fault.hold = .hard ∧
      (raiseSoft .configClamped .none none (some 3) (latchedBy .soft .pickMiss)).fault.hold = .soft ∧
      (raiseSoft .configClamped .none none (some 3) (latchedBy .hard .purgeFull)).fault.hold = .hard ∧
      (raiseHard .cassetteSuspect .none none (some 3) (latchedBy .hard .purgeFull)).fault.second = true ∧
      (raiseHard .retentionLost .none none none packed).fault.latched = some (faultReport .retentionLost .none none none base) := by
  intro O
  refine ⟨?_, ?_, ?_, ?_, ?_, ((O .retentionLost .none none none packed).2.2.2.2.2 rfl).2.1⟩
  · rw [(O .pickMiss .dispense (some (.cassette 2)) none base).1 rfl rfl]
  · rw [(O .retentionLost .none none (some 3) (latchedBy .soft .pickMiss)).2.1 (.inr rfl) rfl (by decide)]; rfl
  · rw [(O .configClamped .none none (some 3) (latchedBy .soft .pickMiss)).2.2.1 rfl rfl]; rfl
  · rw [(O .configClamped .none none (some 3) (latchedBy .hard .purgeFull)).2.2.2.1 rfl rfl]; rfl
  · rw [(O .cassetteSuspect .none none (some 3) (latchedBy .hard .purgeFull)).2.2.2.2.1 rfl rfl (by decide)]; rfl

/-! #### Selections, pages and summaries -/

theorem witness_PicksAreSelected :
    Obligations.MissedPickCountsAndGoesOn →
      selectCassette base 7 = some 1 ∧ selectCassette base 3 = none ∧
        nextPair { plan := [⟨0, 2, 2⟩, ⟨7, 1, 0⟩] } = some 1 ∧ nextPair { plan := [⟨0, 2, 2⟩] } = none := by
  intro O
  exact ⟨((O.1 base 7).1 1).mpr (by decide), (O.1 base 3).2.mpr (by decide), ((O.2.1 _).1 1).mpr (by decide),
    (O.2.1 _).2.mpr (by decide)⟩

theorem witness_QueryPages :
    Obligations.QueriesRetriesAndUnknownCommands →
      queryRecord base 2 2 =
        some ([3, 7, 0, 0, 50, 0, 10, 0, 100, 0, 0, 0, 0, 0, 10, 0, 100, 0, 0, 0, 0].map (BitVec.ofNat 8)) ∧
        queryRecord base 7 0 = some ([1, 1, 0, 5, 0, 0, 100, 0, 1, 0, 0, 0, 3, 2].map (BitVec.ofNat 8)) ∧
        queryRecord base 6 0 = some ([0, 0, 9, 0, 1, 0, 0, 0, 2, 0, 200, 255].map (BitVec.ofNat 8)) := by
  intro O
  have p := O.2.2 base
  exact ⟨((p 1).2.1 c50 (by decide) rfl).trans (by decide), ((p 0).2.2.2.2.2.2.1 _ rfl).trans (by decide),
    ((p 0).2.2.2.2.2.1 _ rfl).trans (by decide)⟩

theorem witness_ZoneSummaries :
    Obligations.TroubleHoldLineAndZonesQuery →
      (zoneSummary { state := .quiet, trouble := true, changed := true }).toNat % 4 = zoneStatePos .quiet ∧
        (zoneSummary { state := .quiet, trouble := true, changed := true }).toNat < 32 := by
  intro O
  have p := O.2.2 { state := .quiet, trouble := true, changed := true }
  exact ⟨p.1, p.2.2.2.2⟩

/-! #### The machine -/

theorem witness_StepRunsTheCommandInFront :
    Obligations.StepRunsTheCommandInFront → ∃ t, step { base with pending := [] } = .next t := fun O =>
  let ⟨t, h, _⟩ := O.2 { base with pending := [] } rfl
  ⟨t, h⟩

/-- A lane with a frame waiting, a bundle in its compartment and a fault latched, and SHIFT_CLOSE in front. -/
def busyLane : State :=
  { withQueue [positionFrame] with fault := raiseSoft .pickMiss .dispense (some (.cassette 2)) none base |>.fault }

theorem witness_StepKeepsInvariants :
    Obligations.StepKeepsFaultRecordSound → Obligations.StepKeepsQueueAndCompartmentBounded →
      Obligations.StepKeepsOwnEntryEmpty →
        ∀ t, step busyLane = .next t →
          FaultRecordSound t.fault ∧ (QueueBounded t.bus ∧ CompartmentBounded t.capture) ∧ OwnEntryEmpty t :=
  fun o p q t h =>
    ⟨o busyLane t (by decide) h, p busyLane t (by decide) (by decide) h, q busyLane t (by decide) h⟩

theorem witness_busyLaneSteps : ∃ t, step busyLane = .next t ∧ t.bus ≠ busyLane.bus ∧ t.fault ≠ busyLane.fault := by
  refine ⟨_, rfl, ?_, ?_⟩ <;> decide

/-! ### Worked cases of the spec -/

/-- A lane that carries three denominations, each with a count available. -/
def stocked (l : List (Nat × Nat × Nat)) : State :=
  { cash :=
      { denoms := (List.range 8).map fun d =>
          match l.find? fun x => x.1 == d with
          | some x => { used := true, face := x.2.1 }
          | none => {},
        cassettes := l.map fun x => { st := .active, denom := some x.1, face := some x.2.1, count := x.2.2 } } }

/-- Section 3.3, lane A: 160 of 100, 50 and 20 in plenty is 1 × D6 and 3 × D2. -/
theorem test_mix160 :
    planRequest (stocked [(6, 100, 99), (4, 50, 99), (2, 20, 99)]) (.amount 160) = some ([⟨6, 1, 0⟩, ⟨2, 3, 0⟩], 160) := by
  decide

/-- Section 3.3, lane A: with two notes of 20 there is no mix of 160. -/
theorem test_mix160NoMix : planRequest (stocked [(6, 100, 99), (4, 50, 99), (2, 20, 2)]) (.amount 160) = none := by
  decide +kernel

/-- Section 3.3, lane A: 300 with two notes of 100 is 2 × D6 and 2 × D4. -/
theorem test_mix300 :
    planRequest (stocked [(6, 100, 2), (4, 50, 99), (2, 20, 99)]) (.amount 300) = some ([⟨6, 2, 0⟩, ⟨4, 2, 0⟩], 300) := by
  decide

/-- Section 3.3, lane A: 200 with one note of 100 and one of 50 is 1 × D6 and 5 × D2. -/
theorem test_mix200 :
    planRequest (stocked [(6, 100, 1), (4, 50, 1), (2, 20, 99)]) (.amount 200) = some ([⟨6, 1, 0⟩, ⟨2, 5, 0⟩], 200) := by
  decide

/-- Section 2.10: the length, C, T, q and class of note 1, with g = 250 and R = 104. -/
def notedC2 : State :=
  { chP := { gain := 250 },
    cash :=
      { denoms := (List.range 8).map fun d => if d == 3 then { used := true, nomLength := 1560, window := 40 } else {},
        cassettes := [{}, { denom := some 3, ref := 104 }, {}, {}] } }

set_option maxRecDepth 20000 in
theorem test_note1 :
    recordP notedC2 1 (List.replicate 312 408) false =
      { n := 312, length := 1560, c := some 408, t := some 100, ref := some 104, q := some 96, den := some 3,
        cls := .single, fragment := false, cutOff := false } := by decide +kernel

/-- Section 2.10: note 2 is DOUBLE with q = 191. -/
theorem test_note2 :
    (recordP notedC2 1 (List.replicate 313 815) false).cls = .double ∧
      (recordP notedC2 1 (List.replicate 313 815) false).q = some 191 := by decide +kernel

/-- Section 2.10: R stays 104 after note 1, and the gain that makes C = 408 thickness 100 is 251. -/
theorem test_learnAndGain : learn 100 96 104 0 = (104, 0) ∧ calibratedGain 100 408 = 251 := by decide

/-- Section 2.10: seven notes of 125 against 104 leave R and the eighth makes it 125. -/
theorem test_restart : learn 125 120 104 6 = (104, 7) ∧ learn 125 120 104 7 = (125, 0) := by decide

/-- Section 2.10: five samples at the zero are merged into a run of 35 that the next eight end. -/
theorem test_merging :
    (match feedRun 50 1024
        (List.replicate 9 100 ++ List.replicate 5 50 ++ List.replicate 20 100 ++ List.replicate 8 50) [50] [] with
      | .ended cs _ rest => (cs.length, rest)
      | _ => (0, [])) = (35, []) := by decide

set_option maxRecDepth 20000 in
/-- Section 2.10: at a gain of 8,191 a sample 6 above the candidate is present, and the capture fails. -/
theorem test_captureAtHighGain :
    zeroGood 8191 (597 :: 606 :: List.replicate 62 600) = false ∧
      zeroGood 1024 (597 :: 606 :: List.replicate 62 600) = true := by decide

/-- Section 2.10: against z = 700 with a band of 32 the mean 762 drifts and the mean 725 moves z to 701. -/
theorem test_gaps :
    let s : State := { config := { captureBand := 32 }, chQ := { zero := some 700, window := true } }
    (endGap .q 10 7620 s).chQ.drift = 1 ∧ (endGap .q 10 7620 s).chQ.zero = some 700 ∧
      (endGap .q 10 7250 s).chQ.zero = some 701 := by decide

/-- Section 1.5, pick 1: a DOUBLE from a cassette of one note stops its count at 0, charges 2, and is EMPTY. -/
theorem test_floor :
    let c : Cassette :=
      { st := .low, denom := some 5, face := some 50, count := 1, loaded := 500, accepted := 497, rejectEst := 2 }
    let t := chargeReject 0 (rejectEstimate .double) .dispense { cash := { cassettes := [c, {}, {}, {}] } }
    (cassetteAt t 0).count = 0 ∧ (cassetteAt t 0).rejectEst = 4 ∧ (cassetteAt t 0).st = .empty := by decide

/-- Section 7.10: the door of zone Z5 at scans 5, 9 and 17, each from the record of the scan before. -/
theorem test_doorLoop :
    let quiet : Zone := { type := .door, report := true, candidate := some .quiet, count := 4 }
    let active : Zone := { quiet with candidate := some .active, count := 3, state := .quiet }
    let troubled : Zone :=
      { quiet with candidate := some .active, count := 4, state := .quiet, trouble := true, restore := 4, frozen := true }
    ((scanZone 250 quiet).count = 5 ∧ changeDue (scanZone 250 quiet) = true) ∧
      ((scanZone 900 active).trouble = true ∧ (scanZone 900 active).frozen = true ∧ (scanZone 900 active).count = 0) ∧
      ((scanZone 500 troubled).restore = 5 ∧ troubleDue (scanZone 500 troubled) = true) := by decide

/-- Section 9.8: at 560 a second hard fault sets SECOND and leaves the record, and at 545 a soft one only its flag. -/
theorem test_faultRun :
    let s := raiseHard .captureJam .envelope none none base
    (raiseSoft .unexpectedAnswer .none none (some 6) s).fault.latched = s.fault.latched ∧
      (raiseHard .dispenserJam .dispense (some (.cassette 0)) none s).fault.second = true ∧
      (raiseHard .dispenserJam .dispense (some (.cassette 0)) none s).fault.latched = s.fault.latched := by decide

/-- Section 10.6: a full queue gives up its POSITION for an ALARM, and drops a NOTICE when only NOTICEs are weaker. -/
theorem test_fullQueue :
    let n : TxEntry := { frame := plainFrame .notice 31 false false (.notice .fault) 1 [] }
    let a : TxEntry := { frame := plainFrame .alarm 31 false false (.zone .door) 2 [] }
    let full := withQueue ({ n with inTx := true } :: List.replicate 15 n)
    (enqueue a (withQueue (positionFrame :: List.replicate 15 n))).bus.queue = List.replicate 15 n ++ [a] ∧
      (enqueue n full).bus.queue = full.bus.queue ∧
      (enqueue a full).bus.queue = { n with inTx := true } :: List.replicate 14 n ++ [a] := by decide

/-- 12.1, 12.2: the fields of NOTICE UNBOUND of lane 3, byte by byte: class and station, REDIRECTED with every station,
the kind, the report number, the payload length and the payload. -/
theorem test_frameFields :
    let f : Frame := plainFrame .notice 31 false true (.notice .unbound) 9 [20, 1]
    frameFields 3 f = [5 * 32 + 3, 32 + 31, 16, 9, 2, 20, 1].map (BitVec.ofNat 8) := by decide

set_option maxRecDepth 20000 in
/-- R175: every station finds the check of a frame right as it was sent, and wrong with one bit of it inverted. -/
theorem test_frameChecks :
    let l := frameBytes 3 (plainFrame .notice 31 false true (.notice .unbound) 9 [20, 1])
    frameChecks l = true ∧ frameChecks (l.set 5 21) = false := by decide

/-- R130, R177: a POSITION asked for while one is on the medium waits alone after a lost arbitration. -/
theorem test_onePosition :
    let sent := { positionFrame with inTx := true }
    (requeue id (askPosition (withQueue [sent]))).bus.queue = [positionFrame] := by decide

/-- R180, R184: a pending request and a WAKING target stand at their places in the lists that name them. -/
theorem test_requestPositions :
    [LaneState.opened, .closed, .night].map laneRequestPos = [1, 2, 3] ∧ laneStatePos .opened = 5 := by decide

/-- R55, R56: the count-in that fills a pair makes the next pair current. -/
theorem test_fullPairGivesWay :
    let d : Dispense := { plan := [⟨2, 1, 0⟩, ⟨0, 1, 0⟩], owed := 1 }
    (countIn { State.reset with disp := d }).disp.pair = 1 := by decide

/-! ### Well-formedness: each check refuses a term that fails it alone -/

theorem test_wfSource : (Instr.cancel ⟨32, 0, false⟩).wf = false ∧ (Instr.cancel ⟨31, 0, false⟩).wf = true := by decide
theorem test_wfTag : (Instr.cancel ⟨3, 256, false⟩).wf = false ∧ (Instr.cancel ⟨3, 255, false⟩).wf = true := by decide
theorem test_wfAmount :
    (Instr.peerIntent 3 16777216).wf = false ∧ (Instr.dispense hdr (.amount 16777216)).wf = false := by decide
theorem test_wfPairs :
    (Instr.dispense hdr (.pairs [])).wf = false ∧ (Instr.dispense hdr (.pairs [(256, 1)])).wf = false ∧
      (Instr.dispense hdr (.pairs (List.replicate 9 (1, 1)))).wf = false := by decide
theorem test_wfByte : (Instr.cassetteUnload hdr 256).wf = false ∧ (Instr.query hdr 0 256).wf = false := by decide
theorem test_wfHalf : (Instr.cassetteLoad hdr 1 0 65536).wf = false ∧ (Instr.thicknessTrip 65536).wf = false := by decide
theorem test_wfRaws :
    (Instr.pickMiss [4096]).wf = false ∧ (Instr.runStart .p [] 4096).wf = false ∧ (Instr.pickJam [4096]).wf = false ∧
      (Instr.depositJam [4096]).wf = false ∧ (Instr.calibrationTakeTimeout [4096]).wf = false := by decide
theorem test_wfOtherRaws :
    (Instr.zoneScan (List.replicate 12 0) false [4096]).wf = false ∧ (Instr.zoneChange 1 false [4096]).wf = false ∧
      (Instr.zoneRestored 1 false [4096]).wf = false ∧ (Instr.zoneScan (List.replicate 12 0) false [4095]).wf = true := by
  decide
theorem test_wfZeroCapture : (Instr.zeroCaptureDone .p (List.replicate 63 0)).wf = false := by decide
theorem test_wfScan :
    (Instr.zoneScan (List.replicate 11 0) false []).wf = false ∧
      (Instr.zoneScan (List.replicate 12 1024) false []).wf = false := by decide
theorem test_wfBoard :
    (Instr.powerOn ⟨true, 32, none, [true, true, true, true]⟩).wf = false ∧
      (Instr.powerOn ⟨true, 3, some [], [true, true, true, true]⟩).wf = false ∧
      (Instr.powerOn ⟨true, 3, none, [true]⟩).wf = false := by decide
theorem test_wfStations :
    (Instr.peerStale 31).wf = false ∧ (Instr.peerAlarm 3 32 .duress).wf = false ∧
      (Instr.peerPosition 32 ⟨0, 0, .closed, .none, false, 0⟩).wf = false := by decide
theorem test_wfSlots :
    (Instr.approvalTimeout 4).wf = false ∧ (Instr.approvalAnswer 3 4 0 1 1 0).wf = false ∧
      (Instr.approvalAnswer 3 0 64 1 1 0).wf = false := by decide
theorem test_wfNumbers :
    (Instr.zoneChange 13 false []).wf = false ∧ (Instr.zoneChange 0 false []).wf = false ∧
      (Instr.cassetteRemoved 5).wf = false ∧ (Instr.cassetteRemoved 0).wf = false := by decide
theorem test_wfUnknownKind : (Instr.unknownCommand hdr (.unknown 256)).wf = false := by decide

end Sys2Proof.Tests
end

