-- ==== Sys2Proof/Proofs/MixRule.lean ====
section
/-! PROOFS. The mix rule (R48): the search by number of notes finds the choice that the rule names, and an amount
with no choice is refused NO_MIX. -/

namespace Sys2Proof.Machine

/-! ### Picking order -/

/-- D`d` comes before D`e` in picking order, as R48 words it. -/
def PickedFirst (s : State) (d e : Nat) : Prop :=
  (denomAt s e).face < (denomAt s d).face ∨ ((denomAt s d).face = (denomAt s e).face ∧ d < e)

theorem pickedBefore_iff {s : State} {d e : Nat} : pickedBefore s d e = true ↔ PickedFirst s d e := by
  simp [pickedBefore, PickedFirst]

theorem PickedFirst.trans {s : State} {c d e : Nat} (hcd : PickedFirst s c d) (hde : PickedFirst s d e) :
    PickedFirst s c e := by
  unfold PickedFirst at *; omega

theorem pickedFirst_of_not {s : State} {d e : Nat} (hne : d ≠ e) (h : ¬PickedFirst s d e) : PickedFirst s e d := by
  unfold PickedFirst at *; omega

@[simp] theorem mem_insertPicking {s : State} {d x : Nat} {l : List Nat} :
    x ∈ insertPicking s d l ↔ x = d ∨ x ∈ l := by
  induction l with
  | nil => simp [insertPicking]
  | cons e es ih =>
    unfold insertPicking
    split
    · simp
    · simp only [List.mem_cons, ih]; tauto

theorem insertPicking_pairwise {s : State} {d : Nat} {l : List Nat} (hd : d ∉ l) (hl : l.Pairwise (PickedFirst s)) :
    (insertPicking s d l).Pairwise (PickedFirst s) := by
  induction l with
  | nil => simp [insertPicking]
  | cons e es ih =>
    obtain ⟨hde, hdes⟩ : d ≠ e ∧ d ∉ es := by simpa using hd
    obtain ⟨he, hes⟩ := List.pairwise_cons.mp hl
    unfold insertPicking
    split
    next hb =>
      have hb : PickedFirst s d e := pickedBefore_iff.mp hb
      refine List.pairwise_cons.mpr ⟨fun x hx => ?_, hl⟩
      rcases List.mem_cons.mp hx with rfl | hx
      · exact hb
      · exact hb.trans (he x hx)
    next hb =>
      have hed : PickedFirst s e d := pickedFirst_of_not hde (mt pickedBefore_iff.mpr hb)
      refine List.pairwise_cons.mpr ⟨fun x hx => ?_, ih hdes hes⟩
      rcases mem_insertPicking.mp hx with rfl | hx
      · exact hed
      · exact he x hx

@[simp] theorem mem_foldr_insertPicking {s : State} {x : Nat} {l : List Nat} :
    x ∈ l.foldr (insertPicking s) [] ↔ x ∈ l := by
  induction l with
  | nil => simp
  | cons d l ih => simp [ih]

theorem foldr_insertPicking_pairwise (s : State) {l : List Nat} (hl : l.Nodup) :
    (l.foldr (insertPicking s) []).Pairwise (PickedFirst s) := by
  induction l with
  | nil => simp
  | cons d l ih =>
    obtain ⟨hd, hl⟩ := List.nodup_cons.mp hl
    exact insertPicking_pairwise (by simpa using hd) (ih hl)

theorem pickingOrder_pairwise (s : State) : (pickingOrder s).Pairwise (PickedFirst s) :=
  foldr_insertPicking_pairwise s (List.nodup_range.filter _)

theorem mem_pickingOrder {s : State} {d : Nat} : d ∈ pickingOrder s ↔ d < 8 ∧ (denomAt s d).used = true := by
  simp [pickingOrder]

/-! ### The choices of exactly so many notes -/

/-- A choice of counts that R48 admits, of exactly `n` notes, however many. -/
def ExactChoice (ds : List (Nat × Nat)) (n a : Nat) (ks : List Nat) : Prop :=
  ks.length = ds.length ∧ (∀ p ∈ ds.zip ks, p.2 ≤ p.1.2) ∧ ks.sum = n ∧ ((ds.zip ks).map fun p => p.2 * p.1.1).sum = a

theorem mixChoice_iff {ds : List (Nat × Nat)} {a : Nat} {ks : List Nat} :
    MixChoice ds a ks ↔ ks.sum ≤ 40 ∧ ExactChoice ds ks.sum a ks := by
  unfold MixChoice ExactChoice; tauto

theorem exactChoice_nil {n a : Nat} {ks : List Nat} : ExactChoice [] n a ks ↔ ks = [] ∧ n = 0 ∧ a = 0 := by
  cases ks <;> simp [ExactChoice, eq_comm]

theorem not_exactChoice_cons_nil {d : Nat × Nat} {ds : List (Nat × Nat)} {n a : Nat} :
    ¬ExactChoice (d :: ds) n a [] := by simp [ExactChoice]

/-- A choice takes `k` of the first denomination and makes the rest of the notes and of the amount with the others. -/
theorem exactChoice_cons {d : Nat × Nat} {ds : List (Nat × Nat)} {n a k : Nat} {ks : List Nat} :
    ExactChoice (d :: ds) n a (k :: ks) ↔
      k ≤ min d.2 n ∧ k * d.1 ≤ a ∧ ExactChoice ds (n - k) (a - k * d.1) ks := by
  simp only [ExactChoice, List.length_cons, List.zip_cons_cons, List.forall_mem_cons, List.sum_cons, List.map_cons]
  constructor
  · rintro ⟨hlen, ⟨hk, hrest⟩, hsum, hvalue⟩
    exact ⟨by omega, by omega, by omega, hrest, by omega, by omega⟩
  · rintro ⟨hk, hka, hlen, hrest, hsum, hvalue⟩
    exact ⟨by omega, ⟨by omega, hrest⟩, by omega, by omega⟩

/-! ### The search -/

theorem tryCounts_eq_none {f : Nat → Option (List Nat)} {m : Nat} (h : tryCounts f m = none) :
    ∀ k ≤ m, f k = none := by
  induction m with
  | zero => simpa [tryCounts] using h
  | succ m ih =>
    intro k hk
    cases hf : f (m + 1) with
    | some l => simp [tryCounts, hf] at h
    | none =>
      rcases Nat.le_succ_iff.mp hk with hk | rfl
      · exact ih (by simpa [tryCounts, hf] using h) k hk
      · exact hf

/-- The count found is the largest for which the rest is found. -/
theorem tryCounts_eq_some {f : Nat → Option (List Nat)} {m : Nat} {l : List Nat} (h : tryCounts f m = some l) :
    ∃ k ks, l = k :: ks ∧ k ≤ m ∧ f k = some ks ∧ ∀ j ≤ m, k < j → f j = none := by
  induction m with
  | zero =>
    obtain ⟨ks, hf, rfl⟩ : ∃ ks, f 0 = some ks ∧ 0 :: ks = l := by simpa [tryCounts] using h
    exact ⟨0, ks, rfl, le_rfl, hf, by omega⟩
  | succ m ih =>
    cases hf : f (m + 1) with
    | some ks =>
      obtain rfl : (m + 1) :: ks = l := by simpa [tryCounts, hf] using h
      exact ⟨m + 1, ks, rfl, le_rfl, hf, by omega⟩
    | none =>
      obtain ⟨k, ks, rfl, hk, hfk, hmax⟩ := ih (by simpa [tryCounts, hf] using h)
      refine ⟨k, ks, rfl, by omega, hfk, fun j hj hkj => ?_⟩
      rcases Nat.le_succ_iff.mp hj with hj | rfl
      · exact hmax j hj hkj
      · exact hf

theorem exactMix_sound {ds : List (Nat × Nat)} {n a : Nat} {ks : List Nat} (h : exactMix ds n a = some ks) :
    ExactChoice ds n a ks := by
  induction ds generalizing n a ks with
  | nil =>
    obtain ⟨⟨hn, ha⟩, rfl⟩ : (n = 0 ∧ a = 0) ∧ [] = ks := by simpa [exactMix] using h
    exact exactChoice_nil.mpr ⟨rfl, hn, ha⟩
  | cons d ds ih =>
    obtain ⟨k, ks, rfl, hk, hrest, -⟩ := tryCounts_eq_some h
    obtain ⟨hka, hrest⟩ := Option.ite_none_right_eq_some.mp hrest
    exact exactChoice_cons.mpr ⟨hk, hka, ih hrest⟩

/-- The search misses no choice. -/
theorem exactMix_ne_none {ds : List (Nat × Nat)} {n a : Nat} {ks : List Nat} (h : ExactChoice ds n a ks) :
    exactMix ds n a ≠ none := by
  induction ds generalizing n a ks with
  | nil =>
    obtain ⟨-, rfl, rfl⟩ := exactChoice_nil.mp h
    simp [exactMix]
  | cons d ds ih =>
    cases ks with
    | nil => exact absurd h not_exactChoice_cons_nil
    | cons k ks =>
      obtain ⟨hk, hka, hrest⟩ := exactChoice_cons.mp h
      intro hnone
      have hf := tryCounts_eq_none hnone k hk
      rw [if_pos hka] at hf
      exact ih hrest hf

/-- Of the choices of as many notes, the one found has the most of the first denomination, then of the second, and so
on: a larger count of the first was tried before and left no choice of the rest. -/
theorem exactMix_lexGreatest {ds : List (Nat × Nat)} {n a : Nat} {ks other : List Nat} (h : exactMix ds n a = some ks)
    (ho : ExactChoice ds n a other) (hne : other ≠ ks) : List.Lex (· < ·) other ks := by
  induction ds generalizing n a ks other with
  | nil =>
    have hks := (exactChoice_nil.mp (exactMix_sound h)).1
    exact absurd ((exactChoice_nil.mp ho).1.trans hks.symm) hne
  | cons d ds ih =>
    cases other with
    | nil => exact absurd ho not_exactChoice_cons_nil
    | cons j js =>
      obtain ⟨hj, hja, hjs⟩ := exactChoice_cons.mp ho
      obtain ⟨k, ks, rfl, -, hrest, hmax⟩ := tryCounts_eq_some h
      rcases lt_trichotomy j k with hjk | rfl | hkj
      · exact .rel hjk
      · rw [if_pos hja] at hrest
        exact .cons (ih hrest hjs fun hjs => hne (by rw [hjs]))
      · have hf := hmax j hj hkj
        rw [if_pos hja] at hf
        exact absurd hf (exactMix_ne_none hjs)

theorem fewestMix_eq_none {ds : List (Nat × Nat)} {a : Nat} (h : fewestMix ds a = none) (ks : List Nat) :
    ¬MixChoice ds a ks := fun hc => by
  obtain ⟨hsum, hc⟩ := mixChoice_iff.mp hc
  have hmem : ks.sum ∈ List.range 41 := List.mem_range.mpr (by omega)
  exact exactMix_ne_none hc (List.findSome?_eq_none_iff.mp h _ hmem)

/-- The first number of notes for which a choice is found is the fewest. -/
theorem fewestMix_eq_some {ds : List (Nat × Nat)} {a : Nat} {ks : List Nat} (h : fewestMix ds a = some ks) :
    ks.sum ≤ 40 ∧ exactMix ds ks.sum a = some ks ∧ ∀ m < ks.sum, exactMix ds m a = none := by
  obtain ⟨before, n, after, hsplit, hn, hbefore⟩ := List.findSome?_eq_some_iff.mp h
  obtain ⟨-, -, rfl, -⟩ := exactMix_sound hn
  have hle : ks.sum ≤ 40 := by
    have hmem : ks.sum ∈ List.range 41 := by simp [hsplit]
    exact Nat.le_of_lt_succ (List.mem_range.mp hmem)
  refine ⟨hle, hn, fun m hm => hbefore m ?_⟩
  have hmem : m ∈ before ++ ks.sum :: after := by rw [← hsplit, List.mem_range]; omega
  have hsorted : (before ++ ks.sum :: after).Pairwise (· < ·) := by rw [← hsplit]; exact List.pairwise_lt_range
  have hafter := (List.pairwise_cons.mp (List.pairwise_append.mp hsorted).2.1).1
  rcases List.mem_append.mp hmem with hm' | hm'
  · exact hm'
  · rcases List.mem_cons.mp hm' with rfl | hm'
    · exact absurd hm (lt_irrefl _)
    · exact absurd hm (hafter m hm').not_gt

theorem fewestMix_choice {ds : List (Nat × Nat)} {a : Nat} {ks : List Nat} (h : fewestMix ds a = some ks) :
    MixChoice ds a ks :=
  have ⟨hle, hn, _⟩ := fewestMix_eq_some h
  mixChoice_iff.mpr ⟨hle, exactMix_sound hn⟩

/-- R48: no choice has fewer notes, and one of as many is behind it in picking order. -/
theorem fewestMix_best {ds : List (Nat × Nat)} {a : Nat} {ks other : List Nat} (h : fewestMix ds a = some ks)
    (ho : MixChoice ds a other) :
    ks.sum ≤ other.sum ∧ (other.sum = ks.sum → other ≠ ks → List.Lex (· < ·) other ks) := by
  obtain ⟨-, hn, hfewer⟩ := fewestMix_eq_some h
  have ho := (mixChoice_iff.mp ho).2
  refine ⟨?_, fun hsum hne => ?_⟩
  · by_contra hlt
    exact exactMix_ne_none ho (hfewer _ (by omega))
  · rw [hsum] at ho
    exact exactMix_lexGreatest hn ho hne

/-! ### The plan of an amount -/

/-- The used denominations in picking order, each with its face value and its available count (R12, R48). -/
def mixTable (s : State) : List (Nat × Nat) :=
  (pickingOrder s).map fun d => ((denomAt s d).face, availableCount s d)

/-- The pairs of a plan for a choice of counts: those with a count above 0 (R48). -/
def planOf (s : State) (ks : List Nat) : List PlanPair :=
  (((pickingOrder s).zip ks).filter fun p => p.2 != 0).map fun p => { den := p.1, count := p.2, picked := 0 }

theorem planAmount_eq (s : State) (a : Nat) : planAmount s a = (fewestMix (mixTable s) a).map (planOf s) := rfl

theorem planRequest_amount_eq_none {s : State} {a : Nat} :
    planRequest s (.amount a) = none ↔ fewestMix (mixTable s) a = none := by
  simp [planRequest, planAmount_eq]

theorem planRequest_amount_eq_some {s : State} {a v : Nat} {plan : List PlanPair} :
    planRequest s (.amount a) = some (plan, v) ↔ v = a ∧ ∃ ks, fewestMix (mixTable s) a = some ks ∧ plan = planOf s ks := by
  simp only [planRequest, planAmount_eq, Option.map_map, Option.map_eq_some_iff, Function.comp_apply, Prod.mk.injEq]
  constructor
  · rintro ⟨ks, hks, rfl, rfl⟩
    exact ⟨rfl, ks, hks, rfl⟩
  · rintro ⟨rfl, ks, hks, rfl⟩
    exact ⟨ks, hks, rfl, rfl⟩

/-! ### A request is judged and planned on the cassette unit alone -/

theorem denomAt_of_cash_eq {s t : State} (h : t.cash = s.cash) : denomAt t = denomAt s := by
  funext d; rw [denomAt, denomAt, h]

theorem availableCount_of_cash_eq {s t : State} (h : t.cash = s.cash) : availableCount t = availableCount s := by
  funext d; rw [availableCount, availableCount, h]

theorem pickedBefore_of_cash_eq {s t : State} (h : t.cash = s.cash) : pickedBefore t = pickedBefore s := by
  funext d e; simp only [pickedBefore, denomAt_of_cash_eq h]

theorem insertPicking_of_cash_eq {s t : State} (h : t.cash = s.cash) : insertPicking t = insertPicking s := by
  funext d l
  induction l with
  | nil => rfl
  | cons e es ih => rw [insertPicking, insertPicking, pickedBefore_of_cash_eq h, ih]

theorem pickingOrder_of_cash_eq {s t : State} (h : t.cash = s.cash) : pickingOrder t = pickingOrder s := by
  simp only [pickingOrder, insertPicking_of_cash_eq h, denomAt_of_cash_eq h]

theorem malformed_of_cash_eq {s t : State} (h : t.cash = s.cash) (req : Request) : malformed t req = malformed s req := by
  cases req with
  | amount n => rfl
  | pairs l => simp only [malformed, denomAt_of_cash_eq h]

theorem planRequest_of_cash_eq {s t : State} (h : t.cash = s.cash) (req : Request) :
    planRequest t req = planRequest s req := by
  cases req with
  | amount n =>
    simp only [planRequest, planAmount, pickingOrder_of_cash_eq h, denomAt_of_cash_eq h, availableCount_of_cash_eq h]
  | pairs l =>
    simp only [planRequest, planPairs, pairsValue, pickingOrder_of_cash_eq h, denomAt_of_cash_eq h,
      availableCount_of_cash_eq h]

/-! ### The DISPENSE that has no plan -/

theorem dispenseCheck_heard {h : Header} {req : Request} {s : State} (ho : DispenseOpen h req s) :
    dispenseCheck h req (heard h s) = none := by
  obtain ⟨-, hopened, hbound, htxn, hreq, halarm, hjam, hfull⟩ := ho
  have hbound' : isBound (heard h s) h.src = true := by simpa [isBound] using hbound
  have htxn' : txnOpen (heard h s) = false := by simpa [txnOpen] using htxn
  have hreq' : malformed (heard h s) req = false := (malformed_of_cash_eq (heard_cash h s) req).trans hreq
  have halarm' : (s.alarm.recognised && !s.alarm.duress) = false := by simpa using halarm
  simp [dispenseCheck, firstOf, unbound, hopened, hbound', htxn', hreq', halarm', hjam, hfull]

theorem exec_dispense (h : Header) (req : Request) (s : State) : exec (.dispense h req) s = execDispense h req s := rfl

/-- A DISPENSE that meets none of the refusals of R45 is planned on what the peer view leaves. -/
theorem exec_dispense_open {h : Header} {req : Request} {s : State} (ho : DispenseOpen h req s) :
    exec (.dispense h req) s = .next (finish (planDispense h req (heard h s))) := by
  have ⟨hcomes, hopened, _⟩ := ho
  simp [exec_dispense, execDispense, takeCommand_comes hcomes, hopened, judge, dispenseCheck_heard ho]

theorem planDispense_noMix {h : Header} {a : Nat} {s : State} (hd : s.alarm.duress = false) (ha : a ≠ 0)
    (hplan : planRequest s (.amount a) = none) : planDispense h (.amount a) s = refuse h .dispense .noMix s := by
  simp [planDispense, hd, ha, hplan]

/-- R48: an amount that has no choice is refused NO_MIX. -/
theorem exec_dispense_noMix {h : Header} {a : Nat} {s : State} (ho : DispenseOpen h (.amount a) s)
    (hd : s.alarm.duress = false) (hplan : planRequest s (.amount a) = none)
    (hfits : Fits (refusedReply h .dispense .noMix (heard h s))) :
    exec (.dispense h (.amount a)) s = .next (refusedReply h .dispense .noMix (heard h s)) := by
  have ha : a ≠ 0 := by
    obtain ⟨-, -, -, -, hreq, -⟩ := ho
    simpa [malformed] using hreq
  have hplan' := (planRequest_of_cash_eq (heard_cash h s) _).trans hplan
  have hd' : (heard h s).alarm.duress = false := by simpa using hd
  rw [exec_dispense_open ho, planDispense_noMix hd' ha hplan', refuse_fits (by decide) hfits.1, finish_of_fits hfits]

/-- Settles O11: the search tries the numbers of notes upwards and the counts of each denomination downwards, so what it
finds first is the choice R48 names. -/
theorem mixRuleFindsTheBestChoice : Obligations.MixRuleFindsTheBestChoice := by
  unfold Obligations.MixRuleFindsTheBestChoice
  intro s a
  refine ⟨pickingOrder_pairwise s, fun _ => mem_pickingOrder, fun hplan => ?_, fun plan v hplan => ?_,
    fun h ho hd hplan hfits => exec_dispense_noMix ho hd hplan hfits⟩
  · exact fewestMix_eq_none (planRequest_amount_eq_none.mp hplan)
  · obtain ⟨rfl, ks, hks, rfl⟩ := planRequest_amount_eq_some.mp hplan
    exact ⟨rfl, ks, fewestMix_choice hks, rfl, fun other => fewestMix_best hks⟩

end Sys2Proof.Machine
end

