-- ==== Sys2Proof/Proofs/FirstFault.lean ====
section
/-! PROOFS. The first-fault record (R165, R166). A raising is decided by the table of R166; the notice of a hard fault
comes after it, and as it finds the record HARD, the TX_OVERFLOW of a full transmit queue adds its flag and no more. -/

namespace Sys2Proof.Machine

/-! ### The rows of R166 -/

theorem latchFault_empty_soft {r : FaultReport} {u : FaultUnit} (hu : u.hold = .empty) (hr : isHard r.kind = false) :
    latchFault r u = { u with hold := .soft, latched := some r } := by simp [latchFault, hu, hr]

theorem latchFault_occupied_soft {r : FaultReport} {u : FaultUnit} (hu : u.hold ≠ .empty)
    (hr : isHard r.kind = false) : latchFault r u = u := by
  cases hh : u.hold with
  | empty => exact absurd hh hu
  | soft => simp [latchFault, hh, hr]
  | hard => simp [latchFault, hh, hr]

theorem latchFault_notHard_hard {r : FaultReport} {u : FaultUnit} (hu : u.hold ≠ .hard) (hr : isHard r.kind = true) :
    latchFault r u = { u with hold := .hard, latched := some r } := by
  cases hh : u.hold with
  | empty => simp [latchFault, hh, hr]
  | soft => simp [latchFault, hh, hr]
  | hard => exact absurd hh hu

theorem latchFault_hard_hard {r : FaultReport} {u : FaultUnit} (hu : u.hold = .hard) (hr : isHard r.kind = true) :
    latchFault r u = { u with second := true } := by simp [latchFault, hu, hr]

/-- The rows of an incoming hard fault as one. -/
theorem latchFault_of_isHard {r : FaultReport} {u : FaultUnit} (hr : isHard r.kind = true) :
    latchFault r u =
      { u with
          hold := .hard, latched := if u.hold = .hard then u.latched else some r,
          second := u.second || u.hold == .hard } := by
  by_cases hu : u.hold = .hard
  · rw [latchFault_hard_hard hu hr]; simp [← hu]
  · rw [latchFault_notHard_hard hu hr]; simp [hu]

/-! ### Raisings -/

theorem raiseSoft_eq {k : FaultKind} {o : FaultOp} {p : Option FaultPlace} {n : Option Nat} {s : State} {u : FaultUnit}
    (hu : (recordFault (faultReport k o p n s) s).fault = u) : raiseSoft k o p n s = { s with fault := u } := by
  rw [← hu]; rfl

/-- The notice names the record as it was before the raising: LATCHED or SECOND (R168). -/
theorem raiseHard_eq_of_fits {k : FaultKind} {o : FaultOp} {p : Option FaultPlace} {n : Option Nat} {s : State}
    {u : FaultUnit} (hu : (recordFault (faultReport k o p n s) s).fault = u)
    (hfits : (toldAll .fault (faultContent (faultReport k o p n s) s.fault.hold)
      { s with fault := u }).bus.queue.length ≤ 16) :
    raiseHard k o p n s =
      toldAll .fault (faultContent (faultReport k o p n s) s.fault.hold) { s with fault := u } := by
  subst hu; exact raiseHard_fits hfits

/-! ### What queueing frames does to the fault unit -/

/-- `v` is `u` with TX_OVERFLOW's flag set besides, at most. -/
def OverflowFlagAtMost (u v : FaultUnit) : Prop :=
  v = u ∨ v = { u with flags := u.flags.set (faultKindIdx .txOverflow) true }

theorem OverflowFlagAtMost.trans {u v w : FaultUnit} (huv : OverflowFlagAtMost u v) (hvw : OverflowFlagAtMost v w) :
    OverflowFlagAtMost u w := by
  rcases huv with rfl | rfl
  · exact hvw
  · rcases hvw with rfl | rfl
    · exact .inr rfl
    · exact .inr (by simp only [List.set_set])

theorem OverflowFlagAtMost.hold {u v : FaultUnit} (h : OverflowFlagAtMost u v) : v.hold = u.hold := by
  rcases h with rfl | rfl <;> rfl

theorem OverflowFlagAtMost.latched {u v : FaultUnit} (h : OverflowFlagAtMost u v) : v.latched = u.latched := by
  rcases h with rfl | rfl <;> rfl

theorem OverflowFlagAtMost.second {u v : FaultUnit} (h : OverflowFlagAtMost u v) : v.second = u.second := by
  rcases h with rfl | rfl <;> rfl

theorem OverflowFlagAtMost.shift {u v : FaultUnit} (h : OverflowFlagAtMost u v) : v.shift = u.shift := by
  rcases h with rfl | rfl <;> rfl

theorem OverflowFlagAtMost.closed {u v : FaultUnit} (h : OverflowFlagAtMost u v) : v.closed = u.closed := by
  rcases h with rfl | rfl <;> rfl

theorem OverflowFlagAtMost.flags_length {u v : FaultUnit} (h : OverflowFlagAtMost u v) :
    v.flags.length = u.flags.length := by
  rcases h with rfl | rfl
  · rfl
  · exact List.length_set

theorem OverflowFlagAtMost.flags_getElem? {u v : FaultUnit} (h : OverflowFlagAtMost u v) {i : Nat}
    (hi : i ≠ faultKindIdx .txOverflow) : v.flags[i]? = u.flags[i]? := by
  rcases h with rfl | rfl
  · rfl
  · exact List.getElem?_set_ne hi.symm

theorem frameLost_fault (e : TxEntry) (s : State) : (frameLost e s).fault = s.fault := by
  unfold frameLost
  cases e.owner with
  | intent => dsimp only; split <;> rfl
  | _ => rfl

/-- R178: whichever frame gives way, a full queue raises TX_OVERFLOW. -/
theorem enqueue_full_fault {e : TxEntry} {s : State} (h : ¬s.bus.queue.length < 16) :
    (enqueue e s).fault = (raiseSoft .txOverflow .none none none s).fault := by
  rw [enqueue, if_neg h]
  dsimp only
  split
  · split <;> exact frameLost_fault ..
  · exact frameLost_fault ..

/-- TX_OVERFLOW is soft: it leaves a record that holds a hard fault alone (R166). -/
theorem enqueue_overflowFlagAtMost (e : TxEntry) {s : State} (hs : s.fault.hold = .hard) :
    OverflowFlagAtMost s.fault (enqueue e s).fault := by
  by_cases h : s.bus.queue.length < 16
  · rw [enqueue_room h]; exact .inl rfl
  · rw [enqueue_full_fault h, raiseSoft_fault, recordFault_fault,
      latchFault_occupied_soft (by simp [hs]) rfl]
    exact .inr rfl

theorem foldl_enqueue_overflowFlagAtMost (f : Bool × List Byte → TxEntry) (l : List (Bool × List Byte)) {s : State}
    (hs : s.fault.hold = .hard) :
    OverflowFlagAtMost s.fault (l.foldl (fun t p => enqueue (f p) t) s).fault := by
  induction l generalizing s with
  | nil => exact .inl rfl
  | cons p l ih =>
    have hp := enqueue_overflowFlagAtMost (f p) hs
    exact hp.trans (ih (hp.hold.trans hs))

theorem noticeAll_overflowFlagAtMost (k : NoticeKind) (content : List Byte) {s : State} (hs : s.fault.hold = .hard) :
    OverflowFlagAtMost s.fault (noticeAll k content s).fault :=
  foldl_enqueue_overflowFlagAtMost _ _ (s := modBus _ s) hs

/-- The notice of a hard fault leaves what the raising recorded, whatever the transmit queue holds. -/
theorem raiseHard_overflowFlagAtMost {k : FaultKind} (o : FaultOp) (p : Option FaultPlace) (n : Option Nat) (s : State)
    (hk : isHard k = true) :
    OverflowFlagAtMost (recordFault (faultReport k o p n s) s).fault (raiseHard k o p n s).fault := by
  refine noticeAll_overflowFlagAtMost _ _ ?_
  rw [recordFault_fault, latchFault_of_isHard hk]

/-- Settles O47: each row is the raising's own by the table, and a hard fault's notice finds the record HARD. -/
theorem firstFaultRecordFollowsTheTable : Obligations.FirstFaultRecordFollowsTheTable := by
  unfold Obligations.FirstFaultRecordFollowsTheTable
  intro kind op place station s r f flagged becomes
  have soft (u : FaultUnit) (hk : isHard kind = false) (hu : latchFault r flagged = u) : becomes u := by
    simp only [becomes, hk, Bool.false_eq_true, if_false]
    exact raiseSoft_eq hu
  have hard (u : FaultUnit) (hk : isHard kind = true) (hu : latchFault r flagged = u) : becomes u := by
    simp only [becomes, hk, if_true]
    exact raiseHard_eq_of_fits hu
  refine ⟨fun hf hk => ?_, fun hf hk => ?_, fun hf hk => ?_, fun hf hk => ?_, fun hf hk => ?_, fun hk => ?_⟩
  · exact soft _ hk (latchFault_empty_soft hf hk)
  · have hne : flagged.hold ≠ .hard := by rcases hf with hf | hf <;> simp [flagged, hf]
    exact hard _ hk (latchFault_notHard_hard hne hk)
  · exact soft _ hk (latchFault_occupied_soft (by simp [flagged, hf]) hk)
  · exact soft _ hk (latchFault_occupied_soft (by simp [flagged, hf]) hk)
  · exact hard _ hk (latchFault_hard_hard hf hk)
  · have hnotice := raiseHard_overflowFlagAtMost op place station s hk
    rw [recordFault_fault, latchFault_of_isHard hk] at hnotice
    exact ⟨hnotice.hold, hnotice.latched, hnotice.second, hnotice.flags_length.trans List.length_set,
      fun _ hi => hnotice.flags_getElem? hi, hnotice.shift, hnotice.closed⟩

end Sys2Proof.Machine
end

