-- ==== Sys2Proof/Proofs/Keeps.lean ====
section
/-! PROOFS. What every operation of the machine keeps: a sound first-fault record (R165, R166), a transmit queue of at
most 16 frames (R178), a retract compartment within its bounds (R95) and an EMPTY own entry of the peer view (R116).
One lemma per operation, in the order of the model's files; each lets a chain of operations grow by one. -/

namespace Sys2Proof.Machine

/-- `t` holds each invariant of a safe run that `s` holds. -/
structure Keeps (s t : State) : Prop where
  fault : FaultRecordSound s.fault → FaultRecordSound t.fault
  queue : QueueBounded s.bus → QueueBounded t.bus
  compartment : CompartmentBounded s.capture → CompartmentBounded t.capture
  ownEntry : OwnEntryEmpty s → OwnEntryEmpty t

theorem Keeps.refl (s : State) : Keeps s s := ⟨id, id, id, id⟩

variable {s t : State}

theorem ite_keeps {c : Prop} {_ : Decidable c} {u v : State} (hu : Keeps s u) (hv : Keeps s v) :
    Keeps s (if c then u else v) := by
  split
  · exact hu
  · exact hv

theorem foldl_keeps {α : Type} {f : State → α → State} (hf : ∀ {u a}, Keeps s u → Keeps s (f u a))
    (l : List α)
    (h : Keeps s t) : Keeps s (l.foldl f t) := by
  induction l generalizing t with
  | nil => exact h
  | cons a l ih => exact ih (hf h)

/-! ### Plain updates of the state -/

theorem modBus_keeps {f : Bus → Bus} (hf : (f t.bus).queue.length ≤ t.bus.queue.length) (h : Keeps s t) :
    Keeps s (modBus f t) :=
  ⟨h.fault, fun hq => hf.trans (h.queue hq), h.compartment, h.ownEntry⟩

theorem modPeer_keeps {f : PeerView → PeerView} (hf : ∀ p, (f p).entries = p.entries) (h : Keeps s t) :
    Keeps s (modPeer f t) :=
  ⟨h.fault, h.queue, h.compartment, fun ho => by
    simpa only [OwnEntryEmpty, peerEntry, modPeer, hf] using h.ownEntry ho⟩

/-- An entry other than the lane's own is written. -/
theorem setEntry_keeps {n : Nat} {e : PeerEntry} (hn : n ≠ t.lane.station) (h : Keeps s t) :
    Keeps s (modPeer (fun p => { p with entries := p.entries.set n e }) t) :=
  ⟨h.fault, h.queue, h.compartment, fun ho => by
    simpa only [OwnEntryEmpty, peerEntry, modPeer, List.getD_eq_getElem?_getD, List.getElem?_set_ne hn]
      using h.ownEntry ho⟩

theorem modLane_keeps {f : Lane → Lane} (hf : ∀ l, (f l).station = l.station) (h : Keeps s t) :
    Keeps s (modLane f t) :=
  ⟨h.fault, h.queue, h.compartment, fun ho => by
    simpa only [OwnEntryEmpty, peerEntry, modLane, hf] using h.ownEntry ho⟩

theorem modCapture_keeps {f : Capture → Capture} (hf : ∀ c, (f c).bundles = c.bundles) (h : Keeps s t) :
    Keeps s (modCapture f t) :=
  ⟨h.fault, h.queue, fun hc => by
    simpa only [CompartmentBounded, noteEstimate, modCapture, hf] using h.compartment hc, h.ownEntry⟩

theorem modApproval_keeps {f : Approval → Approval} (h : Keeps s t) : Keeps s (modApproval f t) :=
  ⟨h.fault, h.queue, h.compartment, h.ownEntry⟩

theorem setApproval_keeps {a : Approval} (h : Keeps s t) : Keeps s { t with approval := a } :=
  ⟨h.fault, h.queue, h.compartment, h.ownEntry⟩

theorem modShift_keeps {f : ShiftTotals → ShiftTotals} (h : Keeps s t) : Keeps s (modShift f t) :=
  ⟨h.fault, h.queue, h.compartment, h.ownEntry⟩

theorem drawFree_keeps (h : Keeps s t) : Keeps s (drawFree t) := ⟨h.fault, h.queue, h.compartment, h.ownEntry⟩

theorem modCash_keeps {f : CassetteUnit → CassetteUnit} (h : Keeps s t) : Keeps s (modCash f t) :=
  ⟨h.fault, h.queue, h.compartment, h.ownEntry⟩

theorem modCassette_keeps {i : Nat} {f : Cassette → Cassette} (h : Keeps s t) : Keeps s (modCassette i f t) :=
  modCash_keeps h

theorem modDrives_keeps {f : Drives → Drives} (h : Keeps s t) : Keeps s (modDrives f t) :=
  ⟨h.fault, h.queue, h.compartment, h.ownEntry⟩

theorem modDisp_keeps {f : Dispense → Dispense} (h : Keeps s t) : Keeps s (modDisp f t) :=
  ⟨h.fault, h.queue, h.compartment, h.ownEntry⟩

theorem modDep_keeps {f : Deposit → Deposit} (h : Keeps s t) : Keeps s (modDep f t) :=
  ⟨h.fault, h.queue, h.compartment, h.ownEntry⟩

theorem modCal_keeps {f : Calibration → Calibration} (h : Keeps s t) : Keeps s (modCal f t) :=
  ⟨h.fault, h.queue, h.compartment, h.ownEntry⟩

theorem modAlarm_keeps {f : Alarm → Alarm} (h : Keeps s t) : Keeps s (modAlarm f t) :=
  ⟨h.fault, h.queue, h.compartment, h.ownEntry⟩

theorem modChan_keeps {ch : ChannelId} {f : Channel → Channel} (h : Keeps s t) : Keeps s (modChan ch f t) := by
  cases ch <;> exact ⟨h.fault, h.queue, h.compartment, h.ownEntry⟩

theorem setThroatJam_keeps {b : Bool} (h : Keeps s t) : Keeps s { t with throatJam := b } :=
  ⟨h.fault, h.queue, h.compartment, h.ownEntry⟩

theorem setDispenserJam_keeps {b : Bool} (h : Keeps s t) : Keeps s { t with dispenserJam := b } :=
  ⟨h.fault, h.queue, h.compartment, h.ownEntry⟩

theorem setBoard_keeps {b : Board} (h : Keeps s t) : Keeps s { t with board := b } :=
  ⟨h.fault, h.queue, h.compartment, h.ownEntry⟩

theorem reshutter_keeps (h : Keeps s t) : Keeps s (reshutter t) := ⟨h.fault, h.queue, h.compartment, h.ownEntry⟩

theorem setHeld_keeps {x : HeldCash} (h : Keeps s t) : Keeps s (setHeld x t) := modPeer_keeps (fun _ => rfl) h

theorem modRecovery_keeps {f : Recovery → Recovery} (h : Keeps s t) : Keeps s (modRecovery f t) :=
  modLane_keeps (fun _ => rfl) h

/-! ### Faults -/

/-- R165, R166: the flag is set first, so that whichever row of the table applies, a latched fault's flag is set. -/
theorem latchFault_sound {r : FaultReport} {u : FaultUnit} (hu : FaultRecordSound u) :
    FaultRecordSound (latchFault r { u with flags := u.flags.set (faultKindIdx r.kind) true }) := by
  obtain ⟨hlen, hempty, hsecond, hlatched⟩ := hu
  have hidx : faultKindIdx r.kind < u.flags.length := by rw [hlen]; cases r.kind <;> decide
  have hown : (u.flags.set (faultKindIdx r.kind) true)[faultKindIdx r.kind]? = some true := by simp [hidx]
  have hkept {i : Nat} (hi : u.flags[i]? = some true) : (u.flags.set (faultKindIdx r.kind) true)[i]? = some true := by
    by_cases h : faultKindIdx r.kind = i
    · subst h; exact hown
    · rw [List.getElem?_set_ne h]; exact hi
  cases hk : isHard r.kind <;> cases hh : u.hold <;> rw [hh] at hempty hsecond hlatched <;>
    simp_all [latchFault, FaultRecordSound]

theorem recordFault_keeps {r : FaultReport} (h : Keeps s t) : Keeps s (recordFault r t) :=
  ⟨fun hf => latchFault_sound (h.fault hf), h.queue, h.compartment, h.ownEntry⟩

theorem raiseSoft_keeps {k : FaultKind} {o : FaultOp} {p : Option FaultPlace} {n : Option Nat} (h : Keeps s t) :
    Keeps s (raiseSoft k o p n t) :=
  recordFault_keeps h

/-! ### The transmit queue -/

theorem frameLost_keeps {e : TxEntry} (h : Keeps s t) : Keeps s (frameLost e t) := by
  unfold frameLost
  cases e.owner with
  | intent => dsimp only; split <;> exact modPeer_keeps (fun _ => rfl) h
  | querySegment => exact modBus_keeps le_rfl h
  | resetNotice => exact ⟨h.fault, h.queue, h.compartment, h.ownEntry⟩
  | nobody | position | ask => exact h

/-- The frame that gives way leaves the queue, so the new one has its place (R178). -/
theorem length_eraseP_append {p : TxEntry → Bool} {e old : TxEntry} {q : List TxEntry}
    (h : q.reverse.find? p = some old) : ((q.reverse.eraseP p).reverse ++ [e]).length = q.length := by
  have hmem := List.mem_of_find?_eq_some h
  have hlen := List.length_eraseP_of_mem hmem (List.find?_some h)
  have hpos : 0 < q.length := by simpa using List.length_pos_of_mem hmem
  simp only [List.length_append, List.length_reverse, List.length_singleton] at hlen ⊢
  omega

theorem enqueue_keeps {e : TxEntry} (h : Keeps s t) : Keeps s (enqueue e t) := by
  unfold enqueue
  split
  next hroom =>
    refine ⟨h.fault, fun _ => ?_, h.compartment, h.ownEntry⟩
    simp only [QueueBounded, modBus_bus, List.length_append, List.length_singleton]
    omega
  next =>
    have hraised := raiseSoft_keeps (k := .txOverflow) (o := .none) (p := none) (n := none) h
    dsimp only
    split
    next old hold =>
      split
      · exact frameLost_keeps (modBus_keeps (length_eraseP_append hold).le hraised)
      · exact frameLost_keeps hraised
    next => exact frameLost_keeps hraised

theorem report_keeps {cls : FrameClass} {kind : FrameKind} {dst : Nat} {red : Bool} {owner : Owner}
    {content : List Byte} (h : Keeps s t) : Keeps s (report cls kind dst red owner content t) :=
  foldl_keeps enqueue_keeps _ (modBus_keeps le_rfl h)

theorem noticeAll_keeps {k : NoticeKind} {content : List Byte} (h : Keeps s t) : Keeps s (noticeAll k content t) :=
  report_keeps h

theorem noticeBound_keeps {k : NoticeKind} {content : List Byte} (h : Keeps s t) :
    Keeps s (noticeBound k content t) :=
  report_keeps h

theorem raiseHard_keeps {k : FaultKind} {o : FaultOp} {p : Option FaultPlace} {n : Option Nat} (h : Keeps s t) :
    Keeps s (raiseHard k o p n t) :=
  noticeAll_keeps (recordFault_keeps h)

/-! ### POSITION, H and the intent requests -/

theorem askPosition_keeps (h : Keeps s t) : Keeps s (askPosition t) := by
  have hperiod : Keeps s (modPeer (fun p => { p with periodMs := 500 }) t) := modPeer_keeps (fun _ => rfl) h
  unfold askPosition
  split
  · exact h
  · dsimp only
    split
    · exact hperiod
    · exact enqueue_keeps hperiod

theorem refuseIntent_keeps (h : Keeps s t) : Keeps s (refuseIntent t) :=
  askPosition_keeps (modPeer_keeps (fun _ => rfl) h)

theorem retestIntent_keeps (h : Keeps s t) : Keeps s (retestIntent t) := by
  unfold retestIntent
  split
  · split
    · split
      · exact refuseIntent_keeps h
      · exact enqueue_keeps (modPeer_keeps (fun _ => rfl) h)
    · exact h
  · exact h

theorem requestIntent_keeps {k : IntentKind} {a : Nat} (h : Keeps s t) : Keeps s (requestIntent k a t) := by
  have hasked : Keeps s (modPeer (fun p => { p with request := some { kind := k, amount := a } }) t) :=
    modPeer_keeps (fun _ => rfl) h
  unfold requestIntent
  dsimp only
  split
  · exact refuseIntent_keeps hasked
  · exact enqueue_keeps hasked

theorem withdrawIntent_keeps (h : Keeps s t) : Keeps s (withdrawIntent t) := by
  unfold withdrawIntent
  split
  · refine modPeer_keeps (fun _ => rfl) (modBus_keeps ?_ h)
    simpa [orphanIntents] using List.length_filter_le ..
  · exact h

theorem heldFell_keeps (h : Keeps s t) : Keeps s (heldFell t) := retestIntent_keeps (askPosition_keeps h)

theorem releaseDispense_keeps (h : Keeps s t) : Keeps s (releaseDispense t) :=
  ite_keeps h (heldFell_keeps (setHeld_keeps h))

theorem releaseDeposit_keeps (h : Keeps s t) : Keeps s (releaseDeposit t) :=
  ite_keeps h (heldFell_keeps (setHeld_keeps h))

theorem lowerDispense_keeps {v : Nat} (h : Keeps s t) : Keeps s (lowerDispense v t) :=
  ite_keeps h (heldFell_keeps (setHeld_keeps h))

theorem grantHeld_keeps {k : IntentKind} {a : Nat} (h : Keeps s t) : Keeps s (grantHeld k a t) := by
  cases k <;> exact setHeld_keeps h

/-! ### The peer view -/

/-- R123: a frame that names the lane's own number changes no entry. -/
theorem applyFrame_keeps {src : Nat} {k : PeerKind} {p : Bool} {f : PeerEntry → PeerEntry} (h : Keeps s t) :
    Keeps s (applyFrame src k p f t) := by
  unfold applyFrame
  split
  · exact h
  next hnot =>
    have hsrc : src ≠ t.lane.station := by rintro rfl; simp at hnot
    refine ite_keeps (retestIntent_keeps ?_) ?_ <;>
      exact ite_keeps (setApproval_keeps (setEntry_keeps hsrc h)) (setEntry_keeps hsrc h)

theorem foundDuplicate_keeps (h : Keeps s t) : Keeps s (foundDuplicate t) :=
  askPosition_keeps (raiseHard_keeps (modPeer_keeps (fun _ => rfl) h))

theorem receive_keeps {src : Nat} {f : State → State} (hf : Keeps s t → Keeps s (f t)) (h : Keeps s t) :
    Keeps s (receive src f t) :=
  ite_keeps h (ite_keeps (foundDuplicate_keeps h) (hf h))

/-! ### Approval slots, the binding and replies -/

theorem takeSlot_keeps {i : Nat} {k : OpKind} {a r : Nat} {x : List Byte} (h : Keeps s t) :
    Keeps s (takeSlot i k a r x t) :=
  enqueue_keeps (modApproval_keeps h)

theorem settleSlot_keeps {i : Nat} {how : Settling} (h : Keeps s t) : Keeps s (settleSlot i how t) := by
  unfold settleSlot
  dsimp only
  split
  · have hclosed (f : Approval → Approval) (owner : Owner) (content : List Byte) :=
      report_keeps (cls := .notice) (kind := .notice .approvalClosed) (dst := 31) (red := false) (owner := owner)
        (content := content) (modApproval_keeps (f := f) h)
    split
    · exact modBus_keeps (List.length_filter_le ..) (hclosed _ _ _)
    · exact hclosed _ _ _
  · exact h

theorem unbindStale_keeps (h : Keeps s t) : Keeps s (unbindStale t) := by
  unfold unbindStale
  split
  · exact noticeAll_keeps (modApproval_keeps h)
  · exact h

theorem afterTransaction_keeps (h : Keeps s t) : Keeps s (afterTransaction t) :=
  ite_keeps (unbindStale_keeps h) h

theorem sendReply_keeps {hd : Header} {k : CmdKind} {f : Frame} (h : Keeps s t) : Keeps s (sendReply hd k f t) :=
  ite_keeps (enqueue_keeps h) (modBus_keeps le_rfl (enqueue_keeps h))

theorem replyAccepted_keeps {hd : Header} {k : CmdKind} {x : List Byte} (h : Keeps s t) :
    Keeps s (replyAccepted hd k x t) :=
  sendReply_keeps h

theorem replyDone_keeps {hd : Header} {k : CmdKind} {x : List Byte} (h : Keeps s t) : Keeps s (replyDone hd k x t) :=
  sendReply_keeps h

theorem refuse_keeps {hd : Header} {k : CmdKind} {r : Reason} (h : Keeps s t) : Keeps s (refuse hd k r t) :=
  sendReply_keeps h

theorem setLaneState_keeps {st : LaneState} (h : Keeps s t) : Keeps s (setLaneState st t) :=
  askPosition_keeps (reshutter_keeps (modLane_keeps (fun _ => rfl) h))

/-! ### Cassettes (chapter 1) -/

theorem followCount_keeps {i : Nat} (h : Keeps s t) : Keeps s (followCount i t) :=
  ite_keeps (ite_keeps (noticeAll_keeps (modCassette_keeps h)) (ite_keeps (noticeAll_keeps (modCassette_keeps h))
    (modCassette_keeps h))) h

theorem removeCassette_keeps {i : Nat} (h : Keeps s t) : Keeps s (removeCassette i t) :=
  noticeAll_keeps (modCassette_keeps h)

theorem countMiss_keeps {i : Nat} {o : FaultOp} (h : Keeps s t) : Keeps s (countMiss i o t) :=
  ite_keeps (raiseHard_keeps (modCassette_keeps (raiseSoft_keeps (modCassette_keeps h)))) (raiseSoft_keeps
    (modCassette_keeps h))

theorem chargeAccepted_keeps {i : Nat} (h : Keeps s t) : Keeps s (chargeAccepted i t) :=
  followCount_keeps (modCassette_keeps h)

theorem enterTray_keeps {i n : Nat} {o : FaultOp} (h : Keeps s t) : Keeps s (enterTray i n o t) :=
  ite_keeps (modCash_keeps h) (ite_keeps (raiseHard_keeps (modCash_keeps h)) (modCash_keeps h))

theorem chargeReject_keeps {i n : Nat} {o : FaultOp} (h : Keeps s t) : Keeps s (chargeReject i n o t) :=
  enterTray_keeps (followCount_keeps (modCassette_keeps (ite_keeps (drawFree_keeps h) h)))

theorem clearMisses_keeps {i : Nat} (h : Keeps s t) : Keeps s (clearMisses i t) := modCassette_keeps h

theorem trayNoRoom_keeps {o : FaultOp} (h : Keeps s t) : Keeps s (trayNoRoom o t) :=
  raiseHard_keeps (modCash_keeps h)

theorem creditTray_keeps {n v : Nat} (h : Keeps s t) : Keeps s (creditTray n v t) := modCash_keeps h

theorem creditKnown_keeps {b : Bool} {e : EscrowEntry} (h : Keeps s t) : Keeps s (creditKnown b e t) :=
  ite_keeps (modShift_keeps (modCash_keeps h)) (modShift_keeps (modCash_keeps (modCash_keeps h)))

theorem creditUnknown_keeps (h : Keeps s t) : Keeps s (creditUnknown t) := modShift_keeps (modCash_keeps h)

/-! ### The capture unit (chapter 5) -/

/-- R95: only a bundle that the compartment can take is granted. -/
theorem grantRetract_keeps {r : RetractRequest} (hr : compartmentTakes t.capture r = true) (h : Keeps s t) :
    Keeps s (grantRetract r t) := by
  obtain ⟨hnotes, hroom⟩ : noteEstimate t.capture + r.count ≤ 200 ∧ t.capture.bundles.length < 32 := by
    simpa [compartmentTakes] using hr
  refine ⟨h.fault, h.queue, fun _ => ⟨?_, ?_⟩, h.ownEntry⟩
  · simpa [grantRetract] using hroom
  · simpa [grantRetract, noteEstimate] using hnotes

theorem grantEnvelope_keeps (h : Keeps s t) : Keeps s (grantEnvelope t) :=
  reshutter_keeps (modDrives_keeps (modCapture_keeps (fun _ => rfl) h))

theorem tryEnvelope_keeps (h : Keeps s t) : Keeps s (tryEnvelope t) :=
  ite_keeps (grantEnvelope_keeps h) h

theorem blockRetract_keeps {r : RetractRequest} (h : Keeps s t) : Keeps s (blockRetract r t) :=
  ite_keeps h (raiseHard_keeps (modCapture_keeps (fun _ => rfl) h))

theorem arbitrate_keeps (h : Keeps s t) : Keeps s (arbitrate t) := by
  unfold arbitrate
  dsimp only
  split
  · exact h
  · split
    · split
      · exact tryEnvelope_keeps h
      · split
        next htakes => exact grantRetract_keeps htakes h
        next => exact tryEnvelope_keeps (blockRetract_keeps h)
    · exact tryEnvelope_keeps h

theorem requestRetract_keeps {w : Requester} {k : BundleKind} {tag : Option Nat} {n v : Nat} (h : Keeps s t) :
    Keeps s (requestRetract w k tag n v t) :=
  arbitrate_keeps (modCapture_keeps (fun _ => rfl) h)

theorem jamPath_keeps (h : Keeps s t) : Keeps s (jamPath t) :=
  raiseHard_keeps (reshutter_keeps (modCapture_keeps (fun _ => rfl) h))

theorem captureCheck_keeps {x : CaptureSensors} (h : Keeps s t) : Keeps s (captureCheck x t) :=
  ite_keeps (jamPath_keeps h) (ite_keeps (reshutter_keeps (modCapture_keeps (fun _ => rfl) h)) h)

theorem wakingCheck_keeps {x : CaptureSensors} (h : Keeps s t) : Keeps s (wakingCheck x t) :=
  ite_keeps (jamPath_keeps (captureCheck_keeps h)) (captureCheck_keeps h)

/-! ### The measurement channels (chapter 2) -/

theorem takeSamples_keeps {ch : ChannelId} {l : List Nat} (h : Keeps s t) : Keeps s (takeSamples ch l t) :=
  modChan_keeps h

theorem takeOpenSamples_keeps {l : List Nat} (h : Keeps s t) : Keeps s (takeOpenSamples l t) :=
  takeSamples_keeps (takeSamples_keeps h)

theorem endGap_keeps {ch : ChannelId} {n sum : Nat} (h : Keeps s t) : Keeps s (endGap ch n sum t) :=
  ite_keeps h (ite_keeps (modChan_keeps h) (ite_keeps (raiseHard_keeps (modChan_keeps (raiseSoft_keeps
    (modChan_keeps h)))) (raiseSoft_keeps (modChan_keeps h))))

theorem closeWindow_keeps {ch : ChannelId} (h : Keeps s t) : Keeps s (closeWindow ch t) := by
  unfold closeWindow
  dsimp only
  split
  · split
    · exact endGap_keeps (modChan_keeps h)
    · exact modChan_keeps h
  · exact modChan_keeps h

theorem learnCassette_keeps {i : Nat} {r : NoteRecord} (h : Keeps s t) : Keeps s (learnCassette i r t) := by
  unfold learnCassette
  split
  · exact modCassette_keeps h
  · exact h

theorem learnDenom_keeps {r : NoteRecord} (h : Keeps s t) : Keeps s (learnDenom r t) := by
  unfold learnDenom
  split
  · exact modCash_keeps h
  · exact h

theorem startCapture_keeps {ch : ChannelId} (h : Keeps s t) : Keeps s (startCapture ch t) := by
  unfold startCapture
  cases ch <;> exact modDrives_keeps (modChan_keeps h)

theorem captureOk_keeps {ch : ChannelId} {l : List Nat} (h : Keeps s t) : Keeps s (captureOk ch l t) :=
  modChan_keeps h

theorem captureFailed_keeps {ch : ChannelId} (h : Keeps s t) : Keeps s (captureFailed ch t) :=
  raiseHard_keeps (modChan_keeps h)

/-! ### The deposit engine (chapter 4) -/

theorem shutThroat_keeps (h : Keeps s t) : Keeps s (shutThroat t) := modDrives_keeps h

theorem endDeposit_keeps {o : DepOutcome} (h : Keeps s t) : Keeps s (endDeposit o t) :=
  afterTransaction_keeps (shutThroat_keeps (modDep_keeps (noticeBound_keeps (releaseDeposit_keeps (modDep_keeps h)))))

theorem openClearance_keeps (h : Keeps s t) : Keeps s (openClearance t) := modDrives_keeps (modDep_keeps h)

theorem retractClearance_keeps (h : Keeps s t) : Keeps s (retractClearance t) :=
  requestRetract_keeps (modDrives_keeps (modDep_keeps h))

theorem secureOn_keeps (h : Keeps s t) : Keeps s (secureOn t) :=
  ite_keeps h (ite_keeps (modDrives_keeps (modDep_keeps h)) (ite_keeps (endDeposit_keeps h) h))

theorem depositSettled_keeps (h : Keeps s t) : Keeps s (depositSettled t) :=
  ite_keeps (secureOn_keeps h) (ite_keeps (endDeposit_keeps h) h)

theorem startStacking_keeps (h : Keeps s t) : Keeps s (startStacking t) :=
  depositSettled_keeps (modDrives_keeps (modDep_keeps h))

theorem decideAccept_keeps {hd : Header} {b : Bool} (h : Keeps s t) : Keeps s (decideAccept hd b t) := by
  unfold decideAccept
  dsimp only
  split
  · split
    · exact refuse_keeps h
    · exact replyAccepted_keeps (modDep_keeps (takeSlot_keeps h))
  · exact startStacking_keeps (replyAccepted_keeps (modDep_keeps h))

theorem acceptFailed_keeps {x : DepStatus} (h : Keeps s t) : Keeps s (acceptFailed x t) :=
  noticeBound_keeps (modDep_keeps h)

theorem stackNote_keeps (h : Keeps s t) : Keeps s (stackNote t) := by
  unfold stackNote
  split
  · exact h
  · dsimp only
    split
    · exact depositSettled_keeps (modDrives_keeps (modDep_keeps (modDep_keeps (creditKnown_keeps h))))
    · exact modDep_keeps (creditKnown_keeps h)

theorem startReturn_keeps (h : Keeps s t) : Keeps s (startReturn t) :=
  ite_keeps (endDeposit_keeps (modDrives_keeps (modDep_keeps h))) (modDrives_keeps (modDep_keeps (modDrives_keeps
    (modDep_keeps h))))

theorem presentReturn_keeps (h : Keeps s t) : Keeps s (presentReturn t) := modDrives_keeps (modDep_keeps h)

theorem retractReturn_keeps {o : Option DepOutcome} (h : Keeps s t) : Keeps s (retractReturn o t) :=
  requestRetract_keeps (modDrives_keeps (modDep_keeps h))

theorem depositBundle_keeps (h : Keeps s t) : Keeps s (depositBundle t) :=
  ite_keeps (endDeposit_keeps h) (ite_keeps (depositSettled_keeps (modDep_keeps h)) h)

theorem depositGranted_keeps (h : Keeps s t) : Keeps s (depositGranted t) := startCapture_keeps (modDep_keeps h)

theorem abandonCaptureQ_keeps (h : Keeps s t) : Keeps s (abandonCaptureQ t) :=
  closeWindow_keeps (shutThroat_keeps h)

theorem openThroat_keeps (h : Keeps s t) : Keeps s (openThroat t) := modDrives_keeps (modDep_keeps h)

theorem lateAccept_keeps {a : WaitingAccept} (h : Keeps s t) : Keeps s (lateAccept t a) := by
  unfold lateAccept
  split
  · exact decideAccept_keeps h
  · exact refuse_keeps h
  · exact refuse_keeps h

theorem refuseAccepts_keeps {r : Reason} {l : List WaitingAccept} (h : Keeps s t) : Keeps s (refuseAccepts r l t) :=
  foldl_keeps refuse_keeps l h

theorem enterHolding_keeps {c : Closing} (h : Keeps s t) : Keeps s (enterHolding c t) :=
  have hheld {f : Deposit → Deposit} := modDep_keeps (f := f) (closeWindow_keeps (ch := .q) (shutThroat_keeps h))
  foldl_keeps lateAccept_keeps _
    (ite_keeps (startReturn_keeps (ite_keeps (openClearance_keeps hheld) hheld))
      (ite_keeps (openClearance_keeps hheld) hheld))

theorem tryHolding_keeps (h : Keeps s t) : Keeps s (tryHolding t) := by
  unfold tryHolding
  split
  · split
    · exact h
    · exact enterHolding_keeps h
  · exact h

theorem closeThroat_keeps {f : Closing → Closing} (h : Keeps s t) : Keeps s (closeThroat f t) :=
  tryHolding_keeps (modDrives_keeps (modDep_keeps h))

theorem setClamp_keeps (h : Keeps s t) : Keeps s (setClamp t) :=
  ite_keeps (modDep_keeps h) (noticeBound_keeps (modDep_keeps (modDep_keeps h)))

theorem depositNote_keeps {r : NoteRecord} (h : Keeps s t) : Keeps s (depositNote r t) := by
  have hrefused (u : State) (hu : Keeps s u) := modDrives_keeps (f := fun d => { d with toEscrow := false })
    (modDep_keeps (f := fun d => { d with toPocket := d.toPocket + 1 }) hu)
  refine ite_keeps (modDrives_keeps (modDep_keeps ?_))
    (ite_keeps (setClamp_keeps (hrefused _ ?_)) (hrefused _ ?_)) <;>
    exact ite_keeps (learnDenom_keeps h) (raiseSoft_keeps h)

theorem stopIfLost_keeps (h : Keeps s t) : Keeps s (stopIfLost t) :=
  ite_keeps (closeThroat_keeps h) h

theorem pushEscrow_keeps (h : Keeps s t) : Keeps s (pushEscrow t) := by
  unfold pushEscrow
  split
  · exact h
  · refine ite_keeps (secureOn_keeps ?_) (tryHolding_keeps ?_) <;>
      exact ite_keeps (setClamp_keeps (modDep_keeps h)) (modDep_keeps h)

theorem refusedAtPocket_keeps (h : Keeps s t) : Keeps s (refusedAtPocket t) := by
  refine ite_keeps (closeThroat_keeps ?_) (tryHolding_keeps ?_) <;>
    exact modDrives_keeps (modDep_keeps (ite_keeps (drawFree_keeps h) h))


theorem jamThroat_keeps {o : FaultOp} (h : Keeps s t) : Keeps s (jamThroat o t) :=
  raiseHard_keeps (setThroatJam_keeps h)

theorem jamDeposit_keeps (h : Keeps s t) : Keeps s (jamDeposit t) :=
  have hheld {f : Deposit → Deposit} : Keeps s (modDep f (noticeDepJam (jamThroat .deposit (closeWindow .q
    (shutThroat t))))) :=
    modDep_keeps (noticeBound_keeps (jamThroat_keeps (closeWindow_keeps (shutThroat_keeps h))))
  refuseAccepts_keeps (ite_keeps (openClearance_keeps hheld) hheld)

theorem depositUnjammed_keeps (h : Keeps s t) : Keeps s (depositUnjammed t) :=
  ite_keeps (secureOn_keeps h) (ite_keeps (openClearance_keeps h) h)

theorem lockdownPocket_keeps (h : Keeps s t) : Keeps s (lockdownPocket t) := ite_keeps (retractClearance_keeps h) h

theorem lockdownFeeding_keeps (h : Keeps s t) : Keeps s (lockdownFeeding t) :=
  have hheld {f : Deposit → Deposit} := modDep_keeps (f := f) (closeWindow_keeps (ch := .q) (shutThroat_keeps h))
  refuseAccepts_keeps (ite_keeps (setThroatJam_keeps hheld) hheld)

theorem secureEscrow_keeps (h : Keeps s t) : Keeps s (secureEscrow t) := secureOn_keeps (modDep_keeps h)

theorem lockdownDeposit_keeps (h : Keeps s t) : Keeps s (lockdownDeposit t) := by
  unfold lockdownDeposit
  cases t.dep.st with
  | closed | returnRetracting => exact h
  | awaitCeiling => exact endDeposit_keeps (withdrawIntent_keeps h)
  | zeroCapture => exact endDeposit_keeps (abandonCaptureQ_keeps h)
  | feeding => exact secureEscrow_keeps (lockdownPocket_keeps (lockdownFeeding_keeps h))
  | holding | awaitApproval => exact secureEscrow_keeps (lockdownPocket_keeps h)
  | stacking => exact lockdownPocket_keeps h
  | returning => exact lockdownPocket_keeps (modDep_keeps h)
  | returnPresented => exact retractReturn_keeps h

theorem acceptUnderDuress_keeps (h : Keeps s t) : Keeps s (acceptUnderDuress t) := by
  unfold acceptUnderDuress
  split
  · exact startStacking_keeps (settleSlot_keeps h)
  · exact h

/-! ### The dispense engine (chapter 3) -/

theorem setShutter_keeps {b : Bool} (h : Keeps s t) : Keeps s (setShutter b t) := modDrives_keeps h

theorem endDispense_keeps {o : DispOutcome} (h : Keeps s t) : Keeps s (endDispense o t) :=
  afterTransaction_keeps (modDisp_keeps (noticeBound_keeps (releaseDispense_keeps (modDisp_keeps h))))

theorem strandDispense_keeps {o : DispOutcome} (h : Keeps s t) : Keeps s (strandDispense o t) :=
  noticeBound_keeps (modDisp_keeps h)

theorem jamDispenser_keeps {o : FaultOp} {l : Option Nat} (h : Keeps s t) : Keeps s (jamDispenser o l t) :=
  raiseHard_keeps (setDispenserJam_keeps h)

theorem stopPickTransport_keeps (h : Keeps s t) : Keeps s (stopPickTransport t) := modDrives_keeps h

theorem enterPurging_keeps {o : DispOutcome} (h : Keeps s t) : Keeps s (enterPurging o t) :=
  have hpurging {f : Dispense → Dispense} := modDisp_keeps (f := f) h
  ite_keeps (endDispense_keeps hpurging)
    (ite_keeps (modDisp_keeps hpurging) (strandDispense_keeps (trayNoRoom_keeps hpurging)))

theorem endPicking_keeps {o : DispOutcome} (h : Keeps s t) : Keeps s (endPicking o t) :=
  enterPurging_keeps (closeWindow_keeps (stopPickTransport_keeps h))

theorem startPick_keeps (h : Keeps s t) : Keeps s (startPick t) := by
  unfold startPick
  split
  · exact h
  · split
    · exact endPicking_keeps (modDisp_keeps h)
    · exact modDrives_keeps (modDisp_keeps h)

theorem pickBoundary_keeps (h : Keeps s t) : Keeps s (pickBoundary t) := by
  unfold pickBoundary
  split
  · exact endPicking_keeps h
  · exact ite_keeps (endPicking_keeps h) (startPick_keeps h)

theorem completePicking_keeps (h : Keeps s t) : Keeps s (completePicking t) :=
  have hclosed := closeWindow_keeps (ch := .p) (stopPickTransport_keeps h)
  ite_keeps (enterPurging_keeps hclosed) (modDisp_keeps hclosed)

theorem awaitDispenseCeiling_keeps (h : Keeps s t) : Keeps s (awaitDispenseCeiling t) :=
  requestIntent_keeps (modDisp_keeps h)

theorem dispenseGranted_keeps (h : Keeps s t) : Keeps s (dispenseGranted t) := startCapture_keeps (modDisp_keeps h)

theorem retractDispense_keeps {o : Option DispOutcome} (h : Keeps s t) : Keeps s (retractDispense o t) :=
  requestRetract_keeps (setShutter_keeps (modDisp_keeps h))

theorem dispenseRetracted_keeps (h : Keeps s t) : Keeps s (dispenseRetracted t) := endDispense_keeps h

theorem abandonCaptureP_keeps (h : Keeps s t) : Keeps s (abandonCaptureP t) :=
  closeWindow_keeps (stopPickTransport_keeps h)

theorem noteLeft_keeps (h : Keeps s t) : Keeps s (noteLeft t) :=
  ite_keeps (pickBoundary_keeps (modDisp_keeps h)) (modDisp_keeps h)

theorem rejectEnds_keeps {o : DispOutcome} (h : Keeps s t) : Keeps s (rejectEnds o t) :=
  ite_keeps (endPicking_keeps h) (modDisp_keeps h)

theorem dispenseNote_keeps {i : Nat} {r : NoteRecord} (h : Keeps s t) : Keeps s (dispenseNote i r t) :=
  have hrejected {f : Drives → Drives} {g : Dispense → Dispense} := modDrives_keeps (f := f) (modDisp_keeps (f := g)
    (raiseSoft_keeps (k := .noteReject) (o := .dispense) (p := some (.cassette i)) (n := none)
      (chargeReject_keeps (i := i) (n := rejectEstimate r.cls) (o := .dispense) h)))
  ite_keeps (modDrives_keeps (modDisp_keeps (learnCassette_keeps (chargeAccepted_keeps h))))
    (ite_keeps (rejectEnds_keeps hrejected) (ite_keeps (rejectEnds_keeps hrejected)
      (ite_keeps (modDisp_keeps hrejected) (noteLeft_keeps hrejected))))

theorem countIn_keeps (h : Keeps s t) : Keeps s (countIn t) := by
  unfold countIn
  exact modDisp_keeps (ite_keeps (drawFree_keeps h) h)

theorem replanUnderDuress_keeps (h : Keeps s t) : Keeps s (replanUnderDuress t) := by
  have hgo (d : Dispense) (u : State) (hu : Keeps s u) :
      Keeps s (if d.st == .awaitApproval then awaitDispenseCeiling u else u) :=
    ite_keeps (awaitDispenseCeiling_keeps hu) hu
  have hstop (d : Dispense) (o : DispOutcome) (u : State) (hu : Keeps s u) : Keeps s
      (endDispense o (match d.st with
        | .awaitCeiling => withdrawIntent u
        | .zeroCapture => abandonCaptureP u
        | _ => u)) := by
    refine endDispense_keeps ?_
    split
    · exact withdrawIntent_keeps hu
    · exact abandonCaptureP_keeps hu
    · exact hu
  have hfreed (d : Dispense) (u : State) (hu : Keeps s u) : Keeps s
      (match d.st, d.slot with
        | .awaitApproval, some x => modDisp (fun d => { d with slot := none }) (settleSlot x.slot .withdrawn u)
        | _, _ => u) := by
    split
    · exact modDisp_keeps (settleSlot_keeps hu)
    · exact hu
  unfold replanUnderDuress
  refine ite_keeps (ite_keeps (hgo _ _ ?_) (ite_keeps (hstop _ _ _ ?_) ?_)) h
  · exact hfreed _ _ (modDisp_keeps h)
  · exact hfreed _ _ (modDisp_keeps h)
  · split
    · exact hstop _ _ _ (hfreed _ _ (modDisp_keeps h))
    · refine hgo _ _ (ite_keeps (modPeer_keeps (fun _ => rfl) ?_) ?_) <;>
        exact ite_keeps (lowerDispense_keeps (modDisp_keeps (hfreed _ _ (modDisp_keeps h))))
          (modDisp_keeps (hfreed _ _ (modDisp_keeps h)))

theorem lockdownDispense_keeps (h : Keeps s t) : Keeps s (lockdownDispense t) := by
  unfold lockdownDispense
  refine ite_keeps h ?_
  cases t.disp.st with
  | idle | planning | purging | retracting => exact h
  | awaitApproval => exact endDispense_keeps h
  | awaitCeiling => exact endDispense_keeps (withdrawIntent_keeps h)
  | zeroCapture => exact endDispense_keeps (abandonCaptureP_keeps h)
  | picking => exact modDisp_keeps h
  | presenting =>
    cases t.disp.move with
    | present => exact modDisp_keeps h
    | reverse => exact h
    | none | purge => exact ite_keeps (retractDispense_keeps h) (enterPurging_keeps h)

/-! ### The calibration -/

theorem endCal_keeps {o : CalOutcome} (h : Keeps s t) : Keeps s (endCal o t) :=
  afterTransaction_keeps (modCal_keeps (noticeBound_keeps (modCal_keeps h)))

theorem endCalAs_keeps {o : CalOutcome} (h : Keeps s t) : Keeps s (endCalAs o t) := endCal_keeps h

theorem stopCal_keeps (h : Keeps s t) : Keeps s (stopCal t) := by
  unfold stopCal
  split
  · exact closeWindow_keeps (stopPickTransport_keeps h)
  · exact closeWindow_keeps (shutThroat_keeps h)

theorem setGain_keeps {r : NoteRecord} (h : Keeps s t) : Keeps s (setGain r t) := by
  unfold setGain
  refine ite_keeps (modCal_keeps h) ?_
  split
  · exact modCal_keeps h
  · exact modChan_keeps (modCal_keeps h)

theorem calNoteP_keeps {r : NoteRecord} (h : Keeps s t) : Keeps s (calNoteP r t) :=
  ite_keeps (modCal_keeps (modDrives_keeps (setGain_keeps (chargeReject_keeps h))))
    (endCalAs_keeps (stopCal_keeps (modDrives_keeps (setGain_keeps (chargeReject_keeps h)))))

theorem calToPocket_keeps (h : Keeps s t) : Keeps s (calToPocket t) :=
  modDrives_keeps (closeWindow_keeps (modCal_keeps h))

theorem calNoteQ_keeps {r : NoteRecord} (h : Keeps s t) : Keeps s (calNoteQ r t) :=
  ite_keeps (modCal_keeps (modDrives_keeps (setGain_keeps h))) (calToPocket_keeps (modDrives_keeps (setGain_keeps h)))

theorem calCaptured_keeps (h : Keeps s t) : Keeps s (calCaptured t) := by
  unfold calCaptured
  split <;> exact modDrives_keeps (modCal_keeps h)

theorem retractCal_keeps (h : Keeps s t) : Keeps s (retractCal t) :=
  requestRetract_keeps (modDrives_keeps (modCal_keeps h))

theorem stackCal_keeps {o : CalOutcome} (h : Keeps s t) : Keeps s (stackCal o t) :=
  modDrives_keeps (closeWindow_keeps (modCal_keeps h))

theorem lockdownCal_keeps (h : Keeps s t) : Keeps s (lockdownCal t) := by
  unfold lockdownCal
  cases t.cal.phase with
  | none | retracting | stacking => exact h
  | zeroCapture => exact endCal_keeps (stopCal_keeps h)
  | toPocket => exact stackCal_keeps h
  | inPocket => exact retractCal_keeps h
  | waiting =>
    cases t.cal.channel with
    | p => exact modCal_keeps h
    | q => exact endCal_keeps (stopCal_keeps h)
  | running =>
    cases t.cal.channel with
    | p => exact modCal_keeps h
    | q => exact stackCal_keeps h
  | tail =>
    cases t.cal.channel with
    | p => exact h
    | q => exact stackCal_keeps h

/-! ### Verdicts -/

theorem intentGranted_keeps {k : IntentKind} {a w : Nat} (h : Keeps s t) : Keeps s (intentGranted k a w t) := by
  have hgranted := grantHeld_keeps (k := k) (a := a) (modPeer_keeps (f := fun p => { p with request := none })
    (fun _ => rfl) h)
  unfold intentGranted
  cases k with
  | dispense => exact dispenseGranted_keeps (ite_keeps (lowerDispense_keeps hgranted) hgranted)
  | deposit => exact depositGranted_keeps hgranted

theorem decideIntent_keeps {a : Nat} (h : Keeps s t) : Keeps s (decideIntent a t) := by
  unfold decideIntent
  split
  · exact h
  · exact ite_keeps (intentGranted_keeps h) (refuseIntent_keeps h)

theorem orphanCompletion_keeps (h : Keeps s t) : Keeps s (orphanCompletion t) :=
  askPosition_keeps (modPeer_keeps (fun _ => rfl) h)

theorem noticeLoad_keeps {o : LoadOutcome} {w : LoadWait} {x : List Byte} (h : Keeps s t) :
    Keeps s (noticeLoad o w x t) :=
  noticeBound_keeps h

theorem endLoad_keeps {o : LoadOutcome} {w : LoadWait} (h : Keeps s t) : Keeps s (endLoad o w t) :=
  noticeLoad_keeps (modCash_keeps h)

theorem settleLoad_keeps {w : LoadWait} {how : Settling} (h : Keeps s t) : Keeps s (settleLoad w how t) := by
  cases how with
  | given => exact ite_keeps (noticeLoad_keeps (modCassette_keeps (modCash_keeps h))) (endLoad_keeps h)
  | denied | expired | withdrawn => exact endLoad_keeps h

theorem endExchange_keeps {o : ExchangeOutcome} {tag : Nat} {x : List Byte} (h : Keeps s t) :
    Keeps s (endExchange o tag x t) :=
  noticeBound_keeps (modCash_keeps h)

theorem settleExchange_keeps {tag : Nat} {how : Settling} (h : Keeps s t) : Keeps s (settleExchange tag how t) := by
  cases how with
  | given => exact ite_keeps (modCash_keeps (endExchange_keeps h)) (endExchange_keeps h)
  | denied | expired | withdrawn => exact endExchange_keeps h

theorem noticeBin_keeps {o : BinOutcome} {x : List Byte} (h : Keeps s t) : Keeps s (noticeBin o x t) :=
  noticeAll_keeps h

theorem endBin_keeps {o : BinOutcome} (h : Keeps s t) : Keeps s (endBin o t) :=
  noticeBin_keeps (reshutter_keeps (modCapture_keeps (fun _ => rfl) h))

theorem settleBin_keeps {how : Settling} (h : Keeps s t) : Keeps s (settleBin how t) := by
  cases how with
  | given => exact ite_keeps (modCapture_keeps (fun _ => rfl) h) (endBin_keeps h)
  | denied | expired | withdrawn => exact endBin_keeps h

theorem openBin_keeps (h : Keeps s t) : Keeps s (openBin t) :=
  noticeBin_keeps (modDrives_keeps (modCapture_keeps (fun _ => rfl) h))

theorem followDrive_keeps (h : Keeps s t) : Keeps s (followDrive t) := modAlarm_keeps h

theorem setLatchWait_keeps {l : Latch} {x : Option SlotRef} (h : Keeps s t) : Keeps s (setLatchWait l x t) := by
  unfold setLatchWait
  cases l <;> exact modAlarm_keeps h

theorem noticeClear_keeps {o : ClearOutcome} {l : Latch} {r a : Option Nat} (h : Keeps s t) :
    Keeps s (noticeClear o l r a t) :=
  noticeAll_keeps h

theorem clearLatch_keeps {l : Latch} (h : Keeps s t) : Keeps s (clearLatch l t) := by
  have hcleared {f : Alarm → Alarm} := askPosition_keeps (followDrive_keeps (modAlarm_keeps (f := f) h))
  cases l with
  | duress => exact hcleared
  | attack => exact ite_keeps (modLane_keeps (fun _ => rfl) hcleared) hcleared

theorem settleClear_keeps {l : Latch} {r : Option Nat} {how : Settling} (h : Keeps s t) :
    Keeps s (settleClear l r how t) := by
  have hfreed := setLatchWait_keeps (l := l) (x := none) h
  cases how with
  | given => exact ite_keeps (noticeClear_keeps hfreed) (noticeClear_keeps (clearLatch_keeps hfreed))
  | denied | expired | withdrawn => exact noticeClear_keeps hfreed

theorem settleDispense_keeps {how : Settling} (h : Keeps s t) : Keeps s (settleDispense how t) := by
  cases how with
  | given => exact awaitDispenseCeiling_keeps h
  | denied | expired => exact endDispense_keeps h
  | withdrawn => exact h

theorem settleAccept_keeps {how : Settling} (h : Keeps s t) : Keeps s (settleAccept how t) := by
  cases how with
  | given => exact startStacking_keeps h
  | denied | expired => exact acceptFailed_keeps h
  | withdrawn => exact h

theorem tellOwner_keeps {x : SlotRef} {k : OpKind} {r : Option Nat} {how : Settling} (h : Keeps s t) :
    Keeps s (tellOwner x k r how t) := by
  unfold tellOwner
  cases k with
  | dispense => exact ite_keeps (settleDispense_keeps h) h
  | depositAccept => exact ite_keeps (settleAccept_keeps h) h
  | cassetteLoad =>
    dsimp only
    split
    · exact settleLoad_keeps h
    · exact h
  | depositCassetteExchange =>
    dsimp only
    split
    · exact ite_keeps (settleExchange_keeps h) h
    · exact h
  | binService => exact ite_keeps (settleBin_keeps h) h
  | alarmClear => exact ite_keeps (settleClear_keeps h) (ite_keeps (settleClear_keeps h) h)
  | resetLane => exact modLane_keeps (fun _ => rfl) h

theorem settleAndTell_keeps {i : Nat} {how : Settling} (h : Keeps s t) : Keeps s (settleAndTell i how t) := by
  unfold settleAndTell
  dsimp only
  split
  · exact h
  · exact tellOwner_keeps (settleSlot_keeps h)

theorem bundleInPlace_keeps {r : RetractRequest} (h : Keeps s t) : Keeps s (bundleInPlace r t) := by
  have hremoved := modCapture_keeps (f := fun c => { c with retract := none }) (fun _ => rfl) h
  unfold bundleInPlace
  cases r.requester with
  | dispense => exact ite_keeps (dispenseRetracted_keeps hremoved) hremoved
  | deposit => exact depositBundle_keeps hremoved
  | calibration => exact ite_keeps (endCalAs_keeps hremoved) hremoved
  | recovery => exact modRecovery_keeps hremoved

/-! ### LOCKDOWN and the lane state requests -/

theorem lockdownSlot_keeps {i : Nat} (h : Keeps s t) : Keeps s (lockdownSlot t i) := by
  unfold lockdownSlot
  split
  · exact h
  · exact h
  · exact settleSlot_keeps h

theorem lockdownServices_keeps (h : Keeps s t) : Keeps s (lockdownServices t) := by
  have hloads := foldl_keeps (f := fun u w => endLoad .lockdown w u) endLoad_keeps t.cash.loads h
  unfold lockdownServices
  refine modLane_keeps (fun _ => rfl) (ite_keeps (endBin_keeps ?_) ?_) <;>
  · split
    · exact endExchange_keeps hloads
    · exact hloads

theorem lockdownCapture_keeps {b : State} (h : Keeps s t) : Keeps s (lockdownCapture b t) :=
  ite_keeps (arbitrate_keeps h) h

theorem lockdownPower_station (l : Lane) : (lockdownPower l).station = l.station := by
  unfold lockdownPower
  split <;> rfl

theorem enterLockdown_keeps (h : Keeps s t) : Keeps s (enterLockdown t) := by
  have hannounced := modDrives_keeps (f := fun d => { d with pocketShutter := false, throatGate := false })
    (setLaneState_keeps (st := .lockdown)
      (modLane_keeps (f := fun l => { lockdownPower l with pending := none }) lockdownPower_station h))
  unfold enterLockdown
  dsimp only
  exact lockdownCapture_keeps (lockdownCal_keeps (lockdownDeposit_keeps (lockdownDispense_keeps
    (lockdownServices_keeps (foldl_keeps lockdownSlot_keeps _ hannounced)))))

theorem attackReached_keeps (h : Keeps s t) : Keeps s (attackReached t) := by
  unfold attackReached
  split
  · exact modLane_keeps (fun _ => rfl) h
  · exact h
  · exact h
  · exact enterLockdown_keeps h

theorem latchEffects_keeps {l : Latch} (h : Keeps s t) : Keeps s (latchEffects l t) := by
  have hdriven := askPosition_keeps (followDrive_keeps h)
  cases l with
  | duress => exact acceptUnderDuress_keeps (replanUnderDuress_keeps hdriven)
  | attack => exact attackReached_keeps hdriven

theorem leaveLockdown_keeps (h : Keeps s t) : Keeps s (leaveLockdown t) :=
  have hunmarked := modLane_keeps (f := fun l => { l with release := false }) (fun _ => rfl) h
  ite_keeps (setLaneState_keeps (modLane_keeps (fun _ => rfl) hunmarked))
    (ite_keeps (setLaneState_keeps (modLane_keeps (fun _ => rfl) hunmarked)) (setLaneState_keeps hunmarked))

theorem enterNight_keeps (h : Keeps s t) : Keeps s (enterNight t) :=
  setLaneState_keeps (modChan_keeps (modChan_keeps
    (modLane_keeps (fun _ => rfl) (closeWindow_keeps (closeWindow_keeps h)))))

theorem applyLaneRequest_keeps {st : LaneState} (h : Keeps s t) : Keeps s (applyLaneRequest st t) := by
  have hlane {f : Lane → Lane} (hf : ∀ l, (f l).station = l.station) := modLane_keeps hf h
  unfold applyLaneRequest
  cases laneEffect st t with
  | pending => exact hlane fun _ => rfl
  | target => exact ite_keeps (setLaneState_keeps (hlane fun _ => rfl)) (hlane fun _ => rfl)
  | entered =>
    exact ite_keeps (enterNight_keeps h)
      (ite_keeps (hlane fun _ => rfl) (setLaneState_keeps (hlane fun _ => rfl)))

theorem applyPending_keeps (h : Keeps s t) : Keeps s (applyPending t) := by
  unfold applyPending
  split
  · have htaken := modLane_keeps (f := fun l => { l with pending := none }) (fun _ => rfl) h
    exact ite_keeps htaken (applyLaneRequest_keeps htaken)
  · exact h

/-! ### Resets and the start -/

theorem settleCassette_keeps {p i : Nat} (h : Keeps s t) : Keeps s (settleCassette p i t) := by
  unfold settleCassette
  refine ite_keeps (raiseHard_keeps (modCassette_keeps ?_)) (followCount_keeps ?_) <;>
    exact ite_keeps (removeCassette_keeps (modCassette_keeps h))
      (ite_keeps (modCassette_keeps (modCassette_keeps h)) (modCassette_keeps h))

theorem settleCassettes_keeps {b : Bool} {l : List Nat} (h : Keeps s t) : Keeps s (settleCassettes b l t) :=
  foldl_keeps (fun h => ite_keeps (modCassette_keeps h) (settleCassette_keeps h)) _ h

/-- R116: a start gives every station an EMPTY entry or, but for the lane's own, an AWAITED one. -/
theorem startPeers_own (c : Configuration) (n : Nat) : ((startPeers c n).getD n {}).status = .empty := by
  by_cases hn : n < 31
  · simp [startPeers, List.getD_eq_getElem?_getD, hn]
  · simp [startPeers, List.getD_eq_getElem?_getD, hn]

theorem takeConfiguration_keeps {b : Bool} {x : ImageItems} (h : Keeps s t) : Keeps s (takeConfiguration b x t) := by
  unfold takeConfiguration
  refine modLane_keeps (fun _ => rfl) (settleCassettes_keeps (modCash_keeps ?_))
  have hclamped : Keeps s (if x.clamped then raiseSoft .configClamped .none none none t else t) :=
    ite_keeps (raiseSoft_keeps h) h
  exact ⟨hclamped.fault, hclamped.queue, hclamped.compartment, fun _ => startPeers_own _ _⟩

/-- R193: a reset with retention intact keeps the fault record and the bundles, and empties the queue and the peer
view. -/
theorem keepRetained_keeps (h : Keeps s t) : Keeps s (keepRetained t) :=
  ⟨h.fault, fun _ => Nat.zero_le _, h.compartment, fun _ => rfl⟩

theorem loseRetained_keeps : Keeps s (loseRetained t) :=
  ⟨fun _ => by simp [loseRetained, FaultRecordSound], fun _ => Nat.zero_le _,
    fun _ => by simp [loseRetained, CompartmentBounded, noteEstimate], fun _ => rfl⟩

/-- R116: with every entry EMPTY the lane's own is, whatever the straps read. -/
theorem setStation_keeps {f : Lane → Lane} (ht : t.peer.entries = List.replicate 31 {}) (h : Keeps s t) :
    Keeps s (modLane f t) :=
  ⟨h.fault, h.queue, h.compartment, fun _ => by
    simp only [OwnEntryEmpty, peerEntry, modLane_peer, ht, List.getD_eq_getElem?_getD, List.getElem?_replicate]
    split <;> rfl⟩

theorem restart_keeps {k : ResetKind} (h : Keeps s t) : Keeps s (restart k t) := by
  have hstarted (f : Lane → Lane) : Keeps s
      (modLane f (if !t.board.retentionOk then loseRetained t else keepRetained t)) := by
    split
    · exact setStation_keeps rfl loseRetained_keeps
    · exact setStation_keeps rfl (keepRetained_keeps h)
  have hraised (f : Lane → Lane) : Keeps s
      (if !t.board.retentionOk then
        raiseHard .retentionLost .none none none
          (modLane f (if !t.board.retentionOk then loseRetained t else keepRetained t))
      else modLane f (if !t.board.retentionOk then loseRetained t else keepRetained t)) :=
    ite_keeps (raiseHard_keeps (hstarted f)) (hstarted f)
  unfold restart
  dsimp only
  split
  · exact setLaneState_keeps (hraised _)
  · exact takeConfiguration_keeps (hraised _)

theorem tryRecoveryPurge_keeps (h : Keeps s t) : Keeps s (tryRecoveryPurge t) :=
  ite_keeps (modRecovery_keeps h) (modRecovery_keeps (trayNoRoom_keeps h))

theorem recoveryRetract_keeps {b : Bool} (h : Keeps s t) : Keeps s (recoveryRetract b t) :=
  ite_keeps (requestRetract_keeps (modRecovery_keeps h)) (requestRetract_keeps (modRecovery_keeps h))

theorem runRecoveryStacking_keeps {b : Bool} (h : Keeps s t) : Keeps s (runRecoveryStacking b t) :=
  modDrives_keeps (modRecovery_keeps h)

theorem startRecovery_keeps {x : StartSensors} (h : Keeps s t) : Keeps s (startRecovery x t) := by
  unfold startRecovery
  refine ite_keeps (runRecoveryStacking_keeps ?_) ?_ <;>
  · refine ite_keeps (recoveryRetract_keeps ?_) ?_ <;>
      exact ite_keeps (tryRecoveryPurge_keeps (modRecovery_keeps h)) (modRecovery_keeps h)

theorem endRecovery_keeps (h : Keeps s t) : Keeps s (endRecovery t) :=
  have hfell := heldFell_keeps (setHeld_keeps (x := {}) (modRecovery_keeps (f := fun _ => {}) h))
  ite_keeps (setLaneState_keeps hfell) hfell

theorem leaveStarting_keeps {x : StartSensors} (h : Keeps s t) : Keeps s (leaveStarting x t) :=
  have hchecked := captureCheck_keeps (x := x.capture) (modLane_keeps (f := fun l => { l with power := .on })
    (fun _ => rfl) h)
  ite_keeps (startRecovery_keeps (setLaneState_keeps (modPeer_keeps (fun _ => rfl) hchecked)))
    (setLaneState_keeps (setHeld_keeps hchecked))

theorem finish_keeps (h : Keeps s t) : Keeps s (finish t) :=
  ite_keeps (restart_keeps (drawFree_keeps (setBoard_keeps h))) h

theorem settleDue_keeps (h : Keeps s t) : Keeps s (settleDue t) := by
  unfold settleDue
  refine ite_keeps (applyPending_keeps ?_) ?_ <;>
  · refine ite_keeps (leaveLockdown_keeps ?_) ?_ <;>
    · refine ite_keeps (endRecovery_keeps ?_) ?_ <;> exact ite_keeps (openBin_keeps h) h

/-! ### The alarm loops -/

theorem modZone_keeps {i : Nat} {f : Zone → Zone} (h : Keeps s t) : Keeps s (modZone i f t) := modAlarm_keeps h

theorem vehicleDeparts_keeps {b : Bool} (h : Keeps s t) : Keeps s (vehicleDeparts b t) :=
  ite_keeps (modDisp_keeps (modDep_keeps (modCal_keeps h))) h

theorem setLatch_keeps {l : Latch} (h : Keeps s t) : Keeps s (setLatch l t) := by
  unfold setLatch
  cases l <;> exact modAlarm_keeps h

theorem reportZone_keeps {i : Nat} {z : Zone} {n : ZoneState} (h : Keeps s t) : Keeps s (reportZone i z n t) :=
  ite_keeps (ite_keeps (noticeAll_keeps h) (report_keeps h)) h

theorem changeZone_keeps {i : Nat} {n : ZoneState} {b : Bool} (h : Keeps s t) : Keeps s (changeZone i n b t) := by
  unfold changeZone
  dsimp only
  cases latchFor t.alarm (zoneAt t i).type n with
  | none =>
    exact ite_keeps (vehicleDeparts_keeps (reportZone_keeps (modZone_keeps h))) (reportZone_keeps (modZone_keeps h))
  | some l =>
    have heffects := latchEffects_keeps (l := l) (reportZone_keeps (i := i) (z := zoneAt t i) (n := n)
      (setLatch_keeps (l := l) (modZone_keeps (i := i) (f := fun z => { z with state := n, changed := true }) h)))
    exact ite_keeps (vehicleDeparts_keeps heffects) heffects

theorem changeIfDue_keeps {i : Nat} {b : Bool} (h : Keeps s t) : Keeps s (changeIfDue i b t) := by
  unfold changeIfDue
  refine ite_keeps ?_ h
  split
  · exact changeZone_keeps h
  · exact h

theorem clearTrouble_keeps {i : Nat} (h : Keeps s t) : Keeps s (clearTrouble i t) := ite_keeps (modZone_keeps h) h

theorem restoreZone_keeps {i : Nat} {b : Bool} (h : Keeps s t) : Keeps s (restoreZone i b t) :=
  ite_keeps (changeIfDue_keeps (noticeAll_keeps (modZone_keeps h))) h

theorem withZone_keeps {z : Nat} {f : Nat → State → State} (hf : ∀ i, Keeps s (f i t)) (h : Keeps s t) :
    Keeps s (withZone z f t) :=
  ite_keeps (hf _) h

theorem recogniseLine_keeps (h : Keeps s t) : Keeps s (recogniseLine t) := ite_keeps (modAlarm_keeps h) h

theorem releaseLine_keeps (h : Keeps s t) : Keeps s (releaseLine t) := ite_keeps (modAlarm_keeps h) h

theorem settleZone_keeps {i : Nat} (h : Keeps s t) : Keeps s (settleZone t i) :=
  changeIfDue_keeps (restoreZone_keeps (clearTrouble_keeps h))

theorem scanAt_keeps {l : List Nat} {i : Nat} (h : Keeps s t) : Keeps s (scanAt l t i) :=
  ite_keeps (noticeAll_keeps (modZone_keeps h)) (modZone_keeps h)

theorem scan_keeps {l raws : List Nat} {b : Bool} (h : Keeps s t) : Keeps s (scan l b raws t) :=
  ite_keeps h (modAlarm_keeps (foldl_keeps scanAt_keeps _ (releaseLine_keeps (recogniseLine_keeps
    (foldl_keeps settleZone_keeps _ (takeOpenSamples_keeps h))))))

/-! ### The wall bus -/

theorem unexpectedAnswer_keeps {n : Nat} (h : Keeps s t) : Keeps s (unexpectedAnswer n t) := raiseSoft_keeps h

theorem judgeAnswer_keeps {src slot ask v k a : Nat} (h : Keeps s t) : Keeps s (judgeAnswer src slot ask v k a t) := by
  unfold judgeAnswer
  refine ite_keeps (unexpectedAnswer_keeps h) (ite_keeps (unexpectedAnswer_keeps h) ?_)
  split
  · exact unexpectedAnswer_keeps h
  · exact ite_keeps (unexpectedAnswer_keeps h) (ite_keeps (raiseSoft_keeps h) (settleAndTell_keeps h))

theorem takeAnswer_keeps {src slot ask v k a : Nat} (h : Keeps s t) : Keeps s (takeAnswer src slot ask v k a t) :=
  ite_keeps (applyFrame_keeps h) (judgeAnswer_keeps (applyFrame_keeps h))

theorem dropOnMedium_keeps (h : Keeps s t) : Keeps s (dropOnMedium t) := modBus_keeps List.length_eraseP_le h

theorem nextSegment_keeps (h : Keeps s t) : Keeps s (nextSegment t) := by
  unfold nextSegment
  split
  · exact h
  · split
    · exact modBus_keeps le_rfl h
    · exact enqueue_keeps (modBus_keeps le_rfl h)

theorem tellCompleted_keeps {e : TxEntry} (h : Keeps s t) : Keeps s (tellCompleted e t) := by
  unfold tellCompleted
  cases e.owner with
  | intent => exact ite_keeps (orphanCompletion_keeps h) (decideIntent_keeps h)
  | querySegment => exact nextSegment_keeps h
  | resetNotice => exact modLane_keeps (fun _ => rfl) h
  | nobody | position | ask => exact h

theorem completeOwn_keeps {p : TxEntry → Bool} (h : Keeps s t) : Keeps s (completeOwn p t) := by
  unfold completeOwn
  split
  · exact ite_keeps (tellCompleted_keeps (dropOnMedium_keeps h)) h
  · exact h

theorem finishWith_keeps {b : Board} (h : Keeps s t) : Keeps s (finishWith b t) :=
  ite_keeps (restart_keeps (setBoard_keeps h)) h

theorem requeue_keeps {f : TxEntry → TxEntry} (h : Keeps s t) : Keeps s (requeue f t) :=
  modBus_keeps ((onePosition_sublist _).length_le.trans_eq (List.length_map _)) h

theorem complainOwn_keeps (h : Keeps s t) : Keeps s (complainOwn t) := by
  unfold complainOwn
  split
  · exact h
  · exact ite_keeps (frameLost_keeps (raiseSoft_keeps (dropOnMedium_keeps h)))
      (ite_keeps (modPeer_keeps (fun _ => rfl) (dropOnMedium_keeps h)) (requeue_keeps h))

theorem loseArbitration_keeps (h : Keeps s t) : Keeps s (loseArbitration t) := by
  unfold loseArbitration
  split
  · exact h
  · exact ite_keeps (modPeer_keeps (fun _ => rfl) (dropOnMedium_keeps h)) (requeue_keeps h)

theorem length_modFirst {α : Type} (p : α → Bool) (f : α → α) (l : List α) :
    (modFirst p f l).length = l.length := by
  induction l with
  | nil => rfl
  | cons a l ih =>
    unfold modFirst
    split
    · rfl
    · simp [ih]

theorem offerFrame_keeps (h : Keeps s t) : Keeps s (offerFrame t) :=
  ite_keeps h (modBus_keeps (length_modFirst ..).le h)

/-! ### The capture path -/

theorem modEnvelope_keeps {f : EnvelopeMove → EnvelopeMove} (h : Keeps s t) : Keeps s (modEnvelope f t) :=
  modCapture_keeps (fun _ => rfl) h

theorem envelopeArrives_keeps (h : Keeps s t) : Keeps s (envelopeArrives t) :=
  ite_keeps (arbitrate_keeps (reshutter_keeps (modCapture_keeps (fun _ => rfl) h))) h

theorem refuseEnvelope_keeps {w : EnvelopeRefusal} {mm : Nat} (h : Keeps s t) : Keeps s (refuseEnvelope w mm t) :=
  modEnvelope_keeps h

theorem measureEnvelope_keeps {mm : Nat} (h : Keeps s t) : Keeps s (measureEnvelope mm t) :=
  ite_keeps (ite_keeps (modEnvelope_keeps h) (refuseEnvelope_keeps h)) h

theorem tripThickness_keeps {mm : Nat} (h : Keeps s t) : Keeps s (tripThickness mm t) :=
  ite_keeps (refuseEnvelope_keeps h) h

theorem startImprint_keeps (h : Keeps s t) : Keeps s (startImprint t) :=
  ite_keeps (modEnvelope_keeps (modCapture_keeps (fun _ => rfl) h)) h

theorem dropEnvelope_keeps {m : EnvelopeMove} {n : Nat} (h : Keeps s t) : Keeps s (dropEnvelope m n t) := by
  unfold dropEnvelope
  exact reshutter_keeps (arbitrate_keeps (noticeAll_keeps (modShift_keeps (modCapture_keeps (fun _ => rfl) h))))

theorem envelopeDrops_keeps (h : Keeps s t) : Keeps s (envelopeDrops t) := by
  unfold envelopeDrops
  split
  · split
    · exact dropEnvelope_keeps h
    · exact h
  · exact h

theorem envelopeReversed_keeps (h : Keeps s t) : Keeps s (envelopeReversed t) := by
  unfold envelopeReversed
  split
  · dsimp only
    split
    · exact reshutter_keeps (arbitrate_keeps (noticeAll_keeps (modCapture_keeps (fun _ => rfl) h)))
    · exact h
  · exact h

/-! ### The jams and the end of WAKING -/

theorem stallP_keeps (h : Keeps s t) : Keeps s (stallP t) :=
  ite_keeps (endCal_keeps (jamDispenser_keeps (stopCal_keeps h)))
    (ite_keeps (endDispense_keeps (jamDispenser_keeps (abandonCaptureP_keeps h))) h)

theorem stallQ_keeps (h : Keeps s t) : Keeps s (stallQ t) :=
  ite_keeps (endCal_keeps (jamThroat_keeps (stopCal_keeps h)))
    (ite_keeps (endDeposit_keeps (jamThroat_keeps (abandonCaptureQ_keeps h))) h)

theorem jamPick_keeps {l : List Nat} (h : Keeps s t) : Keeps s (jamPick l t) :=
  have htaken := takeSamples_keeps (ch := .p) (l := l) h
  ite_keeps (enterPurging_keeps (jamDispenser_keeps (closeWindow_keeps (stopPickTransport_keeps htaken))))
    (ite_keeps (endCal_keeps (jamDispenser_keeps (stopCal_keeps htaken))) h)

theorem jamStacker_keeps {o : DispOutcome} (h : Keeps s t) : Keeps s (jamStacker o t) :=
  strandDispense_keeps (jamDispenser_keeps h)

theorem jamThroatNote_keeps {l : List Nat} (h : Keeps s t) : Keeps s (jamThroatNote l t) :=
  have htaken := takeSamples_keeps (ch := .q) (l := l) h
  ite_keeps (endCal_keeps (jamThroat_keeps (stopCal_keeps htaken))) (ite_keeps (jamDeposit_keeps htaken) h)

theorem jamCapture_keeps {o : FaultOp} (h : Keeps s t) : Keeps s (jamCapture o t) :=
  raiseHard_keeps (reshutter_keeps (modCapture_keeps (fun _ => rfl) h))

theorem jamEnvelope_keeps {mm : Nat} (h : Keeps s t) : Keeps s (jamEnvelope mm t) := by
  unfold jamEnvelope
  split
  · exact noticeAll_keeps (jamCapture_keeps h)
  · exact h

theorem endWaking_keeps {c : CaptureSensors} (h : Keeps s t) : Keeps s (endWaking c t) :=
  have hchecked := wakingCheck_keeps (x := c) (modLane_keeps (f := fun l => { l with power := .on }) (fun _ => rfl) h)
  ite_keeps (setLaneState_keeps (modLane_keeps (fun _ => rfl) hchecked)) h

/-! ### Commands -/

theorem judgeCommand_keeps {hd : Header} {k : CmdKind} {b : Bool} {check : State → Option Reason}
    {effect : State → State} (he : ∀ {u}, Keeps s u → Keeps s (effect u)) (h : Keeps s t) :
    Keeps s (judgeCommand hd k b check effect t) := by
  unfold judgeCommand
  split
  · exact modBus_keeps le_rfl (enqueue_keeps h)
  · refine ite_keeps (refuse_keeps h) ?_
    unfold judge
    split
    · exact refuse_keeps h
    · exact he h

theorem takeCommand_keeps {hd : Header} {k : CmdKind} {b : Bool} {check : State → Option Reason}
    {effect : State → State} (he : ∀ {u}, Keeps s u → Keeps s (effect u)) (h : Keeps s t) :
    Keeps s (takeCommand hd k b check effect t) :=
  ite_keeps h (ite_keeps (foundDuplicate_keeps h) (judgeCommand_keeps he (applyFrame_keeps (settleDue_keeps h))))

theorem requestLane_keeps {hd : Header} {k : CmdKind} {st : LaneState} (h : Keeps s t) :
    Keeps s (requestLane hd k st t) :=
  applyLaneRequest_keeps (replyDone_keeps h)

theorem resumeRecovery_keeps {a b : Bool} (h : Keeps s t) : Keeps s (resumeRecovery a b t) := by
  unfold resumeRecovery
  refine ite_keeps (runRecoveryStacking_keeps ?_) ?_ <;>
    exact ite_keeps (ite_keeps (tryRecoveryPurge_keeps h) (modRecovery_keeps h)) h

theorem clearCaptureJam_keeps (h : Keeps s t) : Keeps s (clearCaptureJam t) := by
  have hclear := modCapture_keeps (f := fun c => { c with jam := false }) (fun _ => rfl) h
  unfold clearCaptureJam
  refine ite_keeps (reshutter_keeps (arbitrate_keeps ?_)) h
  split
  · exact ite_keeps (bundleInPlace_keeps hclear) hclear
  · exact hclear

theorem clearJams_keeps {a b : Bool} (h : Keeps s t) : Keeps s (clearJams a b t) :=
  have hclear : Keeps s { t with dispenserJam := false, throatJam := false } :=
    ⟨h.fault, h.queue, h.compartment, h.ownEntry⟩
  clearCaptureJam_keeps (resumeRecovery_keeps (ite_keeps (depositUnjammed_keeps hclear) hclear))

theorem clearFaults_keeps {hd : Header} (h : Keeps s t) : Keeps s (clearFaults hd t) :=
  replyDone_keeps ⟨fun _ => by simp [FaultRecordSound], h.queue, h.compartment, h.ownEntry⟩

theorem clearCause_keeps {hd : Header} (h : Keeps s t) : Keeps s (clearCause hd t) :=
  modLane_keeps (fun _ => rfl) (replyDone_keeps h)

theorem askBinService_keeps {hd : Header} (h : Keeps s t) : Keeps s (askBinService hd t) := by
  unfold askBinService
  split
  · exact h
  · exact replyAccepted_keeps (takeSlot_keeps (reshutter_keeps (modCapture_keeps (fun _ => rfl) h)))

/-- R110: the close of a bin service empties the compartment. -/
theorem closeBin_keeps (h : Keeps s t) : Keeps s (closeBin t) := by
  have hemptied (u : State) (hu : Keeps s u) : Keeps s
      (modCapture (fun c => { c with journal := [], bundles := [], bin := .none, transport := .idle }) u) :=
    ⟨hu.fault, hu.queue, fun _ => by simp [CompartmentBounded, noteEstimate], hu.ownEntry⟩
  unfold closeBin
  exact reshutter_keeps (arbitrate_keeps (modDrives_keeps (hemptied _ (noticeAll_keeps h))))

theorem askAlarmClear_keeps {hd : Header} {l : Nat} (h : Keeps s t) : Keeps s (askAlarmClear hd l t) := by
  unfold askAlarmClear
  split
  · exact replyAccepted_keeps (takeSlot_keeps (setLatchWait_keeps h))
  · exact h

theorem closeShift_keeps {src : Nat} (h : Keeps s t) : Keeps s (closeShift src t) := by
  have hwritten (c : Option ClosedShift) : Keeps s { t with fault := { t.fault with closed := c } } :=
    ⟨h.fault, h.queue, h.compartment, h.ownEntry⟩
  unfold closeShift
  exact modShift_keeps (noticeAll_keeps (hwritten _))

theorem askReset_keeps {hd : Header} (h : Keeps s t) : Keeps s (askReset hd t) := by
  unfold askReset
  split
  · exact h
  · exact replyAccepted_keeps (takeSlot_keeps (modLane_keeps (fun _ => rfl) h))

theorem admitDispense_keeps {hd : Header} {req : Request} {b : Bool} {p : List PlanPair} {v : Nat} (h : Keeps s t) :
    Keeps s (admitDispense hd req b p v t) := by
  unfold admitDispense
  refine ite_keeps (refuse_keeps h) (ite_keeps ?_ (awaitDispenseCeiling_keeps (replyAccepted_keeps (modDisp_keeps h))))
  split
  · exact refuse_keeps h
  · exact replyAccepted_keeps (takeSlot_keeps (modDisp_keeps h))

theorem planDispense_keeps {hd : Header} {req : Request} (h : Keeps s t) : Keeps s (planDispense hd req t) := by
  unfold planDispense
  refine ite_keeps (endDispense_keeps (replyAccepted_keeps (modDisp_keeps h))) ?_
  split
  · exact refuse_keeps h
  · exact admitDispense_keeps h

theorem cancelDispense_keeps (h : Keeps s t) : Keeps s (cancelDispense t) := by
  unfold cancelDispense
  cases t.disp.st with
  | awaitApproval =>
    refine endDispense_keeps ?_
    split
    · exact modDisp_keeps (settleSlot_keeps h)
    · exact h
  | awaitCeiling => exact endDispense_keeps (withdrawIntent_keeps h)
  | zeroCapture => exact endDispense_keeps (abandonCaptureP_keeps h)
  | picking => exact modDisp_keeps h
  | idle | planning | purging | presenting | retracting => exact h

theorem openDeposit_keeps {hd : Header} (h : Keeps s t) : Keeps s (openDeposit hd t) :=
  requestIntent_keeps (replyAccepted_keeps (modDep_keeps h))

theorem closeThroatCommand_keeps {hd : Header} {l : List Nat} (h : Keeps s t) :
    Keeps s (closeThroatCommand hd l t) :=
  closeThroat_keeps (takeSamples_keeps (replyDone_keeps h))

theorem acceptDeposit_keeps {hd : Header} {l : List Nat} (h : Keeps s t) : Keeps s (acceptDeposit hd l t) :=
  ite_keeps (closeThroat_keeps (takeSamples_keeps h)) (decideAccept_keeps h)

theorem returnDeposit_keeps {hd : Header} {l : List Nat} (h : Keeps s t) : Keeps s (returnDeposit hd l t) := by
  unfold returnDeposit
  cases t.dep.st with
  | awaitCeiling => exact endDeposit_keeps (withdrawIntent_keeps (replyDone_keeps h))
  | zeroCapture => exact endDeposit_keeps (abandonCaptureQ_keeps (replyDone_keeps h))
  | feeding => exact closeThroat_keeps (takeSamples_keeps (replyAccepted_keeps h))
  | awaitApproval =>
    refine startReturn_keeps ?_
    split
    · exact settleSlot_keeps (replyAccepted_keeps h)
    · exact replyAccepted_keeps h
  | holding => exact startReturn_keeps (replyAccepted_keeps h)
  | closed | stacking | returning | returnPresented | returnRetracting => exact h

theorem startCalibration_keeps {hd : Header} {c k i : Nat} (h : Keeps s t) : Keeps s (startCalibration hd c k i t) :=
  startCapture_keeps (modCal_keeps (replyAccepted_keeps h))

theorem askLoad_keeps {hd : Header} {i d n : Nat} (h : Keeps s t) : Keeps s (askLoad hd i d n t) := by
  unfold askLoad
  split
  · exact h
  · exact replyAccepted_keeps (takeSlot_keeps (modCash_keeps h))

theorem unloadCassette_keeps {i : Nat} (h : Keeps s t) : Keeps s (unloadCassette i t) :=
  modCassette_keeps (noticeAll_keeps h)

theorem clearPurge_keeps (h : Keeps s t) : Keeps s (clearPurge t) :=
  have hcleared := modCash_keeps (f := fun u => { u with purge := {} })
    (noticeAll_keeps (k := .purgeCleared) (content := purgeBytes t.cash.purge) h)
  ite_keeps (tryRecoveryPurge_keeps hcleared) hcleared

theorem askExchange_keeps {hd : Header} (h : Keeps s t) : Keeps s (askExchange hd t) := by
  unfold askExchange
  split
  · exact h
  · exact replyAccepted_keeps (takeSlot_keeps (modCash_keeps h))

theorem bindConsole_keeps {hd : Header} (h : Keeps s t) : Keeps s (bindConsole hd t) :=
  ite_keeps h (modApproval_keeps h)

theorem startSeries_keeps {hd : Header} {x : List Byte} (h : Keeps s t) : Keeps s (startSeries hd x t) := by
  unfold startSeries
  split
  · exact h
  · exact enqueue_keeps (modBus_keeps le_rfl h)

theorem clearZones_keeps {hd : Header} (h : Keeps s t) : Keeps s (clearZones hd t) :=
  modAlarm_keeps (replyDone_keeps h)

/-! ### Presence switches and notes -/

theorem setPresence_keeps {i : Nat} {b : Bool} (h : Keeps s t) : Keeps s (setPresence i b t) := setBoard_keeps h

theorem openSwitch_keeps {i : Nat} (h : Keeps s t) : Keeps s (openSwitch i t) :=
  ite_keeps (ite_keeps (setPresence_keeps h) (removeCassette_keeps (setPresence_keeps h))) h

theorem closeSwitch_keeps {i : Nat} (h : Keeps s t) : Keeps s (closeSwitch i t) :=
  ite_keeps (ite_keeps (modCassette_keeps (setPresence_keeps h)) (setPresence_keeps h)) h

theorem decideCapture_keeps {ch : ChannelId} {l : List Nat} (h : Keeps s t) : Keeps s (decideCapture ch l t) := by
  unfold decideCapture
  refine ite_keeps ?_ h
  split
  · exact ite_keeps (calCaptured_keeps (captureOk_keeps h))
      (ite_keeps (startPick_keeps (modDisp_keeps (captureOk_keeps h))) (captureOk_keeps h))
  · exact ite_keeps (calCaptured_keeps (captureOk_keeps h))
      (ite_keeps (openThroat_keeps (captureOk_keeps h)) (captureOk_keeps h))
  · exact ite_keeps (endCal_keeps (stopCal_keeps (captureFailed_keeps h)))
      (ite_keeps (endDispense_keeps (stopPickTransport_keeps (captureFailed_keeps h))) (captureFailed_keeps h))
  · exact ite_keeps (endCal_keeps (stopCal_keeps (captureFailed_keeps h)))
      (ite_keeps (endDeposit_keeps (shutThroat_keeps (captureFailed_keeps h))) (captureFailed_keeps h))

theorem runStarted_keeps {ch : ChannelId} (h : Keeps s t) : Keeps s (runStarted ch t) := by
  cases ch with
  | p => exact ite_keeps (clearMisses_keeps (modCal_keeps h)) (ite_keeps (clearMisses_keeps (modDisp_keeps h)) h)
  | q => exact ite_keeps (modCal_keeps h) (ite_keeps (modDep_keeps h) h)

theorem startRun_keeps {ch : ChannelId} {l : List Nat} {n : Nat} (h : Keeps s t) : Keeps s (startRun ch l n t) := by
  unfold startRun
  dsimp only
  split
  · exact ite_keeps (runStarted_keeps (endGap_keeps (modChan_keeps h))) h
  · exact h
  · exact h
  · exact h

theorem handOn_keeps {ch : ChannelId} {r : NoteRecord} (h : Keeps s t) : Keeps s (handOn ch r t) := by
  cases ch with
  | p => exact ite_keeps (calNoteP_keeps h) (ite_keeps (dispenseNote_keeps h) h)
  | q => exact ite_keeps (calNoteQ_keeps h) (ite_keeps (stopIfLost_keeps (depositNote_keeps h)) h)

theorem completeRun_keeps {ch : ChannelId} {l : List Nat} {b : Bool} {f : Flow} (h : Keeps s t) :
    Keeps s (completeRun ch l b f t) := by
  unfold completeRun
  cases ch with
  | p => exact handOn_keeps (modChan_keeps (ite_keeps (drawFree_keeps h) h))
  | q => exact handOn_keeps (modChan_keeps h)

theorem endRun_keeps {ch : ChannelId} {l : List Nat} (h : Keeps s t) : Keeps s (endRun ch l t) := by
  unfold endRun
  dsimp only
  split
  · split
    · exact completeRun_keeps h
    · exact h
    · exact h
    · exact h
  · exact h
  · exact h
  · exact h

theorem cutRun_keeps {ch : ChannelId} {l : List Nat} (h : Keeps s t) : Keeps s (cutRun ch l t) := by
  unfold cutRun
  dsimp only
  split
  · split
    · exact completeRun_keeps h
    · exact h
    · exact h
    · exact h
  · exact h
  · exact h
  · exact h

theorem tailCleared_keeps {ch : ChannelId} (h : Keeps s t) : Keeps s (tailCleared ch t) := by
  cases ch with
  | p => exact ite_keeps (endCalAs_keeps (stopCal_keeps h)) (ite_keeps (noteLeft_keeps h) h)
  | q => exact ite_keeps (calToPocket_keeps h) (tryHolding_keeps h)

theorem endTail_keeps {ch : ChannelId} {l : List Nat} (h : Keeps s t) : Keeps s (endTail ch l t) := by
  unfold endTail
  dsimp only
  split
  · split
    · exact tailCleared_keeps (modChan_keeps h)
    · exact h
    · exact h
  · exact h
  · exact h
  · exact h

theorem countNote_keeps {l : List Nat} (h : Keeps s t) : Keeps s (countNote l t) := by
  have hcounted := countIn_keeps (takeSamples_keeps (ch := .p) (l := l) h)
  unfold countNote
  refine ite_keeps (ite_keeps ?_ (ite_keeps (noteLeft_keeps hcounted) hcounted)) h
  split
  · exact endPicking_keeps hcounted
  · exact completePicking_keeps hcounted

theorem presentStacker_keeps (h : Keeps s t) : Keeps s (presentStacker t) := setShutter_keeps (modDisp_keeps h)

theorem endPurge_keeps (h : Keeps s t) : Keeps s (endPurge t) :=
  ite_keeps (endDispense_keeps (modDisp_keeps (creditTray_keeps h)))
    (ite_keeps (modRecovery_keeps (creditTray_keeps h)) h)

theorem passStacking_keeps {b : Bool} (h : Keeps s t) : Keeps s (passStacking b t) :=
  ite_keeps (stackNote_keeps h) (ite_keeps (endCalAs_keeps (shutThroat_keeps (creditUnknown_keeps h)))
    (ite_keeps (runRecoveryStacking_keeps (creditUnknown_keeps h)) h))

theorem endRetract_keeps (h : Keeps s t) : Keeps s (endRetract t) := by
  unfold endRetract
  split
  · exact ite_keeps (arbitrate_keeps (bundleInPlace_keeps (modCapture_keeps (fun _ => rfl) h))) h
  · exact h

/-! ### Timers and takes -/

/-- R119: only an entry that is LIVE becomes STALE, so the lane's own does not. -/
theorem staleEntry_keeps {n : Nat} (hn : (peerEntry t n).status ≠ .empty) (h : Keeps s t) :
    Keeps s (staleEntry n t) := by
  refine ⟨h.fault, h.queue, h.compartment, fun ho => ?_⟩
  have hown := h.ownEntry ho
  have hne : n ≠ t.lane.station := by rintro rfl; exact hn hown
  simpa only [OwnEntryEmpty, peerEntry, staleEntry, modPeer, modifyAt, List.getD_eq_getElem?_getD,
    List.getElem?_modify_ne _ _ hne] using hown

theorem boundStale_keeps (h : Keeps s t) : Keeps s (boundStale t) :=
  ite_keeps (modApproval_keeps h) (unbindStale_keeps h)

theorem peerStale_keeps {n : Nat} (h : Keeps s t) : Keeps s (peerStale n t) := by
  unfold peerStale
  dsimp only
  split
  · exact h
  next hlive =>
    have hn : (peerEntry t n).status ≠ .empty := fun he => by simp [he] at hlive
    exact retestIntent_keeps (ite_keeps (boundStale_keeps (staleEntry_keeps hn h)) (staleEntry_keeps hn h))

theorem spacingEnd_keeps (h : Keeps s t) : Keeps s (spacingEnd t) := by
  unfold spacingEnd
  split
  · exact ite_keeps (retestIntent_keeps (modPeer_keeps (fun _ => rfl) h)) h
  · exact h

theorem calTakeOut_keeps {l : List Nat} (h : Keeps s t) : Keeps s (calTakeOut l t) := by
  unfold calTakeOut
  split
  · exact endCalAs_keeps (stopCal_keeps (takeSamples_keeps h))
  · exact retractCal_keeps h
  · exact h

theorem takeDispense_keeps (h : Keeps s t) : Keeps s (takeDispense t) :=
  endDispense_keeps (modShift_keeps (modDisp_keeps (setShutter_keeps h)))

theorem missPick_keeps {l : List Nat} (h : Keeps s t) : Keeps s (missPick l t) :=
  have hshut {f : Drives → Drives} := modDrives_keeps (f := f) (takeSamples_keeps (ch := .p) (l := l) h)
  ite_keeps (pickBoundary_keeps (modDisp_keeps (countMiss_keeps hshut)))
    (ite_keeps (endCal_keeps (stopCal_keeps (countMiss_keeps hshut))) h)

/-! ### The rows and the step -/

/-- Every row answers with a next state, and keeps the invariants. -/
theorem exec_keeps (i : Instr) (h : Keeps s t) : ∃ u, exec i t = .next u ∧ Keeps s u := by
  cases i with
  | dispense => exact ⟨_, rfl, finish_keeps (takeCommand_keeps planDispense_keeps h)⟩
  | cancel => exact ⟨_, rfl, finish_keeps (takeCommand_keeps (fun h => cancelDispense_keeps (replyDone_keeps h)) h)⟩
  | depositOpen => exact ⟨_, rfl, finish_keeps (takeCommand_keeps openDeposit_keeps h)⟩
  | depositCloseThroat => exact ⟨_, rfl, finish_keeps (takeCommand_keeps closeThroatCommand_keeps h)⟩
  | depositAccept => exact ⟨_, rfl, finish_keeps (takeCommand_keeps acceptDeposit_keeps h)⟩
  | depositReturn => exact ⟨_, rfl, finish_keeps (takeCommand_keeps returnDeposit_keeps h)⟩
  | calibrate => exact ⟨_, rfl, finish_keeps (takeCommand_keeps startCalibration_keeps h)⟩
  | cassetteLoad => exact ⟨_, rfl, finish_keeps (takeCommand_keeps askLoad_keeps h)⟩
  | cassetteUnload =>
    exact ⟨_, rfl, finish_keeps (takeCommand_keeps (fun h => unloadCassette_keeps (replyDone_keeps h)) h)⟩
  | clearPurge => exact ⟨_, rfl, finish_keeps (takeCommand_keeps (fun h => clearPurge_keeps (replyDone_keeps h)) h)⟩
  | depositCassetteExchange => exact ⟨_, rfl, finish_keeps (takeCommand_keeps askExchange_keeps h)⟩
  | bind => exact ⟨_, rfl, finish_keeps (takeCommand_keeps (fun h => replyDone_keeps (bindConsole_keeps h)) h)⟩
  | unbind => exact ⟨_, rfl, finish_keeps (takeCommand_keeps (fun h => replyDone_keeps (modApproval_keeps h)) h)⟩
  | query => exact ⟨_, rfl, finish_keeps (takeCommand_keeps startSeries_keeps h)⟩
  | queryZonesClear => exact ⟨_, rfl, finish_keeps (takeCommand_keeps clearZones_keeps h)⟩
  | laneOpen | laneClose | laneNight => exact ⟨_, rfl, finish_keeps (takeCommand_keeps requestLane_keeps h)⟩
  | clearJam => exact ⟨_, rfl, finish_keeps (takeCommand_keeps (fun h => clearJams_keeps (replyDone_keeps h)) h)⟩
  | clearFaults => exact ⟨_, rfl, finish_keeps (takeCommand_keeps clearFaults_keeps h)⟩
  | clearCause => exact ⟨_, rfl, finish_keeps (takeCommand_keeps clearCause_keeps h)⟩
  | binServiceOpen => exact ⟨_, rfl, finish_keeps (takeCommand_keeps askBinService_keeps h)⟩
  | binServiceClose =>
    exact ⟨_, rfl, finish_keeps (takeCommand_keeps (fun h => closeBin_keeps (replyDone_keeps h)) h)⟩
  | alarmClear => exact ⟨_, rfl, finish_keeps (takeCommand_keeps askAlarmClear_keeps h)⟩
  | shiftClose => exact ⟨_, rfl, finish_keeps (takeCommand_keeps (fun h => closeShift_keeps (replyDone_keeps h)) h)⟩
  | resetLane => exact ⟨_, rfl, finish_keeps (takeCommand_keeps askReset_keeps h)⟩
  | unknownCommand => exact ⟨_, rfl, finish_keeps (takeCommand_keeps id h)⟩
  | approvalAnswer => exact ⟨_, rfl, finish_keeps (receive_keeps takeAnswer_keeps h)⟩
  | peerPosition | peerIntent | peerAlarm | peerFrame =>
    exact ⟨_, rfl, finish_keeps (receive_keeps applyFrame_keeps h)⟩
  | duplicateStation => exact ⟨_, rfl, finish_keeps (ite_keeps h (foundDuplicate_keeps h))⟩
  | frameComplained => exact ⟨_, rfl, h⟩
  | intentCompletion | querySegmentCompleted => exact ⟨_, rfl, finish_keeps (completeOwn_keeps h)⟩
  | ownFrameCompleted => exact ⟨_, rfl, finishWith_keeps (completeOwn_keeps h)⟩
  | transmissionComplained => exact ⟨_, rfl, finishWith_keeps (complainOwn_keeps h)⟩
  | arbitrationLost => exact ⟨_, rfl, loseArbitration_keeps h⟩
  | idlePoint => exact ⟨_, rfl, offerFrame_keeps h⟩
  | positionPeriod => exact ⟨_, rfl, finish_keeps (askPosition_keeps h)⟩
  | peerStale => exact ⟨_, rfl, finish_keeps (peerStale_keeps h)⟩
  | intentSpacingEnd => exact ⟨_, rfl, finish_keeps (spacingEnd_keeps h)⟩
  | dispenseCeilingTimeout =>
    exact ⟨_, rfl, finish_keeps (ite_keeps (endDispense_keeps (withdrawIntent_keeps h)) h)⟩
  | depositCeilingTimeout =>
    exact ⟨_, rfl, finish_keeps (ite_keeps (endDeposit_keeps (withdrawIntent_keeps h)) h)⟩
  | approvalTimeout => exact ⟨_, rfl, finish_keeps (settleAndTell_keeps h)⟩
  | dispenseTakeTimeout => exact ⟨_, rfl, finish_keeps (ite_keeps (retractDispense_keeps h) h)⟩
  | returnTakeTimeout => exact ⟨_, rfl, finish_keeps (ite_keeps (retractReturn_keeps h) h)⟩
  | clearanceTakeTimeout => exact ⟨_, rfl, finish_keeps (ite_keeps (retractClearance_keeps h) h)⟩
  | calibrationTakeTimeout => exact ⟨_, rfl, finish_keeps (calTakeOut_keeps h)⟩
  | dispenseTaken => exact ⟨_, rfl, finish_keeps (ite_keeps (takeDispense_keeps h) h)⟩
  | returnTaken => exact ⟨_, rfl, finish_keeps (ite_keeps (endDeposit_keeps (setShutter_keeps h)) h)⟩
  | refusedNotesTaken => exact ⟨_, rfl, ite_keeps (setShutter_keeps (modDep_keeps h)) h⟩
  | clearanceTaken =>
    exact ⟨_, rfl, finish_keeps (ite_keeps (depositSettled_keeps (setShutter_keeps (modDep_keeps h))) h)⟩
  | calibrationNoteTaken => exact ⟨_, rfl, finish_keeps (ite_keeps (endCalAs_keeps (setShutter_keeps h)) h)⟩
  | throatIdleTimeout => exact ⟨_, rfl, finish_keeps (ite_keeps (closeThroat_keeps (takeSamples_keeps h)) h)⟩
  | pickMiss => exact ⟨_, rfl, finish_keeps (missPick_keeps h)⟩
  | zeroCaptureStall ch =>
    cases ch with
    | p => exact ⟨_, rfl, finish_keeps (stallP_keeps h)⟩
    | q => exact ⟨_, rfl, finish_keeps (stallQ_keeps h)⟩
  | pickJam => exact ⟨_, rfl, finish_keeps (jamPick_keeps h)⟩
  | stackerPurgeJam | presentJam | stackerReversalJam =>
    exact ⟨_, rfl, finish_keeps (ite_keeps (jamStacker_keeps h) h)⟩
  | depositJam => exact ⟨_, rfl, finish_keeps (jamThroatNote_keeps h)⟩
  | retractJam => exact ⟨_, rfl, finish_keeps (ite_keeps (jamCapture_keeps h) h)⟩
  | envelopeJam => exact ⟨_, rfl, finish_keeps (jamEnvelope_keeps h)⟩
  | recoveryPurgeJam => exact ⟨_, rfl, finish_keeps (ite_keeps (jamDispenser_keeps (modRecovery_keeps h)) h)⟩
  | recoveryStackingJam =>
    exact ⟨_, rfl, finish_keeps (ite_keeps (jamThroat_keeps (shutThroat_keeps (modRecovery_keeps h))) h)⟩
  | wakingEnd => exact ⟨_, rfl, finish_keeps (endWaking_keeps h)⟩
  | zoneScan => exact ⟨_, rfl, finish_keeps (scan_keeps h)⟩
  | zoneChange =>
    exact ⟨_, rfl, finish_keeps (withZone_keeps (fun _ => changeIfDue_keeps (takeOpenSamples_keeps h))
      (takeOpenSamples_keeps h))⟩
  | troubleCleared => exact ⟨_, rfl, withZone_keeps (fun _ => clearTrouble_keeps h) h⟩
  | zoneRestored =>
    exact ⟨_, rfl, finish_keeps (withZone_keeps (fun _ => restoreZone_keeps (takeOpenSamples_keeps h))
      (takeOpenSamples_keeps h))⟩
  | wallLineRecognised => exact ⟨_, rfl, recogniseLine_keeps h⟩
  | wallLineReleased => exact ⟨_, rfl, releaseLine_keeps h⟩
  | zeroCaptureDone => exact ⟨_, rfl, finish_keeps (decideCapture_keeps h)⟩
  | runStart => exact ⟨_, rfl, finish_keeps (startRun_keeps h)⟩
  | runEnd => exact ⟨_, rfl, finish_keeps (endRun_keeps h)⟩
  | runCutOff => exact ⟨_, rfl, finish_keeps (cutRun_keeps h)⟩
  | stackerCountIn => exact ⟨_, rfl, finish_keeps (countNote_keeps h)⟩
  | escrowPush => exact ⟨_, rfl, finish_keeps (ite_keeps h (pushEscrow_keeps (takeSamples_keeps h)))⟩
  | refusedNoteAtPocket =>
    exact ⟨_, rfl, finish_keeps (ite_keeps (refusedAtPocket_keeps (takeSamples_keeps h)) h)⟩
  | noteStacked => exact ⟨_, rfl, finish_keeps (passStacking_keeps h)⟩
  | returnBundleInPocket => exact ⟨_, rfl, ite_keeps (presentReturn_keeps h) h⟩
  | presentMovementEnd => exact ⟨_, rfl, ite_keeps (presentStacker_keeps h) h⟩
  | purgeMovementEnd => exact ⟨_, rfl, finish_keeps (endPurge_keeps h)⟩
  | stackerReversalEnd => exact ⟨_, rfl, finish_keeps (ite_keeps (enterPurging_keeps h) h)⟩
  | returnReversalEnd => exact ⟨_, rfl, finish_keeps (ite_keeps (secureEscrow_keeps (modDep_keeps h)) h)⟩
  | calibrationNoteAtPocket => exact ⟨_, rfl, ite_keeps (modDrives_keeps (modCal_keeps h)) h⟩
  | retractMovementEnd => exact ⟨_, rfl, finish_keeps (endRetract_keeps h)⟩
  | envelopeArrival => exact ⟨_, rfl, finish_keeps (envelopeArrives_keeps h)⟩
  | envelopeWithdrawn => exact ⟨_, rfl, ite_keeps (reshutter_keeps (modCapture_keeps (fun _ => rfl) h)) h⟩
  | envelopeClearsSlot => exact ⟨_, rfl, ite_keeps (reshutter_keeps (modEnvelope_keeps h)) h⟩
  | lengthSensorReached => exact ⟨_, rfl, ite_keeps (modEnvelope_keeps h) h⟩
  | envelopeTooLong => exact ⟨_, rfl, ite_keeps (refuseEnvelope_keeps h) h⟩
  | lengthMeasured => exact ⟨_, rfl, measureEnvelope_keeps h⟩
  | thicknessTrip => exact ⟨_, rfl, tripThickness_keeps h⟩
  | imprintStart => exact ⟨_, rfl, startImprint_keeps h⟩
  | envelopeDrop => exact ⟨_, rfl, finish_keeps (envelopeDrops_keeps h)⟩
  | envelopeReversalEnd => exact ⟨_, rfl, finish_keeps (envelopeReversed_keeps h)⟩
  | returnedEnvelopeCleared => exact ⟨_, rfl, ite_keeps (reshutter_keeps (modCapture_keeps (fun _ => rfl) h)) h⟩
  | binServiceOpened => exact ⟨_, rfl, finish_keeps (ite_keeps (openBin_keeps h) h)⟩
  | cassetteRemoved => exact ⟨_, rfl, finish_keeps (openSwitch_keeps h)⟩
  | cassetteReseated => exact ⟨_, rfl, closeSwitch_keeps h⟩
  | pendingRequestApplied => exact ⟨_, rfl, finish_keeps (ite_keeps (applyPending_keeps h) h)⟩
  | lockdownExit =>
    exact ⟨_, rfl, finish_keeps (ite_keeps (leaveLockdown_keeps (ite_keeps (endRecovery_keeps h) h)) h)⟩
  | recoveryEnd => exact ⟨_, rfl, finish_keeps (ite_keeps (endRecovery_keeps h) h)⟩
  | powerOn | supplyDip | resetLine => exact ⟨_, rfl, restart_keeps (setBoard_keeps h)⟩
  | mechanicsCheck => exact ⟨_, rfl, finish_keeps (ite_keeps (leaveStarting_keeps h) h)⟩
  | tailEnd => exact ⟨_, rfl, finish_keeps (endTail_keeps h)⟩

/-- A millisecond changes ages and timers (R119, R184). -/
theorem tick_keeps (h : Keeps s t) : Keeps s (tick t) := by
  refine ⟨h.fault, h.queue, h.compartment, fun ho => ?_⟩
  have hown := h.ownEntry ho
  simp only [OwnEntryEmpty, peerEntry, List.getD_eq_getElem?_getD] at hown ⊢
  cases he : t.peer.entries[t.lane.station]? <;> simp_all [tick, tickPeer, tickEntry]

theorem step_keeps {s t : State} (h : step s = .next t) : Keeps s t := by
  have htaken (l : List Instr) : Keeps s { s with pending := l } := ⟨id, id, id, id⟩
  unfold step at h
  split at h
  · cases h
    exact tick_keeps (.refl s)
  next c rest _ =>
    obtain ⟨u, hu, hkeeps⟩ := exec_keeps c (htaken rest)
    cases hu.symm.trans h
    exact hkeeps

/-- Settles O58: a raising keeps the record sound by the table, and no operation writes it otherwise but to clear it. -/
theorem stepKeepsFaultRecordSound : Obligations.StepKeepsFaultRecordSound :=
  fun _ _ hs hstep => (step_keeps hstep).fault hs

/-- Settles O59: a frame is queued only where one of the 16 places is free or a frame gives way, and a bundle is granted
only where the compartment can take it. -/
theorem stepKeepsQueueAndCompartmentBounded : Obligations.StepKeepsQueueAndCompartmentBounded :=
  fun _ _ hq hc hstep => ⟨(step_keeps hstep).queue hq, (step_keeps hstep).compartment hc⟩

/-- Settles O60: a frame with the lane's own number changes no entry, only a LIVE entry becomes STALE, and a
start leaves the lane's own entry EMPTY. -/
theorem stepKeepsOwnEntryEmpty : Obligations.StepKeepsOwnEntryEmpty :=
  fun _ _ ho hstep => (step_keeps hstep).ownEntry ho

end Sys2Proof.Machine
end

