-- ==== Sys2Proof/Proofs/Room.lean ====
section
/-! PROOFS. Room in the transmit queue (R178): where the state that a claim ends in has it, each state on the way there
had it, so that the laws of `Laws/Ops.lean` apply to every operation in between. -/

namespace Sys2Proof.Machine

/-- The transmit queue has given no frame up. -/
abbrev Room (s : State) : Prop := s.bus.queue.length ≤ 16

variable {s t : State}

/-- A step that ends in `t`, where nothing more follows. -/
theorem next_finish (e : s = t) (h : Fits t) :
    (Host.Outcome.next (finish s) : Host.Outcome State Fault Refusal) = .next t := by
  rw [e, finish_of_fits h]

theorem next_finish_not_due (e : s = t) (h : t.lane.resetDue = false) :
    (Host.Outcome.next (finish s) : Host.Outcome State Fault Refusal) = .next t := by
  rw [e, finish_of_not_due h]

theorem Fits.room (h : Fits s) : Room s := h.1

namespace Room

theorem of_queued {l : List TxEntry} (h : Room (queued l s)) : Room s := by
  have e : s.bus.queue.length + l.length ≤ 16 := by simpa using h
  exact Nat.le_of_add_right_le e

theorem of_reported {cls : FrameClass} {kind : FrameKind} {dst : Nat} {red : Bool} {owner : Owner} {c : List Byte}
    (h : Room (reported cls kind dst red owner c s)) : Room s := by
  rw [Room, reported_queue_length] at h
  exact Nat.le_of_add_right_le h

theorem of_toldAll {k : NoticeKind} {c : List Byte} (h : Room (toldAll k c s)) : Room s := of_reported h

theorem of_toldBound {k : NoticeKind} {c : List Byte} (h : Room (toldBound k c s)) : Room s := of_reported h

theorem of_faulted {k : FaultKind} {o : FaultOp} {p : Option FaultPlace} {n : Option Nat}
    (h : Room (faulted k o p n s)) : Room s := of_toldAll h

theorem of_replied {x : Header} {k : CmdKind} {p : List Byte} (h : Room (replied x k p s)) : Room s := by
  have e : s.bus.queue.length + 1 ≤ 16 := by simpa [replied] using h
  exact Nat.le_of_succ_le e

theorem of_accepted {x : Header} {k : CmdKind} {p : List Byte} (h : Room (acceptedReply x k p s)) : Room s :=
  of_replied h

theorem of_done {x : Header} {k : CmdKind} {p : List Byte} (h : Room (doneReply x k p s)) : Room s :=
  of_replied h

theorem of_positioned (h : Room (positioned s)) : Room s := by
  by_cases hp : positionPending s.bus.queue = true
  · simpa [positioned, hp] using h
  · have e : s.bus.queue.length + 1 ≤ 16 := by simpa [positioned, hp] using h
    exact Nat.le_of_succ_le e

theorem of_laneEntered {st : LaneState} (h : Room (laneEntered st s)) : Room s :=
  of_positioned (s := reshutter { s with lane := { s.lane with state := st } }) h

theorem of_released {k : IntentKind} (h : Room (released k s)) : Room s := by
  by_cases h0 : reservationOf k s.peer.held = 0
  · simpa [released, h0] using h
  · simp only [released, h0, if_false] at h
    exact h.of_positioned

theorem of_slotTaken {i : Nat} {k : OpKind} {a r : Nat} {x : List Byte} (h : Room (slotTaken i k a r x s)) : Room s :=
  of_queued h

theorem of_slotClosed {i : Nat} {how : Settling} (h : Room (slotClosed i how s)) : Room s := of_reported h

theorem of_dispenseEnded {o : DispOutcome} (h : Room (dispenseEnded o s)) : Room s :=
  of_released (s := { s with disp := { s.disp with outcome := some o } })
    (of_toldBound (k := .completion) (c := dispCompletion { s.disp with outcome := some o }) h)

theorem of_depositEnded {o : DepOutcome} (h : Room (depositEnded o s)) : Room s :=
  of_released (s := { s with dep := { s.dep with outcome := some o } })
    (of_toldBound (k := .completion) (c := depCompletion s.peer.held.deposit { s.dep with outcome := some o }) h)

theorem of_calEnded {o : CalOutcome} (h : Room (calEnded o s)) : Room s := by
  rw [Room, calEnded, toldBound_queue_length] at h
  exact Nat.le_of_add_right_le h

end Room

end Sys2Proof.Machine
end

