-- ==== Sys2Proof/Proofs/Windows.lean ====
section
/-! PROOFS. What a report, a hard fault and the close of a window leave as they were, however full the transmit queue
is: reports and faults change the bus unit and the fault unit, a closing window
  (R21, R37 to R39) its channel besides. -/

namespace Sys2Proof.Machine

/-! ### Reports and hard faults -/

theorem foldl_enqueue_busOnly {α : Type} (f : α → TxEntry) (l : List α) (s : State) :
    BusOnly s (l.foldl (fun t p => enqueue (f p) t) s) := by
  induction l generalizing s with
  | nil => exact .refl s
  | cons p l ih => exact (enqueue_busOnly (f p) s).trans (ih _)

theorem report_busOnly (cls : FrameClass) (kind : FrameKind) (dst : Nat) (red : Bool) (owner : Owner) (c : List Byte)
    (s : State) : BusOnly s (report cls kind dst red owner c s) := by
  refine BusOnly.trans ?_ (foldl_enqueue_busOnly _ _ _)
  exact rfl

theorem noticeAll_busOnly (k : NoticeKind) (c : List Byte) (s : State) : BusOnly s (noticeAll k c s) :=
  report_busOnly ..

theorem noticeBound_busOnly (k : NoticeKind) (c : List Byte) (s : State) : BusOnly s (noticeBound k c s) :=
  report_busOnly ..

theorem recordFault_busOnly (r : FaultReport) (s : State) : BusOnly s (recordFault r s) := rfl

theorem raiseSoft_busOnly (k : FaultKind) (o : FaultOp) (p : Option FaultPlace) (n : Option Nat) (s : State) :
    BusOnly s (raiseSoft k o p n s) := rfl

theorem raiseHard_busOnly (k : FaultKind) (o : FaultOp) (p : Option FaultPlace) (n : Option Nat) (s : State) :
    BusOnly s (raiseHard k o p n s) := (recordFault_busOnly _ s).trans (noticeAll_busOnly ..)

/-! ### A request that does not stand is not made -/

theorem frameLost_request_none {e : TxEntry} {s : State} (h : s.peer.request = none) :
    (frameLost e s).peer.request = none := by
  unfold frameLost
  cases e.owner <;> simp only [] <;> (try split) <;> simp [h]

theorem enqueue_request_none {e : TxEntry} {s : State} (h : s.peer.request = none) :
    (enqueue e s).peer.request = none := by
  unfold enqueue
  split
  · exact h
  · dsimp only
    split
    · split <;> exact frameLost_request_none h
    · exact frameLost_request_none h

theorem report_request_none {cls : FrameClass} {kind : FrameKind} {dst : Nat} {red : Bool} {owner : Owner}
    {c : List Byte} {s : State} (h : s.peer.request = none) :
    (report cls kind dst red owner c s).peer.request = none := by
  unfold report
  generalize hl : reportPayloads c = l
  have key : ∀ u : State, u.peer.request = none →
      (l.foldl (fun t p => enqueue { frame := plainFrame cls dst p.1 red kind s.bus.reportNo p.2, owner } t)
        u).peer.request = none := by
    clear hl
    induction l with
    | nil => exact fun _ hu => hu
    | cons p l ih => exact fun _ hu => ih _ (enqueue_request_none hu)
  exact key _ h

theorem raiseHard_request_none {k : FaultKind} {o : FaultOp} {p : Option FaultPlace} {n : Option Nat} {s : State}
    (h : s.peer.request = none) : (raiseHard k o p n s).peer.request = none :=
  report_request_none (s := recordFault (faultReport k o p n s) s) h

/-! ### The close of a window -/

/-- `t` differs from `s` as `BusOnly` allows and in the measurement channels at most. -/
def WindowOnly (s t : State) : Prop :=
  t = { s with
          chP := t.chP, chQ := t.chQ, bus := t.bus, fault := t.fault,
          peer := { s.peer with request := t.peer.request, orphan := t.peer.orphan, periodMs := t.peer.periodMs },
          lane := { s.lane with resetDue := t.lane.resetDue } }

theorem WindowOnly.trans {s t u : State} (h1 : WindowOnly s t) (h2 : WindowOnly t u) : WindowOnly s u := by
  unfold WindowOnly at *
  rw [h1] at h2
  exact h2

theorem BusOnly.windowOnly {s t : State} (h : BusOnly s t) : WindowOnly s t := by
  unfold BusOnly WindowOnly at *
  rw [h]

theorem modChan_windowOnly (ch : ChannelId) (f : Channel → Channel) (s : State) : WindowOnly s (modChan ch f s) := by
  cases ch <;> exact rfl

theorem endGap_windowOnly (ch : ChannelId) (n sum : Nat) (s : State) : WindowOnly s (endGap ch n sum s) := by
  unfold endGap
  dsimp only
  split
  · exact rfl
  · split
    · exact modChan_windowOnly ..
    · have soft {k o p m} {f : Channel → Channel} : WindowOnly s (raiseSoft k o p m (modChan ch f s)) :=
        (modChan_windowOnly ..).trans (raiseSoft_busOnly ..).windowOnly
      split
      · exact soft.trans ((modChan_windowOnly ..).trans (raiseHard_busOnly ..).windowOnly)
      · exact soft

theorem closeWindow_windowOnly (ch : ChannelId) (s : State) : WindowOnly s (closeWindow ch s) := by
  unfold closeWindow
  dsimp only
  split
  · split
    · exact (modChan_windowOnly ..).trans (endGap_windowOnly ..)
    · exact modChan_windowOnly ..
  · exact modChan_windowOnly ..

theorem closeWindow_request_none {ch : ChannelId} {s : State} (h : s.peer.request = none) :
    (closeWindow ch s).peer.request = none := by
  have chan {f : Channel → Channel} {t : State} (ht : t.peer.request = none) :
    (modChan ch f t).peer.request = none := by
    cases ch <;> exact ht
  unfold closeWindow endGap
  dsimp only
  split
  · split
    · split
      · exact chan h
      · split
        · exact chan (chan h)
        · split
          · exact raiseHard_request_none (chan (chan (chan h)))
          · exact chan (chan h)
    · exact chan h
  · exact chan h

section
variable (ch : ChannelId) (s : State)

@[simp] theorem closeWindow_config : (closeWindow ch s).config = s.config := by rw [closeWindow_windowOnly ch s]
@[simp] theorem closeWindow_cash : (closeWindow ch s).cash = s.cash := by rw [closeWindow_windowOnly ch s]
@[simp] theorem closeWindow_cal : (closeWindow ch s).cal = s.cal := by rw [closeWindow_windowOnly ch s]
@[simp] theorem closeWindow_disp : (closeWindow ch s).disp = s.disp := by rw [closeWindow_windowOnly ch s]
@[simp] theorem closeWindow_dispenserJam : (closeWindow ch s).dispenserJam = s.dispenserJam := by
  rw [closeWindow_windowOnly ch s]
@[simp] theorem closeWindow_dep : (closeWindow ch s).dep = s.dep := by rw [closeWindow_windowOnly ch s]
@[simp] theorem closeWindow_throatJam : (closeWindow ch s).throatJam = s.throatJam := by
  rw [closeWindow_windowOnly ch s]
@[simp] theorem closeWindow_capture : (closeWindow ch s).capture = s.capture := by rw [closeWindow_windowOnly ch s]
@[simp] theorem closeWindow_held : (closeWindow ch s).peer.held = s.peer.held := by rw [closeWindow_windowOnly ch s]
@[simp] theorem closeWindow_entries : (closeWindow ch s).peer.entries = s.peer.entries := by
  rw [closeWindow_windowOnly ch s]
@[simp] theorem closeWindow_duplicate : (closeWindow ch s).peer.duplicate = s.peer.duplicate := by
  rw [closeWindow_windowOnly ch s]
@[simp] theorem closeWindow_alarm : (closeWindow ch s).alarm = s.alarm := by rw [closeWindow_windowOnly ch s]
@[simp] theorem closeWindow_approval : (closeWindow ch s).approval = s.approval := by
  rw [closeWindow_windowOnly ch s]
@[simp] theorem closeWindow_drives : (closeWindow ch s).drives = s.drives := by rw [closeWindow_windowOnly ch s]
@[simp] theorem closeWindow_board : (closeWindow ch s).board = s.board := by rw [closeWindow_windowOnly ch s]
@[simp] theorem closeWindow_free : (closeWindow ch s).free = s.free := by rw [closeWindow_windowOnly ch s]
@[simp] theorem closeWindow_laneState : (closeWindow ch s).lane.state = s.lane.state := by
  rw [closeWindow_windowOnly ch s]

end

/-- A window that is shut has no gap to track. -/
theorem closeWindow_of_shut {ch : ChannelId} {s : State} (h : (chanAt s ch).window = false) :
    closeWindow ch s = modChan ch (fun c => { c with window := false, flow := .none, capturing := false }) s := by
  unfold closeWindow
  dsimp only
  split
  · rw [if_neg (by simp [h])]
  · rfl

/-- An operation's end has nothing to do besides after its window has closed either. -/
theorem QuietEnd.closeWindow {ch : ChannelId} {s : State} (h : QuietEnd s) : QuietEnd (Machine.closeWindow ch s) := by
  obtain ⟨hu, hr, hs⟩ := h
  exact ⟨by simpa using hu, closeWindow_request_none hr, by simpa using hs⟩

end Sys2Proof.Machine
end

