-- ==== Sys2Proof/Proofs/Commands.lean ====
section
/-! PROOFS. A command of another station (R179, R180, R186): refused by the first of its checks that applies, or taken,
on the state that the peer view leaves. -/

namespace Sys2Proof.Machine

section
variable {h : Header} {k : CmdKind} {inFault : Bool} {check : State → Option Reason} {effect : State → State} {s :
  State}

theorem Comes.not_starting (hc : Comes h s) : (heard h s).lane.state ≠ .starting := by
  obtain ⟨hp, -⟩ := hc
  simp only [takesPart, Bool.and_eq_true, bne_iff_ne] at hp
  simpa using hp.1

/-- A command that no check refuses has its effect. -/
theorem takeCommand_taken (hc : Comes h s) (hf : s.lane.state ≠ .configFault ∨ inFault = true)
    (hn : check (heard h s) = none) : takeCommand h k inFault check effect s = effect (heard h s) := by
  have hf' : ¬ ((heard h s).lane.state == .configFault && !inFault) = true := by
    rcases hf with hf | hf <;> simp [hf]
  rw [takeCommand_comes hc, if_neg hf', judge, hn]

/-- A command that a check refuses changes nothing but the peer view. -/
theorem takeCommand_refused {r : Reason} (hc : Comes h s) (hf : s.lane.state ≠ .configFault ∨ inFault = true)
    (hn : check (heard h s) = some r) : takeCommand h k inFault check effect s = refuse h k r (heard h s) := by
  have hf' : ¬ ((heard h s).lane.state == .configFault && !inFault) = true := by
    rcases hf with hf | hf <;> simp [hf]
  rw [takeCommand_comes hc, if_neg hf', judge, hn]

/-- A step that is a refused command. -/
theorem next_refused {r : Reason} (hc : Comes h s) (hf : s.lane.state ≠ .configFault ∨ inFault = true) 
    (hk : k ≠ .query) (hn : check (heard h s) = some r) (hr : Fits (refusedReply h k r (heard h s))) :
    (Host.Outcome.next (finish (takeCommand h k inFault check effect s)) : Host.Outcome State Fault Refusal) =
      .next (refusedReply h k r (heard h s)) :=
  next_finish ((takeCommand_refused hc hf hn).trans (refuse_fits hk hr.1)) hr

/-- A step that is a command taken, with the effect `effect` on what the peer view leaves. -/
theorem next_taken {t : State} (hc : Comes h s) (hf : s.lane.state ≠ .configFault ∨ inFault = true)
    (hn : check (heard h s) = none) (he : effect (heard h s) = t) (ht : Fits t) :
    (Host.Outcome.next (finish (takeCommand h k inFault check effect s)) : Host.Outcome State Fault Refusal) =
      .next t :=
  next_finish ((takeCommand_taken hc hf hn).trans he) ht
end

@[simp] theorem unbound_heard (h : Header) (s : State) : unbound h (heard h s) = !isBound s h.src := by
  simp [unbound, isBound]

end Sys2Proof.Machine
end

