-- ==== Sys2Proof/Proofs/Peers.lean ====
section
/-! PROOFS. The frames of other stations (chapter 6): what each leaves of its sender's entry, and the request that a
changed wall sum tests again. -/

namespace Sys2Proof.Machine

section
variable {src : Nat} {s : State}

theorem receive_of_takesPart {f : State → State} (hp : takesPart s = true) (hs : src ≤ 30)
    (hn : src ≠ s.lane.station) :
    receive src f s = f s := by
  have h31 : ¬ src ≥ 31 := by omega
  simp [receive, hp, h31, hn]

theorem receive_of_not_takesPart {f : State → State} (hp : takesPart s = false) : receive src f s = s := by
  simp [receive, hp]

theorem takesPart_eq_false (h : s.lane.state = .starting ∨ s.bus.part = false) : takesPart s = false := by
  rcases h with h | h <;> simp [takesPart, h]

/-- R117, R118: the entry that a frame makes live. -/
theorem applyLive_applyKind (cap : Nat) (shows : PeerKind) (isPosition : Bool) (e : PeerEntry) :
    applyLive isPosition (applyKind cap shows e) = entryHeard cap shows isPosition e := by
  obtain ⟨kind⟩ := e
  rcases kind with _ | kind
  · cases shows <;> cases isPosition <;> simp [applyKind, applyLive, entryHeard] 
  · cases kind <;> cases shows <;> cases isPosition <;>  simp [applyKind, applyLive, entryHeard] 

/-- The peer view once a frame has had its effect on its sender's entry (R117, R118). -/
def entryPut (src : Nat) (e : PeerEntry) (s : State) : State :=
  { s with peer := { s.peer with entries := s.peer.entries.set src e } }

/-- A changed wall sum tests a held-back request (R127). -/
def retested (s u : State) : State := if wallSum u != wallSum s then retestIntent u else u

theorem retested_of_request_none {s u : State} (h : u.peer.request = none) : retested s u = u := by
  simp [retested, retestIntent_none h]

/-- The frame of a bound console whose entry becomes LIVE clears the unbind pending mark (R156). -/
def bindingHeard (src : Nat) (before after : PeerEntry) (s : State) : State :=
  if before.status ≠ .live ∧ after.kind = some .console ∧ s.approval.bound = some src then
    { s with approval := { s.approval with unbindPending := false } }
  else s

/-- R117, R118, R127, R156: a frame of a station that the peer view has an entry for. -/
theorem applyFrame_peer {shows : PeerKind} {isPosition : Bool} {extra : PeerEntry → PeerEntry}
    (hc : s.lane.state ≠ .configFault) (hs : src ≤ 30) (hn : src ≠ s.lane.station) :
    applyFrame src shows isPosition extra s =
      retested s
        (bindingHeard src (peerEntry s src) (entryHeard s.config.defaultPeerCap shows isPosition (peerEntry s src))
          (entryPut src (extra (entryHeard s.config.defaultPeerCap shows isPosition (peerEntry s src))) s)) := by
  have h31 : ¬ src ≥ 31 := by omega
  have hagain (e : PeerEntry) :
      (((peerEntry s src).status != .live && e.kind == some .console && isBound s src) = true) =
        ((peerEntry s src).status ≠ .live ∧ e.kind = some .console ∧ s.approval.bound = some src) := by
    simp [isBound, and_assoc]
  unfold applyFrame
  rw [if_neg (by simp [h31, hc, hn])]
  simp only [applyLive_applyKind, hagain]
  rfl

/-- Only a console that was no LANE shows itself a console (R117). -/
theorem bindingHeard_console {cap : Nat} {isPosition : Bool} {e x : PeerEntry} :
    bindingHeard src e (entryHeard cap .console isPosition e) (entryPut src x s) =
      if s.approval.bound = some src ∧ e.status ≠ .live ∧ e.kind ≠ some .lane then
        { entryPut src x s with approval := { s.approval with unbindPending := false } }
      else entryPut src x s := by
  have hk : (entryHeard cap .console isPosition e).kind = some .console ↔ e.kind ≠ some .lane := by simp
    [entryHeard]
  have hb : (entryPut src x s).approval = s.approval := rfl
  simp only [bindingHeard, hk, hb]
  refine if_congr ?_ rfl rfl
  tauto

/-- A lane's frame does not touch the binding. -/
theorem applyFrame_lane {isPosition : Bool} {extra : PeerEntry → PeerEntry} (hc : s.lane.state ≠ .configFault)
    (hs : src ≤ 30) (hn : src ≠ s.lane.station) :
    applyFrame src .lane isPosition extra s =
      retested s (entryPut src (extra (entryHeard s.config.defaultPeerCap .lane isPosition (peerEntry s src))) s) := by
  have hk : (entryHeard s.config.defaultPeerCap .lane isPosition (peerEntry s src)).kind ≠ some .console := by
    simp [entryHeard]
  rw [applyFrame_peer hc hs hn, bindingHeard, if_neg fun h => hk h.2.1]

/-- R121: a POSITION gives every figure of its entry. -/
theorem positionEntry_entryHeard (p : PositionFigures) (cap : Nat) (e : PeerEntry) :
    positionEntry p (entryHeard cap .lane true e) =
      { kind := some .lane, status := .live, held := p.held, cap := p.cap, known := true,
        laneState := some p.laneState, announced := some p.held, summary := p.summary, vehicle := some p.vehicle,
        slots := some p.slots, age := 0 } := by
  simp [positionEntry, entryHeard]

end

/-- Settles O37: each frame is `applyFrame` over the sender's entry, and no request is there to test again. -/
theorem peerFramesUpdateTheirEntry : Obligations.PeerFramesUpdateTheirEntry := by
  refine ⟨?_, ?_⟩
  · intro src s e put lane hp hc hs hn hr hd
    have hlane {isPosition : Bool} {extra : PeerEntry → PeerEntry} :
        (Host.Outcome.next (finish (receive src (applyFrame src .lane isPosition extra) s)) : Host.Outcome State
          Fault Refusal) =
          .next (put (extra (entryHeard s.config.defaultPeerCap .lane isPosition e))) := by
      refine next_finish_not_due ?_ hd
      rw [receive_of_takesPart hp hs hn, applyFrame_lane hc hs hn]
      exact retested_of_request_none hr
    refine ⟨?_, ?_, ?_, ?_, ?_⟩
    · intro p
      exact hlane.trans (by rw [positionEntry_entryHeard])
    · intro amount
      exact hlane
    · intro dst summary
      refine hlane.trans (congrArg (fun x => Host.Outcome.next (put x)) ?_)
      by_cases hd : dst = 31 ∨ dst = s.lane.station <;> simp [hd, lane]
    · rintro f (rfl | rfl | rfl) <;> exact hlane
    · intro console again t
      have happly : applyFrame src .console false id s = t := by
        rw [applyFrame_peer hc hs hn, bindingHeard_console, retested_of_request_none]
        · rfl
        · split <;> exact hr
      refine ⟨?_, ?_⟩
      · intro f hf
        refine next_finish_not_due ?_ ?_
        · rw [receive_of_takesPart hp hs hn, ← happly]
          rcases hf with rfl | rfl | rfl <;> rfl
        · simp only [t]
          split <;> exact hd
      · rintro h rfl
        exact happly
  · intro src s hp hd
    have hp := takesPart_eq_false hp
    have hout {f : State → State} : 
        (Host.Outcome.next (finish (receive src f s)) : Host.Outcome State Fault Refusal) = .next s :=
      next_finish_not_due (receive_of_not_takesPart hp) hd
    refine ⟨fun _ => hout, fun _ => hout, fun _ _ => hout, fun _ => hout, fun _ _ _ _ _ => hout, ?_⟩
    exact next_finish_not_due (by simp [hp]) hd
end Sys2Proof.Machine
end

