-- ==== Sys2Proof/Proofs/Requests.lean ====
section
/-! PROOFS. Reservation requests (R53, R77, R127, R128) and CANCEL (R69). -/

namespace Sys2Proof.Machine

theorem withdrawIntent_of_isSome {s : State} (h : s.peer.request.isSome) : withdrawIntent s = requestWithdrawn s := by
  rw [withdrawIntent, if_pos h]
  rfl

theorem retestIntent_fits {r : IntentRequest} {s : State} (hr : s.peer.request = some r) (hp : r.phase = .heldBack)
    (hz : r.spacingMs = 0) (hd : s.peer.duplicate = false) (hw : wallSum s + r.amount ≤ s.config.wallCeiling)
    (h : Room (queued [intentFrame r.kind]
      { s with peer := { s.peer with request := some { r with phase := .queued } } })) :
    retestIntent s = queued [intentFrame r.kind]
      { s with peer := { s.peer with request := some { r with phase := .queued } } } := by
  have hl : s.bus.queue.length < 16 := by simpa [Room] using h
  simp only [retestIntent, hr]
  rw [if_pos (by simp [hp, hz, hw]), if_neg (by simp [hd])]
  exact enqueue_room hl

theorem retestIntent_over {r : IntentRequest} {s : State} (hr : s.peer.request = some r) 
     (hw : s.config.wallCeiling < wallSum s + r.amount) : retestIntent s = s := by
  simp [retestIntent, hr, hw]

/-- Settles O14: a wait that runs out withdraws its request, and a held-back one meets R127's test on the state that the
spacing's end or the peer's POSITION leaves. -/
theorem requestsRunOutOrAreTestedAgain : Obligations.RequestsRunOutOrAreTestedAgain := by
  refine ⟨?_, ?_⟩
  · intro s hr hu hs
    have hq : QuietEnd (requestWithdrawn s) := ⟨hu, rfl, hs⟩
    refine ⟨?_, ?_⟩
    · intro t hst h
      refine next_finish ?_ h
      calc dispenseCeilingOut s
        _ = endDispense .ceilingTimeout (withdrawIntent s) := if_pos (by simp [hst])
        _ = endDispense .ceilingTimeout (requestWithdrawn s) := by rw [withdrawIntent_of_isSome hr]
        _ = t := endDispense_fits hq h.1
    · intro t hst h
      refine next_finish ?_ h
      calc depositCeilingOut s
        _ = endDeposit .ceilingTimeout (withdrawIntent s) := if_pos (by simp [hst])
        _ = endDeposit .ceilingTimeout (requestWithdrawn s) := by rw [withdrawIntent_of_isSome hr]
        _ = t := endDeposit_fits hq h.1
  · intro s r ready again hr hp hd
    have hend : spacingEnd s = retestIntent { s with peer := { s.peer with request := some ready } } := by
      simp only [spacingEnd, hr]
      exact if_pos (by simp [hp])
    refine ⟨?_, ?_, ?_⟩
    · intro hw h
      refine next_finish ?_ h
      exact hend.trans (retestIntent_fits rfl hp rfl hd hw h.1)
    · intro hw h
      refine next_finish_not_due ?_ h
      exact hend.trans (retestIntent_over (r := ready) rfl hw)
    · intro src p entry u hpart hst hsrc hne hz hsum hw h
      refine next_finish ?_ h
      have hu : applyFrame src .lane true (positionEntry p) s = retested s u := by
        rw [applyFrame_lane hst hsrc hne, positionEntry_entryHeard]
        rfl
      have hready : r = ready := by cases r; simp_all [ready]
      calc receive src (applyFrame src .lane true (positionEntry p)) s
        _ = retested s u := (receive_of_takesPart hpart hsrc hne).trans hu
        _ = retestIntent u := if_pos (by simpa using hsum)
        _ = again u := retestIntent_fits (r := ready) (hready ▸ hr) hp rfl hd hw h.1

/-- Settles O13: `cancelCheck` decides by the engine state, and the effect by the same state. -/
theorem cancelActsByEngineState : Obligations.CancelActsByEngineState := by
  intro c s u hcomes hstr
  obtain ⟨hc, hb, hl, hf⟩ := hcomes
  have htaken
      (hst : s.disp.st = .awaitApproval ∨ s.disp.st = .awaitCeiling ∨ s.disp.st = .zeroCapture ∨
        s.disp.st = .picking)
      (hr : Room u) : takeCommand c .cancel false (cancelCheck c) (fun t => cancelDispense
        (replyDone c .cancel [] t)) s =
      cancelDispense u := by
    rw [takeCommand_taken hc (.inl hf)]
    · rw [replyDone_fits (by decide) hr]
    · rcases hst with e | e | e | e <;> simp [cancelCheck, firstOf, hb, hl, e, hstr]
  have hrefused {r : Reason} (hr : cancelCheck c (heard c s) = some r) (hroom : Room (refusedReply c .cancel r
    (heard c s))) :
      takeCommand c .cancel false (cancelCheck c) (fun t => cancelDispense (replyDone c .cancel [] t)) s =
        refusedReply c .cancel r (heard c s) := by
    rw [takeCommand_refused hc (.inl hf) hr, refuse_fits (by decide) hroom]
  have hstart : u.lane.state ≠ .starting := hc.not_starting
  have hdisp : u.disp = s.disp := heard_disp c s
  have hchP : u.chP = s.chP := heard_chP c s
  have hdrives : u.drives = s.drives := heard_drives c s
  have hslots : u.approval.slots = s.approval.slots := heard_slots c s
  refine ⟨?_, ?_, ?_, ?_, ?_, ?_⟩
  · intro x w t hst hx hk hq hfits h
    refine next_finish ((htaken (.inl hst) hfits.room.of_slotClosed).trans ?_) h
    have hkind : (u.approval.slots.getD x.slot {}).kind.isSome := by rw [hslots]; exact hk
    simp only [cancelDispense, hdisp, hst, hx]
    rw [settleSlot_withdrawn_fits hkind hfits.1]
    exact endDispense_fits hq h.1
  · intro t hst hr hu hfits h
    refine next_finish ((htaken (by simp [hst]) hfits.1).trans ?_) h
    simp only [cancelDispense, hdisp, hst, withdrawIntent_of_isSome hr]
    exact endDispense_fits ⟨hu, rfl, hstart⟩ h.1
  · intro t hst hw hq h
    refine next_finish ((htaken (by simp [hst]) ?_).trans ?_) h
    · exact h.room.of_dispenseEnded
    · have hshut : abandonCaptureP u =
          { u with
              chP := { s.chP with window := false, flow := .none, capturing := false },
              drives := { s.drives with pickTransport := false, pickGate := none } } := by
        rw [abandonCaptureP, closeWindow_of_shut (by rw [← hchP] at hw; exact hw), ← hchP, ← hdrives]
        rfl
      calc cancelDispense u
        _ = endDispense .cancelled (abandonCaptureP u) := by simp only [cancelDispense, hdisp, hst]
        _ = t := by rw [hshut]; exact endDispense_fits (by exact hq) h.1
  · intro t hst h
    refine next_finish ((htaken (by simp [hst]) h.1).trans ?_) h
    simp only [cancelDispense, hdisp, hst]
    rw [modDisp, hdisp]
  · intro t hst h
    exact next_finish (hrefused (by simp [cancelCheck, firstOf, hb, hl, hst]) h.1) h
  · intro t hst h
    refine next_finish (hrefused ?_ h.1) h
    rcases hst with e | e | e <;> simp [cancelCheck, firstOf, hb, hl, e]
end Sys2Proof.Machine
end

