-- ==== Sys2Proof/Proofs/Takes.lean ====
section
/-! PROOFS. The step and the reset state; the customer's takes and the take timers (R42, R65, R67, R80, R83, R88). -/

namespace Sys2Proof.Machine

/-- Settles O56: a step's own equations. -/
theorem stepRunsTheCommandInFront : Obligations.StepRunsTheCommandInFront := by
  refine ⟨fun _ _ _ => rfl, fun s hs => ⟨tick s, ?_, rfl, rfl, rfl, rfl, rfl, rfl, rfl, rfl⟩⟩
  simp [step, hs]

/-- Settles O57: the reset state is closed data. -/
theorem resetHoldsItsValues : Obligations.ResetHoldsItsValues := by
  unfold Obligations.ResetHoldsItsValues
  decide

theorem depositSettled_of_stacked {s : State} (hsec : s.dep.securing = false) (hst : s.dep.st = .stacking)
    (hesc : s.dep.escrow = []) (hcl : s.dep.clearance = .none) : depositSettled s = endDeposit .stacked s := by
  simp [depositSettled, hsec, hst, hesc, hcl]

theorem depositSettled_of_not_stacked {s : State} (hsec : s.dep.securing = false)
    (hst : ¬(s.dep.st = .stacking ∧ s.dep.escrow = [])) : depositSettled s = s := by
  simp [depositSettled, hsec]
  grind

/-- Settles O15: each take shuts the pocket shutter and hands on to the ending of its operation. -/
theorem takesCloseTheShutter : Obligations.TakesCloseTheShutter := by
  intro s
  refine ⟨?_, ?_, ?_, ?_, ?_⟩
  · intro t hst hms hq h
    refine next_finish ?_ h
    rw [if_pos (by simp [dispensePresented, hst, hms])]
    exact endDispense_fits (s := bundleTaken s) hq h.1
  · intro t hst hq h
    refine next_finish ?_ h
    rw [if_pos (by simp [hst])]
    exact endDeposit_fits (s := setShutter false s) hq h.1
  · intro hst hsh
    exact congrArg Host.Outcome.next (if_pos (by simp [hst, hsh]))
  · intro u hcl hsec
    have hu : (if s.dep.clearance == .opened then depositSettled (setShutter false
        (modDep (fun d => { d with pocketRefusals := 0, clearance := .none, takeMs := none }) s)) else s) =
          depositSettled u := if_pos (by simp [hcl])
    refine ⟨?_, ?_⟩
    · intro hst h
      refine next_finish ?_ h
      exact hu.trans (depositSettled_of_not_stacked (s := u) hsec hst)
    · intro hst hesc hq h
      refine next_finish ?_ h
      exact hu.trans ((depositSettled_of_stacked (s := u) hsec hst hesc rfl).trans (endDeposit_fits (s := u) hq h.1))
  · intro o t hph ho hu h
    refine next_finish ?_ h
    rw [if_pos (by simp [hph]), endCalAs, show (setShutter false s).cal.outcome = some o from ho]
    exact endCal_fits (s := setShutter false s) hu h.1
theorem stopCal_p {s : State} (h : s.cal.channel = .p) : stopCal s = closeWindow .p (stopPickTransport s) := by
  simp [stopCal, h]

theorem stopCal_q {s : State} (h : s.cal.channel = .q) : stopCal s = closeWindow .q (shutThroat s) := by
  simp [stopCal, h]

theorem endCalAs_of_none {o : CalOutcome} {s : State} (h : s.cal.outcome = none) : endCalAs o s = endCal o s := by
  simp [endCalAs, h]

theorem endCalAs_of_some {o x : CalOutcome} {s : State} (h : s.cal.outcome = some x) : endCalAs o s = endCal x s := by
  simp [endCalAs, h]

/-- Settles O16: each timer's end is the request for a retract, or the end of a calibration whose throat is open. -/
theorem takeTimersRetractThePocket : Obligations.TakeTimersRetractThePocket := by
  intro raws s ask shut
  refine ⟨?_, ?_, ?_, ?_, ?_⟩
  · intro t hst hms h
    refine next_finish_not_due ?_ h
    exact if_pos (c := dispensePresented s = true) (by simp [dispensePresented, hst, hms])
  · intro t hst h
    refine next_finish_not_due ?_ h
    exact if_pos (c := (s.dep.st == .returnPresented) = true) (by simp [hst])
  · intro t hcl h
    refine next_finish_not_due ?_ h
    exact if_pos (c := (s.dep.clearance == .opened) = true) (by simp [hcl])
  · intro t hph h
    refine next_finish_not_due ?_ h
    simp only [calTakeOut, hph]
    rfl
  · intro t hph hch ho hu h
    refine next_finish ?_ h
    have ho' : (closeWindow .q (shutThroat (takeSamples .q raws s))).cal.outcome = none := by simpa [takeSamples_q]
      using ho
    calc calTakeOut raws s
      _ = endCalAs .calFailed (stopCal (takeSamples .q raws s)) := by simp only [calTakeOut, hph, hch]
      _ = endCalAs .calFailed (closeWindow .q (shutThroat (takeSamples .q raws s))) := by rw [stopCal_q (by exact hch)]
      _ = endCal .calFailed (closeWindow .q (shutThroat (takeSamples .q raws s))) := endCalAs_of_none ho'
      _ = t := endCal_fits (by simpa [takeSamples_q] using hu) h.1
end Sys2Proof.Machine
end

