-- ==== Sys2Proof/Proofs/Asking.lean ====
section
/-! PROOFS. The commands that need approval (R4, R19, R107, R145, R192): the lowest FREE slot, the ASK and the
  ACCEPTED behind
it. -/

namespace Sys2Proof.Machine

section
variable {h : Header} {i : Nat} {s : State}

@[simp] theorem lowestFree_heard : lowestFree (heard h s) = lowestFree s := by simp [lowestFree]

@[simp] theorem nextSlotRef_heard : nextSlotRef (heard h s) i = nextSlotRef s i := by simp [nextSlotRef]

@[simp] theorem cassetteAt_heard : cassetteAt (heard h s) i = cassetteAt s i := by simp [cassetteAt]

@[simp] theorem denomAt_heard : denomAt (heard h s) i = denomAt s i := by simp [denomAt]

@[simp] theorem seated_heard : seated (heard h s) i = seated s i := by simp [seated]

/-- An ASK and the ACCEPTED behind it. -/
theorem ask_fits {k : CmdKind} {kind : OpKind} {amount src : Nat} {extra figures : List Byte} (hk : k ≠ .query)
    (hr : Room (acceptedReply h k figures (slotTaken i kind amount src extra s))) :
    replyAccepted h k figures (takeSlot i kind amount src extra s) =
      acceptedReply h k figures (slotTaken i kind amount src extra s) := by
  rw [takeSlot_fits hr.of_accepted, replyAccepted_fits hk hr]

end

/-- The slot shutter is shut but in OPEN (R98). -/
theorem reshutter_of_not_opened {s : State} (h : s.lane.state ≠ .opened) :
    reshutter s = { s with capture := { s.capture with shutter := false } } := by
  simp [reshutter, shutterWanted, h]

/-- Settles O1: each command's checks pass on what the peer view leaves, and its effect is an ASK with the ACCEPTED
    behind it. -/
theorem askingCommandsTakeASlot : Obligations.AskingCommandsTakeASlot := by
  intro c i s u ref hc hi
  have hi' : lowestFree (heard c s) = some i := lowestFree_heard.trans hi
  refine ⟨?_, ?_, ?_, ?_, ?_, ?_⟩
  · intro slot den count t hb hst hcal hloads h1 h4 hd hused hcount hseat h
    refine next_finish ?_ h
    rw [takeCommand_taken hc (.inl (by simp [hst]))]
    · simp only [askLoad, hi', modCash, heard_cash, nextSlotRef_heard]
      exact ask_fits (by decide) h.1
    · have hused' : (denomAt s den).used = true := hused
      simp [loadCheck, firstOf, hb, hst, hcal, hi, hseat, hused']
      rw [if_neg (by simpa using hloads), if_neg (by omega)]
  · intro t hb hst hex h
    refine next_finish ?_ h
    rw [takeCommand_taken hc (.inl (by simp [hst]))]
    · simp only [askExchange, hi', modCash, heard_cash, nextSlotRef_heard]
      exact ask_fits (by decide) h.1
    · simp [exchangeCheck, firstOf, hb, hst, hi, hex]
  · intro t hst hbin hidle h
    refine next_finish ?_ h
    rw [takeCommand_taken hc (.inl (by rcases hst with e | e <;> simp [e]))]
    · have hclosed : (heard c s).lane.state ≠ .opened := by rcases hst with e | e <;> simp [e]
      simp only [askBinService, hi', nextSlotRef_heard, reshutter_of_not_opened (s := modCapture _ _) hclosed]
      simp only [modCapture, heard_capture]
      exact ask_fits (by decide) h.1
    · rcases hst with e | e <;> simp [binOpenCheck, firstOf, e, hi, hbin, hidle]
  · intro t hst hl hw hz h
    refine next_finish ?_ h
    rw [takeCommand_taken hc (.inl hst)]
    · simp only [askAlarmClear, hi', latchOf, setLatchWait, modAlarm, heard_alarm, nextSlotRef_heard]
      exact ask_fits (by decide) h.1
    · have hquiet : latchZoneActive s.alarm .duress = false := by simpa [latchZoneActive, latchType] using hz
      simp [alarmClearCheck, latchOf, firstOf, latchSet, latchWait, hquiet, hi, hl, hw]
  · intro t hst hl hw hz h
    refine next_finish ?_ h
    rw [takeCommand_taken hc (.inl hst)]
    · simp only [askAlarmClear, hi', latchOf, setLatchWait, modAlarm, heard_alarm, nextSlotRef_heard]
      exact ask_fits (by decide) h.1
    · have hquiet : latchZoneActive s.alarm .attack = false := by simpa [latchZoneActive, latchType] using hz
      simp [alarmClearCheck, latchOf, firstOf, latchSet, latchWait, hquiet, hi, hl, hw]
  · intro t hst hw h
    refine next_finish ?_ h
    rw [takeCommand_taken hc (.inr rfl)]
    · simp only [askReset, hi', nextSlotRef_heard]
      exact ask_fits (by decide) h.1
    · simp [resetLaneCheck, firstOf, hst, hi, hw]
end Sys2Proof.Machine
end

