-- ==== Sys2Proof/Proofs/Stock.lean ====
section
/-! PROOFS. Unloads, CLEAR_PURGE and the presence switches (R6 to R8, R17). -/

namespace Sys2Proof.Machine

theorem modifyAt_eq_set {α : Type} {l : List α} {i : Nat} {x : α} (f : α → α) (h : l[i]? = some x) :
    modifyAt l i f = l.set i (f x) := by
  simp [modifyAt, List.modify_eq_set_getElem?, h]

theorem cassetteAt_eq {s : State} {i : Nat} {c : Cassette} (h : s.cash.cassettes[i]? = some c) :
    cassetteAt s i = c := by
  simp [cassetteAt, List.getD, h]

theorem modCassette_eq_set {s : State} {i : Nat} {c : Cassette} (f : Cassette → Cassette)
    (h : s.cash.cassettes[i]? = some c) :
    modCassette i f s = { s with cash := { s.cash with cassettes := s.cash.cassettes.set i (f c) } } := by
  simp only [modCassette, modCash, modifyAt_eq_set f h]

theorem beFlag_eq (b : Bool) : beFlag b = be 1 (if b = true then 1 else 2) := rfl

/-- Settles O2: each effect is a notice and one record rewritten. -/
theorem cassetteAndTrayRecordsEmpty : Obligations.CassetteAndTrayRecordsEmpty := by
  refine ⟨?_, ?_⟩
  · intro c s hcomes
    obtain ⟨hc, hb, hl, hf⟩ := hcomes
    refine ⟨?_, ?_⟩
    · intro i x u w empty t hst hcal hloads hi hx hxs h
      have hcash : u.cash = s.cash := heard_cash c s
      have hx' : u.cash.cassettes[i]? = some x := by rw [hcash]; exact hx
      have hw : Room w := h.1
      refine next_finish ?_ h
      rw [takeCommand_taken hc (.inl hf), replyDone_fits (by decide) hw.of_toldAll]
      · calc unloadCassette i u
          _ = modCassette i clearedCassette w := by
              simp only [unloadCassette, cassetteAt_eq hx']
              exact congrArg _ (noticeAll_fits hw)
          _ = t := by
              rw [modCassette_eq_set (s := w) clearedCassette hx']
              simp only [show w.cash = s.cash from hcash]
              rfl
      · simp [unloadCheck, firstOf, hb, hst, hcal, cassetteAt_eq hx, hxs]
        rw [if_neg (by simpa using hloads), if_neg (by omega)]
    · intro u p w t hmove hrec
      have hcash : u.cash = s.cash := heard_cash c s
      have hw (h : Fits t) : Room w := h.1
      have htaken (hst : s.lane.state = .closed ∨ s.lane.state = .recovery) (h : Fits t) :
          takeCommand c .clearPurge false (clearPurgeCheck c) (fun t => clearPurge (replyDone c .clearPurge [] t)) s =
            if s.lane.state == .recovery && s.lane.recovery.stacker == .noRoom then tryRecoveryPurge t else t := by
        rw [takeCommand_taken hc (.inl hf), replyDone_fits (by decide) (hw h).of_toldAll]
        · have htold : modCash (fun v => { v with purge := {} }) (noticeAll .purgeCleared
          (purgeBytes u.cash.purge) u) = t := by
            rw [show purgeBytes u.cash.purge = purgeBytes s.cash.purge by rw [hcash], modCash, 
              show noticeAll .purgeCleared (purgeBytes s.cash.purge) u = w from noticeAll_fits (hw h),
              show w.cash = s.cash from hcash]
            rfl
          have hlane : t.lane.state = s.lane.state := heard_laneState c s
          have hrecov : t.lane.recovery = s.lane.recovery := heard_recovery c s
          calc clearPurge u
            _ = if t.lane.state == .recovery && t.lane.recovery.stacker == .noRoom then tryRecoveryPurge t else t := by
              rw [← htold]
              rfl
            _ = _ := by rw [hlane, hrecov]
        · rcases hst with e | e <;> simp [clearPurgeCheck, firstOf, hb, e, purgeRunning, hmove, hrec]
      refine ⟨?_, ?_⟩
      · intro hst h
        exact next_finish ((htaken (.inl hst) h).trans (if_neg (by simp [hst]))) h
      · intro hst hroom h
        have hrecov : t.lane.recovery = s.lane.recovery := heard_recovery c s
        have hpurge : tryRecoveryPurge t = { t with lane := { t.lane with recovery := { s.lane.recovery with stacker
          := .running } } } := by
          rw [← hrecov]
          exact if_pos (by rfl)
        exact next_finish ((htaken (.inr hst) h).trans ((if_pos (by simp [hst, hroom])).trans hpurge)) h
  · intro s i c switch put hi hx hl
    refine ⟨?_, ?_⟩
    · intro t hsw h
      have hseat : seated s i = true := by simp [seated, hsw]
      refine next_finish ?_ h
      calc openSwitch (i + 1) s
        _ = removeCassette i (switch false) := by
            rw [openSwitch, if_pos (by simp [hseat]; omega)]
            exact if_neg (by simp [hl])
        _ = t := by
            simp only [removeCassette, cassetteAt_eq (s := switch false) hx, modCassette_eq_set
              (s := switch false) _ hx]
            exact noticeAll_fits h.1
    · intro hsw hst
      have hseat : seated s i = false := by simp [seated, hsw]
      refine congrArg Host.Outcome.next ?_
      calc closeSwitch (i + 1) s
        _ = modCassette i clearedCassette (switch true) := by
            rw [closeSwitch, if_pos (by simp [hseat]; omega)]
            exact if_pos (by simp [hl, cassetteAt_eq hx, hst])
        _ = _ := modCassette_eq_set _ hx
end Sys2Proof.Machine
end

