-- ==== Sys2Proof/Proofs/Binding.lean ====
section
/-! PROOFS. BIND and UNBIND (R154, R155), and the approval answers that are set aside (R160). -/

namespace Sys2Proof.Machine

/-- Settles O36: `bindCheck` and `unbindCheck` on what the peer view leaves. -/
theorem bindingFollowsItsCommands : Obligations.BindingFollowsItsCommands := by
  intro c s hc hl hf u
  refine ⟨?_, ?_, ?_, ?_, ?_⟩
  · intro t hb hk h
    have hkind : (peerEntry (heard c s) c.src).kind ≠ some .lane := hk
    refine next_taken hc (.inl hf) ?_ ?_ h
    · simp [bindCheck, firstOf, hl, hkind, hb]
    · rw [bindConsole, if_neg (by simp [isBound, hb]), modApproval, laneTime, heard_timeMs]
      exact replyDone_fits (by decide) h.1
  · intro t hb hk h
    have hkind : (peerEntry (heard c s) c.src).kind ≠ some .lane := hk
    refine next_taken hc (.inl hf) ?_ ?_ h
    · simp [bindCheck, firstOf, hl, hkind, hb, unbound, isBound]
    · rw [bindConsole, if_pos (by simp [isBound, hb])]
      exact replyDone_fits (by decide) h.1
  · rintro t ⟨b, hb, hne⟩ hk h
    have hkind : (peerEntry (heard c s) c.src).kind ≠ some .lane := hk
    refine next_refused hc (.inl hf) (by decide) ?_ h
    simp [bindCheck, firstOf, hl, hkind, hb, unbound, isBound, hne]
  · intro t hb h
    refine next_taken hc (.inl hf) ?_ (replyDone_fits (by decide) h.1) h
    simp [unbindCheck, firstOf, hl, hb, unbound, isBound]
  · intro t hb h
    refine next_refused hc (.inl hf) (by decide) ?_ h
    simp [unbindCheck, firstOf, hl, hb]

theorem applyFrame_slots (src : Nat) (k : PeerKind) (p : Bool) (f : PeerEntry → PeerEntry) (s : State) :
    (applyFrame src k p f s).approval.slots = s.approval.slots := by
  rw [applyFrame_frameOnly src k p f s]

section
variable {src slot ask verdict kind amount : Nat} {s : State}

/-- The first line of R160's table: a lane, no verdict or no slot. -/
theorem judgeAnswer_misaddressed
    (h : (peerEntry s src).kind = some .lane ∨ (verdict ≠ 1 ∧ verdict ≠ 2) ∨ 3 < slot) :
    judgeAnswer src slot ask verdict kind amount s = unexpectedAnswer src s := by
  unfold judgeAnswer
  dsimp only
  split
  · rfl
  · next hl => exact if_pos (by simpa [show (peerEntry s src).kind ≠ some .lane by simpa using hl] using h)

/-- The slot does not wait for this answer (R160). -/
theorem judgeAnswer_unmatched {x : ApprovalSlot} (hx : s.approval.slots.getD slot {} = x)
    (h : x.kind = none ∨ x.ask ≠ ask ∨ x.kind.map opKindPos ≠ some kind ∨ x.amount ≠ some amount) :
    judgeAnswer src slot ask verdict kind amount s = unexpectedAnswer src s := by
  unfold judgeAnswer
  simp only [hx]
  split
  · rfl
  · split
    · rfl
    · split
      · rfl
      · next k hk => exact if_pos (by simpa [hk, or_assoc] using h)

/-- The requester answers itself (R160). -/
theorem judgeAnswer_self {x : ApprovalSlot} (hx : s.approval.slots.getD slot {} = x)
    (hl : (peerEntry s src).kind ≠ some .lane) (hv : verdict = 1 ∨ verdict = 2) (hs : slot ≤ 3)
    (hk : x.kind.map opKindPos = some kind) (ha : x.ask = ask) (hm : x.amount = some amount)
    (hr : x.requester = some src) :
    judgeAnswer src slot ask verdict kind amount s = raiseSoft .selfApproval .none none (some src) s := by
  obtain ⟨k, hkind, hpos⟩ := Option.map_eq_some_iff.mp hk
  have hout : ¬((verdict != 1 && verdict != 2) || decide (3 < slot)) = true := by
    rcases hv with rfl | rfl <;> simpa using hs
  unfold judgeAnswer
  simp only [hx, hkind]
  rw [if_neg (by simpa using hl), if_neg hout, if_neg (by simp [ha, hpos, hm])]
  exact if_pos (by simp [hr])

end

/-- Settles O35: an answer is judged, on what the peer view leaves, by the first line of R160's table to apply. -/
theorem ignoredAnswersAreRecorded : Obligations.IgnoredAnswersAreRecorded := by
  intro src slot ask verdict kind amount s u lane hp hs hn hd
  have hslots : u.approval.slots = s.approval.slots := applyFrame_slots ..
  have htaken {t : State} (hd : t.lane.resetDue = false) (ht : takeAnswer src slot ask verdict kind amount s = t) :
      exec (.approvalAnswer src slot ask verdict kind amount) s = .next t :=
    next_finish_not_due ((receive_of_takesPart hp hs hn).trans ht) hd
  refine ⟨?_, ?_, ?_⟩
  · intro h31
    exact htaken hd (takeAnswer_toAll h31)
  · intro h31 hcases
    refine htaken hd ((takeAnswer_addressed h31).trans ?_)
    have haddressed (h : (peerEntry u src).kind = some .lane ∨ (verdict ≠ 1 ∧ verdict ≠ 2) ∨ 3 < slot) :=
      judgeAnswer_misaddressed (ask := ask) (kind := kind) (amount := amount) h
    rcases hcases with h | h | h | h
    · exact haddressed (.inl h)
    · exact haddressed (.inr (.inl h))
    · exact haddressed (.inr (.inr h))
    · refine judgeAnswer_unmatched (x := s.approval.slots.getD slot {}) (by rw [hslots]) ?_
      cases hx : s.approval.slots[slot]? with
      | none => simp [List.getD, hx]
      | some x => simpa [List.getD, hx] using h x hx
  · intro x h31 hlane hv hslot hx hk ha hm hr
    refine htaken hd ((takeAnswer_addressed h31).trans ?_)
    have hx' : u.approval.slots.getD slot {} = x := by simp [hslots, List.getD, hx]
    exact judgeAnswer_self hx' hlane hv hslot hk ha hm hr
end Sys2Proof.Machine
end

