-- ==== Sys2Proof/Proofs/Gaps.lean ====
section
/-! PROOFS. Gaps, windows and references (R21, R25, R32, R33, R37 to R39). -/

namespace Sys2Proof.Machine

/-! ### Arithmetic of section 6.2 over the integers -/

theorem absDiff_cast (a b : Nat) : ((absDiff a b : Nat) : Int) = |(a : Int) - b| := by
  rw [Int.abs_eq_natAbs, absDiff]
  omega

theorem moveToward_eq (z m : Nat) : moveToward z m = ((z : Int) + ((m : Int) - z).sign).toNat := by
  unfold moveToward
  rcases lt_trichotomy z m with h | rfl | h
  · rw [if_pos h, Int.sign_eq_one_of_pos (by omega)]
    omega
  · simp
  · rw [if_neg (by omega), if_pos h, Int.sign_eq_neg_one_of_neg (by omega)]
    omega

theorem clampTo_eq_toNat (n : Nat) : clampTo 20 400 n = (max 20 (min 400 (n : Int))).toNat := by
  unfold clampTo
  split
  · omega
  · split <;> omega

/-- R32, R33 over the integers. -/
theorem learn_eq (t q ref restart : Nat) :
    learn t q ref restart =
      if 88 ≤ q ∧ q ≤ 112 then
        ((max 20 (min 400 ((ref : Int) + ((t : Int) - ref).sign * ((|(t : Int) - ref| + 8) / 16)))).toNat, 0)
      else if restart + 1 < 8 then (ref, restart + 1)
      else ((max 20 (min 400 (t : Int))).toNat, 0) := by
  unfold learn
  by_cases hq : 88 ≤ q ∧ q ≤ 112
  · rw [if_pos (by simpa using hq), if_pos hq]
    refine congrArg (·, 0) ?_
    rcases lt_trichotomy ref t with h | rfl | h
    · rw [if_pos (by omega), clampTo_eq_toNat, Int.sign_eq_one_of_pos (by omega), abs_of_pos (by omega)]
      omega
    · rw [if_pos (by omega), clampTo_eq_toNat]
      simp
    · rw [if_neg (by omega), clampTo_eq_toNat, Int.sign_eq_neg_one_of_neg (by omega), abs_of_neg (by omega)]
      omega
  · rw [if_neg (by simpa using hq), if_neg hq]
    by_cases hr : restart + 1 < 8
    · rw [if_neg (by omega), if_pos hr]
    · rw [if_pos (by omega), if_neg hr, clampTo_eq_toNat]

/-! ### Gaps and windows -/

theorem endGap_untracked {ch : ChannelId} {n sum : Nat} {s : State} (h : n < 8 ∨ (chanAt s ch).lost = true) :
    endGap ch n sum s = s := by
  rw [endGap, if_pos (by simpa using h)]

section
variable {ch : ChannelId} {n sum z : Nat} {s : State}

/-- A gap in band moves the zero one count (R37). -/
theorem endGap_inBand (hn : 8 ≤ n) (hl : (chanAt s ch).lost = false) (hz : (chanAt s ch).zero = some z)
    (hb : |(((sum + n / 2) / n : Nat) : Int) - z| ≤ s.config.captureBand) :
    endGap ch n sum s =
      modChan ch (fun c => { c with
        zero := some ((z : Int) + ((((sum + n / 2) / n : Nat) : Int) - z).sign).toNat, drift := 0 }) s := by
  have hband : absDiff (roundDiv sum n) (zeroOf (chanAt s ch)) ≤ s.config.captureBand := by
    rw [← absDiff_cast] at hb
    simpa [zeroOf, hz, roundDiv] using hb
  rw [endGap, if_neg (by simp [hl]; omega)]
  dsimp only
  rw [if_pos hband]
  cases ch <;>
  · simp only [modChan, chanAt] at hz ⊢
    rw [show zeroOf _ = z from by simp [zeroOf, hz], moveToward_eq]
    rfl

/-- A gap out of band raises ZERO_DRIFT (R38), and ZERO_LOST at the eighth in a row (R39). -/
theorem endGap_outOfBand (hn : 8 ≤ n) (hl : (chanAt s ch).lost = false) (hz : (chanAt s ch).zero = some z)
    (hb : (s.config.captureBand : Int) < |(((sum + n / 2) / n : Nat) : Int) - z|) :
    endGap ch n sum s =
      (let t := raiseSoft .zeroDrift (channelOp s ch) (some (.channel ch)) none
        (modChan ch (fun c => { c with drift := c.drift + 1 }) s)
      if (chanAt s ch).drift + 1 ≥ 8 then
        raiseHard .zeroLost (channelOp s ch) (some (.channel ch)) none (modChan ch (fun c => { c with lost := true }) t)
      else t) := by
  have hband : ¬absDiff (roundDiv sum n) (zeroOf (chanAt s ch)) ≤ s.config.captureBand := by
    rw [← absDiff_cast] at hb
    simpa [zeroOf, hz, roundDiv] using hb
  rw [endGap, if_neg (by simp [hl]; omega)]
  dsimp only
  rw [if_neg hband]

/-- A gap in progress is tracked as its window closes (R21). -/
theorem closeWindow_of_gap (hw : (chanAt s ch).window = true) (hf : (chanAt s ch).flow = .gap n sum) :
    closeWindow ch s =
      endGap ch n sum (modChan ch (fun c => { c with window := false, flow := .none, capturing := false }) s) := by
  simp [closeWindow, hf, hw]

/-- A run in progress is discarded (R25). -/
theorem closeWindow_of_not_gap (hf : ∀ n sum, (chanAt s ch).flow ≠ .gap n sum) :
    closeWindow ch s = modChan ch (fun c => { c with window := false, flow := .none, capturing := false }) s := by
  unfold closeWindow
  dsimp only
  split
  · next n sum h => exact absurd h (hf n sum)
  · rfl

end

/-- Settles O4: the branches of `endGap`, `closeWindow` and `learn`, their figures over the integers. -/
theorem zeroAndReferenceFollowTheNotes : Obligations.ZeroAndReferenceFollowTheNotes := by
  refine ⟨?_, ?_, ?_⟩
  · intro ch n sum z s c put m away hz
    refine ⟨endGap_untracked, fun hn hl => ⟨fun hb => ?_, fun hb => ?_⟩⟩
    · rw [endGap_inBand hn hl hz hb]
      cases ch <;> rfl
    · rw [endGap_outOfBand hn hl hz hb]
      refine ⟨fun hd => ?_, ?_⟩
      · rw [if_neg (Nat.not_le.mpr hd)]
        cases ch <;> rfl
      · intro lost t hd h
        rw [if_pos hd]
        cases ch <;> exact raiseHard_fits h
  · intro ch s c idle closed
    refine ⟨fun n sum hw hf => ?_, ?_, ?_⟩
    · rw [closeWindow_of_gap hw hf]
      cases ch <;> rfl
    · intro h
      rcases h with hw | hf
      · rw [closeWindow_of_shut hw]
        cases ch <;> rfl
      · rw [closeWindow_of_not_gap (by simp [c] at hf; simp [hf])]
        cases ch <;> rfl
    · intro cs trail h
      rw [closeWindow_of_not_gap (by rcases h with h | h <;> simp [c] at h <;> simp [h])]
      cases ch <;> rfl
  · intro t q ref restart d inRange
    exact learn_eq t q ref restart
end Sys2Proof.Machine
end

