-- ==== Sys2Proof/Proofs/Records.lean ====
section
/-! PROOFS. The measured note record and its class (R26 to R30). -/

namespace Sys2Proof.Machine

theorem clampTo_zero (b n : Nat) : clampTo 0 b n = min n b := by
  unfold clampTo
  rw [if_neg (by omega)]
  split <;> omega

theorem thicknessClass_eq (q : Nat) : thicknessClass q = ratioClass q := by
  simp only [thicknessClass, ratioClass, Nat.lt_succ_iff (n := 59), Nat.lt_succ_iff (n := 150), Nat.lt_succ_iff
    (n := 260)]

theorem lengthFits_iff (d : Denom) (n : Nat) :
    lengthFits d (n * 5) = true ↔ |(5 * n : Int) - d.nomLength| ≤ d.window := by
  have h := absDiff_cast (n * 5) d.nomLength
  rw [show ((n * 5 : Nat) : Int) = 5 * n by push_cast; ring] at h
  rw [lengthFits, decide_eq_true_iff, ← h, Int.ofNat_le]

section
variable (g : Nat) (cs : List Nat) (cut : Bool) (ref den : Option Nat) (cls : Option Nat → NoteClass)

/-- What every record of a run holds (R26, R27, R29). -/
theorem measuredRecord_whole :
    let r := measuredRecord g cs cut ref den cls
    r.n = cs.length ∧ r.length = 5 * cs.length ∧ r.cutOff = cut ∧ (r.fragment = true ↔ cs.length < 16) ∧
      (cut = true → r.cls = .overlap) ∧ (cut = false → cs.length < 16 → r.cls = .thin) ∧
      (cs.length < 16 → r.c = none ∧ r.t = none ∧ r.q = none) := by
  refine ⟨rfl, Nat.mul_comm _ 5, rfl, by simp [measuredRecord], ?_, ?_, ?_⟩
  · rintro rfl
    rfl
  · rintro rfl hn
    simp [measuredRecord, hn]
  · intro hn
    simp [measuredRecord, meanCorrected, hn]

/-- The figures of a run that is no fragment (R26, R28). -/
theorem measuredRecord_figures (hn : 16 ≤ cs.length) :
    let r := measuredRecord g cs cut ref den cls
    let mean := (((cs.drop 4).take (cs.length - 8)).sum + (cs.length - 8) / 2) / (cs.length - 8)
    let thick := min ((mean * g + 512) / 1024) 32767
    r.c = some mean ∧ r.t = some thick ∧ r.q = ref.map (fun x => min (thick * 100 / x) 999) ∧ r.ref = ref ∧
      (cut = false → r.cls = cls (ref.map fun x => min (thick * 100 / x) 999)) := by
  have hn' : ¬cs.length < 16 := Nat.not_lt.mpr hn
  cases ref <;>
    simp [measuredRecord, meanCorrected, hn', roundDiv, noteThickness, thickness, noteRatio, clampTo_zero] <;>
    rintro rfl <;> simp

end

theorem matchedDenom_eq_some {s : State} {l d : Nat} (hd : d ∈ candidates s l) (h : ∀ e ∈ candidates s l, e = d) :
    matchedDenom s l = some d := by
  have hnodup : (candidates s l).Nodup := List.nodup_range.filter _
  have hlist : candidates s l = [d] := by
    have hrep := List.eq_replicate_of_mem h
    have hlen : (candidates s l).length ≤ 1 := List.nodup_replicate.mp (hrep ▸ hnodup)
    have hpos := List.length_pos_of_mem hd
    rw [hrep, show (candidates s l).length = 1 by omega]
    rfl
  simp [matchedDenom, hlist]

theorem matchedDenom_eq_none {s : State} {l : Nat} (h : ∀ d ∈ candidates s l, ∃ e ∈ candidates s l, e ≠ d) :
    matchedDenom s l = none := by
  unfold matchedDenom
  split
  · next d hd => simp [hd] at h
  · rfl

theorem mem_candidates {s : State} {n d : Nat} :
    d ∈ candidates s (n * 5) ↔ d < 8 ∧ (s.cash.denoms.getD d {}).used = true ∧
        |(5 * n : Int) - (s.cash.denoms.getD d {}).nomLength| ≤ (s.cash.denoms.getD d {}).window := by
  rw [← lengthFits_iff]
  simp only [candidates, List.mem_filter, List.mem_range, Bool.and_eq_true]
  rfl

/-- Settles O6: `measuredRecord` gives the figures of a record, and each channel its reference, denomination and
    class. -/
theorem measuredRecordIsClassified : Obligations.MeasuredRecordIsClassified := by
  intro s i cs cut n mean thick ratio whole
  refine ⟨?_, ?_⟩
  · intro d hd r e good q
    have hr : r = measuredRecord s.chP.gain cs cut (some (cassetteAt s i).ref) (some d) fun q =>
        if ratioClass (q.getD 0) = .single ∧ ¬good then .length else ratioClass (q.getD 0) := by
      have hfits : lengthFits (denomAt s d) (cs.length * 5) = true ↔ good := lengthFits_iff _ _
      simp only [r, recordP, hd, thicknessClass_eq]
      refine congrArg (measuredRecord _ _ _ _ _) (funext fun x => ?_)
      by_cases hg : good
      · simp only [hfits.mpr hg]
        cases ratioClass (x.getD 0) <;> simp [hg]
      · simp only [Bool.eq_false_iff.mpr (mt hfits.mp hg)]
        cases ratioClass (x.getD 0) <;> simp [hg]
    rw [hr]
    refine ⟨measuredRecord_whole .., rfl, fun hn => ?_⟩
    exact measuredRecord_figures _ _ _ _ _ _ hn
  · intro r fits
    refine ⟨measuredRecord_whole .., fun hn => ?_, ?_, ?_⟩
    · obtain ⟨hc, ht, -⟩ := measuredRecord_figures s.chQ.gain cs cut _ _ _ hn
      exact ⟨hc, ht⟩
    · intro d hd hone hn q
      have hden : matchedDenom s (cs.length * 5) = some d :=
        matchedDenom_eq_some (mem_candidates.mpr hd) fun e he => hone e (mem_candidates.mp he)
      have hr : r = measuredRecord s.chQ.gain cs cut (some (denomAt s d).ref) (some d) fun q => ratioClass
        (q.getD 0) := by
        simp only [r, recordQ, hden, thicknessClass_eq]
        rfl
      rw [hr]
      obtain ⟨-, -, hq, href, hcls⟩ := measuredRecord_figures s.chQ.gain cs cut (some (denomAt s d).ref) (some d)
        (fun q => ratioClass (q.getD 0)) hn
      exact ⟨rfl, hq, href, hcls⟩
    · intro hmany
      have hden : matchedDenom s (cs.length * 5) = none :=
        matchedDenom_eq_none fun d hd => by
          obtain ⟨e, he, hne⟩ := hmany d (mem_candidates.mp hd)
          exact ⟨e, mem_candidates.mpr he, hne⟩
      have hr : r = measuredRecord s.chQ.gain cs cut none none fun _ => .unclassified := by
        simp only [r, recordQ, hden]
        rfl
      have hq : r.q = none := by simp [hr, measuredRecord]
      refine ⟨by rw [hr]; rfl, hq, by simp [hr, measuredRecord], ?_⟩
      rintro rfl hn
      rw [hr]
      obtain ⟨-, -, -, -, hcls⟩ := measuredRecord_figures s.chQ.gain cs false none none (fun _ => .unclassified) hn
      exact hcls rfl
end Sys2Proof.Machine
end

