-- ==== Sys2Proof/Proofs/Captures.lean ====
section
/-! PROOFS. Zero captures (R34, R35) and what they lead to (R41, R42, R54, R55, R78). -/

namespace Sys2Proof.Machine

theorem foldl_max_le {l : List Nat} {m n : Nat} : l.foldl max m ≤ n ↔ m ≤ n ∧ ∀ a ∈ l, a ≤ n := by
  induction l generalizing m with
  | nil => simp
  | cons x l ih => simp [ih, and_assoc]

theorem le_foldl_min {l : List Nat} {m n : Nat} : n ≤ l.foldl min m ↔ n ≤ m ∧ ∀ a ∈ l, n ≤ a := by
  induction l generalizing m with
  | nil => simp
  | cons x l ih => simp [ih, and_assoc]

/-- R34 on samples of a 12-bit converter. -/
theorem zeroGood_iff {g : Nat} {raws : List Nat} (h : ∀ r ∈ raws, r ≤ 4095) :
    zeroGood g raws = true ↔ CaptureGood g raws := by
  have hpresent (r : Nat) : (!isPresent (zeroCandidate raws) g r) = true ↔
      ((r - (raws.sum + 32) / 64) * g + 512) / 1024 < 30 := by
    rw [Bool.not_eq_true', isPresent, decide_eq_false_iff_not, Nat.not_le]
    rfl
  have hspread : raws.foldl max 0 - raws.foldl min 4095 ≤ 48 ↔ ∀ a ∈ raws, ∀ b ∈ raws, a ≤ b + 48 := by
    rw [Nat.sub_le_iff_le_add, foldl_max_le]
    refine ⟨fun hm a ha b hb => ?_, fun hs => ⟨Nat.zero_le _, fun a ha => ?_⟩⟩
    · have hmin := (le_foldl_min (l := raws) (m := 4095)).mp le_rfl
      exact (hm.2 a ha).trans (by have := hmin.2 b hb; omega)
    · have hmin : a - 48 ≤ raws.foldl min 4095 := 
        le_foldl_min.mpr ⟨by have := h a ha; omega, fun b hb => by have := hs a ha b hb; omega⟩
      omega
  rw [zeroGood, Bool.and_eq_true, List.all_eq_true, decide_eq_true_iff, hspread]
  simp only [hpresent]

section
variable {raws : List Nat} {s : State}

theorem decideCapture_good_p (hc : s.chP.capturing = true) (hl : raws.length = 64) (hr : ∀ r ∈ raws, r ≤ 4095)
    (hg : CaptureGood s.chP.gain raws) : decideCapture .p raws s = capturedP (captureOk .p raws s) := by
  have hz := (zeroGood_iff hr).mpr hg
  simp only [decideCapture, chanAt, hc, hl, hz]
  exact if_pos (by rfl)

theorem decideCapture_good_q (hc : s.chQ.capturing = true) (hl : raws.length = 64) (hr : ∀ r ∈ raws, r ≤ 4095)
    (hg : CaptureGood s.chQ.gain raws) : decideCapture .q raws s = capturedQ (captureOk .q raws s) := by
  have hz := (zeroGood_iff hr).mpr hg
  simp only [decideCapture, chanAt, hc, hl, hz]
  exact if_pos (by rfl)

theorem decideCapture_bad_p (hc : s.chP.capturing = true) (hl : raws.length = 64) (hr : ∀ r ∈ raws, r ≤ 4095)
    (hg : ¬CaptureGood s.chP.gain raws) : decideCapture .p raws s = failedP (captureFailed .p s) := by
  have hz : zeroGood s.chP.gain raws = false := Bool.eq_false_iff.mpr (mt (zeroGood_iff hr).mp hg)
  simp only [decideCapture, chanAt, hc, hl, hz]
  exact if_pos (by rfl)

theorem decideCapture_bad_q (hc : s.chQ.capturing = true) (hl : raws.length = 64) (hr : ∀ r ∈ raws, r ≤ 4095)
    (hg : ¬CaptureGood s.chQ.gain raws) : decideCapture .q raws s = failedQ (captureFailed .q s) := by
  have hz : zeroGood s.chQ.gain raws = false := Bool.eq_false_iff.mpr (mt (zeroGood_iff hr).mp hg)
  simp only [decideCapture, chanAt, hc, hl, hz]
  exact if_pos (by rfl)

theorem calCaptured_p (h : s.cal.channel = .p) :
    calCaptured s =
      { s with
          cal := { s.cal with phase := .waiting },
          drives := { s.drives with pickGate := some s.cal.cassette, pickTransport := true } } := by
  unfold calCaptured
  split
  · rfl
  · next hch => exact nomatch h.symm.trans hch

theorem calCaptured_q (h : s.cal.channel = .q) :
    calCaptured s =
      { s with
          cal := { s.cal with phase := .waiting, takeMs := some (s.config.takeTimeout * 1000) },
          drives := { s.drives with throatGate := true, throatTransport := true } } := by
  unfold calCaptured
  split
  · next hch => exact nomatch h.symm.trans hch
  · rfl

/-- A pick is started from the cassette that the selection gives (R55). -/
theorem startPick_of_selected {j k : Nat} (hj : nextPair s.disp = some j)
    (hk : selectCassette s (s.disp.plan.getD j default).den = some k) :
    startPick s =
      { s with
          disp := { s.disp with pair := j, lastCassette := some k, pick := .gateOpen },
          drives := { s.drives with pickGate := some k, pickTransport := true } } := by
  simp only [startPick, hj, hk]
  rfl
end

/-- Settles O3: `decideCapture` turns on R34's two conditions, and what follows on the operation that captures. -/
theorem zeroCapturesSucceedOrFail : Obligations.ZeroCapturesSucceedOrFail := by
  refine ⟨?_, ?_, ?_⟩
  · intro raws s z opened hl hr hd
    refine ⟨fun hc hg => ⟨?_, ?_⟩, fun hc hg => ⟨?_, ?_⟩⟩
    · intro j k hcal hst hj hk
      refine next_finish_not_due ((decideCapture_good_p hc hl hr hg).trans ?_) hd
      calc capturedP (captureOk .p raws s)
        _ = startPick (modDisp (fun d => { d with st := .picking }) (captureOk .p raws s)) := by
          rw [capturedP, if_neg (by simp [captureOk, hcal]), if_pos (by simp [captureOk, hst])]
        _ = _ := startPick_of_selected hj hk
    · intro hcal hch
      refine next_finish_not_due ((decideCapture_good_p hc hl hr hg).trans ?_) hd
      rw [capturedP, if_pos (by simp [captureOk, hcal, hch]), calCaptured_p (by exact hch)]
      rfl
    · intro hcal hst
      refine next_finish_not_due ((decideCapture_good_q hc hl hr hg).trans ?_) hd
      rw [capturedQ, if_neg (by simp [captureOk, hcal]), if_pos (by simp [captureOk, hst])]
      rfl
    · intro hcal hch
      refine next_finish_not_due ((decideCapture_good_q hc hl hr hg).trans ?_) hd
      rw [capturedQ, if_pos (by simp [captureOk, hcal, hch]), calCaptured_q (by exact hch)]
      rfl
  · intro raws s hl hr hcal hq
    refine ⟨?_, ?_⟩
    · intro u t hc hg hst h
      have hu : captureFailed .p s = u := by
        rw [captureFailed, show channelOp s .p = .dispense by simp [channelOp, hcal]]
        exact raiseHard_fits h.room.of_dispenseEnded
      refine next_finish ((decideCapture_bad_p hc hl hr hg).trans ?_) h
      rw [hu, failedP, if_neg (by rw [show u.cal = s.cal from rfl]; simp [hcal]),
        if_pos (by rw [show u.disp = s.disp from rfl]; simp [hst])]
      exact endDispense_fits (by exact hq) h.1
    · intro u t hc hg hst h
      have hu : captureFailed .q s = u := by
        rw [captureFailed, show channelOp s .q = .deposit by simp [channelOp, hcal]]
        exact raiseHard_fits h.room.of_depositEnded
      refine next_finish ((decideCapture_bad_q hc hl hr hg).trans ?_) h
      rw [hu, failedQ, if_neg (by rw [show u.cal = s.cal from rfl]; simp [hcal]),
        if_pos (by rw [show u.dep = s.dep from rfl]; simp [hst])]
      exact endDeposit_fits (by exact hq) h.1
  · intro raws s idle hl hr hcal hub
    refine ⟨?_, ?_⟩
    · intro u t hch hc hw hg h
      have hroom : Room u := h.room.of_calEnded
      have hu : captureFailed .p s = faulted .zeroUnstable .calibrate (some (.channel .p)) none
          { s with chP := { s.chP with capturing := false } } := by
        rw [captureFailed, show channelOp s .p = .calibrate by simp [channelOp, hcal, hch]]
        exact raiseHard_fits hroom
      refine next_finish ((decideCapture_bad_p hc hl hr hg).trans ?_) h
      calc failedP (captureFailed .p s)
        _ = endCal .zeroFault (stopCal (captureFailed .p s)) := by
          rw [hu]
          exact if_pos (show (s.cal.phase == .zeroCapture && s.cal.channel == .p) = true by simp [hcal, hch])
        _ = endCal .zeroFault { u with drives := { s.drives with pickTransport := false, pickGate := none } } := by
          rw [hu, stopCal_p (by exact hch), closeWindow_of_shut (by exact hw)]
          rfl
        _ = t := endCal_fits (by exact hub) h.1
    · intro u t hch hc hw hg h
      have hroom : Room u := h.room.of_calEnded
      have hu : captureFailed .q s = faulted .zeroUnstable .calibrate (some (.channel .q)) none
          { s with chQ := { s.chQ with capturing := false } } := by
        rw [captureFailed, show channelOp s .q = .calibrate by simp [channelOp, hcal, hch]]
        exact raiseHard_fits hroom
      refine next_finish ((decideCapture_bad_q hc hl hr hg).trans ?_) h
      calc failedQ (captureFailed .q s)
        _ = endCal .zeroFault (stopCal (captureFailed .q s)) := by
          rw [hu]
          exact if_pos (show (s.cal.phase == .zeroCapture && s.cal.channel == .q) = true by simp [hcal, hch])
        _ = endCal .zeroFault { u with drives := { s.drives with throatGate := false, throatTransport := false } } := by
          rw [hu, stopCal_q (by exact hch), closeWindow_of_shut (by exact hw)]
          rfl
        _ = t := endCal_fits (by exact hub) h.1
end Sys2Proof.Machine
end

