-- ==== Sys2Proof/Proofs/RunStarts.lean ====
section
/-! PROOFS. The start of a run (R8, R23, R37, R41, R42, R82). -/

namespace Sys2Proof.Machine

section
variable (ch : ChannelId) (n sum : Nat) (s : State)
@[simp] theorem endGap_config : (endGap ch n sum s).config = s.config := by rw [endGap_windowOnly ch n sum s]
@[simp] theorem endGap_cal : (endGap ch n sum s).cal = s.cal := by rw [endGap_windowOnly ch n sum s]
@[simp] theorem endGap_disp : (endGap ch n sum s).disp = s.disp := by rw [endGap_windowOnly ch n sum s]
@[simp] theorem endGap_dep : (endGap ch n sum s).dep = s.dep := by rw [endGap_windowOnly ch n sum s]
end

/-- A present sample after a gap of samples none of which is present (R23, R37). -/
theorem startRun_of_gap {ch : ChannelId} {raws : List Nat} {first n sum : Nat} {s : State}
    (hw : (chanAt s ch).window = true) (hf : (chanAt s ch).flow = .gap n sum)
    (ha : ∀ r ∈ raws, ((r - zeroOf (chanAt s ch)) * (chanAt s ch).gain + 512) / 1024 < 30)
    (hp : 30 ≤ ((first - zeroOf (chanAt s ch)) * (chanAt s ch).gain + 512) / 1024) :
    startRun ch raws first s =
      runStarted ch (endGap ch (n + raws.length) (sum + raws.sum)
        (modChan ch (fun c => { c with flow := .run [first - zeroOf (chanAt s ch)] [] }) s)) := by
  have hfilter : (raws.filter fun r => !isPresent (zeroOf (chanAt s ch)) (chanAt s ch).gain r) = raws := by
    refine List.filter_eq_self.mpr fun r hr => ?_
    rw [Bool.not_eq_true', isPresent, decide_eq_false_iff_not, Nat.not_le]
    exact ha r hr
  simp only [startRun, hf, feedFlow, hfilter]
  exact if_pos (Bool.and_eq_true_iff.mpr ⟨hw, decide_eq_true hp⟩)

/-- Settles O5: the gap is tracked once the run has begun, and then the operation in progress has its result of the
    pick. -/
theorem runStartsAtPresentSample : Obligations.RunStartsAtPresentSample := by
  intro raws first n sum s gapped absent seen run cleared
  refine ⟨?_, ?_⟩
  · rintro ⟨hw, hf, ha, hp⟩ u hd
    have hstart : startRun .p raws first s = runStarted .p u := startRun_of_gap (ch := .p) hw hf ha hp
    have hcal : u.cal = s.cal := endGap_cal ..
    have hdisp : u.disp = s.disp := endGap_disp ..
    refine ⟨?_, ?_⟩
    · intro i hph hst hlast
      refine next_finish_not_due (hstart.trans ?_) hd
      rw [runStarted, if_neg (by simp [hcal, hph]), if_pos (by simp [hdisp, hst]), hdisp, hlast, modDisp, hdisp]
      rfl
    · intro hph hch
      refine next_finish_not_due (hstart.trans ?_) hd
      rw [runStarted, if_pos (by simp [hcal, hph, hch]), modCal, hcal]
      rfl
  · rintro ⟨hw, hf, ha, hp⟩ u hd
    have hstart : startRun .q raws first s = runStarted .q u := startRun_of_gap (ch := .q) hw hf ha hp
    have hcal : u.cal = s.cal := endGap_cal ..
    have hdep : u.dep = s.dep := endGap_dep ..
    have hconfig : u.config = s.config := endGap_config ..
    refine ⟨?_, ?_, ?_⟩
    · intro hph hst hcl
      refine next_finish_not_due (hstart.trans ?_) hd
      rw [runStarted, if_neg (by simp [hcal, hph]), if_pos (by simp [hdep, hst, hcl]), modDep, hdep, hconfig]
    · intro hph hcl
      refine next_finish_not_due (hstart.trans ?_) hd
      rw [runStarted, if_neg (by simp [hcal, hph]), if_neg (by simp [hdep, hcl])]
    · intro hph hch
      refine next_finish_not_due (hstart.trans ?_) hd
      rw [runStarted, if_pos (by simp [hcal, hph, hch]), modCal, hcal]
end Sys2Proof.Machine
end

