-- ==== Sys2Proof/Proofs/Counts.lean ====
section
/-! PROOFS. A cassette's count and the notices that follow it (R3); the queue gets no shorter. -/

namespace Sys2Proof.Machine

/-! ### The queue never gets shorter -/

theorem enqueue_length_le (e : TxEntry) (s : State) : s.bus.queue.length ≤ (enqueue e s).bus.queue.length := by
  have hlost (x : TxEntry) (t : State) : (frameLost x t).bus.queue = t.bus.queue := by
    unfold frameLost
    cases x.owner <;> dsimp only [] <;> (try split) <;> rfl
  unfold enqueue
  split
  · simp [modBus]
  · dsimp only
    split
    · next old hold =>
      split
      · have hmem : old ∈ s.bus.queue.reverse := List.mem_of_find?_eq_some hold
        have hp : pendingOfClass (weakestPending s.bus.queue) old = true := List.find?_some hold
        have hlen := List.length_eraseP_of_mem hmem hp
        have hpos := List.length_pos_of_mem hmem
        rw [hlost]
        simp only [modBus, raiseSoft, recordFault, List.length_append, List.length_reverse, List.length_singleton] at *
        omega
      · rw [hlost]
        exact le_rfl
    · rw [hlost]
      exact le_rfl

theorem report_length_le (cls : FrameClass) (kind : FrameKind) (dst : Nat) (red : Bool) (owner : Owner) (c : List Byte)
    (s : State) : s.bus.queue.length ≤ (report cls kind dst red owner c s).bus.queue.length := by
  have hfold (f : Bool × List Byte → TxEntry) (l : List (Bool × List Byte)) (t : State) :
      t.bus.queue.length ≤ (l.foldl (fun t p => enqueue (f p) t) t).bus.queue.length := by
    induction l generalizing t with
    | nil => exact le_rfl
    | cons p l ih => exact (enqueue_length_le (f p) t).trans (ih _)
  exact hfold _ _ (modBus (fun b => { b with reportNo := (b.reportNo + 1) % 256 }) s)

theorem endGap_length_le (ch : ChannelId) (n sum : Nat) (s : State) :
    s.bus.queue.length ≤ (endGap ch n sum s).bus.queue.length := by
  have chan (f : Channel → Channel) (t : State) : (modChan ch f t).bus = t.bus := by cases ch <;> rfl
  unfold endGap
  dsimp only
  split
  · exact le_rfl
  · split
    · rw [chan]
    · split
      · refine le_trans ?_ (report_length_le _ _ _ _ _ _ _)
        simp only [recordFault, raiseSoft, chan]
        exact le_rfl
      · simp only [recordFault, raiseSoft, chan]
        exact le_rfl

theorem closeWindow_length_le (ch : ChannelId) (s : State) :
    s.bus.queue.length ≤ (closeWindow ch s).bus.queue.length := by
  have chan (f : Channel → Channel) (t : State) : (modChan ch f t).bus = t.bus := by cases ch <;> rfl
  unfold closeWindow
  dsimp only
  split
  · split
    · refine le_trans ?_ (endGap_length_le _ _ _ _)
      rw [chan]
    · rw [chan]
  · rw [chan]

theorem Room.of_endGap {ch : ChannelId} {n sum : Nat} {s : State} (h : Room (endGap ch n sum s)) : Room s :=
  (endGap_length_le ch n sum s).trans h

theorem Room.of_closeWindow {ch : ChannelId} {s : State} (h : Room (closeWindow ch s)) : Room s :=
  (closeWindow_length_le ch s).trans h

/-! ### A cassette's count (R3, R9 to R11, R15) -/

/-- The notice of a cassette record `c` that enters LOW from ACTIVE, or EMPTY (R3). -/
def countTold (i : Nat) (c : Cassette) (st : CassetteState) (s : State) : State :=
  if st = .empty then toldAll .cassetteEmpty (be 1 (i + 1) ++ cassetteFigures c) s
  else if st = .low ∧ c.st = .active then toldAll .cassetteLow (be 1 (i + 1) ++ be 2 c.count) s
  else s

/-- The record of cassette C`i+1` is `c`. -/
def cassettePut (i : Nat) (c : Cassette) (s : State) : State :=
  { s with cash := { s.cash with cassettes := s.cash.cassettes.set i c } }

theorem stockChanged_eq (i : Nat) (f : Cassette → Cassette) (s : State) :
    stockChanged i f s =
      (let c := f (s.cash.cassettes.getD i {})
       let st := if c.count = 0 then .empty else if c.count ≤ c.setpoint then .low else .active
       if c.st = .active ∨ c.st = .low then countTold i c st (cassettePut i { c with st := st } s)
       else cassettePut i c s) := rfl

/-- `t` differs from `s` in the cassettes and the bus unit at most. -/
def StockOnly (s t : State) : Prop :=
  t = { s with cash := { s.cash with cassettes := t.cash.cassettes }, bus := t.bus }

theorem countTold_stockOnly (i : Nat) (c x : Cassette) (st : CassetteState) (s : State) :
    StockOnly s (countTold i c st (cassettePut i x s)) := by
  unfold countTold
  split
  · rfl
  · split <;> rfl

theorem stockChanged_stockOnly (i : Nat) (f : Cassette → Cassette) (s : State) : StockOnly s
    (stockChanged i f s) := by
  rw [stockChanged_eq]
  dsimp only
  generalize (if (f _).count = 0 then _ else _ : CassetteState) = st
  split
  · exact countTold_stockOnly ..
  · rfl

section
variable (i : Nat) (f : Cassette → Cassette) (s : State)
@[simp] theorem stockChanged_config : (stockChanged i f s).config = s.config := by rw [stockChanged_stockOnly i f s]
@[simp] theorem stockChanged_purge : (stockChanged i f s).cash.purge = s.cash.purge := by
  rw [stockChanged_stockOnly i f s]
@[simp] theorem stockChanged_chP : (stockChanged i f s).chP = s.chP := by rw [stockChanged_stockOnly i f s]
@[simp] theorem stockChanged_cal : (stockChanged i f s).cal = s.cal := by rw [stockChanged_stockOnly i f s]
@[simp] theorem stockChanged_disp : (stockChanged i f s).disp = s.disp := by rw [stockChanged_stockOnly i f s]
@[simp] theorem stockChanged_drives : (stockChanged i f s).drives = s.drives := by rw [stockChanged_stockOnly i f s]
@[simp] theorem stockChanged_peer : (stockChanged i f s).peer = s.peer := by rw [stockChanged_stockOnly i f s]
@[simp] theorem stockChanged_approval : (stockChanged i f s).approval = s.approval := by
  rw [stockChanged_stockOnly i f s]
@[simp] theorem stockChanged_lane : (stockChanged i f s).lane = s.lane := by rw [stockChanged_stockOnly i f s]
end

section
variable {i : Nat} {f : Cassette → Cassette} {s : State} {c : Cassette}

theorem countTold_cassettes (c : Cassette) (st : CassetteState) :
    (countTold i c st s).cash.cassettes = s.cash.cassettes := by
  unfold countTold
  split
  · rfl
  · split <;> rfl

/-- The changed record keeps everything of `f c` but its state. -/
theorem stockChanged_cassettes (h : s.cash.cassettes[i]? = some c) :
    ∃ st, (stockChanged i f s).cash.cassettes = s.cash.cassettes.set i { f c with st := st } := by
  rw [stockChanged_eq, show s.cash.cassettes.getD i {} = c by simp [List.getD, h]]
  dsimp only
  generalize (if (f c).count = 0 then _ else _ : CassetteState) = st
  split
  · exact ⟨st, countTold_cassettes ..⟩
  · exact ⟨(f c).st, rfl⟩

theorem Room.of_countTold {st : CassetteState} (h : Room (countTold i c st s)) : Room s := by
  unfold countTold at h
  split at h
  · exact h.of_toldAll
  · split at h
    · exact h.of_toldAll
    · exact h

theorem Room.of_stockChanged (h : Room (stockChanged i f s)) : Room s := by
  rw [stockChanged_eq] at h
  dsimp only at h
  generalize (if (f _).count = 0 then _ else _ : CassetteState) = st at h
  split at h
  · exact h.of_countTold
  · exact h

theorem stateOfCount_eq (n m : Nat) :
    stateOfCount n m = if n = 0 then .empty else if n ≤ m then .low else .active := by
  simp [stateOfCount]

/-- R3: a changed record's state follows its count. -/
theorem followCount_fits (h : s.cash.cassettes[i]? = some c) (hr : Room (stockChanged i f s)) :
    followCount i (modCassette i f s) = stockChanged i f s := by
  have hget : (s.cash.cassettes.set i (f c))[i]? = some (f c) := by
    rw [List.getElem?_set_self (List.getElem?_eq_some_iff.mp h).1]
  rw [stockChanged_eq, show s.cash.cassettes.getD i {} = c by simp [List.getD, h]] at hr ⊢
  rw [modCassette_eq_set f h, followCount, cassetteAt_eq (c := f c) hget]
  dsimp only at hr ⊢
  rw [stateOfCount_eq, modCassette_eq_set (c := f c) _ hget]
  generalize (if (f c).count = 0 then _ else _ : CassetteState) = st at hr ⊢
  by_cases hs : (f c).st = .active ∨ (f c).st = .low
  · rw [if_pos (by simpa [serves] using hs), if_pos hs]
    rw [if_pos hs, countTold] at hr
    simp only [List.set_set]
    unfold countTold
    by_cases he : st = .empty
    · rw [if_pos he] at hr
      rw [if_pos he, if_pos (by simp [he])]
      exact noticeAll_fits hr
    · rw [if_neg he] at hr
      rw [if_neg he, if_neg (by simpa using he)]
      by_cases hlow : st = .low ∧ (f c).st = .active
      · rw [if_pos hlow] at hr
        rw [if_pos hlow, if_pos (by simpa using hlow)]
        exact noticeAll_fits hr
      · rw [if_neg hlow, if_neg (by simpa using hlow)]
        rfl
  · rw [if_neg (by simpa [serves] using hs), if_neg hs]
    rfl
end

end Sys2Proof.Machine
end

