-- ==== Sys2Proof/Proofs/Endings.lean ====
section
/-! PROOFS. Charges (R9 to R11, R15) and the ends of picking (R16, R57 to R63). -/

namespace Sys2Proof.Machine

/-! ### Charges -/

section
variable {i est : Nat} {op : FaultOp} {s : State} {c : Cassette}

theorem estimateOf_eq (k : NoteClass) : rejectEstimate k = estimateOf k := by cases k <;> rfl

theorem estimateOf_le (k : NoteClass) : estimateOf k ≤ 3 := by cases k <;> decide

theorem Room.of_rejectCharged (h : Room (rejectCharged i est s)) : Room s := Room.of_stockChanged h

theorem Room.of_rejectFills (h : Room (rejectFills op i est s)) : Room s :=
  Room.of_stockChanged (Room.of_faulted (k := .purgeFull) h)

/-- A charged reject follows its count (R3, R10): its estimate figure does not overflow. -/
theorem chargeReject_eq (h : s.cash.cassettes[i]? = some c) (hsum : c.rejectEst + est ≤ 65535)
    (hr : Room (stockChanged i (fun x => { x with count := x.count - est, rejectEst := x.rejectEst + est }) s)) :
    chargeReject i est op s =
      enterTray i est op
        (stockChanged i (fun x => { x with count := x.count - est, rejectEst := x.rejectEst + est }) s) := by
  have hpast : ¬(c.rejectEst + est > 65535) := Nat.not_lt.mpr hsum
  have hset (f g : Cassette → Cassette) (hfg : f c = g c) : modCassette i f s = modCassette i g s := by
    rw [modCassette_eq_set f h, modCassette_eq_set g h, hfg]
  rw [← followCount_fits h hr, chargeReject]
  simp only [cassetteAt_eq h, freeSum, if_pos hsum, if_neg hpast]
  exact congrArg (fun u => enterTray i est op (followCount i u)) (hset _ _ rfl)

/-- The tray has room for the estimate (R15). -/
theorem chargeReject_room (h : s.cash.cassettes[i]? = some c) (hsum : c.rejectEst + est ≤ 65535)
    (hfull : s.cash.purge.full = false) (ht : s.cash.purge.total + est ≤ 100) (hr : Room (rejectCharged i est s)) :
    chargeReject i est op s = rejectCharged i est s := by
  rw [chargeReject_eq h hsum hr, enterTray]
  simp only [stockChanged_purge]
  rw [if_neg (by simp [hfull]), if_neg (by omega)]
  rfl

/-- The tray has no room for it (R15). -/
theorem chargeReject_fills (h : s.cash.cassettes[i]? = some c) (hsum : c.rejectEst + est ≤ 65535)
    (hfull : s.cash.purge.full = false) (ht : 100 < s.cash.purge.total + est) (hr : Room (rejectFills op i est s)) :
    chargeReject i est op s = rejectFills op i est s := by
  rw [chargeReject_eq h hsum (Room.of_faulted (k := .purgeFull) hr), enterTray]
  simp only [stockChanged_purge]
  rw [if_neg (by simp [hfull]), if_pos (by omega)]
  exact raiseHard_fits hr

/-- A full tray counts the estimate under its cassette only (R15). -/
theorem chargeReject_full (h : s.cash.cassettes[i]? = some c) (hsum : c.rejectEst + est ≤ 65535)
    (hfull : s.cash.purge.full = true) (hr : Room (rejectEntered op i est s)) :
    chargeReject i est op s = rejectEntered op i est s := by
  rw [rejectEntered] at hr ⊢
  dsimp only at hr ⊢
  rw [if_pos hfull] at hr ⊢
  rw [chargeReject_eq h hsum hr, enterTray]
  simp only [stockChanged_purge]
  rw [if_pos hfull]
  rfl

/-- R10, R15: a charged reject, whatever the tray holds. -/
theorem chargeReject_fits (h : s.cash.cassettes[i]? = some c) (hsum : c.rejectEst + est ≤ 65535)
    (hr : Room (rejectEntered op i est s)) : chargeReject i est op s = rejectEntered op i est s := by
  cases hfull : s.cash.purge.full with
  | true => exact chargeReject_full h hsum hfull hr
  | false =>
    have hnot : ¬s.cash.purge.full = true := by simp [hfull]
    rw [rejectEntered] at hr ⊢
    dsimp only at hr ⊢
    rw [if_neg hnot] at hr ⊢
    by_cases ht : s.cash.purge.total + est ≤ 100
    · rw [if_pos ht] at hr ⊢
      exact chargeReject_room h hsum hfull ht hr
    · rw [if_neg ht] at hr ⊢
      exact chargeReject_fills h hsum hfull (Nat.not_le.mp ht) hr

/-- R9: an accepted pick charges its cassette 1. -/
theorem chargeAccepted_fits (h : s.cash.cassettes[i]? = some c)
    (hr : Room (stockChanged i (fun x => { x with count := x.count - 1, accepted := x.accepted + 1 }) s)) :
    chargeAccepted i s = stockChanged i (fun x => { x with count := x.count - 1, accepted := x.accepted + 1 }) s :=
  followCount_fits h hr
end

/-! ### The ends of picking -/

/-- PURGING has begun with its outcome decided (R62). -/
def purgingBegun (o : DispOutcome) (s : State) : State :=
  { s with disp := { s.disp with st := .purging, decided := some o, pick := .none, owed := 0, move := .none } }

/-- The tray's full flag is set. -/
def trayFilled (s : State) : State :=
  { s with cash := { s.cash with purge := { s.cash.purge with full := true } } }

/-- The dispense stands stranded, with its completion notice queued (R63). -/
def dispenseStranded (o : DispOutcome) (s : State) : State :=
  let d := { s.disp with outcome := some o, stranded := true, move := .none }
  toldBound .completion (dispCompletion d) { s with disp := d }

theorem purgingEntered_eq (o : DispOutcome) (s : State) :
    purgingEntered o s =
      (let u := purgingBegun o s
       if s.disp.stackerNotes = 0 then dispenseEnded o u
       else if s.cash.purge.total + s.disp.stackerNotes ≤ 100 then { u with disp := { u.disp with move := .purge } }
       else dispenseStranded o (faulted .purgeFull .dispense none none (trayFilled u))) := rfl

section
variable {o : DispOutcome} {s : State}

theorem Room.of_dispenseStranded (h : Room (dispenseStranded o s)) : Room s :=
  Room.of_toldBound (s := { s with disp := { s.disp with outcome := some o, stranded := true, move := .none } }) h

theorem strandDispense_fits (h : Room (dispenseStranded o s)) : strandDispense o s = dispenseStranded o s :=
  noticeBound_fits h

theorem trayNoRoom_fits {op : FaultOp} (h : Room (faulted .purgeFull op none none (trayFilled s))) :
    trayNoRoom op s = faulted .purgeFull op none none (trayFilled s) :=
  raiseHard_fits h

theorem Room.of_purgingEntered (h : Room (purgingEntered o s)) : Room s := by
  rw [purgingEntered_eq] at h
  dsimp only at h
  split at h
  · exact Room.of_dispenseEnded (s := purgingBegun o s) h
  · split at h
    · exact h
    · exact Room.of_faulted (s := trayFilled (purgingBegun o s)) h.of_dispenseStranded

/-- R16, R62, R63: PURGING is entered. -/
theorem enterPurging_fits (hq : s.disp.stackerNotes = 0 → QuietEnd s) (h : Room (purgingEntered o s)) :
    enterPurging o s = purgingEntered o s := by
  rw [purgingEntered_eq] at h ⊢
  dsimp only at h ⊢
  by_cases h0 : s.disp.stackerNotes = 0
  · rw [if_pos h0] at h ⊢
    refine (if_pos (show (s.disp.stackerNotes == 0) = true by simp [h0])).trans ?_
    exact endDispense_fits (s := purgingBegun o s) (hq h0) h
  · rw [if_neg h0] at h ⊢
    refine (if_neg (show ¬(s.disp.stackerNotes == 0) = true by simp [h0])).trans ?_
    by_cases hroom : s.cash.purge.total + s.disp.stackerNotes ≤ 100
    · rw [if_pos hroom]
      exact if_pos (show decide (s.cash.purge.total + s.disp.stackerNotes ≤ 100) = true from decide_eq_true hroom)
    · rw [if_neg hroom] at h ⊢
      refine (if_neg (show ¬decide (s.cash.purge.total + s.disp.stackerNotes ≤ 100) = true by simpa using
        hroom)).trans ?_
      have hfull : trayNoRoom .dispense (purgingBegun o s) = _ := trayNoRoom_fits h.of_dispenseStranded
      exact (congrArg (strandDispense o) hfull).trans (strandDispense_fits h)

theorem Room.of_pickingEnded (h : Room (pickingEnded o s)) : Room s :=
  Room.of_closeWindow (s := stopPickTransport s) (Room.of_purgingEntered (o := o) h)

/-- R57 to R61: picking ends. -/
theorem endPicking_fits (hq : s.disp.stackerNotes = 0 → QuietEnd s) (h : Room (pickingEnded o s)) :
    endPicking o s = pickingEnded o s := by
  refine enterPurging_fits (s := closeWindow .p (stopPickTransport s)) (fun h0 => ?_) h
  have hq' : QuietEnd (stopPickTransport s) := hq (by simpa using h0)
  exact hq'.closeWindow
end

end Sys2Proof.Machine
end

