-- ==== Sys2Proof/Proofs/Commuting.lean ====
section
/-! PROOFS. What the close of a window reads and writes is its own: the channels, the configuration, the peer view, the
fault unit, the bus unit and the lane state unit. The rest of the state goes through it as it is. -/

namespace Sys2Proof.Machine

/-- `s` in all that the close of a window reads or writes, and `x` in the rest. -/
def overlay (x s : State) : State :=
  { x with
      config := s.config, chP := s.chP, chQ := s.chQ, peer := s.peer, fault := s.fault, bus := s.bus, lane := s.lane }

section
variable (x : State)

theorem frameLost_overlay (e : TxEntry) (s : State) : frameLost e (overlay x s) = overlay x (frameLost e s) := by
  unfold frameLost
  cases e.owner <;> dsimp only <;> (try split) <;> rfl

theorem enqueue_overlay (e : TxEntry) (s : State) : enqueue e (overlay x s) = overlay x (enqueue e s) := by
  unfold enqueue
  by_cases h : s.bus.queue.length < 16
  · exact (if_pos (c := (overlay x s).bus.queue.length < 16) h).trans (by rw [if_pos h]; rfl)
  · refine (if_neg (c := (overlay x s).bus.queue.length < 16) h).trans ?_
    rw [if_neg h]
    dsimp only [overlay]
    split
    · split
      · exact frameLost_overlay x _
          (modBus
            (fun b =>
              { b with queue := (b.queue.reverse.eraseP (pendingOfClass (weakestPending s.bus.queue))).reverse ++ [e] })
            (raiseSoft .txOverflow .none none none s))
      · exact frameLost_overlay x _ (raiseSoft .txOverflow .none none none s)
    · exact frameLost_overlay x _ (raiseSoft .txOverflow .none none none s)

theorem report_overlay (cls : FrameClass) (kind : FrameKind) (dst : Nat) (red : Bool) (owner : Owner) (c : List Byte)
    (s : State) :
    report cls kind dst red owner c (overlay x s) = overlay x (report cls kind dst red owner c s) := by
  have hfold (f : Bool × List Byte → TxEntry) (l : List (Bool × List Byte)) (t : State) :
      l.foldl (fun t p => enqueue (f p) t) (overlay x t) = overlay x (l.foldl (fun t p => enqueue (f p) t) t) := by
    induction l generalizing t with
    | nil => rfl
    | cons p l ih => rw [List.foldl_cons, enqueue_overlay, ih, List.foldl_cons]
  exact hfold _ _ (modBus (fun b => { b with reportNo := (b.reportNo + 1) % 256 }) s)

theorem raiseHard_overlay (k : FaultKind) (o : FaultOp) (p : Option FaultPlace) (n : Option Nat) (s : State) :
    raiseHard k o p n (overlay x s) = overlay x (raiseHard k o p n s) :=
  report_overlay x _ _ _ _ _ _ (recordFault (faultReport k o p n s) s)

theorem modChan_overlay (ch : ChannelId) (f : Channel → Channel) (s : State) :
    modChan ch f (overlay x s) = overlay x (modChan ch f s) := by
  cases ch <;> rfl

variable {x}

/-- A gap is tracked by the channel, under the name of the operation whose window is open. -/
theorem endGap_overlay {s : State} (hp : x.cal.phase = s.cal.phase) (hc : x.cal.channel = s.cal.channel)
    (ch : ChannelId) (n sum : Nat) : endGap ch n sum (overlay x s) = overlay x (endGap ch n sum s) := by
  have hchan : chanAt (overlay x s) ch = chanAt s ch := by cases ch <;> rfl
  have hop : channelOp (overlay x s) ch = channelOp s ch := by
    unfold channelOp
    rw [show (overlay x s).cal = x.cal from rfl, hp, hc]
  have hsoft (o : FaultOp) (p : Option FaultPlace) (t : State) :
      raiseSoft .zeroDrift o p none (overlay x t) = overlay x (raiseSoft .zeroDrift o p none t) := rfl
  have hconfig : (overlay x s).config = s.config := rfl
  unfold endGap
  simp only [hchan, hop, hconfig, modChan_overlay, hsoft, raiseHard_overlay]
  split
  · rfl
  · split
    · rfl
    · split <;> rfl

theorem closeWindow_overlay {s : State} (hp : x.cal.phase = s.cal.phase) (hc : x.cal.channel = s.cal.channel)
    (ch : ChannelId) : closeWindow ch (overlay x s) = overlay x (closeWindow ch s) := by
  have hchan : chanAt (overlay x s) ch = chanAt s ch := by cases ch <;> rfl
  have hgap (n sum : Nat) (f : Channel → Channel) :
      endGap ch n sum (overlay x (modChan ch f s)) = overlay x (endGap ch n sum (modChan ch f s)) :=
    endGap_overlay (by cases ch <;> exact hp) (by cases ch <;> exact hc) ch n sum
  unfold closeWindow
  simp only [hchan, modChan_overlay, hgap]
  split
  · split <;> rfl
  · rfl

end

/-- A window closes before or after the rest of the state changes. -/
theorem closeWindow_of_same (s t : State) (h : t = overlay t s) (hp : t.cal.phase = s.cal.phase)
    (hc : t.cal.channel = s.cal.channel) (ch : ChannelId) : closeWindow ch t = overlay t (closeWindow ch s) := by
  conv_lhs => rw [h]
  exact closeWindow_overlay hp hc ch

/-- The rest of the state is as it was before the window's close. -/
theorem closeWindow_eq_overlay (ch : ChannelId) (s : State) : closeWindow ch s = overlay s (closeWindow ch s) :=
  closeWindow_of_same s s rfl rfl rfl ch

theorem overlay_overlay (x y s : State) : overlay x (overlay y s) = overlay x s := rfl

theorem closeWindow_withDisp (d : Dispense) (ch : ChannelId) (s : State) :
    closeWindow ch { s with disp := d } = { closeWindow ch s with disp := d } := by
  calc closeWindow ch { s with disp := d }
    _ = overlay { s with disp := d } (closeWindow ch s) := closeWindow_of_same s { s with disp := d } rfl rfl rfl ch
    _ = { overlay s (closeWindow ch s) with disp := d } := rfl
    _ = { closeWindow ch s with disp := d } := by rw [← closeWindow_eq_overlay]

/-- Where the pick stood makes no difference to the end of picking. -/
theorem pickingEnded_pick (o : DispOutcome) (p : PickPhase) (s : State) :
    pickingEnded o { s with disp := { s.disp with pick := p } } = pickingEnded o s := by
  have hd : (closeWindow .p (stopPickTransport s)).disp = s.disp := closeWindow_disp ..
  calc pickingEnded o { s with disp := { s.disp with pick := p } }
    _ = purgingEntered o { closeWindow .p (stopPickTransport s) with disp := { s.disp with pick := p } } :=
      congrArg (purgingEntered o) (closeWindow_withDisp { s.disp with pick := p } .p (stopPickTransport s))
    _ = pickingEnded o s := by
      rw [← hd]
      rfl

end Sys2Proof.Machine
end

