-- ==== Sys2Proof/Proofs/Notes.lean ====
section
/-! PROOFS. The notes of a dispense: accepted and rejected (R23, R24, R31, R55 to R57). -/

namespace Sys2Proof.Machine

/-! ### A run of the pick in progress -/

/-- Channel P with the record of a run as its last, and what it holds then. -/
def recordHeld (r : NoteRecord) (f : Flow) (s : State) : State :=
  { s with chP := { s.chP with flow := f, last := some r } }

section
variable {raws cs cs' trail trail' : List Nat} {s : State} {i : Nat} {c : Cassette}

theorem completeRun_dispense {cut : Bool} {f : Flow} (hcal : s.cal.phase = .none) (hst : s.disp.st = .picking)
    (hpick : s.disp.pick = .running) (hlast : s.disp.lastCassette = some i) (hi : s.cash.cassettes[i]? = some c)
    (hden : c.denom.isSome) :
    completeRun .p cs cut f s = dispenseNote i (recordP s i cs cut) (recordHeld (recordP s i cs cut) f s) := by
  have hpicked : pickedCassette s = i := by simp [pickedCassette, hcal, hlast]
  have hdraw : (cassetteAt s i).denom.isNone = false := by
    rw [cassetteAt_eq hi]
    simpa using hden
  simp only [completeRun, hpicked, hdraw]
  rw [if_neg (by simp)]
  simp only [handOn, modChan, hcal, hst, hpick, hlast]
  exact (if_neg (by simp)).trans (if_pos (by rfl))

/-- RUN_END over a dispense's note (R23, R26). -/
theorem endRun_dispense (hcal : s.cal.phase = .none) (hst : s.disp.st = .picking) (hpick : s.disp.pick = .running)
    (hlast : s.disp.lastCassette = some i) (hi : s.cash.cassettes[i]? = some c) (hden : c.denom.isSome)
    (hflow : s.chP.flow = .run cs trail)
    (hfed : feedRun (zeroOf s.chP) s.chP.gain raws cs trail = .ended cs' trail' []) :
    endRun .p raws s =
      dispenseNote i (recordP s i cs'.reverse false)
        (recordHeld (recordP s i cs'.reverse false) (.gap trail'.length trail'.sum) s) := by
  simp only [endRun, chanAt, hflow, hfed]
  exact completeRun_dispense hcal hst hpick hlast hi hden

/-- RUN_CUT_OFF over a dispense's note (R24). -/
theorem cutRun_dispense (hcal : s.cal.phase = .none) (hst : s.disp.st = .picking) (hpick : s.disp.pick = .running)
    (hlast : s.disp.lastCassette = some i) (hi : s.cash.cassettes[i]? = some c) (hden : c.denom.isSome)
    (hflow : s.chP.flow = .run cs trail) (hfed : feedRun (zeroOf s.chP) s.chP.gain raws cs trail = .cut cs' []) :
    cutRun .p raws s =
      dispenseNote i (recordP s i cs'.reverse true) (recordHeld (recordP s i cs'.reverse true) (.tail []) s) := by
  simp only [cutRun, chanAt, hflow, hfed]
  exact completeRun_dispense hcal hst hpick hlast hi hden

end

/-! ### A rejected note -/

section
variable {i : Nat} {r : NoteRecord} {s v : State} {o : DispOutcome}

/-- What follows the charge of a rejected note `v` (R57): `full` says that the tray was full before it. -/
def rejectGoesOn (full : Bool) (r : NoteRecord) (v : State) : State :=
  if v.cash.purge.full && !full then rejectEnds .purgeFull v
  else if v.disp.rejects ≥ 11 then rejectEnds .rejectLimit v
  else if r.cutOff then modDisp (fun d => { d with pick := .tail }) v
  else noteLeft v

theorem dispenseNote_rejected (h : r.cls ≠ .single) :
    dispenseNote i r s =
      rejectGoesOn s.cash.purge.full r (noteRejected i (chargeReject i (rejectEstimate r.cls) .dispense s)) := by
  rw [dispenseNote, if_neg (by simpa using h)]
  rfl

theorem rejectGoesOn_full (hf : v.cash.purge.full = true) : rejectGoesOn false r v = rejectEnds .purgeFull v :=
  if_pos (by simp [hf])

theorem rejectGoesOn_limit (hf : v.cash.purge.full = false) (hr : 11 ≤ v.disp.rejects) :
    rejectGoesOn false r v = rejectEnds .rejectLimit v :=
  (if_neg (by simp [hf])).trans (if_pos hr)

theorem rejectGoesOn_tail (hf : v.cash.purge.full = false) (hr : v.disp.rejects < 11) (hc : r.cutOff = true) :
    rejectGoesOn false r v = { v with disp := { v.disp with pick := .tail } } :=
  (if_neg (by simp [hf])).trans ((if_neg (Nat.not_le.mpr hr)).trans (if_pos hc))

theorem rejectGoesOn_left (hf : v.cash.purge.full = false) (hr : v.disp.rejects < 11) (hc : r.cutOff = false) :
    rejectGoesOn false r v = noteLeft v :=
  (if_neg (by simp [hf])).trans ((if_neg (Nat.not_le.mpr hr)).trans (if_neg (by simp [hc])))

theorem Room.of_noteRejected (h : Room (noteRejected i v)) : Room v := h

theorem noteRejected_disp : (noteRejected i v).disp = { v.disp with rejects := v.disp.rejects + 1 } := rfl

theorem rejectCharged_disp {est : Nat} : (rejectCharged i est s).disp = s.disp := stockChanged_disp ..

theorem rejectCharged_chP {est : Nat} : (rejectCharged i est s).chP = s.chP := stockChanged_chP ..

theorem rejectFills_disp {op : FaultOp} {est : Nat} : (rejectFills op i est s).disp = s.disp := stockChanged_disp ..

theorem rejectCharged_quietEnd {est : Nat} (h : QuietEnd s) : QuietEnd (noteRejected i (rejectCharged i est s)) := by
  have hcharged : QuietEnd (stockChanged i (fun x => { x with count := x.count - est, rejectEst := x.rejectEst + est
    }) s) := by
    rw [QuietEnd, stockChanged_approval, stockChanged_peer, stockChanged_lane]
    exact h
  exact hcharged

theorem rejectFills_quietEnd {op : FaultOp} {est : Nat} (h : QuietEnd s) :
    QuietEnd (noteRejected i (rejectFills op i est s)) :=
  rejectCharged_quietEnd (est := est) h

theorem rejectEnds_now (h : v.disp.owed = 0) : rejectEnds o v = endPicking o v := if_pos (by simp [h])

theorem rejectEnds_waits (h : v.disp.owed ≠ 0) :
    rejectEnds o v = { v with disp := { v.disp with pick := .toStacker, stop := some o } } := if_neg (by simp [h])

theorem noteLeft_waits (h : v.disp.owed ≠ 0) : noteLeft v = { v with disp := { v.disp with pick := .toStacker } } :=
  if_neg (by simp [h])

/-- The pick's note has left the channel, and no other is owed (R55). -/
theorem noteLeft_now (h : v.disp.owed = 0) :
    noteLeft v = pickBoundary { v with disp := { v.disp with pick := .none } } :=
  if_pos (show (v.disp.owed == 0) = true by simp [h])

/-- A note boundary without a stop or a lost zero (R55, R60). -/
theorem pickBoundary_picks (hs : v.disp.stop = none) (hl : v.chP.lost = false) : pickBoundary v = startPick v := by
  simp only [pickBoundary, hs]
  exact if_neg (by simp [hl])

/-- A selection that gives no cassette ends picking SHORT (R13). -/
theorem startPick_of_unselected {j : Nat} (hj : nextPair s.disp = some j)
    (hk : selectCassette s (s.disp.plan.getD j default).den = none) :
    startPick s = endPicking .short { s with disp := { s.disp with pair := j } } := by
  simp only [startPick, hj, hk]
  rfl

end

/-- Settles O7: the note is charged, offered to the reference of the record that the charge leaves, and owed. -/
theorem singleNoteGoesToTheStacker : Obligations.SingleNoteGoesToTheStacker := by
  intro raws cs cs' trail trail' s i t q c r charged taught u hcal hst hpick hlast hi hden hflow hfed hcls ht hq h
  have hcharged : chargeAccepted i (recordHeld r (.gap trail'.length trail'.sum) s) = charged :=
    chargeAccepted_fits hi h.1
  obtain ⟨st, hcas⟩ : ∃ st, charged.cash.cassettes = _ := stockChanged_cassettes hi
  have hget : charged.cash.cassettes[i]? =
      some { c with count := c.count - 1, accepted := c.accepted + 1, st := st } := by
    rw [hcas, List.getElem?_set_self (List.getElem?_eq_some_iff.mp hi).1]
  have hlearn : learnCassette i r charged =
      { charged with cash := { charged.cash with cassettes := charged.cash.cassettes.modify i taught } } := by
    simp only [learnCassette, ht, hq]
    rw [modCassette_eq_set _ hget, List.modify_eq_set_getElem?, hget]
    rfl
  have hdisp : charged.disp = s.disp := stockChanged_disp ..
  have hdrives : charged.drives = s.drives := stockChanged_drives ..
  refine next_finish ((endRun_dispense hcal hst hpick hlast hi hden hflow hfed).trans ?_) h
  rw [dispenseNote, if_pos (by rw [show recordP s i cs'.reverse false = r from rfl]; simp [hcls])]
  rw [hcharged, hlearn, modDisp, modDrives]
  simp only [hdisp, hdrives]
  rfl


section
variable {v : State} {o : DispOutcome} {j k : Nat}

/-- A note boundary that ends picking, by a stop or a lost zero (R60, R69). -/
theorem pickBoundary_ends (hs : v.disp.stop = some o ∨ (v.disp.stop = none ∧ v.chP.lost = true ∧ o = .zeroFault))
    (hq : v.disp.stackerNotes = 0 → QuietEnd v) (h : Room (pickingEnded o v)) :
    pickBoundary { v with disp := { v.disp with pick := .none } } = pickingEnded o v := by
  have hpick : pickingEnded o { v with disp := { v.disp with pick := .none } } = pickingEnded o v :=
    pickingEnded_pick o .none v
  have hroom : Room (pickingEnded o { v with disp := { v.disp with pick := .none } }) := by
    rw [hpick]
    exact h
  have hend : pickBoundary { v with disp := { v.disp with pick := .none } } =
      endPicking o { v with disp := { v.disp with pick := .none } } := by
    rcases hs with hs | ⟨hs, hl, rfl⟩
    · simp only [pickBoundary, hs]
    · simp only [pickBoundary, hs]
      exact if_pos hl
  exact hend.trans ((endPicking_fits (s := { v with disp := { v.disp with pick := .none } }) hq hroom).trans hpick)

/-- A note boundary whose selection gives no cassette (R13, R55). -/
theorem pickBoundary_short (hs : v.disp.stop = none) (hl : v.chP.lost = false) (hj : nextPair v.disp = some j)
    (hk : selectCassette v (v.disp.plan.getD j default).den = none) (hq : v.disp.stackerNotes = 0 → QuietEnd v)
    (h : Room (pickingEnded .short { v with disp := { v.disp with pair := j } })) :
    pickBoundary { v with disp := { v.disp with pick := .none } } =
      pickingEnded .short { v with disp := { v.disp with pair := j } } := by
  have hpick : pickingEnded .short { v with disp := { v.disp with pick := .none, pair := j } } =
      pickingEnded .short { v with disp := { v.disp with pair := j } } :=
    pickingEnded_pick .short .none { v with disp := { v.disp with pair := j } }
  have hroom : Room (pickingEnded .short { v with disp := { v.disp with pick := .none, pair := j } }) := by
    rw [hpick]
    exact h
  calc
    pickBoundary { v with disp := { v.disp with pick := .none } }
    _ = startPick { v with disp := { v.disp with pick := .none } } :=
      pickBoundary_picks (v := { v with disp := { v.disp with pick := .none } }) hs hl
    _ = endPicking .short { v with disp := { v.disp with pick := .none, pair := j } } :=
      startPick_of_unselected (s := { v with disp := { v.disp with pick := .none } }) hj hk
    _ = pickingEnded .short { v with disp := { v.disp with pick := .none, pair := j } } :=
      endPicking_fits (s := { v with disp := { v.disp with pick := .none, pair := j } }) hq hroom
    _ = pickingEnded .short { v with disp := { v.disp with pair := j } } := hpick

/-- A note boundary whose selection gives cassette `k` (R55). -/
theorem pickBoundary_next (hs : v.disp.stop = none) (hl : v.chP.lost = false) (hj : nextPair v.disp = some j)
    (hk : selectCassette v (v.disp.plan.getD j default).den = some k) :
    pickBoundary { v with disp := { v.disp with pick := .none } } =
      { v with
          disp := { v.disp with pair := j, lastCassette := some k, pick := .gateOpen },
          drives := { v.drives with pickGate := some k, pickTransport := true } } := by
  exact (pickBoundary_picks (v := { v with disp := { v.disp with pick := .none } }) hs hl).trans
    (startPick_of_selected (s := { v with disp := { v.disp with pick := .none } }) hj hk)

end

/-- Settles O8: the charged note `u` (or `filled`) decides by R57 whether picking ends, waits or goes on. -/
theorem rejectedNoteIsCharged : Obligations.RejectedNoteIsCharged := by
  intro raws cs cs' trail trail' s i j c fed held hcal hst hpick hlast hi hden hsum hfull hflow hstop hlost
  have hest (k : NoteClass) : c.rejectEst + estimateOf k ≤ 65535 := by have := estimateOf_le k; omega
  have hdisp (f : Flow) (r : NoteRecord) (est : Nat) :
      (noteRejected i (rejectCharged i est (held r f))).disp = { s.disp with rejects := s.disp.rejects + 1 } := by
    rw [noteRejected_disp, rejectCharged_disp]
  have hdisp' (f : Flow) (r : NoteRecord) (est : Nat) :
      (noteRejected i (rejectFills .dispense i est (held r f))).disp = { s.disp with rejects := s.disp.rejects + 1 }
        := by
    rw [noteRejected_disp, rejectFills_disp]
  have hquiet (f : Flow) (r : NoteRecord) (est : Nat) (hq : s.disp.stackerNotes = 0 → QuietEnd s)
      (h0 : (noteRejected i (rejectCharged i est (held r f))).disp.stackerNotes = 0) :
      QuietEnd (noteRejected i (rejectCharged i est (held r f))) := by
    rw [hdisp] at h0
    exact rejectCharged_quietEnd (hq h0)
  have hquiet' (f : Flow) (r : NoteRecord) (est : Nat) (hq : s.disp.stackerNotes = 0 → QuietEnd s)
      (h0 : (noteRejected i (rejectFills .dispense i est (held r f))).disp.stackerNotes = 0) :
      QuietEnd (noteRejected i (rejectFills .dispense i est (held r f))) := by
    rw [hdisp'] at h0
    exact rejectFills_quietEnd (hq h0)
  refine ⟨?_, ?_⟩
  · intro r est seen u filled waits hfed hcls
    have hrun : endRun .p raws s = rejectGoesOn false r (noteRejected i (chargeReject i est .dispense seen)) := by
      refine (endRun_dispense hcal hst hpick hlast hi hden hflow hfed).trans ((dispenseNote_rejected hcls).trans ?_)
      rw [estimateOf_eq]
      exact congrArg (rejectGoesOn · _ _) hfull
    refine ⟨fun hroom => ?_, fun hno => ?_⟩
    · have hu (h : Room u) : endRun .p raws s = rejectGoesOn false r u := by
        rw [hrun, chargeReject_room (s := seen) hi (hest _) hfull hroom h.of_noteRejected]
      have hu_disp : u.disp = { s.disp with rejects := s.disp.rejects + 1 } := hdisp ..
      have hu_stop : u.disp.stop = none := by rw [hu_disp]; exact hstop
      have hu_full : u.cash.purge.full = false := hfull
      have hu_lost : u.chP.lost = false := by
        rw [show u.chP = seen.chP from rejectCharged_chP]
        exact hlost
      refine ⟨?_, ?_, ?_, ?_⟩
      · intro k hrej hows hj hk h
        refine next_finish ((hu h.1).trans ?_) h
        rw [rejectGoesOn_left hu_full (by rw [hu_disp]; exact Nat.succ_lt_succ hrej) rfl]
        exact (noteLeft_now (by rw [hu_disp]; exact hows)).trans
          (pickBoundary_next hu_stop hu_lost (by rw [hu_disp]; exact hj) (by rw [hu_disp]; exact hk))
      · intro t hrej hows hj hk ⟨hq, h⟩
        have hroom' : Room { u with disp := { u.disp with pair := j } } := Room.of_pickingEnded h.1
        refine next_finish ((hu hroom').trans ?_) h
        rw [rejectGoesOn_left hu_full (by rw [hu_disp]; exact Nat.succ_lt_succ hrej) rfl]
        exact (noteLeft_now (by rw [hu_disp]; exact hows)).trans
          (pickBoundary_short hu_stop hu_lost (by rw [hu_disp]; exact hj) (by rw [hu_disp]; exact hk)
            (hquiet _ _ _ hq) h.1)
      · intro t hrej hows ⟨hq, h⟩
        refine next_finish ((hu (Room.of_pickingEnded h.1)).trans ?_) h
        rw [rejectGoesOn_limit hu_full (by rw [hu_disp]; exact Nat.succ_le_succ hrej),
          rejectEnds_now (by rw [hu_disp]; exact hows)]
        exact endPicking_fits (hquiet _ _ _ hq) h.1
      · intro hows h
        refine next_finish ((hu h.1).trans ?_) h
        by_cases hrej : s.disp.rejects < 10
        · rw [if_pos hrej, rejectGoesOn_left hu_full (by rw [hu_disp]; exact Nat.succ_lt_succ hrej) rfl,
            noteLeft_waits (by rw [hu_disp]; exact hows), ← hu_stop]
        · rw [if_neg hrej, rejectGoesOn_limit hu_full (by rw [hu_disp]; exact Nat.succ_le_succ (Nat.not_lt.mp hrej)),
            rejectEnds_waits (by rw [hu_disp]; exact hows)]
    · have hu (h : Room filled) : endRun .p raws s = rejectEnds .purgeFull filled := by
        rw [hrun, chargeReject_fills (s := seen) hi (hest _) hfull hno h.of_noteRejected, rejectGoesOn_full rfl]
      refine ⟨?_, ?_⟩
      · intro t hows ⟨hq, h⟩
        refine next_finish ((hu (Room.of_pickingEnded h.1)).trans ?_) h
        rw [rejectEnds_now (by rw [hdisp']; exact hows)]
        exact endPicking_fits (hquiet' _ _ _ hq) h.1
      · intro hows h
        refine next_finish ((hu h.1).trans ?_) h
        rw [rejectEnds_waits (by rw [hdisp']; exact hows)]
  · intro r u filled hfed
    have hrun : cutRun .p raws s =
        rejectGoesOn false r (noteRejected i (chargeReject i 2 .dispense (held r (.tail [])))) := by
      refine (cutRun_dispense hcal hst hpick hlast hi hden hflow hfed).trans ((dispenseNote_rejected
        (by simp [recordP, measuredRecord])).trans ?_)
      exact congrArg (rejectGoesOn · _ _) hfull
    have hu (hroom : s.cash.purge.total + 2 ≤ 100) (h : Room u) : cutRun .p raws s = rejectGoesOn false r u := by
      rw [hrun, chargeReject_room (s := held r (.tail [])) hi (by omega) hfull hroom h.of_noteRejected]
    have hu_full : u.cash.purge.full = false := hfull
    refine ⟨?_, ?_, ?_⟩
    · intro hroom hrej h
      refine next_finish ((hu hroom h.1).trans ?_) h
      rw [rejectGoesOn_tail hu_full (by rw [hdisp]; exact Nat.succ_lt_succ hrej) rfl]
    · intro t hroom hrej hows ⟨hq, h⟩
      refine next_finish ((hu hroom (Room.of_pickingEnded h.1)).trans ?_) h
      rw [rejectGoesOn_limit hu_full (by rw [hdisp]; exact Nat.succ_le_succ hrej), rejectEnds_now
        (by rw [hdisp]; exact hows)]
      exact endPicking_fits (hquiet _ _ _ hq) h.1
    · intro t hno hows ⟨hq, h⟩
      have hfills : cutRun .p raws s = rejectEnds .purgeFull filled := by
        rw [hrun, chargeReject_fills (s := held r (.tail [])) hi (by omega) hfull hno
          (Room.of_noteRejected (Room.of_pickingEnded h.1)), rejectGoesOn_full rfl]
      refine next_finish (hfills.trans ?_) h
      rw [rejectEnds_now (by rw [hdisp']; exact hows)]
      exact endPicking_fits (hquiet' _ _ _ hq) h.1
end Sys2Proof.Machine
end

