-- ==== Sys2Proof/Proofs/Sorting.lean ====
section
/-! PROOFS. The notes of a deposit session (R24, R31, R39, R79 to R82). -/

namespace Sys2Proof.Machine

/-! ### A run of the deposit session -/

section
variable {raws cs cs' trail trail' : List Nat} {s : State}

/-- Channel Q with the record of a run as its last, and what it holds then. -/
def recordHeldQ (r : NoteRecord) (f : Flow) (s : State) : State :=
  { s with chQ := { s.chQ with flow := f, last := some r } }

theorem completeRun_deposit {cut : Bool} {f : Flow} (hcal : s.cal.phase = .none) (hst : s.dep.st = .feeding) :
    completeRun .q cs cut f s = stopIfLost (depositNote (recordQ s cs cut) (recordHeldQ (recordQ s cs cut) f s)) := by
  simp only [completeRun, handOn, modChan, hcal, hst]
  exact (if_neg (by simp)).trans (if_pos (by rfl))

/-- RUN_END over a note of the session (R23, R26). -/
theorem endRun_deposit (hcal : s.cal.phase = .none) (hst : s.dep.st = .feeding) (hflow : s.chQ.flow = .run cs trail)
    (hfed : feedRun (zeroOf s.chQ) s.chQ.gain raws cs trail = .ended cs' trail' []) :
    endRun .q raws s =
      stopIfLost (depositNote (recordQ s cs'.reverse false)
        (recordHeldQ (recordQ s cs'.reverse false) (.gap trail'.length trail'.sum) s)) := by
  simp only [endRun, chanAt, hflow, hfed]
  exact completeRun_deposit hcal hst

/-- RUN_CUT_OFF over a note of the session (R24). -/
theorem cutRun_deposit (hcal : s.cal.phase = .none) (hst : s.dep.st = .feeding) (hflow : s.chQ.flow = .run cs trail)
    (hfed : feedRun (zeroOf s.chQ) s.chQ.gain raws cs trail = .cut cs' []) :
    cutRun .q raws s =
      stopIfLost (depositNote (recordQ s cs'.reverse true) (recordHeldQ (recordQ s cs'.reverse true)
        (.tail []) s)) := by
  simp only [cutRun, chanAt, hflow, hfed]
  exact completeRun_deposit hcal hst

/-- A throat with a note in it closes and waits (R82). -/
theorem closeThroat_of_busy {v : State} {more : Closing → Closing} (hb : throatBusy v = true) :
    closeThroat more v = throatClosing (more (v.dep.closing.getD {})) v := by
  have hhold : tryHolding (throatClosing (more (v.dep.closing.getD {})) v) =
      throatClosing (more (v.dep.closing.getD {})) v := by
    unfold tryHolding
    split
    · exact if_pos hb
    · rfl
  exact hhold

/-- The zero lost before a note closes the throat behind it (R39). -/
theorem stopIfLost_of_busy {v : State} (hst : v.dep.st = .feeding) (hb : throatBusy v = true) :
    stopIfLost v = if v.chQ.lost = true ∧ v.dep.closing = none then throatClosing {} v else v := by
  unfold stopIfLost
  by_cases h : v.chQ.lost = true ∧ v.dep.closing = none
  · obtain ⟨hl, hc⟩ := h
    rw [if_pos (by simp [hl, hst, hc]), if_pos ⟨hl, hc⟩, closeThroat_of_busy hb, hc]
    rfl
  · rw [if_neg h, if_neg]
    simpa [hst] using h

/-- A note in the escrow's or the pocket's way keeps the throat busy. -/
theorem throatBusy_of_way {v : State} (h : v.dep.toEscrow ≠ [] ∨ v.dep.toPocket ≠ 0) : throatBusy v = true := by
  unfold throatBusy
  rcases h with h | h <;> simp [h]
end

/-- A note that is no SINGLE is reported and refused (R31, R80). -/
theorem depositNote_rejected {r : NoteRecord} {v : State} (h : r.cls ≠ .single) :
    depositNote r v =
      raiseSoft .noteReject .deposit (some (.channel .q)) none
        { v with
            dep := { v.dep with toPocket := v.dep.toPocket + 1 },
            drives := { v.drives with toEscrow := false } } := by
  have hs : (r.cls == .single) = false := by simpa using h
  simp only [depositNote, hs]
  rfl

/-- A SINGLE note is learned from, then sent to the escrow (R79), or refused (R80), with the clamp set where it was
clear (R81). -/
theorem depositNote_single {r : NoteRecord} {v : State} (h : r.cls = .single) :
    depositNote r v =
      (let t := learnDenom r v
       let e := entryOf t r
       let refused := { t with dep := { t.dep with toPocket := t.dep.toPocket + 1 }, drives := { t.drives with
         toEscrow := false } }
       if t.dep.clamp = false ∧ escrowTakes t e = true then
         { t with dep := { t.dep with toEscrow := t.dep.toEscrow ++ [e] }, drives := { t.drives with toEscrow := true
           } }
       else if t.dep.clamp = false then setClamp refused
       else refused) := by
  have hs : (r.cls == .single) = true := by simpa using h
  simp only [depositNote, hs, Bool.true_and, Bool.and_eq_true, Bool.not_eq_true']
  rfl

/-- Learning leaves the face of every denomination. -/
theorem face_modify {l : List Denom} {d i : Nat} {f : Denom → Denom} (hf : ∀ y, (f y).face = y.face) :
    ((l.modify d f).getD i {}).face = (l.getD i {}).face := by
  rw [List.getD_eq_getElem?_getD, List.getD_eq_getElem?_getD, List.getElem?_modify]
  cases l[i]? with
  | none => rfl
  | some y =>
    by_cases h : d = i
    · simp [h, hf]
    · simp [h]

theorem setClamp_noticed {v : State} (h : v.dep.limitNotice = true) :
    setClamp v = { v with dep := { v.dep with clamp := true } } := if_pos h

theorem setClamp_fits {v : State} (hno : v.dep.limitNotice = false)
    (h : Room (toldBound .escrowLimit
      (be 2 v.dep.escrow.length ++ be 3 (entriesValue v.dep.escrow) ++ be 2 v.dep.limit ++ be 3 v.peer.held.deposit)
      { v with dep := { v.dep with clamp := true, limitNotice := true } })) :
    setClamp v =
      toldBound .escrowLimit
        (be 2 v.dep.escrow.length ++ be 3 (entriesValue v.dep.escrow) ++ be 2 v.dep.limit ++ be 3 v.peer.held.deposit)
        { v with dep := { v.dep with clamp := true, limitNotice := true } } :=
  (if_neg (by simp [modDep, hno])).trans (noticeBound_fits h)

/-- Settles O9: the sorted note keeps the throat busy, so that a lost zero closes the throat and nothing more. -/
theorem depositNotesAreSorted : Obligations.DepositNotesAreSorted := by
  intro raws cs cs' trail trail' s fed held sorted hcal hst hd
  have hnext {u v : State} (hu : u = stopIfLost v) (hvst : v.dep.st = .feeding) (hb : throatBusy v = true)
      (hl : v.chQ.lost = s.chQ.lost) (hc : v.dep.closing = s.dep.closing) (hvd : v.lane.resetDue = false) :
      (Host.Outcome.next (finish u) : Host.Outcome State Fault Refusal) = .next (sorted v) := by
    refine next_finish_not_due (hu.trans ?_) ?_
    · rw [stopIfLost_of_busy hvst hb, hl, hc]
    · simp only [sorted]
      split <;> exact hvd
  refine ⟨?_, ?_, ?_⟩
  · intro hflow hfed
    have hrun := endRun_deposit hcal hst hflow hfed
    refine ⟨?_, ?_⟩
    · intro d thick q r x e taught room refused clamped hcls hden ht hq
      have hlearn : learnDenom r (recordHeldQ r (.gap trail'.length trail'.sum) s) = taught := by
        simp only [learnDenom, hden, ht, hq]
        rfl
      have hentry : entryOf taught r = e := by
        simp only [entryOf, hden, ht, Option.getD]
        refine congrArg (fun f => EscrowEntry.mk d f thick) ?_
        exact face_modify fun _ => rfl
      have hroom : escrowTakes taught e = true ↔ room := by
        simp only [escrowTakes, Bool.and_eq_true, decide_eq_true_iff]
        rfl
      have hnote := depositNote_single (v := recordHeldQ r (.gap trail'.length trail'.sum) s) hcls
      simp only [hlearn, hentry, hroom] at hnote
      have hway : throatBusy refused = true := throatBusy_of_way (.inr (Nat.succ_ne_zero _))
      refine ⟨fun hcl hr => ?_, fun hcl => ?_, fun hcl hr hno => ?_, ?_⟩
      · rw [hnote.trans (if_pos ⟨hcl, hr⟩)] at hrun
        exact hnext hrun hst (throatBusy_of_way (.inl (by simp))) rfl rfl hd
      · have hcl' : ¬taught.dep.clamp = false := by
          rw [show taught.dep.clamp = s.dep.clamp from rfl, hcl]
          decide
        rw [hnote.trans ((if_neg fun h => hcl' h.1).trans (if_neg hcl'))] at hrun
        exact hnext hrun hst hway rfl rfl hd
      · rw [hnote.trans ((if_neg fun h => hr h.2).trans (if_pos hcl)), setClamp_noticed (by exact hno)] at hrun
        exact hnext hrun hst hway rfl rfl hd
      · intro t hcl hr hno h
        have hclamp : setClamp refused = t := setClamp_fits hno h.1
        rw [hnote.trans ((if_neg fun h => hr h.2).trans (if_pos hcl))] at hrun
        exact hnext (hrun.trans (congrArg stopIfLost hclamp)) hst hway rfl rfl hd
    · intro r hcls
      rw [depositNote_rejected hcls] at hrun
      exact hnext hrun hst (throatBusy_of_way (.inr (Nat.succ_ne_zero _))) rfl rfl hd
  · intro r hflow hfed
    have hrun := cutRun_deposit hcal hst hflow hfed
    rw [depositNote_rejected (by simp [recordQ, measuredRecord])] at hrun
    exact hnext hrun hst (throatBusy_of_way (.inr (Nat.succ_ne_zero _))) rfl rfl hd
  · intro l hflow hfed hc
    refine next_finish_not_due ?_ hd
    simp only [endTail, chanAt, hflow, hfed, tailCleared]
    refine (if_neg (by simp [modChan, hcal])).trans ?_
    simp only [tryHolding, modChan, hst, hc]
end Sys2Proof.Machine
end

