-- ==== Sys2Proof/Proofs/Picks.lean ====
section
/-! PROOFS. The picks of a dispense: missed, counted in, or ended by a tail (R8, R13, R24, R55 to R63). -/

namespace Sys2Proof.Machine

/-! ### The first of a list that serves -/

section
variable {α : Type} {p : α → Bool} {P : α → Prop} {l : List α}

theorem findIdx?_eq_some_iff_found (hp : ∀ x, p x = true ↔ P x) (k : Nat) :
    l.findIdx? p = some k ↔ (∃ x, l[k]? = some x ∧ P x) ∧ ∀ j < k, ¬∃ x, l[j]? = some x ∧ P x := by
  rw [List.findIdx?_eq_some_iff_getElem]
  refine ⟨?_, ?_⟩
  · intro ⟨hk, hfound, hbefore⟩
    refine ⟨⟨l[k], List.getElem?_eq_getElem hk, (hp _).mp hfound⟩, ?_⟩
    intro j hj ⟨x, hx, hP⟩
    obtain ⟨_, rfl⟩ := List.getElem?_eq_some_iff.mp hx
    exact hbefore j hj ((hp _).mpr hP)
  · intro ⟨⟨x, hx, hP⟩, hbefore⟩
    obtain ⟨hk, rfl⟩ := List.getElem?_eq_some_iff.mp hx
    refine ⟨hk, (hp _).mpr hP, ?_⟩
    intro j hj hfound
    exact hbefore j hj ⟨l[j], List.getElem?_eq_getElem (hj.trans hk), (hp _).mp hfound⟩

theorem findIdx?_eq_none_iff_unfound (hp : ∀ x, p x = true ↔ P x) : l.findIdx? p = none ↔ ∀ x ∈ l, ¬P x := by
  simp [List.findIdx?_eq_none_iff, ← hp]

end

/-! ### A missed pick (R8) -/

/-- A cassette that three misses in a row leave. -/
def missedOut (c : Cassette) : Cassette :=
  { c with st := if c.st = .active ∨ c.st = .low then .suspect else c.st, misses := 0 }

/-- A miss has been counted over the record `c` of cassette C`i+1`: PICK_MISS, and at the third CASSETTE_SUSPECT. -/
def missCounted (op : FaultOp) (i : Nat) (c : Cassette) (s : State) : State :=
  let w := raiseSoft .pickMiss op (some (.cassette i)) none (cassettePut i { c with misses := c.misses + 1 } s)
  if c.misses < 2 then w
  else faulted .cassetteSuspect op (some (.cassette i)) none
    { w with cash := { s.cash with cassettes := s.cash.cassettes.set i (missedOut c) } }

section
variable {op : FaultOp} {i : Nat} {c : Cassette} {s : State}

theorem missCounted_disp : (missCounted op i c s).disp = s.disp := by unfold missCounted; dsimp only; split <;> rfl
theorem missCounted_chP : (missCounted op i c s).chP = s.chP := by unfold missCounted; dsimp only; split <;> rfl
theorem missCounted_lane : (missCounted op i c s).lane = s.lane := by unfold missCounted; dsimp only; split <;> rfl
theorem missCounted_peer : (missCounted op i c s).peer = s.peer := by unfold missCounted; dsimp only; split <;> rfl
theorem missCounted_approval : (missCounted op i c s).approval = s.approval := by
  unfold missCounted
  dsimp only
  split <;> rfl
theorem missCounted_drives : (missCounted op i c s).drives = s.drives := by unfold missCounted; dsimp only; split <;>
    rfl
theorem missCounted_cal : (missCounted op i c s).cal = s.cal := by unfold missCounted; dsimp only; split <;> rfl

theorem missCounted_shutPickGate : missCounted op i c (shutPickGate s) = shutPickGate (missCounted op i c s) := by
  unfold missCounted
  by_cases h : c.misses < 2
  · simp only [if_pos h]
    rfl
  · simp only [if_neg h]
    rfl

theorem countMiss_fits (h : s.cash.cassettes[i]? = some c) (hr : 2 ≤ c.misses → Room (missCounted op i c s)) :
    countMiss i op s = missCounted op i c s := by
  have hserve : (if serves { c with misses := c.misses + 1 } = true then CassetteState.suspect else c.st) =
      (missedOut c).st := by
    simp [serves, missedOut]
  have hset : (s.cash.cassettes.set i { c with misses := c.misses + 1 })[i]? =
      some { c with misses := c.misses + 1 } := by
    rw [List.getElem?_set_self (List.getElem?_eq_some_iff.mp h).1]
  rw [missCounted] at hr ⊢
  dsimp only at hr ⊢
  rw [countMiss, cassetteAt_eq h]
  rw [modCassette_eq_set _ h]
  by_cases hlt : c.misses < 2
  · rw [if_pos hlt, if_neg (by omega)]
    rfl
  · rw [if_neg hlt] at hr ⊢
    rw [if_pos (by omega), modCassette_eq_set _ (by exact hset)]
    simp only [raiseSoft, recordFault, List.set_set, hserve]
    exact raiseHard_fits (hr (Nat.not_lt.mp hlt))

theorem Room.of_missCounted (h : Room (missCounted op i c s)) : Room s := by
  unfold missCounted at h
  dsimp only at h
  split at h
  · exact h
  · have hroom := Room.of_faulted h
    exact hroom

end

/-- Settles O17: the counted miss `u` is a note boundary of picking. -/
theorem missedPickCountsAndGoesOn : Obligations.MissedPickCountsAndGoesOn := by
  refine ⟨?_, ?_, ?_⟩
  · intro s d gives found
    have hgives (c : Cassette) : (serves c && c.denom == some d) = true ↔ gives c := by simp [serves, gives]
    exact ⟨findIdx?_eq_some_iff_found hgives, findIdx?_eq_none_iff_unfound hgives⟩
  · intro d left
    have hleft (p : PlanPair) : decide (p.picked < p.count) = true ↔ p.picked < p.count := decide_eq_true_iff
    refine ⟨findIdx?_eq_some_iff_found hleft, ?_⟩
    rw [nextPair, findIdx?_eq_none_iff_unfound hleft]
    simp only [Nat.not_lt]
  · intro raws s i j c missed w st u goesOn hst hpick hlast hi hdue
    have hu : u = missCounted .dispense i c { s with chP := samplesTaken raws s.chP } := rfl
    have hu_disp : u.disp = s.disp := (congrArg State.disp hu).trans missCounted_disp
    have hu_drives : u.drives = s.drives := (congrArg State.drives hu).trans missCounted_drives
    have hu_lost : u.chP.lost = s.chP.lost :=
      (congrArg (fun x => x.chP.lost) hu).trans (congrArg Channel.lost missCounted_chP)
    let v := shutPickGate u
    have hmiss (hr : 2 ≤ c.misses → Room u) :
        missPick raws s = pickBoundary { v with disp := { v.disp with pick := .none } } := by
      have hcount : countMiss i .dispense (shutPickGate (takeSamples .p raws s)) = v := by
        have hshut : missCounted .dispense i c (shutPickGate (takeSamples .p raws s)) = v := missCounted_shutPickGate
        exact (countMiss_fits (by exact hi) (by rw [hshut]; exact hr)).trans hshut
      rw [missPick, if_pos (by simp [hst, hpick]), hlast, Option.getD_some, hcount]
      rfl
    have hquiet (h : s.disp.stackerNotes = 0 → QuietEnd s) (h0 : v.disp.stackerNotes = 0) : QuietEnd v := by
      have hs : QuietEnd s := h (by rw [← hu_disp]; exact h0)
      have hquiet_u : QuietEnd u := by
        rw [hu, QuietEnd, missCounted_approval, missCounted_peer, missCounted_lane]
        exact hs
      exact hquiet_u
    have hgo (hgoes : goesOn) : v.disp.stop = none ∧ v.chP.lost = false ∧ nextPair v.disp = some j :=
      ⟨(congrArg Dispense.stop hu_disp).trans hgoes.1, hu_lost.trans hgoes.2.1,
        (congrArg nextPair hu_disp).trans hgoes.2.2⟩
    have hden : (v.disp.plan.getD j default).den = (s.disp.plan.getD j default).den := by
      rw [show v.disp = s.disp from hu_disp]
    refine ⟨?_, ?_, ?_⟩
    · intro k hgoes hk h
      obtain ⟨hstop, hlost, hj⟩ := hgo hgoes
      refine next_finish_not_due ?_ ((congrArg Lane.resetDue ((congrArg State.lane hu).trans missCounted_lane)).trans
        hdue)
      calc missPick raws s
        _ = pickBoundary { v with disp := { v.disp with pick := .none } } := hmiss fun hm => (h hm).1
        _ = { v with
              disp := { v.disp with pair := j, lastCassette := some k, pick := .gateOpen },
              drives := { v.drives with pickGate := some k, pickTransport := true } } :=
          pickBoundary_next hstop hlost hj (by rw [hden]; exact hk)
        _ = { u with
              disp := { s.disp with pair := j, lastCassette := some k, pick := .gateOpen },
              drives := { s.drives with pickGate := some k, pickTransport := true } } := by
          rw [← hu_disp, ← hu_drives]
          rfl
    · intro t hgoes hk ⟨hq, h⟩
      obtain ⟨hstop, hlost, hj⟩ := hgo hgoes
      have ht : pickingEnded .short { v with disp := { v.disp with pair := j } } = t := by
        rw [show v.disp = s.disp from hu_disp]
        rfl
      have hroom : Room { u with disp := { s.disp with pair := j } } := Room.of_pickingEnded h.1
      refine next_finish ((hmiss fun _ => hroom).trans ?_) h
      rw [← ht]
      exact pickBoundary_short hstop hlost hj (by rw [hden]; exact hk) (hquiet hq) (by rw [ht]; exact h.1)
    · intro o t hends ⟨hq, h⟩
      have hroom : Room u := Room.of_pickingEnded h.1
      refine next_finish ((hmiss fun _ => hroom).trans ?_) h
      refine pickBoundary_ends (v := v) (o := o) ?_ (hquiet hq) h.1
      rw [show v.disp = s.disp from hu_disp, show v.chP.lost = s.chP.lost from hu_lost]
      exact hends

section
variable {s : State} {raws : List Nat} {i face : Nat} {c : Cassette} {o : DispOutcome}

/-- The engine as the stacker sensor leaves it, before the next pair is looked for (R56). -/
def countedIn (face : Nat) (d : Dispense) : Dispense :=
  { d with
      stackerNotes := d.stackerNotes + 1, stackerValue := d.stackerValue + face, owed := d.owed - 1,
      plan := d.plan.modify ((nextPair d).getD d.pair) fun p => { p with picked := p.picked + 1 } }

theorem countIn_eq (hlast : s.disp.lastCassette = some i) (hi : s.cash.cassettes[i]? = some c)
    (hface : c.face = some face) : countIn s = { s with disp := toNextPair (countedIn face s.disp) } := by
  have hat : cassetteAt s (s.disp.lastCassette.getD 0) = c := by rw [hlast]; exact cassetteAt_eq hi
  simp only [countIn, hat, hface]
  rfl

theorem completePicking_completes (hlost : (closeWindow .p (stopPickTransport s)).chP.lost = false) :
    completePicking s =
      { closeWindow .p (stopPickTransport s) with
          disp := { s.disp with st := .presenting, pick := .none, owed := 0, move := .present } } := by
  refine (if_neg (by simp [hlost])).trans ?_
  rw [modDisp, closeWindow_disp]
  rfl

theorem completePicking_lost (hlost : (closeWindow .p (stopPickTransport s)).chP.lost = true)
    (hq : (closeWindow .p (stopPickTransport s)).disp.stackerNotes = 0 → QuietEnd (closeWindow .p
      (stopPickTransport s)))
    (h : Room (purgingEntered .zeroFault (closeWindow .p (stopPickTransport s)))) :
    completePicking s = purgingEntered .zeroFault (closeWindow .p (stopPickTransport s)) :=
  (if_pos hlost).trans (enterPurging_fits hq h)

end

/-- Settles O18: the last note of a pick, counted in or cleared of the channel, is a note boundary of picking. -/
theorem picksEndAtTheStackerOrTheTail : Obligations.PicksEndAtTheStackerOrTheTail := by
  refine ⟨?_, ?_⟩
  · intro raws s i face c filled counted u boundary hst howed hlast hi hface hdue
    have hcount : countIn (takeSamples .p raws s) = u := countIn_eq (by exact hlast) (by exact hi) hface
    have hnotes {P : Prop} (h0 : u.disp.stackerNotes = 0) : P := absurd h0 (Nat.succ_ne_zero _)
    have hguard : (s.disp.st == .picking && s.disp.owed != 0) = true := by simp [hst, Nat.pos_iff_ne_zero.mp howed]
    have hcomplete (hn : nextPair filled = none) (hs : s.disp.stop = none) : countNote raws s = completePicking u := by
      rw [countNote, if_pos hguard, hcount]
      refine (if_pos (show (nextPair filled).isNone = true by simp [hn])).trans ?_
      simp only [show u.disp.stop = none from hs]
    have hstopped {o : DispOutcome} (hn : nextPair filled = none) (hs : s.disp.stop = some o) :
        countNote raws s = endPicking o u := by
      rw [countNote, if_pos hguard, hcount]
      refine (if_pos (show (nextPair filled).isNone = true by simp [hn])).trans ?_
      simp only [show u.disp.stop = some o from hs]
    have hleft (hn : nextPair filled ≠ none) (hb : boundary) :
        countNote raws s = pickBoundary { u with disp := { u.disp with pick := .none } } := by
      rw [countNote, if_pos hguard, hcount]
      refine (if_neg (show ¬(nextPair filled).isNone = true by simpa using hn)).trans ?_
      refine (if_pos (show (s.disp.pick == .toStacker) = true by simp [hb.2])).trans ?_
      exact noteLeft_now (show s.disp.owed - 1 = 0 by rw [hb.1])
    refine ⟨?_, ?_, ?_, ?_, ?_⟩
    · intro closed t hs hn
      refine ⟨?_, ?_⟩
      · intro hlost hdue'
        exact next_finish_not_due ((hcomplete hn hs).trans (completePicking_completes hlost)) hdue'
      · intro hlost h
        refine next_finish ((hcomplete hn hs).trans (completePicking_lost hlost ?_ h.1)) h
        intro h0
        rw [closeWindow_disp] at h0
        exact hnotes h0
    · intro j hs hn hb hl
      have hpair : counted.pair = j := by
        change (nextPair filled).getD s.disp.pair = j
        rw [hn]
        rfl
      have hn' : nextPair filled ≠ none := by simp [hn]
      have hj : nextPair u.disp = some j := hn
      refine ⟨?_, ?_⟩
      · intro k t hk
        refine next_finish_not_due ((hleft hn' hb).trans ?_) hdue
        rw [pickBoundary_next (v := u) hs hl hj hk, ← hpair]
      · intro hk h
        have hu : { u with disp := { u.disp with pair := j } } = u := by rw [← hpair]
        refine next_finish ((hleft hn' hb).trans ?_) h
        rw [pickBoundary_short (v := u) hs hl hj hk hnotes (by rw [hu]; exact h.1), hu]
    · intro o hs hwhen h
      by_cases hn : nextPair filled = none
      · exact next_finish ((hstopped hn hs).trans (endPicking_fits hnotes h.1)) h
      · have hb : boundary := hwhen.resolve_left hn
        exact next_finish ((hleft hn hb).trans (pickBoundary_ends (v := u) (.inl hs) hnotes h.1)) h
    · intro hs hn hb hl h
      exact next_finish ((hleft hn hb).trans (pickBoundary_ends (v := u) (.inr ⟨hs, hl, rfl⟩) hnotes h.1)) h
    · intro hn hb
      refine next_finish_not_due ?_ hdue
      rw [countNote, if_pos hguard, hcount]
      refine (if_neg (show ¬(nextPair filled).isNone = true by simpa using hn)).trans ?_
      by_cases hpick : s.disp.pick = .toStacker
      · have howes : s.disp.owed - 1 ≠ 0 := by
          have : s.disp.owed ≠ 1 := fun h1 => hb ⟨h1, hpick⟩
          omega
        refine (if_pos (show (s.disp.pick == .toStacker) = true by simp [hpick])).trans ?_
        exact (noteLeft_waits (v := u) howes).trans (by rw [← hpick])
      · exact if_neg (by simpa using hpick)
  · intro raws trail l s u hcal hst hpick hflow hfed hdue
    have htail : endTail .p raws s = noteLeft u := by
      simp only [endTail, chanAt, hflow, hfed, tailCleared]
      refine (if_neg (by simp [modChan, hcal])).trans ?_
      exact if_pos (by simp [modChan, hst, hpick])
    refine ⟨?_, ?_⟩
    · intro howes
      exact next_finish_not_due (htail.trans (noteLeft_waits (v := u) howes)) hdue
    · intro howes
      have hleft : endTail .p raws s = pickBoundary { u with disp := { u.disp with pick := .none } } :=
        htail.trans (noteLeft_now howes)
      refine ⟨?_, ?_⟩
      · intro j hs hl hj
        refine ⟨?_, ?_⟩
        · intro k hk
          exact next_finish_not_due (hleft.trans (pickBoundary_next (v := u) hs hl hj hk)) hdue
        · intro t hk ⟨hq, h⟩
          exact next_finish (hleft.trans (pickBoundary_short (v := u) hs hl hj hk hq h.1)) h
      · intro o t hends ⟨hq, h⟩
        exact next_finish (hleft.trans (pickBoundary_ends (v := u) hends hq h.1)) h
end Sys2Proof.Machine
end

