-- ==== Sys2Proof/Proofs/Calibrations.lean ====
section
/-! PROOFS. Calibrations (R11, R40 to R43). -/

namespace Sys2Proof.Machine

/-! ### The gain of a classified record (R41, R43) -/

theorem clampTo_eq_max_min (n : Nat) : clampTo 1 8191 n = max 1 (min 8191 n) := by
  unfold clampTo
  split
  · omega
  · split <;> omega

section
variable {r : NoteRecord} {s : State} {c : Nat}

theorem usableC_eq_some (hfrag : r.fragment = false) (hcut : r.cutOff = false) (hc : r.c = some c) (h : 64 ≤ c) :
    usableC r = some c := by
  simp [usableC, hfrag, hcut, hc, Nat.not_lt.mpr h]

theorem usableC_eq_none (h : ∀ c, r.c = some c → c < 64) : usableC r = none := by
  unfold usableC
  split
  · rfl
  · split
    · next c hc => exact if_pos (h c hc)
    · rfl

theorem usableC_of_cutOff (h : r.cutOff = true) : usableC r = none := by simp [usableC, h]

/-- A record with a C is no fragment (R26). -/
theorem measuredRecord_fragment {g : Nat} {cs : List Nat} {cut : Bool} {ref den : Option Nat}
    {cls : Option Nat → NoteClass} (hc : (measuredRecord g cs cut ref den cls).c = some c) :
    (measuredRecord g cs cut ref den cls).fragment = false := by
  obtain ⟨-, -, -, hfrag, -, -, hnone⟩ := measuredRecord_whole g cs cut ref den cls
  rw [Bool.eq_false_iff, ne_eq, hfrag]
  intro hn
  rw [(hnone hn).1] at hc
  exact nomatch hc

theorem setGain_locked (h : s.cal.locked = true) :
    setGain r s = { s with cal := { s.cal with outcome := some .lockdown, c := r.c } } := if_pos h

theorem setGain_unusable (h : s.cal.locked = false) (hu : usableC r = none) :
    setGain r s = { s with cal := { s.cal with outcome := some .calFailed, c := r.c } } := by
  rw [setGain, if_neg (by simp [h]), hu]
  rfl

theorem setGain_usable (h : s.cal.locked = false) (hu : usableC r = some c) :
    setGain r s =
      modChan s.cal.channel (fun x => { x with gain := max 1 (min 8191 ((1024 * s.cal.k + c / 2) / c)) })
        { s with cal := { s.cal with outcome := some .calibrated, c := r.c } } := by
  rw [setGain, if_neg (by simp [h]), hu, ← clampTo_eq_max_min]
  rfl

end

/-! ### What the close of a window leaves as it is -/

section
variable (ch : ChannelId) (s : State)

theorem endGap_eq_overlay (n sum : Nat) : endGap ch n sum s = overlay s (endGap ch n sum s) :=
  (endGap_overlay (x := s) (s := s) rfl rfl ch n sum)

theorem endGap_withDrives (d : Drives) (n sum : Nat) :
    endGap ch n sum { s with drives := d } = { endGap ch n sum s with drives := d } := by
  calc endGap ch n sum { s with drives := d }
    _ = overlay { s with drives := d } (endGap ch n sum s) :=
      endGap_overlay (x := { s with drives := d }) (s := s) rfl rfl ch n sum
    _ = { overlay s (endGap ch n sum s) with drives := d } := rfl
    _ = { endGap ch n sum s with drives := d } := by rw [← endGap_eq_overlay]

theorem endGap_drives (n sum : Nat) : (endGap ch n sum s).drives = s.drives := by
  rw [endGap_eq_overlay]
  rfl

theorem closeWindow_withCal {k : Calibration} (hp : k.phase = s.cal.phase) (hc : k.channel = s.cal.channel) :
    closeWindow ch { s with cal := k } = { closeWindow ch s with cal := k } := by
  calc closeWindow ch { s with cal := k }
    _ = overlay { s with cal := k } (closeWindow ch s) := closeWindow_of_same s { s with cal := k } rfl hp hc ch
    _ = { overlay s (closeWindow ch s) with cal := k } := rfl
    _ = { closeWindow ch s with cal := k } := by rw [← closeWindow_eq_overlay]

end


/-! ### A calibration -/

theorem startCapture_p (s : State) :
    startCapture .p s =
      { s with
          chP := { s.chP with capturing := true },
          drives := { s.drives with pickTransport := true, pickGate := none } } := rfl

theorem startCapture_q (s : State) :
    startCapture .q s =
      { s with
          chQ := { s.chQ with capturing := true },
          drives := { s.drives with throatTransport := true, throatGate := false } } := rfl

section
variable {op : FaultOp} {i est : Nat} {s : State} {o : CalOutcome}

theorem rejectEntered_cal : (rejectEntered op i est s).cal = s.cal := by
  unfold rejectEntered
  dsimp only
  split
  · exact stockChanged_cal ..
  · split <;> exact stockChanged_cal ..

theorem rejectEntered_chP : (rejectEntered op i est s).chP = s.chP := by
  unfold rejectEntered
  dsimp only
  split
  · exact stockChanged_chP ..
  · split <;> exact stockChanged_chP ..

theorem rejectEntered_drives : (rejectEntered op i est s).drives = s.drives := by
  unfold rejectEntered
  dsimp only
  split
  · exact stockChanged_drives ..
  · split <;> exact stockChanged_drives ..

theorem rejectEntered_approval : (rejectEntered op i est s).approval = s.approval := by
  unfold rejectEntered
  dsimp only
  split
  · exact stockChanged_approval ..
  · split <;> exact stockChanged_approval ..

/-- The outcome that a calibration ends with is written over the one decided. -/
theorem calEnded_outcome (x : Option CalOutcome) (ch : ChannelId) :
    calEnded o (closeWindow ch { s with cal := { s.cal with outcome := x } }) = calEnded o (closeWindow ch s) := by
  have hclose := closeWindow_withCal ch s (k := { s.cal with outcome := x }) rfl rfl
  rw [hclose, ← closeWindow_cal ch s]
  rfl

/-- A calibration on channel P stops and ends with the outcome decided (R41, R43). -/
theorem endCalAs_stopCal_p {x : CalOutcome} (hch : s.cal.channel = .p) (ho : s.cal.outcome = some o)
    (hu : s.approval.unbindPending = false) (h : Room (calEnded o (closeWindow .p (stopPickTransport s)))) :
    endCalAs x (stopCal s) = calEnded o (closeWindow .p (stopPickTransport s)) := by
  rw [stopCal_p hch, endCalAs_of_some (by rw [closeWindow_cal]; exact ho)]
  exact endCal_fits (by rw [closeWindow_approval]; exact hu) h

end

/-! ### The note of a calibration on channel Q (R42) -/

section
variable {r : NoteRecord} {s : State} {cs cs' raws trail trail' : List Nat} {c : Nat}

theorem completeRun_calQ {cut : Bool} {f : Flow} (hph : s.cal.phase = .running) (hch : s.cal.channel = .q) :
    completeRun .q cs cut f s = calNoteQ (recordQ s cs cut) (recordHeldQ (recordQ s cs cut) f s) :=
  if_pos (show (s.cal.phase == .running && s.cal.channel == .q) = true by simp [hph, hch])

theorem endRun_calQ (hph : s.cal.phase = .running) (hch : s.cal.channel = .q) (hflow : s.chQ.flow = .run cs trail)
    (hfed : feedRun (zeroOf s.chQ) s.chQ.gain raws cs trail = .ended cs' trail' []) :
    endRun .q raws s =
      calNoteQ (recordQ s cs'.reverse false)
        (recordHeldQ (recordQ s cs'.reverse false) (.gap trail'.length trail'.sum) s) := by
  simp only [endRun, chanAt, hflow, hfed]
  exact completeRun_calQ hph hch

theorem cutRun_calQ (hph : s.cal.phase = .running) (hch : s.cal.channel = .q) (hflow : s.chQ.flow = .run cs trail)
    (hfed : feedRun (zeroOf s.chQ) s.chQ.gain raws cs trail = .cut cs' []) :
    cutRun .q raws s =
      calNoteQ (recordQ s cs'.reverse true) (recordHeldQ (recordQ s cs'.reverse true) (.tail []) s) := by
  simp only [cutRun, chanAt, hflow, hfed]
  exact completeRun_calQ hph hch

theorem setGain_usable_q (hl : s.cal.locked = false) (hch : s.cal.channel = .q) (hu : usableC r = some c) :
    setGain r s =
      { s with
          chQ := { s.chQ with gain := max 1 (min 8191 ((1024 * s.cal.k + c / 2) / c)) },
          cal := { s.cal with outcome := some .calibrated, c := r.c } } := by
  rw [setGain_usable hl hu, hch]
  rfl

theorem setGain_usable_p (hl : s.cal.locked = false) (hch : s.cal.channel = .p) (hu : usableC r = some c) :
    setGain r s =
      { s with
          chP := { s.chP with gain := max 1 (min 8191 ((1024 * s.cal.k + c / 2) / c)) },
          cal := { s.cal with outcome := some .calibrated, c := r.c } } := by
  rw [setGain_usable hl hu, hch]
  rfl

/-- The window closes over the gap of the note's end, and the throat runs on (R42). -/
theorem calToPocket_of_gap {n sum : Nat} (hw : s.chQ.window = true) (hf : s.chQ.flow = .gap n sum) :
    calToPocket s =
      endGap .q n sum
        { s with
            chQ := { s.chQ with window := false, flow := .none, capturing := false },
            cal := { s.cal with phase := .toPocket },
            drives := { s.drives with throatGate := false, throatTransport := true, toEscrow := false } } := by
  rw [endGap_withDrives _
    { s with
        chQ := { s.chQ with window := false, flow := .none, capturing := false },
        cal := { s.cal with phase := .toPocket } }]
  have hclose := closeWindow_of_gap (ch := .q) (s := modCal (fun k => { k with phase := .toPocket }) s) hw hf
  rw [calToPocket, hclose, modDrives, endGap_drives]
  rfl

end

/-! ### The note of a calibration on channel P (R11, R41) -/

section
variable {r : NoteRecord} {s : State} {cs cs' raws trail trail' : List Nat} {i g : Nat} {c : Cassette} {o : CalOutcome}

theorem completeRun_calP {cut : Bool} {f : Flow} (hph : s.cal.phase = .running) (hch : s.cal.channel = .p)
    (hcas : s.cal.cassette = i) (hi : s.cash.cassettes[i]? = some c) (hden : c.denom.isSome) :
    completeRun .p cs cut f s = calNoteP (recordP s i cs cut) (recordHeld (recordP s i cs cut) f s) := by
  have hpicked : pickedCassette s = i := by simp [pickedCassette, hph, hcas]
  have hdraw : (cassetteAt s i).denom.isNone = false := by
    rw [cassetteAt_eq hi]
    simpa using hden
  simp only [completeRun, hpicked, hdraw]
  rw [if_neg (by simp)]
  exact if_pos (show (s.cal.phase == .running && s.cal.channel == .p) = true by simp [hph, hch])

theorem endRun_calP (hph : s.cal.phase = .running) (hch : s.cal.channel = .p)
    (hcas : s.cal.cassette = i) (hi : s.cash.cassettes[i]? = some c) (hden : c.denom.isSome)
    (hflow : s.chP.flow = .run cs trail)
    (hfed : feedRun (zeroOf s.chP) s.chP.gain raws cs trail = .ended cs' trail' []) :
    endRun .p raws s =
      calNoteP (recordP s i cs'.reverse false)
        (recordHeld (recordP s i cs'.reverse false) (.gap trail'.length trail'.sum) s) := by
  simp only [endRun, chanAt, hflow, hfed]
  exact completeRun_calP hph hch hcas hi hden

theorem cutRun_calP (hph : s.cal.phase = .running) (hch : s.cal.channel = .p)
    (hcas : s.cal.cassette = i) (hi : s.cash.cassettes[i]? = some c) (hden : c.denom.isSome)
    (hflow : s.chP.flow = .run cs trail) (hfed : feedRun (zeroOf s.chP) s.chP.gain raws cs trail = .cut cs' []) :
    cutRun .p raws s =
      calNoteP (recordP s i cs'.reverse true) (recordHeld (recordP s i cs'.reverse true) (.tail []) s) := by
  simp only [cutRun, chanAt, hflow, hfed]
  exact completeRun_calP hph hch hcas hi hden

/-- A note of a calibration is charged, and its record sets the gain (R11, R43). -/
theorem calNoteP_eq (hcas : s.cal.cassette = i) (hi : s.cash.cassettes[i]? = some c)
    (hsum : c.rejectEst + estimateOf r.cls ≤ 65535) (h : Room (rejectEntered .calibrate i (estimateOf r.cls) s)) :
    calNoteP r s =
      (let v := modDrives (fun d => { d with toStacker := false, pickGate := none })
        (setGain r (rejectEntered .calibrate i (estimateOf r.cls) s))
       if r.cutOff then modCal (fun k => { k with phase := .tail }) v else endCalAs .calFailed (stopCal v)) := by
  rw [calNoteP, hcas, estimateOf_eq, chargeReject_fits hi hsum h]

/-- The calibration has ended over a note that has cleared the channel (R41, R43). -/
def calNoteEnded (o : CalOutcome) (g i : Nat) (r : NoteRecord) (s : State) : State :=
  let u := rejectEntered .calibrate i (estimateOf r.cls) s
  calEnded o (closeWindow .p
    { u with
        chP := { u.chP with gain := g },
        cal := { s.cal with c := r.c },
        drives := { s.drives with toStacker := false, pickTransport := false, pickGate := none } })

theorem calNoteP_ends (hch : s.cal.channel = .p) (hcas : s.cal.cassette = i) (hi : s.cash.cassettes[i]? = some c)
    (hsum : c.rejectEst + estimateOf r.cls ≤ 65535) (hub : s.approval.unbindPending = false) (hcut : r.cutOff = false)
    (hgain : ∀ u : State, u.cal = s.cal → u.chP = s.chP →
      setGain r u =
        { u with chP := { u.chP with gain := g }, cal := { u.cal with outcome := some o, c := r.c } })
    (h : Room (calNoteEnded o g i r s)) : calNoteP r s = calNoteEnded o g i r s := by
  have hroom : Room (rejectEntered .calibrate i (estimateOf r.cls) s) := h.of_calEnded.of_closeWindow
  rw [calNoteP_eq hcas hi hsum hroom, hgain _ rejectEntered_cal rejectEntered_chP]
  refine (if_neg (by simp [hcut])).trans ?_
  let u := rejectEntered .calibrate i (estimateOf r.cls) s
  let kept : State :=
    { u with
        chP := { u.chP with gain := g },
        cal := { s.cal with c := r.c },
        drives := { s.drives with toStacker := false, pickTransport := false, pickGate := none } }
  let v : State :=
    { u with
        chP := { u.chP with gain := g },
        cal := { s.cal with outcome := some o, c := r.c },
        drives := { s.drives with toStacker := false, pickGate := none } }
  have hv : modDrives (fun d => { d with toStacker := false, pickGate := none })
      { u with chP := { u.chP with gain := g }, cal := { u.cal with outcome := some o, c := r.c } } = v := by
    rw [modDrives, show u.cal = s.cal from rejectEntered_cal, show u.drives = s.drives from rejectEntered_drives]
  have hend : calEnded o (closeWindow .p (stopPickTransport v)) = calNoteEnded o g i r s :=
    calEnded_outcome (s := kept) (some o) .p
  have hub' : v.approval.unbindPending = false := (congrArg Approval.unbindPending rejectEntered_approval).trans hub
  rw [hv, endCalAs_stopCal_p (by exact hch) rfl hub' (by rw [hend]; exact h), hend]

end

/-- Settles O10: the record of the note decides the gain, and then the window closes. -/
theorem calibrationsStartAndSetTheGain : Obligations.CalibrationsStartAndSetTheGain := by
  refine ⟨?_, ?_, ?_, ?_⟩
  · intro c k cassette pocketOccupied s hcomes hst hph hk hk'
    obtain ⟨hc, hb, hl, hf⟩ := hcomes
    refine ⟨?_, ?_⟩
    · intro u t h1 h4 hloads hmove hrec hjam hfull hserves h
      have hu : replyAccepted c .calibrate [] (heard c s) = u := replyAccepted_fits (by decide) h.1
      have hloads' : (s.cash.loads.any fun w => w.cassette + 1 == cassette) = false := by simpa using hloads
      refine next_taken hc (.inl hf) ?_ ?_ h
      · simp [calibrateCheck, firstOf, hb, hst, hph, hloads', hmove, hrec, hjam, hfull, hserves, purgeRunning]
        omega
      · rw [startCalibration, hu]
        have ht : startCapture .p (modCal (fun _ =>
            { phase := .zeroCapture, channel := .p, k := k, cassette := cassette - 1, tag := c.tag,
              gainBefore := u.chP.gain }) u) = t := by
          rw [startCapture_p, modCal, show u.chP = s.chP from heard_chP c s,
            show u.drives = s.drives from heard_drives c s]
        exact ht
    · intro u t hpocket hjam hdep h
      have hu : replyAccepted c .calibrate [] (heard c s) = u := replyAccepted_fits (by decide) h.1
      refine next_taken hc (.inl hf) ?_ ?_ h
      · simp [calibrateCheck, firstOf, hb, hst, hph, hpocket, hjam, Nat.not_lt.mpr hk, Nat.not_lt.mpr hk',
          Nat.not_le.mpr hdep]
      · rw [startCalibration, hu]
        have ht : startCapture .q (modCal (fun _ =>
            { phase := .zeroCapture, channel := .q, k := k, tag := c.tag, gainBefore := u.chQ.gain }) u) = t := by
          rw [startCapture_q, modCal, show u.chQ = s.chQ from heard_chQ c s,
            show u.drives = s.drives from heard_drives c s]
        exact ht
  · intro raws cs cs' trail trail' s c r gain t hph hch hl hw hflow hfed
    have hrun := endRun_calQ hph hch hflow hfed
    have hpocket (x : Channel) (k : Calibration) (hx : x.window = true) (hf : x.flow = .gap trail'.length trail'.sum) :=
      calToPocket_of_gap (s := shutGate { s with chQ := x, cal := k }) hx hf
    refine ⟨?_, ?_⟩
    · intro hc h64 h
      have hu : usableC r = some c := usableC_eq_some (measuredRecord_fragment hc) rfl hc h64
      refine next_finish_not_due ?_ h
      rw [hrun, calNoteQ, setGain_usable_q (by exact hl) (by exact hch) hu]
      exact (if_neg (by simp [recordQ, measuredRecord])).trans (hpocket _ _ hw rfl)
    · intro hc h
      have hu : usableC r = none := usableC_eq_none hc
      refine next_finish_not_due ?_ h
      rw [hrun, calNoteQ, setGain_unusable (by exact hl) hu]
      exact (if_neg (by simp [recordQ, measuredRecord])).trans (hpocket _ _ hw rfl)
  · intro raws cs cs' trail l s r w hch
    refine ⟨?_, ?_⟩
    · intro hph hl hdue hflow hfed
      refine next_finish_not_due ?_ hdue
      rw [cutRun_calQ hph hch hflow hfed, calNoteQ, setGain_unusable (by exact hl) (usableC_of_cutOff rfl)]
      rfl
    · intro hph hw hflow hfed h
      refine next_finish_not_due ?_ h
      simp only [endTail, chanAt, hflow, hfed, tailCleared]
      refine (if_pos (by simp [modChan, hph, hch])).trans ?_
      exact calToPocket_of_gap (by exact hw) rfl
  · intro raws cs cs' trail trail' l s i k fed held stopped hch hcas hi hub
    refine ⟨?_, ?_, ?_⟩
    · intro hph hden hsum hflow
      have hest (x : NoteClass) : k.rejectEst + estimateOf x ≤ 65535 := by have := estimateOf_le x; omega
      refine ⟨?_, ?_⟩
      · intro r u t gain hfed
        refine ⟨?_, ?_⟩
        · intro hl
          refine ⟨?_, ?_⟩
          · intro c hc h64 h
            have hu : usableC r = some c := usableC_eq_some (measuredRecord_fragment hc) rfl hc h64
            refine next_finish ((endRun_calP hph hch hcas hi hden hflow hfed).trans ?_) h
            refine calNoteP_ends (by exact hch) (by exact hcas) (by exact hi) (hest _) (by exact hub) rfl ?_ h.1
            intro x hx hx'
            rw [setGain_usable_p (by rw [hx]; exact hl) (by rw [hx]; exact hch) hu, hx]
            rfl
          · intro hc h
            have hu : usableC r = none := usableC_eq_none hc
            refine next_finish ((endRun_calP hph hch hcas hi hden hflow hfed).trans ?_) h
            refine calNoteP_ends (by exact hch) (by exact hcas) (by exact hi) (hest _) (by exact hub) rfl ?_ h.1
            intro x hx hx'
            rw [setGain_unusable (by rw [hx]; exact hl) hu, show s.chP.gain = x.chP.gain by rw [hx']; rfl]
        · intro hl h
          refine next_finish ((endRun_calP hph hch hcas hi hden hflow hfed).trans ?_) h
          refine calNoteP_ends (by exact hch) (by exact hcas) (by exact hi) (hest _) (by exact hub) rfl ?_ h.1
          intro x hx hx'
          rw [setGain_locked (by rw [hx]; exact hl), show s.chP.gain = x.chP.gain by rw [hx']; rfl]
      · intro r u o t hfed h
        have hu_cal : u.cal = s.cal := rejectEntered_cal
        have hgain : setGain r u = { u with cal := { s.cal with outcome := some o, c := r.c } } := by
          cases hl : s.cal.locked with
          | true =>
            rw [setGain_locked (by rw [hu_cal]; exact hl), hu_cal]
            simp only [o, hl, if_true]
          | false =>
            rw [setGain_unusable (by rw [hu_cal]; exact hl) (usableC_of_cutOff rfl), hu_cal]
            simp only [o, hl, if_false, Bool.false_eq_true]
        have ht : modDrives (fun d => { d with toStacker := false, pickGate := none }) (setGain r u) =
            { t with cal := { s.cal with outcome := some o, c := r.c } } := by
          rw [hgain, modDrives, show u.drives = s.drives from rejectEntered_drives]
        refine next_finish ((cutRun_calP hph hch hcas hi hden hflow hfed).trans ?_) h
        refine (calNoteP_eq (by exact hcas) (by exact hi) (hest _) (by exact h.1)).trans ((if_pos rfl).trans ?_)
        exact congrArg (modCal fun k => { k with phase := .tail }) ht
    · intro o t hph ho hflow hfed h
      refine next_finish ?_ h
      simp only [endTail, chanAt, hflow, hfed, tailCleared]
      refine (if_pos (by simp [modChan, hph, hch])).trans ?_
      exact endCalAs_stopCal_p (by exact hch) (by exact ho) (by exact hub) h.1
    · intro put w st u t hph hst h
      have hu : u = missCounted .calibrate i k { s with chP := samplesTaken raws s.chP } := rfl
      have hu_cal : u.cal = s.cal := (congrArg State.cal hu).trans missCounted_cal
      have hu_pending : u.approval.unbindPending = false := by
        rw [hu, missCounted_approval]
        exact hub
      have hroom : Room u := h.room.of_calEnded.of_closeWindow
      have hcount : countMiss s.cal.cassette .calibrate (shutPickGate (takeSamples .p raws s)) = shutPickGate u := by
        have hshut : missCounted .calibrate i k (shutPickGate (takeSamples .p raws s)) = shutPickGate u :=
          missCounted_shutPickGate
        rw [hcas]
        exact (countMiss_fits (by exact hi) (fun _ => by rw [hshut]; exact hroom)).trans hshut
      refine next_finish ?_ h
      rw [missPick, if_neg (by simp [hst]), if_pos (by simp [hph, hch]), hcount]
      dsimp only
      rw [stopCal_p (by rw [← hch, ← hu_cal]; rfl)]
      exact endCal_fits (by rw [closeWindow_approval]; exact hu_pending) h.1
end Sys2Proof.Machine
end

