-- ==== Sys2Proof/Proofs/Plans.lean ====
section
/-! PROOFS. DISPENSE: its plan and its admission (R45 to R50, R53). -/

namespace Sys2Proof.Machine

/-! ### The plan of an explicit list (R49) -/

section
variable {s : State} {l : List (Nat × Nat)}

theorem find?_fst_eq_some_iff (hl : (l.map (·.1)).Nodup) {d : Nat} {p : Nat × Nat} :
    (l.find? fun q => q.1 == d) = some p ↔ p ∈ l ∧ p.1 = d := by
  refine ⟨fun h => ⟨List.mem_of_find?_eq_some h, by simpa using List.find?_some h⟩, ?_⟩
  rintro ⟨hp, rfl⟩
  obtain ⟨q, hq⟩ : ∃ q, (l.find? fun q => q.1 == p.1) = some q :=
    Option.isSome_iff_exists.mp (List.find?_isSome.mpr ⟨p, hp, by simp⟩)
  have hfst : q.1 = p.1 := by simpa using List.find?_some hq
  rw [hq, List.inj_on_of_nodup_map hl (List.mem_of_find?_eq_some hq) hp hfst]

/-- The pairs of a list in picking order. -/
def pairsPlan (s : State) (l : List (Nat × Nat)) : List PlanPair :=
  (pickingOrder s).filterMap fun d => (l.find? fun p => p.1 == d).map fun p => { den := d, count := p.2, picked := 0 }

theorem mem_pairsPlan (hl : (l.map (·.1)).Nodup) {x : PlanPair} :
    x ∈ pairsPlan s l ↔ x.den ∈ pickingOrder s ∧ ∃ p ∈ l, x = { den := p.1, count := p.2, picked := 0 } :=
      by
  simp only [pairsPlan, List.mem_filterMap, Option.map_eq_some_iff, find?_fst_eq_some_iff hl]
  refine ⟨?_, ?_⟩
  · rintro ⟨d, hd, p, ⟨hp, rfl⟩, rfl⟩
    exact ⟨hd, p, hp, rfl⟩
  · rintro ⟨hd, p, hp, rfl⟩
    exact ⟨p.1, hd, p, ⟨hp, rfl⟩, rfl⟩

theorem pairsPlan_pairwise (s : State) (l : List (Nat × Nat)) :
    (pairsPlan s l).Pairwise fun a b => PickedFirst s a.den b.den := by
  refine List.Pairwise.filterMap _ ?_ (pickingOrder_pairwise s)
  intro d e hde a ha b hb
  obtain ⟨_, _, rfl⟩ := Option.map_eq_some_iff.mp ha
  obtain ⟨_, _, rfl⟩ := Option.map_eq_some_iff.mp hb
  exact hde

theorem pairsPlan_perm (hl : (l.map (·.1)).Nodup) (hd : ∀ p ∈ l, p.1 ∈ pickingOrder s) :
    (pairsPlan s l).Perm (l.map fun p => { den := p.1, count := p.2, picked := 0 }) := by
  have hplan : (pairsPlan s l).Nodup := by
    refine (pairsPlan_pairwise s l).imp ?_
    rintro a _ hab rfl
    simp [PickedFirst] at hab
  have hlist : (l.map fun p => ({ den := p.1, count := p.2, picked := 0 } : PlanPair)).Nodup := by
    refine (List.Nodup.of_map PlanPair.den ?_)
    rw [List.map_map]
    exact hl
  refine (List.perm_ext_iff_of_nodup hplan hlist).mpr fun x => ?_
  rw [mem_pairsPlan hl, List.mem_map]
  refine ⟨?_, ?_⟩
  · rintro ⟨-, p, hp, rfl⟩
    exact ⟨p, hp, rfl⟩
  · rintro ⟨p, hp, rfl⟩
    exact ⟨hd p hp, p, hp, rfl⟩

theorem planPairs_eq (s : State) (l : List (Nat × Nat)) :
    planPairs s l =
      if (∃ p ∈ l, availableCount s p.1 < p.2) ∨ 40 < (l.map (·.2)).sum then none else some (pairsPlan s l) := by
  rw [planPairs]
  exact if_congr (by simp) rfl rfl

end

theorem clampRequest_heard (h : Header) (s : State) (req : Request) : clampRequest
    (heard h s) req = clampRequest s req := by
  cases req with
  | amount n => simp [clampRequest]
  | pairs l => rw [clampRequest, clampRequest, heard_config, show pairsValue
    (heard h s) l = pairsValue s l by simp [pairsValue]]

/-! ### A DISPENSE that no check refuses (R47 to R50) -/

section
variable {h : Header} {req : Request} {s : State} {plan : List PlanPair} {v : Nat}

/-- The request that is planned (R47). -/
def askedRequest (req : Request) (s : State) : Request := if s.alarm.duress then clampRequest s req else req

theorem askedRequest_heard : askedRequest req (heard h s) = askedRequest req s := by
  rw [askedRequest, clampRequest_heard, heard_alarm]
  rfl

/-- A plan with a value is not that of an amount of 0. -/
theorem request_ne_zero {r : Request} (hp : planRequest s r = some (plan, v)) (hv : 0 < v) : r ≠ .amount 0 := by
  rintro rfl
  obtain ⟨rfl, -⟩ := planRequest_amount_eq_some.mp hp
  exact hv.false

theorem planDispense_zero {b : Bool} (hd : s.alarm.duress = b) (ha : askedRequest req s = .amount 0) :
    planDispense h req s =
      endDispense .clampedZero (replyAccepted h .dispense (be 3 0)
        { s with
            disp := { st := .planning, console := h.src, tag := h.tag, request := some req, duress := b } }) := by
  subst hd
  exact if_pos (show (askedRequest req s == .amount 0) = true by simp [ha])

theorem planDispense_eq {b : Bool} (hd : s.alarm.duress = b) (ha : askedRequest req s ≠ .amount 0) :
    planDispense h req s =
      match planRequest s (askedRequest req s) with
      | none => refuse h .dispense .noMix s
      | some p => admitDispense h req b p.1 p.2 s := by
  subst hd
  exact if_neg (show ¬(askedRequest req s == .amount 0) = true by simpa using ha)

theorem planDispense_unplanned (ha : askedRequest req s ≠ .amount 0) (hp : planRequest s
    (askedRequest req s) = none) :
    planDispense h req s = refuse h .dispense .noMix s := by
  rw [planDispense_eq rfl ha, hp]

theorem planDispense_planned {b : Bool} (hd : s.alarm.duress = b) (ha : askedRequest req s ≠ .amount 0)
    (hp : planRequest s (askedRequest req s) = some (plan, v)) :
    planDispense h req s = admitDispense h req b plan v s := by
  rw [planDispense_eq hd ha, hp]

theorem admitDispense_over {duress : Bool} (hv : s.config.laneCap - s.peer.held.h < v) :
    admitDispense h req duress plan v s = refuse h .dispense .overLaneCap s := if_pos hv

theorem admitDispense_busy (hv : v ≤ s.config.laneCap - s.peer.held.h) (h1 : s.config.s1 < v)
    (hi : lowestFree s = none) : admitDispense h req false plan v s = refuse h .dispense .approvalBusy s := by
  refine (if_neg (Nat.not_lt.mpr hv)).trans ((if_pos (by simpa using h1)).trans ?_)
  simp only [hi]

theorem admitDispense_asks {i : Nat} (hv : v ≤ s.config.laneCap - s.peer.held.h) (h1 : s.config.s1 < v)
    (hi : lowestFree s = some i) :
    admitDispense h req false plan v s =
      replyAccepted h .dispense (be 3 v) (takeSlot i .dispense v h.src (planCounts plan)
        { s with
            disp :=
              { st := .awaitApproval, console := h.src, tag := h.tag, request := some req, plan := plan, planValue := v,
                slot := some (nextSlotRef s i) } }) := by
  refine (if_neg (Nat.not_lt.mpr hv)).trans ((if_pos (by simpa using h1)).trans ?_)
  simp only [hi]
  rfl

theorem admitDispense_awaits {duress : Bool} (hv : v ≤ s.config.laneCap - s.peer.held.h)
    (h1 : v ≤ s.config.s1 ∨ duress = true) :
    admitDispense h req duress plan v s =
      awaitDispenseCeiling (replyAccepted h .dispense (be 3 v)
        { s with
            disp :=
              { console := h.src, tag := h.tag, request := some req, duress := duress, plan := plan,
                planValue := v } }) :=
  (if_neg (Nat.not_lt.mpr hv)).trans (if_neg (by rcases h1 with h1 | h1 <;> simp [h1]))

end

/-- AWAIT_CEILING is entered with the INTENT queued (R53, R124). -/
theorem awaitDispenseCeiling_fits {s : State} (hd : s.peer.duplicate = false) (h : s.bus.queue.length < 16) :
    awaitDispenseCeiling s =
      queued [intentFrame .dispense]
        { s with
            disp := { s.disp with st := .awaitCeiling, slot := none, ceilingMs := some 10000 },
            peer := { s.peer with request := some { kind := .dispense, amount := s.disp.planValue } } } :=
  (if_neg (show ¬s.peer.duplicate = true by simp [hd])).trans (enqueue_room h)

/-- Settles O12: planning is decided by the request that is asked, and the admission of its plan by R50. -/
theorem dispenseIsPlannedAndAdmitted : Obligations.DispenseIsPlannedAndAdmitted := by
  refine ⟨?_, ?_, ?_, ?_⟩
  · intro c req s plan v asked u t hopen hdup ha hp hv h1 h
    have hdur : u.alarm.duress = s.alarm.duress := heard_alarm c s ▸ rfl
    refine (exec_dispense_open hopen).trans (next_finish ?_ h)
    have hasked : askedRequest req u = asked := askedRequest_heard
    have hp' : planRequest u asked = some (plan, v) := (planRequest_of_cash_eq (heard_cash c s) _).trans hp
    let record : Dispense :=
      { console := c.src, tag := c.tag, request := some req, duress := s.alarm.duress, plan := plan, planValue := v }
    let w := acceptedReply c .dispense (be 3 v) { u with disp := record }
    have hroom : w.bus.queue.length < 16 := by
      have hlen : (w.bus.queue ++ [intentFrame .dispense]).length ≤ 16 := h.1
      simpa using hlen
    have hw : replyAccepted c .dispense (be 3 v) { u with disp := record } = w :=
      replyAccepted_fits (by decide) hroom.le
    rw [planDispense_planned hdur (by rw [hasked]; exact ha) (by rw [hasked]; exact hp'),
      admitDispense_awaits (by simpa [u] using hv) (by simpa [u] using h1), hw]
    exact awaitDispenseCeiling_fits (s := w) (show u.peer.duplicate = false by simpa [u] using hdup) hroom
  · intro c req s plan v i u t hopen hdur hp hv h1 hi h
    refine (exec_dispense_open hopen).trans (next_finish ?_ h)
    have hdur' : u.alarm.duress = false := by simpa [u] using hdur
    have hasked : askedRequest req u = req := if_neg (by simp [hdur'])
    have hp' : planRequest u req = some (plan, v) := (planRequest_of_cash_eq (heard_cash c s) _).trans hp
    rw [planDispense_planned hdur' (by rw [hasked]; exact request_ne_zero hp (Nat.zero_lt_of_lt h1))
        (by rw [hasked]; exact hp'),
      admitDispense_asks (i := i) (by simpa [u] using hv) (by simpa [u] using h1) (by simpa [u] using hi),
      nextSlotRef_heard]
    exact ask_fits (by decide) h.1
  · intro c req s asked u hopen
    have hduress : u.alarm.duress = s.alarm.duress := heard_alarm c s ▸ rfl
    have hasked : askedRequest req u = asked := askedRequest_heard
    have hplan (r : Request) : planRequest u r = planRequest s r := planRequest_of_cash_eq (heard_cash c s) r
    refine ⟨?_, ?_, ?_, ?_⟩
    · intro ha hp h
      refine (exec_dispense_open hopen).trans (next_finish ?_ h)
      rw [planDispense_unplanned (by rw [hasked]; exact ha) (by rw [hplan, hasked]; exact hp)]
      exact refuse_fits (by decide) h.1
    · intro plan v ha hp hv h
      refine (exec_dispense_open hopen).trans (next_finish ?_ h)
      rw [planDispense_planned hduress (by rw [hasked]; exact ha) (by rw [hplan, hasked]; exact hp), admitDispense_over]
      · exact refuse_fits (by decide) h.1
      · simpa [u] using hv
    · intro plan v hdur hp hv h1 hi h
      refine (exec_dispense_open hopen).trans (next_finish ?_ h)
      have hdur' : u.alarm.duress = false := by simpa [u] using hdur
      have ha : asked ≠ .amount 0 := request_ne_zero hp (Nat.zero_lt_of_lt h1)
      rw [planDispense_planned hdur' (by rw [hasked]; exact ha) (by rw [hplan, hasked]; exact hp),
        admitDispense_busy (by simpa [u] using hv) (by simpa [u] using h1) (by simpa [u] using hi)]
      exact refuse_fits (by decide) h.1
    · intro t ha hq h
      refine (exec_dispense_open hopen).trans (next_finish ?_ h)
      let planning : State :=
        { u with
            disp :=
              { st := .planning, console := c.src, tag := c.tag, request := some req, duress := s.alarm.duress } }
      have hroom : Room (acceptedReply c .dispense (be 3 0) planning) := h.room.of_dispenseEnded
      rw [planDispense_zero hduress (by rw [hasked]; exact ha)]
      have hq' : QuietEnd (acceptedReply c .dispense (be 3 0) planning) := hq
      exact (congrArg (endDispense .clampedZero) (replyAccepted_fits (s := planning) (by decide) hroom)).trans
        (endDispense_fits hq' h.1)
  · intro s n l limit face value available lacks
    have hlist : planRequest s (.pairs l) = if lacks then none else some (pairsPlan s l, value) := by
      rw [planRequest, planPairs_eq]
      by_cases hl : lacks
      · rw [if_pos hl, if_pos (by exact hl)]
        rfl
      · rw [if_neg hl, if_neg (by exact hl)]
        rfl
    refine ⟨rfl, rfl, ?_, ?_⟩
    · intro hl
      rw [hlist, if_pos hl]
    · intro hl hnodup hused
      rw [hlist, if_neg hl]
      refine ⟨rfl, ?_⟩
      rintro plan v hsome
      obtain ⟨rfl, rfl⟩ : pairsPlan s l = plan ∧ value = v := by simpa using hsome
      exact ⟨rfl, pairsPlan_perm hnodup fun p hp => mem_pickingOrder.mpr (hused p hp), pairsPlan_pairwise s l⟩
end Sys2Proof.Machine
end

