-- ==== Sys2Proof/Proofs/Jams.lean ====
section
/-! PROOFS. Stacker movements and jams (R16, R36, R42, R54, R59, R62 to R64, R70, R78, R90). -/

namespace Sys2Proof.Machine

theorem creditTray_eq (notes value : Nat) (s : State) :
    creditTray notes value s =
      { s with
          cash :=
            { s.cash with
                purge :=
                  { s.cash.purge with
                      notes := s.cash.purge.notes + notes, total := s.cash.purge.total + notes,
                      value := min (s.cash.purge.value + value) 16777215 } } } := rfl

/-- A stacker that the tray has room for is purged (R16, R62). -/
theorem enterPurging_purges {o : DispOutcome} {s : State} (h0 : s.disp.stackerNotes ≠ 0)
    (hroom : s.cash.purge.total + s.disp.stackerNotes ≤ 100) :
    enterPurging o s =
      { s with disp := { s.disp with st := .purging, decided := some o, pick := .none, owed := 0, move := .purge } } :=
  (if_neg (show ¬(s.disp.stackerNotes == 0) = true by simpa using h0)).trans
    (if_pos (show decide (s.cash.purge.total + s.disp.stackerNotes ≤ 100) = true from decide_eq_true hroom))

/-- Settles O19: each movement's end is the model's own equation, and a reversed stacker enters PURGING. -/
theorem stackerMovementsEnd : Obligations.StackerMovementsEnd := by
  refine ⟨?_, ?_⟩
  · intro s
    refine ⟨?_, ?_, ?_⟩
    · intro hst hmove
      exact congrArg Host.Outcome.next (if_pos (by simp [hst, hmove]))
    · intro hst hmove
      exact congrArg Host.Outcome.next (if_pos (by simp [hst, hmove]))
    · intro hph
      exact congrArg Host.Outcome.next (if_pos (by simp [hph]))
  · intro s credited
    refine ⟨?_, ?_, ?_⟩
    · intro o t hst hmove ho hq h
      refine next_finish ?_ h
      rw [endPurge, if_pos (by simp [hst, hmove]), ho, creditTray_eq]
      exact endDispense_fits (by exact hq) h.1
    · intro hst hrec hdue
      refine next_finish_not_due ?_ (by exact hdue)
      rw [endPurge, if_neg (by simp [hst]), if_pos (by simp [hrec]), creditTray_eq]
      rfl
    · intro u hst hmove
      have hrev (hq : s.disp.stackerNotes = 0 → QuietEnd s) (h : Room (purgingEntered .lockdown s)) :
          (if s.disp.st == .presenting && s.disp.move == .reverse then enterPurging .lockdown s else s) =
            purgingEntered .lockdown s :=
        (if_pos (by simp [hst, hmove])).trans (enterPurging_fits hq h)
      refine ⟨?_, ?_, ?_⟩
      · intro h0 hroom hdue
        refine next_finish_not_due ?_ (by exact hdue)
        exact (if_pos (by simp [hst, hmove])).trans (enterPurging_purges h0 hroom)
      · intro h0 hq h
        have ht : purgingEntered .lockdown s = dispenseEnded .lockdown u := by
          rw [purgingEntered_eq]
          exact if_pos h0
        refine next_finish ?_ h
        rw [← ht] at h ⊢
        exact hrev (fun _ => hq) h.1
      · intro h0 hroom w d t h
        have ht : purgingEntered .lockdown s = t := by
          rw [purgingEntered_eq]
          exact (if_neg h0).trans (if_neg (Nat.not_le.mpr hroom))
        refine next_finish ?_ h
        rw [← ht] at h ⊢
        exact hrev (fun h => absurd h h0) h.1

/-! ### Jams of the dispenser -/

section
variable {op : FaultOp} {last : Option Nat} {s : State}

theorem jamDispenser_fits
    (h : Room (faulted .dispenserJam op (last.map .cassette) none { s with dispenserJam := true })) :
    jamDispenser op last s = faulted .dispenserJam op (last.map .cassette) none { s with dispenserJam := true } :=
  raiseHard_fits h

theorem jamStacker_fits {o : DispOutcome}
    (h : Room (dispenseStranded o
      (faulted .dispenserJam .dispense (s.disp.lastCassette.map .cassette) none { s with dispenserJam := true }))) :
    jamStacker o s =
      dispenseStranded o
        (faulted .dispenserJam .dispense (s.disp.lastCassette.map .cassette) none { s with dispenserJam := true }) := by
  rw [jamStacker, jamDispenser_fits h.of_dispenseStranded, strandDispense_fits h]

end

/-- Settles O20: a jam raises DISPENSER_JAM over the window's close, and then ends what was in progress. -/
theorem dispenserJams : Obligations.DispenserJams := by
  intro raws s jammed stopped
  refine ⟨?_, ?_, ?_, ?_⟩
  · intro t hcal hst hw hq h
    have hclose : abandonCaptureP s =
        { stopped with chP := { s.chP with window := false, flow := .none, capturing := false } } := by
      exact closeWindow_of_shut (ch := .p) (s := stopped) hw
    refine next_finish ?_ h
    refine (if_neg (by simp [hcal])).trans ((if_pos (by simp [hst])).trans ?_)
    rw [hclose, jamDispenser_fits (h.room.of_dispenseEnded)]
    exact endDispense_fits (by exact hq) h.1
  · intro calJammed hch hub
    refine ⟨?_, ?_⟩
    · intro t hph hw h
      have hclose : stopCal s =
          { stopped with chP := { s.chP with window := false, flow := .none, capturing := false } } :=
        (stopCal_p hch).trans (closeWindow_of_shut (ch := .p) (s := stopped) hw)
      refine next_finish ?_ h
      refine (if_pos (by simp [hph, hch])).trans ?_
      rw [hclose, jamDispenser_fits (last := none) (h.room.of_calEnded)]
      exact endCal_fits (by exact hub) h.1
    · intro o t hph hst h
      have hguard : (s.cal.locked && s.cal.phase == .running) = true ↔ s.cal.locked = true ∧ s.cal.phase = .running
        := by
        simp
      have hclose : stopCal (takeSamples .p raws s) =
          closeWindow .p { stopped with chP := samplesTaken raws s.chP } := stopCal_p (by exact hch)
      have hub' : (closeWindow .p { stopped with chP := samplesTaken raws s.chP }).approval.unbindPending = false := by
        rw [closeWindow_approval]
        exact hub
      refine next_finish ?_ h
      refine (if_neg (by simp [noteInPick, hst])).trans ((if_pos (by simpa [noteInCalP, hch] using hph)).trans ?_)
      rw [hclose, jamDispenser_fits (last := some s.cal.cassette) (h.room.of_calEnded),
        show (if (s.cal.locked && s.cal.phase == .running) = true then CalOutcome.lockdown else .jam) = o from
          if_congr hguard rfl rfl]
      exact endCal_fits (by exact hub') h.1
  · intro t hst hpick ⟨hq, h⟩
    let closed := closeWindow .p { stopped with chP := samplesTaken raws s.chP }
    have hdisp : closed.disp = s.disp := closeWindow_disp ..
    have hquiet (h0 : closed.disp.stackerNotes = 0) : QuietEnd closed := by
      rw [hdisp] at h0
      have hstopped : QuietEnd { stopped with chP := samplesTaken raws s.chP } := hq h0
      exact hstopped.closeWindow
    have hpick' : noteInPick s.disp = true := by
      rcases hpick with e | e | e <;> simp [noteInPick, hst, e]
    refine next_finish ((if_pos hpick').trans ?_) h
    have hjam : jamDispenser .dispense s.disp.lastCassette closed = jammed closed :=
      jamDispenser_fits h.room.of_purgingEntered
    exact (congrArg (enterPurging _) hjam).trans (enterPurging_fits (s := jammed closed) hquiet h.1)
  · intro strand
    refine ⟨?_, ?_, ?_⟩
    · intro o hmove ho h
      refine next_finish ?_ h
      rw [if_pos (by simp [hmove]), ho]
      exact jamStacker_fits h.1
    · intro hmove h
      refine next_finish ?_ h
      rw [if_pos (by simp [hmove])]
      exact jamStacker_fits h.1
    · intro hmove h
      refine next_finish ?_ h
      rw [if_pos (by simp [hmove])]
      exact jamStacker_fits h.1

/-! ### Jams of the throat -/

section
variable {r : Reason} {l : List WaitingAccept} {s : State} {op : FaultOp}

theorem acceptsRefused_queue_length :
    (acceptsRefused r l s).bus.queue.length = s.bus.queue.length + l.length := by
  induction l generalizing s with
  | nil => rfl
  | cons a l ih =>
    refine (ih (s := refusedReply a.header .depositAccept r s)).trans ?_
    simp only [refusedReply, replied, List.length_append, List.length_cons, List.length_nil]
    omega

theorem Room.of_acceptsRefused (h : Room (acceptsRefused r l s)) : Room s := by
  rw [Room, acceptsRefused_queue_length] at h
  exact Nat.le_of_add_right_le h

theorem refuseAccepts_fits (h : Room (acceptsRefused r l s)) : refuseAccepts r l s = acceptsRefused r l s := by
  induction l generalizing s with
  | nil => rfl
  | cons a l ih =>
    have hfirst : refuse a.header .depositAccept r s = refusedReply a.header .depositAccept r s :=
      refuse_fits (by decide) (Room.of_acceptsRefused (l := l) h)
    calc refuseAccepts r (a :: l) s
      _ = refuseAccepts r l (refusedReply a.header .depositAccept r s) := congrArg (refuseAccepts r l) hfirst
      _ = acceptsRefused r l (refusedReply a.header .depositAccept r s) := ih h

theorem jamThroat_fits (h : Room (faulted .depositJam op (some (.channel .q)) none { s with throatJam := true })) :
    jamThroat op s = faulted .depositJam op (some (.channel .q)) none { s with throatJam := true } :=
  raiseHard_fits h

theorem acceptsRefused_lane : (acceptsRefused r l s).lane = s.lane := by
  induction l generalizing s with
  | nil => rfl
  | cons a l ih => exact ih (s := refusedReply a.header .depositAccept r s)

/-- Whether refusals come whole is a matter of the bus and the lane state unit. -/
theorem fits_acceptsRefused {t : State} (h : Fits (acceptsRefused r l s)) (hbus : t.bus = s.bus)
    (hlane : t.lane = s.lane) : Fits (acceptsRefused r l t) := by
  rw [Fits, acceptsRefused_queue_length, acceptsRefused_lane] at h ⊢
  rwa [hbus, hlane]

/-- The NOTICE of a jam says what the session held (R90). -/
theorem noticeDepJam_fits {d : Deposit} (hd : s.dep = d)
    (h : Room (toldBound .depositStatus
      (be 1 3 ++ be 1 (depStatePos d.st) ++ be 2 d.escrow.length ++ be 3 (d.escrow.map (·.face)).sum ++
        be 2 d.stackedNotes ++ be 3 d.stackedValue) s)) :
    noticeDepJam s = toldBound .depositStatus
      (be 1 3 ++ be 1 (depStatePos d.st) ++ be 2 d.escrow.length ++ be 3 (d.escrow.map (·.face)).sum ++
        be 2 d.stackedNotes ++ be 3 d.stackedValue) s := by
  subst hd
  exact noticeBound_fits h

/-- The session that a jam leaves (R90, R91). -/
def depositHeld (s : State) : Deposit :=
  { s.dep with
      st := .holding, closing := none, idleMs := none, toEscrow := [], toPocket := 0, move := .none,
      securing := s.dep.securing || s.lane.state == .lockdown }

theorem jamDeposit_eq {u : State} (hu : noticeDepJam (jamThroat .deposit (closeWindow .q (shutThroat s))) = u)
    (hdep : u.dep = s.dep) (hlane : u.lane.state = s.lane.state) :
    jamDeposit s =
      refuseAccepts .dispenserState (s.dep.closing.getD {}).accepts
        (if s.dep.st == .feeding && s.dep.pocketRefusals > 0 then openClearance { u with dep := depositHeld s }
          else { u with dep := depositHeld s }) := by
  simp only [jamDeposit, hu, modDep, hdep, hlane]
  rfl

end

/-- Settles O21: a jam raises DEPOSIT_JAM over the window's close, and then ends the calibration or leaves the session
HOLDING. -/
theorem depositJams : Obligations.DepositJams := by
  intro raws s jammed shut content u refused d
  refine ⟨?_, ?_, ?_⟩
  · intro t hcal hst hw hq h
    have hclose : abandonCaptureQ s =
        { shut with chQ := { s.chQ with window := false, flow := .none, capturing := false } } :=
      closeWindow_of_shut (ch := .q) (s := shut) hw
    refine next_finish ?_ h
    refine (if_neg (by simp [hcal])).trans ((if_pos (by simp [hst])).trans ?_)
    rw [hclose, jamThroat_fits (h.room.of_depositEnded)]
    exact endDeposit_fits (by exact hq) h.1
  · intro calJammed hch hub
    refine ⟨?_, ?_⟩
    · intro t hph hw h
      have hclose : stopCal s =
          { shut with chQ := { s.chQ with window := false, flow := .none, capturing := false } } :=
        (stopCal_q hch).trans (closeWindow_of_shut (ch := .q) (s := shut) hw)
      refine next_finish ?_ h
      refine (if_pos (by simp [hph, hch])).trans ?_
      rw [hclose, jamThroat_fits (h.room.of_calEnded)]
      exact endCal_fits (by exact hub) h.1
    · intro t
      have hclose : stopCal (takeSamples .q raws s) = closeWindow .q { shut with chQ := samplesTaken raws s.chQ } :=
        stopCal_q (by exact hch)
      have hub' : (closeWindow .q { shut with chQ := samplesTaken raws s.chQ }).approval.unbindPending = false := by
        rw [closeWindow_approval]
        exact hub
      have hend (o : CalOutcome) (h : Room (t o)) :
          endCal o (jamThroat .calibrate (stopCal (takeSamples .q raws s))) = t o := by
        rw [hclose, jamThroat_fits h.of_calEnded]
        exact endCal_fits (by exact hub') h
      refine ⟨?_, ?_⟩
      · intro hph h
        refine next_finish ?_ h
        refine (if_pos (by rcases hph with e | e | e <;> simp [noteInCalQ, hch, e])).trans ?_
        rw [if_neg (by rcases hph with e | e | e <;> simp [e])]
        exact hend _ h.1
      · intro o hph ho h
        refine next_finish ?_ h
        refine (if_pos (by simp [noteInCalQ, hch, hph])).trans ?_
        rw [if_pos (by simp [hph]), ho]
        exact hend _ h.1
  · intro hcal hmoving h
    let w := jammed (closeWindow .q { shut with chQ := samplesTaken raws s.chQ })
    have hdep : w.dep = s.dep := closeWindow_dep .q { shut with chQ := samplesTaken raws s.chQ }
    have hlane : u.lane.state = s.lane.state := closeWindow_laneState .q { shut with chQ := samplesTaken raws s.chQ }
    have hconfig : u.config = s.config := closeWindow_config .q { shut with chQ := samplesTaken raws s.chQ }
    have hroom : Room u := h.room.of_acceptsRefused
    have hjammed : jamThroat .deposit (closeWindow .q { shut with chQ := samplesTaken raws s.chQ }) = w :=
      jamThroat_fits hroom.of_toldBound
    have hu : noticeDepJam (jamThroat .deposit (closeWindow .q (shutThroat (takeSamples .q raws s)))) = u := by
      have hnotice : noticeDepJam w = u := noticeDepJam_fits hdep hroom
      exact (congrArg noticeDepJam hjammed).trans hnotice
    have hstep : jamThroatNote raws s =
        refuseAccepts .dispenserState (s.dep.closing.getD {}).accepts
          (if s.dep.st == .feeding && s.dep.pocketRefusals > 0 then openClearance { u with dep := d }
            else { u with dep := d }) :=
      (if_neg (by simp [noteInCalQ, hcal])).trans ((if_pos hmoving).trans (jamDeposit_eq hu hdep hlane))
    refine ⟨?_, ?_⟩
    · intro hno
      have hfits : Fits (refused { u with dep := d }) := fits_acceptsRefused h rfl rfl
      refine next_finish (hstep.trans ?_) hfits
      rw [if_neg (by simpa using hno)]
      exact refuseAccepts_fits hfits.1
    · intro hst hpos
      have hopen : openClearance { u with dep := d } =
          { u with
              dep := { d with clearance := .opened, takeMs := some (s.config.takeTimeout * 1000) },
              drives := { u.drives with pocketShutter := true } } := by
        rw [← hconfig]
        rfl
      have hfits : Fits (refused
          { u with
              dep := { d with clearance := .opened, takeMs := some (s.config.takeTimeout * 1000) },
              drives := { u.drives with pocketShutter := true } }) := fits_acceptsRefused h rfl rfl
      refine next_finish (hstep.trans ?_) hfits
      rw [if_pos (by simp [hst, hpos]), hopen]
      exact refuseAccepts_fits hfits.1
end Sys2Proof.Machine
end

