-- ==== Sys2Proof/Proofs/Throat.lean ====
section
/-! PROOFS. A deposit session's opening and the close of its throat (R75 to R87). -/

namespace Sys2Proof.Machine

/-! ### DEPOSIT_OPEN -/

theorem requestIntent_fits {k : IntentKind} {a : Nat} {s : State} (hd : s.peer.duplicate = false)
    (h : s.bus.queue.length < 16) :
    requestIntent k a s =
      queued [intentFrame k] { s with peer := { s.peer with request := some { kind := k, amount := a } } } :=
  (if_neg (show ¬s.peer.duplicate = true by simp [hd])).trans (enqueue_room h)

/-- Settles O22: the table of R75, and the session that R76 and R77 open. -/
theorem depositOpenAsksForReservation : Obligations.DepositOpenAsksForReservation := by
  intro c s asked limit u hcomes hst htxn halarm hjam
  obtain ⟨hc, hb, hl, hf⟩ := hcomes
  have hasked : depositAsked u = asked := by simp [depositAsked, u, asked]
  have hlimit : escrowLimit u = limit := by simp [escrowLimit, u, limit]
  have hcheck : depositOpenCheck c u = if limit = 0 then some .full else if asked = 0 then some .overLaneCap else
    none := by
    have htxn' : txnOpen u = false := by simpa [txnOpen, u] using htxn
    have halarm' : (s.alarm.recognised && !s.alarm.duress) = false := by simpa using halarm
    simp [depositOpenCheck, firstOf, u, hb, hst, hjam, ← hasked, ← hlimit, htxn', halarm']
  refine ⟨?_, ?_, ?_⟩
  · intro t hpos hpos' hdup h
    refine next_taken hc (.inl hf) (by rw [hcheck, if_neg hpos.ne', if_neg hpos'.ne']) ?_ h
    let opened : State :=
      { u with
          dep :=
            { st := .awaitCeiling, console := c.src, tag := c.tag, asked := asked, limit := limit,
              ceilingMs := some 10000 } }
    let w := acceptedReply c .depositOpen (be 3 asked ++ be 2 limit) opened
    have hroom : w.bus.queue.length < 16 := by
      have hlen : (w.bus.queue ++ [intentFrame .deposit]).length ≤ 16 := h.1
      simpa using hlen
    have hw : replyAccepted c .depositOpen (be 3 asked ++ be 2 limit) opened = w :=
      replyAccepted_fits (by decide) hroom.le
    have hdup' : w.peer.duplicate = false := (heard_duplicate c s).trans hdup
    rw [openDeposit, show heard c s = u from rfl, hasked, hlimit]
    exact (congrArg (requestIntent .deposit asked) hw).trans (requestIntent_fits hdup' hroom)
  · intro t h0 h
    exact next_refused hc (.inl hf) (by decide) (by rw [hcheck, if_pos h0]) h
  · intro t hpos h0 h
    exact next_refused hc (.inl hf) (by decide) (by rw [hcheck, if_neg hpos.ne', if_pos h0]) h

/-! ### The throat shuts (R82, R83) -/

theorem closeWindow_withDep (d : Deposit) (ch : ChannelId) (s : State) :
    closeWindow ch { s with dep := d } = { closeWindow ch s with dep := d } := by
  calc closeWindow ch { s with dep := d }
    _ = overlay { s with dep := d } (closeWindow ch s) := closeWindow_of_same s { s with dep := d } rfl rfl rfl ch
    _ = { overlay s (closeWindow ch s) with dep := d } := rfl
    _ = { closeWindow ch s with dep := d } := by rw [← closeWindow_eq_overlay]

section
variable {s : State} {c : Closing}

theorem throatShut_quietEnd (h : QuietEnd s) : QuietEnd (throatShut s) := by
  have hclosed : QuietEnd (closeWindow .q (shutThroat s)) := by
    have hs : QuietEnd (shutThroat s) := h
    exact hs.closeWindow
  unfold throatShut
  dsimp only
  split <;> exact hclosed

theorem throatShut_dep :
    (throatShut s).dep =
      if 0 < s.dep.pocketRefusals then
        { s.dep with
            st := .holding, closing := none, idleMs := none, clearance := .opened,
            takeMs := some (s.config.takeTimeout * 1000) }
      else { s.dep with st := .holding, closing := none, idleMs := none } := by
  unfold throatShut
  dsimp only
  split <;> rfl

theorem throatShut_holding : (throatShut s).dep.st = .holding := by rw [throatShut_dep]; split <;> rfl
theorem throatShut_escrow : (throatShut s).dep.escrow = s.dep.escrow := by rw [throatShut_dep]; split <;> rfl
theorem throatShut_pocketRefusals : (throatShut s).dep.pocketRefusals = s.dep.pocketRefusals := by
  rw [throatShut_dep]; split <;> rfl
theorem throatShut_securing : (throatShut s).dep.securing = s.dep.securing := by rw [throatShut_dep]; split <;> rfl

theorem throatShut_config : (throatShut s).config = s.config := by
  unfold throatShut
  dsimp only
  split <;> exact closeWindow_config ..

theorem throatShut_alarm : (throatShut s).alarm = s.alarm := by
  unfold throatShut
  dsimp only
  split <;> exact closeWindow_alarm ..

theorem throatShut_approval : (throatShut s).approval = s.approval := by
  unfold throatShut
  dsimp only
  split <;> exact closeWindow_approval ..

/-- The session in HOLDING, before the clearance is looked at. -/
def sessionHolding (s : State) : State :=
  { closeWindow .q (shutThroat s) with dep := { s.dep with st := .holding, closing := none, idleMs := none } }

theorem openClearance_sessionHolding :
    (if (sessionHolding s).dep.pocketRefusals > 0 then openClearance (sessionHolding s) else sessionHolding s) =
      throatShut s := by
  have hopen : openClearance (sessionHolding s) =
      { closeWindow .q (shutThroat s) with
          dep :=
            { s.dep with
                st := .holding, closing := none, idleMs := none, clearance := .opened,
                takeMs := some (s.config.takeTimeout * 1000) },
          drives := { (closeWindow .q (shutThroat s)).drives with pocketShutter := true } } := by
    have hconfig : (closeWindow .q (shutThroat s)).config = s.config := closeWindow_config ..
    rw [← hconfig]
    rfl
  rw [hopen]
  rfl

/-- The throat shuts in the same way whatever it was closing for. -/
theorem throatShut_throatClosing : throatShut (throatClosing c s) = throatShut s := by
  have hclose : closeWindow .q (shutThroat (throatClosing c s)) =
      { closeWindow .q (shutThroat s) with dep := { s.dep with closing := some c, idleMs := none } } :=
    closeWindow_withDep { s.dep with closing := some c, idleMs := none } .q (shutThroat s)
  have hheld : sessionHolding (throatClosing c s) = sessionHolding s := by
    rw [sessionHolding, hclose]
    rfl
  rw [← openClearance_sessionHolding, hheld, openClearance_sessionHolding]

/-- The session enters HOLDING, and what waited for the throat is acted on (R82, R84, R87). -/
theorem enterHolding_eq :
    enterHolding c s =
      c.accepts.foldl lateAccept (if c.giveBack then startReturn (throatShut s) else throatShut s) := by
  have hheld : modDep (fun d => { d with st := .holding, closing := none, idleMs := none })
      (closeWindow .q (shutThroat s)) = sessionHolding s := by
    rw [modDep, closeWindow_dep]
    rfl
  rw [enterHolding, hheld, openClearance_sessionHolding]

end

/-! ### A decision (R84 to R87) -/

/-- An accept needs an approval (R84, R144). -/
abbrev AcceptNeeds (b : Bool) (s : State) : Prop :=
  s.config.s1 < (s.dep.escrow.map (·.face)).sum ∧ s.alarm.duress = false ∧ b = false

/-- STACKING has been entered over an accept (R86). -/
def acceptStacked (h : Header) (s : State) : State :=
  acceptedReply h .depositAccept []
    { s with
        dep :=
          { s.dep with
              st := .stacking, slot := none, acceptTag := h.tag,
              move := if s.dep.escrow = [] then .none else .stacking },
        drives := { s.drives with throatTransport := !s.dep.escrow.isEmpty } }

/-- An accept has asked for its approval (R84, R158). -/
def acceptAsked (h : Header) (i : Nat) (s : State) : State :=
  let x := slotTaken i .depositAccept (s.dep.escrow.map (·.face)).sum h.src [] s
  acceptedReply h .depositAccept []
    { x with dep :=
        { x.dep with
            st := .awaitApproval, slot := some { slot := i, ask := ((s.approval.slots.getD i {}).ask + 1) % 64 },
            acceptTag := h.tag } }

section
variable {h : Header} {b : Bool} {s : State} {i : Nat}

theorem Room.of_acceptStacked (hr : Room (acceptStacked h s)) : Room s := hr.of_accepted

theorem acceptNeeds_iff : (decide (entriesValue s.dep.escrow > s.config.s1) && !b && !s.alarm.duress) = true ↔
    AcceptNeeds b s := by
  simp [AcceptNeeds, entriesValue, and_assoc, and_comm, and_left_comm]

theorem decideAccept_busy (hn : AcceptNeeds b s) (hf : lowestFree s = none) :
    decideAccept h b s = refuse h .depositAccept .approvalBusy s := by
  refine (if_pos (acceptNeeds_iff.mpr hn)).trans ?_
  simp only [hf]

theorem decideAccept_asks (hn : AcceptNeeds b s) (hf : lowestFree s = some i) (hr : Room (acceptAsked h i s)) :
    decideAccept h b s = acceptAsked h i s := by
  refine (if_pos (acceptNeeds_iff.mpr hn)).trans ?_
  simp only [hf]
  have hslot : takeSlot i .depositAccept (entriesValue s.dep.escrow) h.src [] s =
      slotTaken i .depositAccept (s.dep.escrow.map (·.face)).sum h.src [] s := takeSlot_fits (Room.of_accepted hr)
  rw [hslot]
  exact replyAccepted_fits (by decide) hr

theorem decideAccept_stacks (hn : ¬AcceptNeeds b s) (hr : Room (acceptStacked h s)) :
    decideAccept h b s = depositSettled (acceptStacked h s) := by
  refine (if_neg (mt acceptNeeds_iff.mp hn)).trans ?_
  have hreply : replyAccepted h .depositAccept [] (modDep (fun d => { d with acceptTag := h.tag }) s) =
      acceptedReply h .depositAccept [] (modDep (fun d => { d with acceptTag := h.tag }) s) :=
    replyAccepted_fits (by decide) hr
  have hmove : (if s.dep.escrow.isEmpty = true then EscrowMove.none else .stacking) =
      if s.dep.escrow = [] then .none else .stacking := if_congr List.isEmpty_iff rfl rfl
  rw [hreply, startStacking, acceptStacked, ← hmove]
  rfl

/-- A session that has not settled its escrow goes on (R83, R86). -/
theorem depositSettled_stays (hsec : s.dep.securing = false) (hmore : s.dep.escrow ≠ [] ∨ s.dep.clearance ≠ .none)
    :
    depositSettled s = s := by
  refine (if_neg (by simp [hsec])).trans (if_neg ?_)
  rcases hmore with he | he <;> simp [he]

theorem startReturn_gives (hmore : s.dep.escrow ≠ [] ∨ s.dep.pocketRefusals ≠ 0) :
    startReturn s =
      { s with
          dep :=
            { s.dep with st := .returning, slot := none, clearance := .none, takeMs := none, move := .toPocket },
          drives := { s.drives with pocketShutter := false, throatTransport := true, toEscrow := false } } :=
  if_neg (show ¬(s.dep.escrow.isEmpty && s.dep.pocketRefusals == 0) = true by rcases hmore with he | he <;> simp [he])

theorem startReturn_ends (he : s.dep.escrow = []) (hp : s.dep.pocketRefusals = 0) :
    startReturn s =
      endDeposit .returnedTaken
        { s with
            dep := { s.dep with st := .returning, slot := none, clearance := .none, takeMs := none },
            drives := { s.drives with pocketShutter := false } } :=
  if_pos (show (s.dep.escrow.isEmpty && s.dep.pocketRefusals == 0) = true by simp [he, hp])

end

/-! ### The accepts that waited (R84) -/

section
variable {r : Reason} {l : List WaitingAccept} {s : State}

theorem acceptsRefused_busOnly (r : Reason) (l : List WaitingAccept) (s : State) : BusOnly s
    (acceptsRefused r l s) := by
  induction l generalizing s with
  | nil => exact BusOnly.refl s
  | cons a l ih => exact BusOnly.trans (t := refusedReply a.header .depositAccept r s) rfl (ih _)

theorem acceptsRefused_peer : (acceptsRefused r l s).peer = s.peer := by
  induction l generalizing s with
  | nil => rfl
  | cons a l ih => exact ih (s := refusedReply a.header .depositAccept r s)

theorem acceptsRefused_quietEnd (h : QuietEnd s) : QuietEnd (acceptsRefused r l s) := by
  rw [QuietEnd, acceptsRefused_peer, acceptsRefused_lane, (acceptsRefused_busOnly r l s).approval]
  exact h

/-- Accepts that meet one refusal each, whatever REPLYs are queued before them. -/
theorem lateAccepts_refused
    (hstep : ∀ a ∈ l, ∀ t, BusOnly s t → lateAccept t a = refuse a.header .depositAccept r t)
    (h : Room (acceptsRefused r l s)) : l.foldl lateAccept s = acceptsRefused r l s := by
  induction l generalizing s with
  | nil => rfl
  | cons a l ih =>
    have hfirst : lateAccept s a = refusedReply a.header .depositAccept r s :=
      (hstep a List.mem_cons_self s (BusOnly.refl s)).trans (refuse_fits (by decide) (Room.of_acceptsRefused
        (l := l) h))
    rw [List.foldl_cons, hfirst]
    refine ih (fun x hx t ht => hstep x (List.mem_cons_of_mem a hx) t ?_) h
    exact BusOnly.trans (t := refusedReply a.header .depositAccept r s) rfl ht

theorem lateAccept_busy {a : WaitingAccept} (h : s.dep.st ≠ .holding) (h' : s.dep.st ≠ .closed) :
    lateAccept s a = refuse a.header .depositAccept .busy s := by
  unfold lateAccept
  split
  · next e => exact absurd e h
  · next e => exact absurd e h'
  · rfl

theorem lateAccept_closed {a : WaitingAccept} (h : s.dep.st = .closed) :
    lateAccept s a = refuse a.header .depositAccept .nothing s := by simp only [lateAccept, h]

theorem lateAccept_holding {a : WaitingAccept} (h : s.dep.st = .holding) :
    lateAccept s a = decideAccept a.header a.duress s := by simp only [lateAccept, h]

theorem lateAccepts_busy (hs : s.dep.st ≠ .holding) (hs' : s.dep.st ≠ .closed) (h : Room
    (acceptsRefused .busy l s)) :
    l.foldl lateAccept s = acceptsRefused .busy l s := by
  refine lateAccepts_refused (fun a _ t ht => ?_) h
  have hdep : t.dep = s.dep := ht.dep
  exact lateAccept_busy (by rw [hdep]; exact hs) (by rw [hdep]; exact hs')

theorem lateAccepts_closed (hs : s.dep.st = .closed) (h : Room (acceptsRefused .nothing l s)) :
    l.foldl lateAccept s = acceptsRefused .nothing l s := by
  refine lateAccepts_refused (fun a _ t ht => ?_) h
  have hdep : t.dep = s.dep := ht.dep
  exact lateAccept_closed (by rw [hdep]; exact hs)

theorem lateAccepts_unapproved (hs : s.dep.st = .holding)
    (hn : ∀ a ∈ l, AcceptNeeds a.duress s ∧ lowestFree s = none) (h : Room (acceptsRefused .approvalBusy l s)) :
    l.foldl lateAccept s = acceptsRefused .approvalBusy l s := by
  refine lateAccepts_refused (fun a ha t ht => ?_) h
  obtain ⟨hneeds, hfree⟩ := hn a ha
  have hneeds' : AcceptNeeds a.duress t := by
    rw [AcceptNeeds, ht.config, ht.alarm, ht.dep]
    exact hneeds
  have hfree' : lowestFree t = none := by
    rw [lowestFree, ht.approval]
    exact hfree
  exact (lateAccept_holding (by rw [ht.dep]; exact hs)).trans (decideAccept_busy hneeds' hfree')

end

/-! ### A throat that closes (R82) -/

section
variable {c : Closing} {v : State} {answer : Host.Outcome State Fault Refusal}

theorem throatBusy_iff : throatBusy v = true ↔ ¬ThroatEmpty v := by
  simp [throatBusy, ThroatEmpty, imp_iff_not_or, or_assoc]

theorem tryHolding_of_busy (h : ¬ThroatEmpty v) : tryHolding v = v := by
  unfold tryHolding
  split
  · exact if_pos (throatBusy_iff.mpr h)
  · rfl

theorem tryHolding_of_empty (hst : v.dep.st = .feeding) (hc : v.dep.closing = some c) (h : ThroatEmpty v) :
    tryHolding v = c.accepts.foldl lateAccept (if c.giveBack then startReturn (throatShut v) else throatShut v) := by
  have hb : ¬throatBusy v = true := fun hb => throatBusy_iff.mp hb h
  simp only [tryHolding, hst, hc]
  exact (if_neg hb).trans enterHolding_eq

/-- What a step answers that has the closing throat look whether it is empty (R82). -/
theorem closingGoesOn (hst : v.dep.st = .feeding) (hc : v.dep.closing = some c)
    (ha : answer = .next (finish (tryHolding v))) : ClosingGoesOn c v answer := by
  have hesc : (throatShut v).dep.escrow = v.dep.escrow := throatShut_escrow
  have hpocket : (throatShut v).dep.pocketRefusals = v.dep.pocketRefusals := throatShut_pocketRefusals
  have hsec : (throatShut v).dep.securing = v.dep.securing := throatShut_securing
  subst ha
  refine ⟨?_, ?_⟩
  · intro hbusy hdue
    exact next_finish_not_due (tryHolding_of_busy hbusy) hdue
  · intro hempty
    have htry := tryHolding_of_empty hst hc hempty
    refine ⟨?_, ?_, ?_, ?_⟩
    · intro hback hacc hdue
      refine next_finish_not_due (htry.trans ?_) hdue
      rw [hback, hacc]
      rfl
    · intro t hback hmore h
      refine next_finish (htry.trans ?_) h
      rw [if_pos hback, startReturn_gives (by rw [hesc, hpocket]; exact hmore)]
      exact lateAccepts_busy (by simp) (by simp) h.1
    · intro t hback he hp hq h
      refine next_finish (htry.trans ?_) h
      rw [if_pos hback, startReturn_ends (by rw [hesc]; exact he) (by rw [hpocket]; exact hp),
        endDeposit_fits (by exact throatShut_quietEnd hq) (Room.of_acceptsRefused h.1)]
      exact lateAccepts_closed rfl h.1
    · intro hback hsec'
      have hneeds (b : Bool) : AcceptNeeds b (throatShut v) ↔
          v.config.s1 < (v.dep.escrow.map (·.face)).sum ∧ v.alarm.duress = false ∧ b = false := by
        rw [AcceptNeeds, throatShut_config, throatShut_alarm, hesc]
      have hfree : lowestFree (throatShut v) = lowestFree v := by rw [lowestFree, throatShut_approval, lowestFree]
      rw [hback] at htry
      refine ⟨?_, ?_, ?_⟩
      · intro before a rest u hl hbefore hn
        have hbus : BusOnly (throatShut v) u := acceptsRefused_busOnly ..
        have hu_esc : u.dep.escrow = v.dep.escrow := (congrArg Deposit.escrow hbus.dep).trans hesc
        have hn' : ¬AcceptNeeds a.duress u := by
          rw [AcceptNeeds, hbus.config, hbus.alarm, hbus.dep]
          exact mt (hneeds _).mp hn
        have hstacked : acceptStacked a.header u =
            acceptedReply a.header .depositAccept []
              { u with
                  dep :=
                    { u.dep with
                        st := .stacking, slot := none, acceptTag := a.header.tag,
                        move := if v.dep.escrow = [] then .none else .stacking },
                  drives := { u.drives with throatTransport := !v.dep.escrow.isEmpty } } := by
          rw [acceptStacked, hu_esc]
        have hfold (hr : Room (acceptStacked a.header u)) :
            tryHolding v = rest.foldl lateAccept (depositSettled (acceptStacked a.header u)) := by
          have hfirst : before.foldl lateAccept (throatShut v) = u :=
            lateAccepts_unapproved throatShut_holding
              (fun x hx => ⟨(hneeds _).mpr (hbefore x hx).1, hfree.trans (hbefore x hx).2⟩) hr.of_acceptStacked
          have hthis : lateAccept u a = depositSettled (acceptStacked a.header u) :=
            (lateAccept_holding (by rw [hbus.dep]; exact throatShut_holding)).trans (decideAccept_stacks hn' hr)
          rw [htry, hl, List.foldl_append, List.foldl_cons]
          exact congrArg (rest.foldl lateAccept) ((congrArg (lateAccept · a) hfirst).trans hthis)
        have hsettle : (acceptStacked a.header u).dep.securing = false :=
          (congrArg Deposit.securing hbus.dep).trans (hsec.trans hsec')
        refine ⟨?_, ?_⟩
        · intro t hmore h
          have ht : t = acceptsRefused .busy rest (acceptStacked a.header u) := by rw [hstacked]
          rw [ht] at h ⊢
          have hstays : depositSettled (acceptStacked a.header u) = acceptStacked a.header u := by
            refine depositSettled_stays hsettle ?_
            rw [← hu_esc, ← hbus.dep] at hmore
            exact hmore
          refine next_finish ((hfold (Room.of_acceptsRefused h.1)).trans ?_) h
          rw [hstays]
          exact lateAccepts_busy (by simp [acceptStacked, acceptedReply, replied]) (by simp
            [acceptStacked, acceptedReply, replied]) h.1
        · intro t he hcl hq h
          have ht : t = acceptsRefused .nothing rest (depositEnded .stacked (acceptStacked a.header u)) := by
            rw [hstacked]
          rw [ht] at h ⊢
          have hended : Room (depositEnded .stacked (acceptStacked a.header u)) := Room.of_acceptsRefused h.1
          have hquiet : QuietEnd (acceptStacked a.header u) := by
            have hu : QuietEnd u := acceptsRefused_quietEnd (throatShut_quietEnd hq)
            exact hu
          have hends : depositSettled (acceptStacked a.header u) =
              depositEnded .stacked (acceptStacked a.header u) :=
            (depositSettled_of_stacked hsettle rfl (hu_esc.trans he)
              ((congrArg Deposit.clearance hbus.dep).trans hcl)).trans (endDeposit_fits hquiet hended)
          refine next_finish ((hfold hended.of_depositEnded).trans ?_) h
          rw [hends]
          exact lateAccepts_closed rfl h.1
      · intro a rest i t hl hn hi h
        have ht : t = acceptsRefused .busy rest (acceptAsked a.header i (throatShut v)) := by
          rw [acceptAsked, hesc, throatShut_approval]
        rw [ht] at h ⊢
        refine next_finish (htry.trans ?_) h
        rw [hl, List.foldl_cons]
        refine (congrArg (rest.foldl lateAccept) ((lateAccept_holding throatShut_holding).trans
          (decideAccept_asks ((hneeds _).mpr hn) (hfree.trans hi) (Room.of_acceptsRefused h.1)))).trans ?_
        exact lateAccepts_busy (by simp [acceptAsked, acceptedReply, replied]) (by simp
          [acceptAsked, acceptedReply, replied]) h.1
      · intro t hn hnone h
        refine next_finish (htry.trans ?_) h
        exact lateAccepts_unapproved throatShut_holding (fun a ha => ⟨(hneeds _).mpr
          (hn a ha), hfree.trans hnone⟩) h.1

end

/-! ### Sensors of the throat (R79 to R82) -/

theorem closeThroat_eq (more : Closing → Closing) (s : State) :
    closeThroat more s = tryHolding (throatClosing (more (s.dep.closing.getD {})) s) := rfl

section
variable {raws : List Nat} {s : State} {e : EscrowEntry} {rest : List EscrowEntry}

/-- What follows a push: the securing, or a closing throat that looks whether it is empty (R82, R91). -/
def pushGoesOn (s : State) : State := if s.dep.securing then secureOn s else tryHolding s

theorem pushEscrow_unclamped (hesc : s.dep.toEscrow = e :: rest)
    (hno : ¬(s.dep.escrow.length + 1 = s.dep.limit ∧ s.dep.clamp = false)) :
    pushEscrow (takeSamples .q raws s) = pushGoesOn (escrowPushed raws e rest s) := by
  have hesc' : (takeSamples .q raws s).dep.toEscrow = e :: rest := hesc
  simp only [pushEscrow, hesc']
  refine congrArg pushGoesOn (if_neg ?_)
  simpa [modDep, takeSamples, modChan] using hno

theorem pushEscrow_clamps (hesc : s.dep.toEscrow = e :: rest)
    (hclamps : s.dep.escrow.length + 1 = s.dep.limit ∧ s.dep.clamp = false) :
    pushEscrow (takeSamples .q raws s) = pushGoesOn (setClamp (escrowPushed raws e rest s)) := by
  have hesc' : (takeSamples .q raws s).dep.toEscrow = e :: rest := hesc
  simp only [pushEscrow, hesc']
  refine congrArg pushGoesOn (if_pos ?_)
  simpa [modDep, takeSamples, modChan] using hclamps

theorem pushGoesOn_unsecured (h : s.dep.securing = false) : pushGoesOn s = tryHolding s := if_neg (by simp [h])

theorem setClamp_escrowPushed (hno : s.dep.limitNotice = false) (h : Room (pushClamps (escrowPushed raws e rest s))) :
    setClamp (escrowPushed raws e rest s) = pushClamps (escrowPushed raws e rest s) := setClamp_fits hno h

theorem refusedAtPocket_eq :
    refusedAtPocket (takeSamples .q raws s) =
      if 100 ≤ s.dep.pocketRefusals + 1 ∧ s.dep.closing = none then closeThroat id (refusedCounted raws s)
      else tryHolding (refusedCounted raws s) := by
  have hcount : modDrives (fun d => { d with pocketShutter := true })
      (modDep (fun d => { d with
          toPocket := d.toPocket - 1, refused := freeSum s s.dep.refused 1, pocketRefusals := d.pocketRefusals + 1 })
        (if s.dep.refused + 1 > 65535 then drawFree (takeSamples .q raws s) else takeSamples .q raws s)) =
      refusedCounted raws s := by
    by_cases hr : s.dep.refused < 65535
    · rw [if_neg (by omega)]
      simp only [refusedCounted, freeSum, if_pos hr, if_pos (show s.dep.refused + 1 ≤ 65535 by omega)]
      rfl
    · rw [if_pos (by omega)]
      simp only [refusedCounted, freeSum, if_neg hr, if_neg (show ¬s.dep.refused + 1 ≤ 65535 by omega)]
      rfl
  refine Eq.trans (b := if (refusedCounted raws s).dep.pocketRefusals ≥ 100 &&
    (refusedCounted raws s).dep.closing.isNone
    then closeThroat id (refusedCounted raws s) else tryHolding (refusedCounted raws s)) ?_ ?_
  · rw [← hcount]
    rfl
  · exact if_congr (by simp [refusedCounted]) rfl rfl

end

/-- Settles O23: each of the events has the closing throat look whether it is empty. -/
theorem throatClosesIntoHolding : Obligations.ThroatClosesIntoHolding := by
  refine ⟨?_, ?_, ?_⟩
  · intro c raws s sampled u cl hst
    refine ⟨?_, ?_⟩
    · intro hcl
      refine closingGoesOn (by exact hst) rfl ?_
      refine congrArg (fun x => Host.Outcome.next (finish x)) ((if_pos (by simp [hst, hcl])).trans ?_)
      rw [closeThroat_eq, show (takeSamples .q raws s).dep.closing = none from hcl]
      rfl
    · intro hcomes h
      obtain ⟨hc, hb, hl, hf⟩ := hcomes
      have hdep : u.dep = s.dep := heard_dep c s
      have hreply : replyDone c .depositCloseThroat [] (heard c s) = u := replyDone_fits (by decide) h.1
      refine closingGoesOn (by rw [← hst, ← hdep]; rfl) rfl ?_
      refine congrArg (fun x => Host.Outcome.next (finish x)) ((takeCommand_taken hc (.inl hf) ?_).trans ?_)
      · simp [closeThroatCheck, firstOf, hb, hl, hst]
      · rw [closeThroatCommand, hreply, closeThroat_eq, show (takeSamples .q raws u).dep.closing = s.dep.closing from
        congrArg _ hdep]
        rfl
  · intro raws s c e rest u clamps goesOn hst hcl hesc hsec
    have hexec : exec (.escrowPush raws) s = .next (finish (pushEscrow (takeSamples .q raws s))) :=
      congrArg (fun x => Host.Outcome.next (finish x)) (if_neg (by simp [hesc]))
    refine ⟨?_, ?_, ?_⟩
    · intro hno
      refine closingGoesOn (by exact hst) (by exact hcl) ?_
      rw [hexec, pushEscrow_unclamped hesc hno, pushGoesOn_unsecured (by exact hsec)]
    · intro hclamps hnoticed
      refine closingGoesOn (by exact hst) (by exact hcl) ?_
      rw [hexec, pushEscrow_clamps hesc hclamps, setClamp_noticed (by exact hnoticed),
        pushGoesOn_unsecured (by exact hsec)]
    · intro hclamps hno hr
      refine closingGoesOn (by exact hst) (by exact hcl) ?_
      rw [hexec, pushEscrow_clamps hesc hclamps, setClamp_escrowPushed hno hr, pushGoesOn_unsecured (by exact hsec)]
  · intro raws trail l s u hst
    refine ⟨?_, ?_, ?_⟩
    · intro c hpocket hcl
      refine closingGoesOn (by exact hst) (by exact hcl) ?_
      refine congrArg (fun x => Host.Outcome.next (finish x)) ((if_pos (by simp [hst, hpocket])).trans ?_)
      rw [refusedAtPocket_eq, if_neg (by simp [hcl])]
    · intro hpocket hcl h100
      refine closingGoesOn (by exact hst) rfl ?_
      refine congrArg (fun x => Host.Outcome.next (finish x)) ((if_pos (by simp [hst, hpocket])).trans ?_)
      rw [refusedAtPocket_eq, if_pos ⟨h100, hcl⟩, closeThroat_eq, show
        (refusedCounted raws s).dep.closing = none from hcl]
      rfl
    · intro c hcal hcl hflow hfed
      refine closingGoesOn (by exact hst) (by exact hcl) ?_
      refine congrArg (fun x => Host.Outcome.next (finish x)) ?_
      simp only [endTail, chanAt, hflow, hfed, tailCleared]
      exact if_neg (by simp [modChan, hcal])
end Sys2Proof.Machine
end

