-- ==== Sys2Proof/Proofs/Accepts.lean ====
section
/-! PROOFS. DEPOSIT_ACCEPT and DEPOSIT_RETURN (R84 to R87). -/

namespace Sys2Proof.Machine

section
variable {c : Header} {s : State} {raws : List Nat} {r : Reason}

theorem acceptCheck_heard (hb : isBound s c.src = true) (hl : s.lane.state ≠ .lockdown) :
    acceptCheck c (heard c s) =
      firstOf
        [(s.dep.st == .closed, .nothing), (s.dep.st == .awaitCeiling || s.dep.st == .zeroCapture, .laneState),
          (s.dep.st != .feeding && s.dep.st != .holding, .busy), (s.throatJam, .dispenserState)] := by
  simp [acceptCheck, firstOf, hb, hl]

/-- A session's throat that is no longer jammed takes an accept in FEEDING and in HOLDING (R84). -/
theorem acceptCheck_open (hb : isBound s c.src = true) (hl : s.lane.state ≠ .lockdown)
    (hst : s.dep.st = .feeding ∨ s.dep.st = .holding) (hjam : s.throatJam = false) :
    acceptCheck c (heard c s) = none := by
  rw [acceptCheck_heard hb hl]
  rcases hst with e | e <;> simp [firstOf, e, hjam]

end

/-- Samples neither begin nor end a note. -/
theorem inNote_samplesTaken {raws : List Nat} (x : Channel) : inNote (samplesTaken raws x) = inNote x := by
  unfold inNote samplesTaken feedFlow
  cases x.flow with
  | none => rfl
  | gap n sum => rfl
  | run cs trail =>
    dsimp only
    cases feedRun (zeroOf x) x.gain raws cs trail <;> rfl
  | tail trail =>
    dsimp only
    cases feedTail (zeroOf x) x.gain raws trail <;> rfl

/-- Closing takes no note out of the throat. -/
theorem throatEmpty_closing {cl : Closing} {s t : State} {raws : List Nat} (hdep : t.dep = s.dep)
    (hchQ : t.chQ = s.chQ) :
    ThroatEmpty (throatClosing cl (takeSamples .q raws t)) ↔ ThroatEmpty s := by
  have hnote : inNote (takeSamples .q raws t).chQ = inNote s.chQ := by
    rw [← hchQ]
    exact inNote_samplesTaken t.chQ
  simp only [ThroatEmpty, ← hnote, ← hdep]
  rfl

/-- An accept that finds a note in the throat is kept until the throat is empty (R84). -/
theorem acceptDeposit_waits {c : Header} {s : State} {raws : List Nat} (hst : s.dep.st = .feeding)
    (hbusy : ¬ThroatEmpty s) :
    acceptDeposit c raws (heard c s) =
      { heard c s with
          chQ := samplesTaken raws s.chQ,
          dep :=
            { s.dep with
                closing :=
                  some { s.dep.closing.getD {} with
                    accepts := (s.dep.closing.getD {}).accepts ++ [{ header := c, duress := s.alarm.duress }] },
                idleMs := none },
          drives := { s.drives with throatGate := false } } := by
  have hdep : (heard c s).dep = s.dep := heard_dep c s
  rw [acceptDeposit, if_pos (by simp [hst]), closeThroat_eq, heard_alarm]
  refine (tryHolding_of_busy (mt (throatEmpty_closing hdep (heard_chQ c s)).mp hbusy)).trans ?_
  have hclosing : (takeSamples .q raws (heard c s)).dep.closing.getD {} = s.dep.closing.getD {} := by
    rw [show (takeSamples .q raws (heard c s)).dep = s.dep from hdep]
  have hchQ : (takeSamples .q raws (heard c s)).chQ = samplesTaken raws s.chQ :=
    congrArg (samplesTaken raws) (heard_chQ c s)
  rw [hclosing, throatClosing, hchQ, show (takeSamples .q raws (heard c s)).dep = s.dep from hdep,
    show (takeSamples .q raws (heard c s)).drives = s.drives from heard_drives c s]
  rfl

/-- Settles O24: an accept taken is decided on the session in HOLDING, at once or as the throat shuts. -/
theorem depositAcceptStacksOrAsks : Obligations.DepositAcceptStacksOrAsks := by
  intro c raws s u value free stacked asked decided hcomes
  obtain ⟨hc, hb, hl, hf⟩ := hcomes
  have hdep : u.dep = s.dep := heard_dep c s
  have halarm : u.alarm = s.alarm := heard_alarm c s
  have hconfig : u.config = s.config := heard_config c s
  have hfree : lowestFree u = lowestFree s := lowestFree_heard
  have htaken (hst : s.dep.st = .feeding ∨ s.dep.st = .holding) (hjam : s.throatJam = false) :
      exec (.depositAccept c raws) s = .next (finish (acceptDeposit c raws u)) :=
    congrArg (fun x => Host.Outcome.next (finish x)) (takeCommand_taken hc (.inl hf) (acceptCheck_open hb hl hst hjam))
  have hdecided (v : State)
      (hans : exec (.depositAccept c raws) s = .next (finish (decideAccept c s.alarm.duress v)))
      (hesc : v.dep.escrow = s.dep.escrow) (hsec : v.dep.securing = false) (hcfg : v.config = s.config)
      (halm : v.alarm = s.alarm) (hslots : v.approval.slots = s.approval.slots) (hquiet : QuietEnd u → QuietEnd v) :
      decided v := by
    have hneeds : AcceptNeeds s.alarm.duress v ↔ ¬free := by
      rw [AcceptNeeds, hcfg, hesc, halm]
      simp [free, value, not_or]
    have hlowest : lowestFree v = lowestFree s := by rw [lowestFree, hslots, lowestFree]
    have hstacked : stacked v = acceptStacked c v := by rw [acceptStacked, hesc]
    have hasked (i : Nat) : asked v i = acceptAsked c i v := by rw [acceptAsked, hesc, hslots]
    have hsettle : (acceptStacked c v).dep.securing = false := hsec
    refine ⟨?_, ?_, ?_, ?_⟩
    · intro hfree hmore h
      rw [hstacked] at h ⊢
      rw [hans]
      refine next_finish ((decideAccept_stacks (by rw [hneeds]; exact not_not.mpr hfree) h.1).trans ?_) h
      refine depositSettled_stays hsettle ?_
      rw [← hesc] at hmore
      exact hmore
    · intro hfree he hcl hq h
      rw [hstacked] at h ⊢
      rw [hans]
      refine next_finish ((decideAccept_stacks (by rw [hneeds]; exact not_not.mpr hfree)
        h.room.of_depositEnded).trans ?_) h
      have hq' : QuietEnd (acceptStacked c v) := hquiet hq
      exact (depositSettled_of_stacked hsettle rfl (hesc.trans he) hcl).trans (endDeposit_fits hq' h.1)
    · intro i hn hi h
      rw [hasked] at h ⊢
      rw [hans]
      exact next_finish (decideAccept_asks (hneeds.mpr hn) (hlowest.trans hi) h.1) h
    · intro hn hnone h
      rw [hans]
      exact next_finish ((decideAccept_busy (hneeds.mpr hn) (hlowest.trans hnone)).trans (refuse_fits
        (by decide) h.1)) h
  refine ⟨?_, ?_, ?_, ?_⟩
  · intro hst hjam hsec hcl
    have hdecide : acceptDeposit c raws u = decideAccept c s.alarm.duress u := by
      rw [acceptDeposit, if_neg (by simp [hdep, hst]), halarm]
    refine hdecided u ?_ (by rw [hdep]) (by rw [hdep]; exact hsec) hconfig halarm (heard_slots c s) id
    rw [htaken (.inr hst) hjam, hdecide]
  · intro hst hjam hsec hcl hempty
    let v := takeSamples .q raws u
    have hclosing : v.dep.closing.getD {} = {} := by
      rw [show v.dep.closing = none from (congrArg Deposit.closing hdep).trans hcl]
      rfl
    have hhold : (throatClosed raws u).dep.st = .holding := throatShut_holding (s := v)
    have hdecide : acceptDeposit c raws u = decideAccept c s.alarm.duress (throatClosed raws u) := by
      rw [acceptDeposit, if_pos (by simp [hdep, hst]), closeThroat_eq, hclosing]
      refine (tryHolding_of_empty (by rw [← hst, ← hdep]; rfl) rfl ((throatEmpty_closing hdep (heard_chQ c s)).mpr
        hempty)).trans ?_
      rw [throatShut_throatClosing, halarm]
      exact lateAccept_holding hhold
    refine hdecided (throatClosed raws u) ?_ ?_ ?_ ?_ ?_ ?_ ?_
    · rw [htaken (.inl hst) hjam, hdecide]
    · exact (throatShut_escrow (s := v)).trans (congrArg Deposit.escrow hdep)
    · exact (throatShut_securing (s := v)).trans ((congrArg Deposit.securing hdep).trans hsec)
    · exact (throatShut_config (s := v)).trans hconfig
    · exact (throatShut_alarm (s := v)).trans halarm
    · exact (congrArg Approval.slots (throatShut_approval (s := v))).trans (heard_slots c s)
    · intro hq
      have hv : QuietEnd v := hq
      exact throatShut_quietEnd hv
  · intro cl mark t hst hjam hbusy h
    exact (htaken (.inl hst) hjam).trans (next_finish (acceptDeposit_waits hst hbusy) h)
  · intro r t hwhy h
    refine next_refused hc (.inl hf) (by decide) ?_ h
    rw [acceptCheck_heard hb hl]
    rcases hwhy with ⟨e, rfl⟩ | ⟨e | e, rfl⟩ | ⟨e | e | e | e | e, rfl⟩ | ⟨e | e, hj, rfl⟩
    all_goals simp [firstOf, e]
    all_goals exact hj

/-! ### DEPOSIT_RETURN -/

theorem Room.of_throatShut {s : State} (h : Room (throatShut s)) : Room s := by
  have hroom : Room (closeWindow .q (shutThroat s)) := by
    unfold throatShut at h
    dsimp only at h
    split at h <;> exact h
  exact Room.of_closeWindow (s := shutThroat s) hroom

section
variable {c : Header} {s : State}

theorem returnCheck_heard (hb : isBound s c.src = true) (hl : s.lane.state ≠ .lockdown) :
    returnCheck c (heard c s) =
      firstOf
        [(s.dep.st == .closed, .nothing),
          (s.dep.st == .stacking || s.dep.st == .returning || s.dep.st == .returnPresented ||
            s.dep.st == .returnRetracting, .late),
          ((s.dep.st == .feeding || s.dep.st == .holding) && s.throatJam, .dispenserState),
          (s.dep.st != .awaitCeiling && s.dep.st != .zeroCapture && s.dep.clearance == .retracting, .busy)] := by
  simp [returnCheck, firstOf, hb, hl]

end

/-- Settles O25: `returnDeposit` by the session state. -/
theorem depositReturnGivesBack : Obligations.DepositReturnGivesBack := by
  intro c raws s done taken returning given hcomes
  obtain ⟨hc, hb, hl, hf⟩ := hcomes
  have hstart : done.lane.state ≠ .starting := hc.not_starting
  have hdep : (heard c s).dep = s.dep := heard_dep c s
  have hexec (hcheck : returnCheck c (heard c s) = none) :
      exec (.depositReturn c raws) s = .next (finish (returnDeposit c raws (heard c s))) :=
    congrArg (fun x => Host.Outcome.next (finish x)) (takeCommand_taken hc (.inl hf) hcheck)
  have hdone (hr : Room done) : replyDone c .depositReturn [] (heard c s) = done := replyDone_fits (by decide) hr
  have htaken (hr : Room taken) : replyAccepted c .depositReturn [] (heard c s) = taken :=
    replyAccepted_fits (by decide) hr
  refine ⟨?_, ?_, ?_, ?_⟩
  · intro t hst hreq hub hfits h
    refine (hexec (by rw [returnCheck_heard hb hl]; simp [firstOf, hst])).trans (next_finish ?_ h)
    simp only [returnDeposit, hdep, hst, hdone hfits.1, withdrawIntent_of_isSome hreq]
    exact endDeposit_fits ⟨hub, rfl, hstart⟩ h.1
  · intro t hst hw hq h
    refine (hexec (by rw [returnCheck_heard hb hl]; simp [firstOf, hst])).trans (next_finish ?_ h)
    have hchQ : done.chQ = s.chQ := heard_chQ c s
    have hdrives : done.drives = s.drives := heard_drives c s
    have hroom : Room done := h.room.of_depositEnded
    have hclose : abandonCaptureQ done =
        { done with
            chQ := { s.chQ with window := false, flow := .none, capturing := false },
            drives := { s.drives with throatGate := false, throatTransport := false } } := by
      rw [← hchQ, ← hdrives]
      exact closeWindow_of_shut (ch := .q) (s := shutThroat done) (by rw [← hchQ] at hw; exact hw)
    simp only [returnDeposit, hdep, hst, hdone hroom, hclose]
    exact endDeposit_fits (by exact hq) h.1
  · intro hclear
    have hholding (hst : s.dep.st = .holding) (hjam : s.throatJam = false) (hr : Room taken) :
        exec (.depositReturn c raws) s = .next (finish (startReturn taken)) := by
      rw [hexec (by rw [returnCheck_heard hb hl]; simp [firstOf, hst, hjam, hclear])]
      simp only [returnDeposit, hdep, hst, htaken hr]
    have hfeeding (hst : s.dep.st = .feeding) (hjam : s.throatJam = false) (hr : Room taken) :
        exec (.depositReturn c raws) s =
          .next (finish (tryHolding (throatClosing { s.dep.closing.getD {} with giveBack := true }
            (takeSamples .q raws taken)))) := by
      rw [hexec (by rw [returnCheck_heard hb hl]; simp [firstOf, hst, hjam, hclear])]
      simp only [returnDeposit, hdep, hst, htaken hr, closeThroat_eq]
      rw [show (takeSamples .q raws taken).dep = s.dep from hdep]
    have hdep' : taken.dep = s.dep := hdep
    refine ⟨?_, ?_, ?_, ?_, ?_⟩
    · intro hst hjam hmore h
      refine (hholding hst hjam h.1).trans (next_finish_not_due ?_ h.2)
      exact startReturn_gives (by rw [hdep']; exact hmore)
    · intro x hst hx hk hmore hfits h
      have hkind : (taken.approval.slots.getD x.slot {}).kind.isSome := by
        rw [show taken.approval.slots = s.approval.slots from heard_slots c s]
        exact hk
      have hroom : Room taken := Room.of_slotClosed hfits.1
      refine (hexec (by rw [returnCheck_heard hb hl]; simp [firstOf, hst, hclear])).trans (next_finish_not_due ?_ h.2)
      simp only [returnDeposit, hdep, hst, hx, htaken hroom]
      rw [settleSlot_withdrawn_fits hkind hfits.1]
      refine startReturn_gives (s := slotWithdrawn x.slot taken) ?_
      rw [show (slotWithdrawn x.slot taken).dep = s.dep from hdep]
      exact hmore
    · intro hst hjam he hp hq h
      refine (hholding hst hjam h.room.of_depositEnded).trans (next_finish ?_ h)
      rw [startReturn_ends (by rw [hdep']; exact he) (by rw [hdep']; exact hp)]
      exact endDeposit_fits (by exact hq) h.1
    · intro t hst hjam hbusy h
      refine (hfeeding hst hjam h.1).trans (next_finish ?_ h)
      refine (tryHolding_of_busy (mt (throatEmpty_closing hdep' (heard_chQ c s)).mp hbusy)).trans ?_
      have hchQ : (takeSamples .q raws taken).chQ = samplesTaken raws s.chQ :=
        congrArg (samplesTaken raws) (heard_chQ c s)
      rw [throatClosing, hchQ, show (takeSamples .q raws taken).dep = s.dep from hdep,
        show (takeSamples .q raws taken).drives = s.drives from heard_drives c s]
      rfl
    · intro w hst hjam hcl hempty
      have hw (hr : Room taken) : exec (.depositReturn c raws) s = .next (finish (startReturn w)) := by
        have htry := tryHolding_of_empty (c := { s.dep.closing.getD {} with giveBack := true })
          (v := throatClosing { s.dep.closing.getD {} with giveBack := true } (takeSamples .q raws taken))
          (by rw [← hst, ← hdep']; rfl) rfl ((throatEmpty_closing hdep' (heard_chQ c s)).mpr hempty)
        rw [hfeeding hst hjam hr, htry, throatShut_throatClosing, hcl]
        rfl
      have hesc : w.dep.escrow = s.dep.escrow :=
        (throatShut_escrow (s := takeSamples .q raws taken)).trans (congrArg Deposit.escrow hdep')
      have hpocket : w.dep.pocketRefusals = s.dep.pocketRefusals :=
        (throatShut_pocketRefusals (s := takeSamples .q raws taken)).trans (congrArg Deposit.pocketRefusals hdep')
      refine ⟨?_, ?_⟩
      · intro hmore h
        refine (hw h.room.of_throatShut).trans (next_finish_not_due ?_ h.2)
        exact startReturn_gives (by rw [hesc, hpocket]; exact hmore)
      · intro he hp hq h
        have hroom : Room w := h.room.of_depositEnded
        refine (hw hroom.of_throatShut).trans (next_finish ?_ h)
        rw [startReturn_ends (hesc.trans he) (hpocket.trans hp)]
        have hq' : QuietEnd (takeSamples .q raws taken) := hq
        exact endDeposit_fits (by exact throatShut_quietEnd hq') h.1
  · intro r t hwhy h
    refine next_refused hc (.inl hf) (by decide) ?_ h
    rw [returnCheck_heard hb hl]
    rcases hwhy with ⟨e, rfl⟩ | ⟨e | e | e | e, rfl⟩ | ⟨e | e, hj, rfl⟩ | ⟨e | ⟨e | e, hj⟩, hr, rfl⟩
    all_goals simp [firstOf, e]
    all_goals simp [*]
end Sys2Proof.Machine
end

