-- ==== Sys2Proof/Proofs/Escrow.lean ====
section
/-! PROOFS. Notes at the escrow, the pocket and the stacking sensor (R18, R79 to R81, R86, R91). -/

namespace Sys2Proof.Machine

/-! ### The securing of a lockdown (R91) -/

section
variable {v : State}

theorem secureOn_held (h : v.throatJam = true ∨ v.dep.move ≠ .none ∨ v.dep.toEscrow ≠ []) : secureOn v = v := by
  refine if_pos ?_
  rcases h with h | h | h <;> simp [securingHeld, h]

theorem not_securingHeld (hj : v.throatJam = false) (hm : v.dep.move = .none) (he : v.dep.toEscrow = []) :
    ¬securingHeld v = true := by
  simp [securingHeld, hj, hm, he]

theorem secureOn_stacks (hj : v.throatJam = false) (hm : v.dep.move = .none) (ht : v.dep.toEscrow = [])
    (he : v.dep.escrow ≠ []) :
    secureOn v =
      { v with
          dep := { v.dep with st := .stacking, move := .stacking },
          drives := { v.drives with throatTransport := true } } :=
  (if_neg (not_securingHeld hj hm ht)).trans (if_pos (by simpa using he))

theorem secureOn_clearance (ht : v.dep.escrow = []) (hc : v.dep.clearance ≠ .none) : secureOn v = v := by
  by_cases h : securingHeld v = true
  · exact if_pos h
  · exact (if_neg h).trans ((if_neg (by simp [ht])).trans (if_neg (by simpa using hc)))

theorem secureOn_ends {o : DepOutcome} (ho : o = if 0 < v.dep.unconfirmed then .securedUnconfirmed else .lockdown)
    (hj : v.throatJam = false) (hm : v.dep.move = .none) (ht : v.dep.toEscrow = []) (he : v.dep.escrow = [])
    (hc : v.dep.clearance = .none) : secureOn v = endDeposit o v := by
  subst ho
  exact (if_neg (not_securingHeld hj hm ht)).trans ((if_neg (by simp [he])).trans (if_pos (by simp [hc])))

/-- The branches of the securing, with the mark of a commanded reset clear where it was. -/
theorem securingGoesOn {is : State → Prop}
    (h : ∀ t, secureOn v = t → (v.lane.resetDue = false → t.lane.resetDue = false) → is t) :
    SecuringGoesOn v is := by
  refine ⟨?_, ?_⟩
  · intro hheld
    exact h v (secureOn_held hheld) id
  · intro hj hm ht
    refine ⟨?_, ?_, ?_⟩
    · intro he
      exact h _ (secureOn_stacks hj hm ht he) id
    · intro he hc
      exact h v (secureOn_clearance he hc) id
    · intro he hc hq hfits
      exact h _ ((secureOn_ends rfl hj hm ht he hc).trans (endDeposit_fits hq hfits.1)) fun _ => hfits.2

end

/-- Settles O26: a push sets the clamp or not, and then the throat or the securing goes on. -/
theorem fedNotesReachEscrowOrPocket : Obligations.FedNotesReachEscrowOrPocket := by
  intro raws s
  refine ⟨?_, ?_⟩
  · intro e rest u clamps hesc hdue
    have hexec : exec (.escrowPush raws) s = .next (finish (pushEscrow (takeSamples .q raws s))) :=
      congrArg (fun x => Host.Outcome.next (finish x)) (if_neg (by simp [hesc]))
    have hopen {v : State} (hc : v.dep.closing = none) : tryHolding v = v := by
      unfold tryHolding
      split
      · next h => exact nomatch hc.symm.trans h
      · rfl
    refine ⟨?_, ?_⟩
    · intro hsec hcl
      refine ⟨?_, ?_⟩
      · intro hno
        rw [hexec]
        refine next_finish_not_due ?_ (by exact hdue)
        rw [pushEscrow_unclamped hesc hno, pushGoesOn_unsecured (by exact hsec)]
        exact hopen hcl
      · intro hclamps hno h
        rw [hexec]
        refine next_finish ?_ h
        rw [pushEscrow_clamps hesc hclamps, setClamp_escrowPushed hno h.1, pushGoesOn_unsecured (by exact hsec)]
        exact hopen hcl
    · intro hsec hno
      refine securingGoesOn fun t ht hkeeps => ?_
      rw [hexec, pushEscrow_unclamped hesc hno]
      exact next_finish_not_due ((if_pos hsec).trans ht) (hkeeps hdue)
  · intro hst hpocket hcl hfew hdue
    refine next_finish_not_due ?_ (by exact hdue)
    refine (if_pos (by simp [hst, hpocket])).trans ?_
    rw [refusedAtPocket_eq, if_neg (by omega)]
    simp only [tryHolding, refusedCounted, hst, hcl]

/-! ### Credits (R18) -/

theorem creditKnown_eq (confirmed : Bool) (e : EscrowEntry) (s : State) :
    creditKnown confirmed e s = noteCredited confirmed e s := by
  cases confirmed <;> rfl

theorem creditUnknown_eq (s : State) : creditUnknown s = unknownCredited s := rfl

section
variable (confirmed : Bool) (e : EscrowEntry) (s : State)

theorem noteCredited_dep : (noteCredited confirmed e s).dep = s.dep := by cases confirmed <;> rfl
theorem noteCredited_drives : (noteCredited confirmed e s).drives = s.drives := by cases confirmed <;> rfl
theorem noteCredited_lane : (noteCredited confirmed e s).lane = s.lane := by cases confirmed <;> rfl
theorem noteCredited_peer : (noteCredited confirmed e s).peer = s.peer := by cases confirmed <;> rfl
theorem noteCredited_approval : (noteCredited confirmed e s).approval = s.approval := by cases confirmed <;> rfl
theorem noteCredited_throatJam : (noteCredited confirmed e s).throatJam = s.throatJam := by cases confirmed <;> rfl

end

/-- The session once a note of its escrow has passed the stacking sensor (R86). -/
def depositStacked (e : EscrowEntry) (rest : List EscrowEntry) (d : Deposit) : Deposit :=
  { d with
      escrow := rest, stackedNotes := d.stackedNotes + 1, stackedValue := d.stackedValue + e.face,
      stackedPer := d.stackedPer.modify e.den (· + 1), unconfirmed := d.unconfirmed + if d.securing then 1 else 0 }

theorem stackNote_eq {s : State} {e : EscrowEntry} {rest : List EscrowEntry} (h : s.dep.escrow = e :: rest) :
    stackNote s =
      (let v := { noteCredited (!s.dep.securing) e s with dep := depositStacked e rest s.dep }
       if rest.isEmpty then
         depositSettled
           { v with
               dep := { v.dep with move := .none }, drives := { v.drives with throatTransport := false } }
       else v) := by
  have hcredit : modDep (depositStacked e rest) (creditKnown (!s.dep.securing) e s) =
      { noteCredited (!s.dep.securing) e s with dep := depositStacked e rest s.dep } := by
    rw [creditKnown_eq, modDep, noteCredited_dep]
  have hstack : stackNote s =
      (let v := modDep (depositStacked e rest) (creditKnown (!s.dep.securing) e s)
       if rest.isEmpty then
         depositSettled
           (modDrives (fun d => { d with throatTransport := false }) (modDep (fun d => { d with move := .none }) v))
       else v) := by
    simp only [stackNote, h]
    rfl
  rw [hstack, hcredit]
  rfl

/-- Settles O27: each of the sensor's owners credits the note, and the last one settles the escrow. -/
theorem stackedNotesAreCredited : Obligations.StackedNotesAreCredited := by
  intro s
  refine ⟨?_, ?_, ?_, ?_⟩
  · intro clear e rest w d hmove hesc
    have hpass : passStacking clear s =
        if rest.isEmpty then
          depositSettled
            { w with
                dep := { d with move := .none }, drives := { w.drives with throatTransport := false } }
        else { w with dep := d } := (if_pos (by simp [hmove])).trans (stackNote_eq hesc)
    refine ⟨?_, ?_⟩
    · intro hmore hdue
      refine next_finish_not_due (hpass.trans (if_neg (by simpa using hmore))) ?_
      exact (congrArg Lane.resetDue (noteCredited_lane ..)).trans hdue
    · intro u hlast hst hcl hq
      have hu : { w with dep := { d with move := .none }, drives := { w.drives with throatTransport := false } } = u
        := by
        rw [noteCredited_drives]
      have hsettle : passStacking clear s = depositSettled u := by
        rw [hpass, if_pos (by simp [hlast]), hu]
      have hq' : QuietEnd u := by
        rw [QuietEnd, show u.approval = s.approval from noteCredited_approval .., show u.peer = s.peer from
          noteCredited_peer .., show u.lane = s.lane from noteCredited_lane ..]
        exact hq
      refine ⟨?_, ?_⟩
      · intro hsec h
        refine next_finish (hsettle.trans ?_) h
        exact (depositSettled_of_stacked (s := u) hsec hst hlast hcl).trans (endDeposit_fits hq' h.1)
      · intro hsec hj ht h
        refine next_finish (hsettle.trans ?_) h
        have hjam : u.throatJam = false := (noteCredited_throatJam ..).trans hj
        have hcount : 0 < u.dep.unconfirmed := by
          change 0 < s.dep.unconfirmed + if s.dep.securing then 1 else 0
          rw [hsec]
          exact Nat.succ_pos _
        refine (if_pos hsec).trans ((secureOn_ends (if_pos hcount).symm hjam rfl ht hlast hcl).trans ?_)
        exact endDeposit_fits hq' h.1
  · intro clear hmove hcal hrec hdue
    refine next_finish_not_due ?_ (by exact hdue)
    refine (if_neg (by simpa using hmove)).trans ((if_neg (by simpa using hcal)).trans ((if_pos
      (by simp [hrec])).trans ?_))
    rw [runRecoveryStacking_eq, creditUnknown_eq]
    cases clear <;> rfl
  · intro clear o t hmove hcal ho hub h
    refine next_finish ?_ h
    refine (if_neg (by simpa using hmove)).trans ((if_pos (by simp [hcal])).trans ?_)
    rw [endCalAs_of_some (by exact ho)]
    exact endCal_fits (by exact hub) h.1
  · intro hmove hj ht he hdue
    refine next_finish_not_due ?_ (by exact hdue)
    refine (if_pos (by simp [hmove])).trans ?_
    exact secureOn_stacks (v := { s with dep := { s.dep with move := .none, st := .holding, slot := none, securing :=
      true } }) hj rfl ht he
end Sys2Proof.Machine
end

