-- ==== Sys2Proof/Proofs/Capture.lean ====
section
/-! PROOFS. The capture unit: the arbiter, retracts, jams and envelopes (R94 to R104). -/

namespace Sys2Proof.Machine

/-! ### The slot shutter and the arbiter (R94 to R98) -/

section
variable {s : State} {r : RetractRequest} {op : FaultOp}

/-- A jammed or opened-less capture unit keeps the slot shutter closed (R98). -/
theorem reshutter_of_jam (h : s.capture.jam = true) :
    reshutter s = { s with capture := { s.capture with shutter := false } } := by
  simp [reshutter, shutterWanted, h]

theorem grantEnvelope_eq (s : State) : grantEnvelope s = envelopeGranted s := by
  simp [grantEnvelope, reshutter, shutterWanted, envelopeGranted, modDrives, modCapture]

theorem tryEnvelope_eq (s : State) : tryEnvelope s = if s.capture.waiting then envelopeGranted s else s := by
  rw [tryEnvelope, grantEnvelope_eq]

theorem grantRetract_eq (r : RetractRequest) (s : State) : grantRetract r s = retractGranted r s := rfl

theorem arbitrate_busy (h : s.capture.jam = true ∨ s.capture.transport ≠ .idle) : arbitrate s = s := by
  refine if_pos ?_
  rcases h with h | h <;> simp [h]

theorem arbitrate_of_none (hj : s.capture.jam = false) (ht : s.capture.transport = .idle)
    (hr : s.capture.retract = none) : arbitrate s = if s.capture.waiting then envelopeGranted s else s := by
  simp [arbitrate, hj, ht, hr, tryEnvelope_eq]

theorem arbitrate_of_some (hj : s.capture.jam = false) (ht : s.capture.transport = .idle)
    (hr : s.capture.retract = some r) (hg : r.granted = false) (hb : s.capture.bin ≠ .opening) :
    arbitrate s =
      if compartmentTakes s.capture r then retractGranted r s else tryEnvelope (blockRetract r s) := by
  simp [arbitrate, hj, ht, hr, hg, hb, grantRetract_eq]

theorem compartmentTakes_iff {c : Capture} :
    compartmentTakes c r = true ↔ (c.bundles.map (·.count)).sum + r.count ≤ 200 ∧ c.bundles.length < 32 := by
  rw [compartmentTakes, Bool.and_eq_true, decide_eq_true_iff, decide_eq_true_iff]
  rfl

end

/-- Settles O28: the branches of the arbiter. -/
theorem arbiterGrantsInOrder : Obligations.ArbiterGrantsInOrder := by
  intro s c sum
  refine ⟨arbitrate_busy, ?_, ?_, ?_⟩
  · intro hj ht hr hw
    rw [arbitrate_of_none hj ht hr, if_neg (by simp [show s.capture.waiting = false from hw])]
  · intro hj ht hr hw
    rw [arbitrate_of_none hj ht hr, if_pos hw]
  · intro r hj ht hr hg hb
    refine ⟨?_, ?_⟩
    · intro hsum hlen
      rw [arbitrate_of_some hj ht hr hg hb, if_pos (compartmentTakes_iff.mpr ⟨hsum, hlen⟩)]
    · intro hover op u hroom
      have hno : ¬compartmentTakes s.capture r = true := by
        have hover' : 200 < (s.capture.bundles.map (·.count)).sum + r.count ∨ 32 ≤ s.capture.bundles.length :=
          hover
        rw [compartmentTakes_iff]
        omega
      have hop : requesterOp r.requester = op := by
        cases hq : r.requester <;> simp [requesterOp, op, hq]
      have hblock : blockRetract r s = u := by
        by_cases hb : r.blocked = true
        · exact (if_pos hb).trans (if_pos hb).symm
        · have hu : u = faulted .retractBlocked op none none
              { s with capture := { c with retract := some { r with blocked := true } } } := if_neg hb
          rw [hu] at hroom ⊢
          rw [blockRetract, if_neg hb, hop]
          exact raiseHard_fits hroom
      have hwaiting : u.capture.waiting = c.waiting := by
        simp only [u]
        split <;> rfl
      rw [arbitrate_of_some hj ht hr hg hb, if_neg hno, tryEnvelope_eq, hblock, hwaiting]

/-! ### Jams -/

theorem jamCapture_fits {op : FaultOp} {s : State}
    (h : Room (faulted .captureJam op none none
      { s with capture := { s.capture with transport := .idle, jam := true, envelope := none, shutter := false } })) :
    jamCapture op s =
      faulted .captureJam op none none
        { s with capture := { s.capture with transport := .idle, jam := true, envelope := none, shutter := false } }
          := by
  rw [jamCapture, reshutter_of_jam (by rfl)]
  exact raiseHard_fits h

/-- Settles O30: each jam is one hard fault over the unit that has stopped. -/
theorem captureAndRecoveryJams : Obligations.CaptureAndRecoveryJams := by
  refine ⟨?_, ?_⟩
  · intro s jammed
    refine ⟨?_, ?_⟩
    · intro t ht h
      exact next_finish ((if_pos (by simp [ht])).trans (jamCapture_fits h.1)) h
    · intro m mm counted t hm h
      refine next_finish ?_ h
      have hcounted : (if m.stage == .measuring && !m.passed then mm else m.mm) = counted := if_congr (by simp) rfl rfl
      simp only [jamEnvelope, hm, hcounted]
      rw [jamCapture_fits h.room.of_toldAll]
      exact noticeAll_fits h.1
  · intro s
    refine ⟨?_, ?_⟩
    · intro t ht h
      exact next_finish ((if_pos (by simp [ht])).trans (jamDispenser_fits (last := none) h.1)) h
    · intro t ht h
      exact next_finish ((if_pos (by simp [ht])).trans (jamThroat_fits h.1)) h

/-! ### Envelopes (R98 to R104) -/

section
variable {s : State} {m : EnvelopeMove}

theorem modEnvelope_eq (f : EnvelopeMove → EnvelopeMove) (h : s.capture.envelope = some m) :
    modEnvelope f s = { s with capture := { s.capture with envelope := some (f m) } } := by
  simp only [modEnvelope, modCapture, h, Option.map_some]

theorem inStage_iff {st : EnvelopeStage} (h : s.capture.envelope = some m) :
    inStage st s = true ↔ m.stage = st ∧ m.refusal = none := by
  simp [inStage, h]

theorem lengthPassed_eq (h : s.capture.envelope = some m) : lengthPassed s = m.passed := by simp [lengthPassed, h]

end

/-- Settles O31: each sensor rewrites the record of the envelope in the transport. -/
theorem envelopeFromSlotToLength : Obligations.EnvelopeFromSlotToLength := by
  intro s wanted c
  refine ⟨?_, ?_, ?_, ?_⟩
  · intro hsh hw hret hj ht hr hdue
    refine next_finish_not_due ?_ hdue
    let w := reshutter (modCapture (fun c => { c with waiting := true }) s)
    have harrive : envelopeArrives s = arbitrate w :=
      if_pos (show (s.capture.shutter && !s.capture.waiting && !s.capture.returned) = true by
        simp [show s.capture.shutter = true from hsh, show s.capture.waiting = false from hw,
          show s.capture.returned = false from hret])
    rw [harrive, arbitrate_of_none (s := w) hj ht hr]
    exact if_pos rfl
  · intro hw
    exact congrArg Host.Outcome.next (if_pos hw)
  · intro hret
    exact congrArg Host.Outcome.next (if_pos hret)
  · intro m hm put
    refine ⟨?_, ?_⟩
    · refine congrArg Host.Outcome.next ((if_pos (by simp [show s.capture.envelope = some m from hm])).trans ?_)
      rw [modEnvelope_eq _ hm]
      rfl
    · intro href
      refine ⟨?_, ?_, ?_, ?_⟩
      · intro hst
        refine congrArg Host.Outcome.next ((if_pos ((inStage_iff hm).mpr ⟨hst, href⟩)).trans ?_)
        exact modEnvelope_eq _ hm
      · intro hst hp
        refine congrArg Host.Outcome.next ((if_pos ?_).trans (modEnvelope_eq _ hm))
        rw [(inStage_iff hm).mpr ⟨hst, href⟩, lengthPassed_eq hm, hp]
        rfl
      · intro mm hst hp
        refine congrArg Host.Outcome.next ((if_pos ?_).trans ?_)
        · rw [(inStage_iff hm).mpr ⟨hst, href⟩, lengthPassed_eq hm, hp]
          rfl
        · by_cases hmm : 140 ≤ mm ∧ mm ≤ 260
          · rw [if_pos (by simpa using hmm), if_pos hmm]
            exact modEnvelope_eq _ hm
          · rw [if_neg (by simpa using hmm), if_neg hmm]
            exact modEnvelope_eq _ hm
      · intro mm hst
        refine congrArg Host.Outcome.next ((if_pos ((inStage_iff hm).mpr ⟨hst, href⟩)).trans ?_)
        simp only [show s.capture.envelope = some m from hm]
        exact modEnvelope_eq _ hm

/-- Settles O32: the record of the envelope is stamped, dropped or returned, and then the arbiter decides. -/
theorem envelopeImprintDropAndReturn : Obligations.EnvelopeImprintDropAndReturn := by
  intro s m c number hm
  refine ⟨?_, ?_, ?_⟩
  · intro hst href hp
    refine congrArg Host.Outcome.next ((if_pos ?_).trans (modEnvelope_eq _ ?_))
    · rw [(inStage_iff hm).mpr ⟨hst, href⟩, lengthPassed_eq hm, hp]
      rfl
    · exact hm
  · intro n entry u t hst hn hu hdue
    refine next_finish_not_due ?_ hdue
    simp only [envelopeDrops, show s.capture.envelope = some m from hm, hst, hn]
    exact congrArg (fun v => reshutter (arbitrate v)) (noticeAll_fits hu.1)
  · intro why u t hst hwhy hu hdue
    refine next_finish_not_due ?_ hdue
    simp only [envelopeReversed, show s.capture.envelope = some m from hm, hst, hwhy]
    exact congrArg (fun v => reshutter (arbitrate v)) (noticeAll_fits hu.1)

/-! ### The end of a retract movement (R96) -/

/-- Settles O29: the request is removed, its owner is told, and the arbiter decides on what that leaves. -/
theorem retractMovementEnds : Obligations.RetractMovementEnds := by
  intro s r u hr htr hub hreq hst
  have hq : QuietEnd u := ⟨hub, hreq, hst⟩
  let idle := modCapture (fun c => { c with transport := .idle }) s
  have hend : endRetract s = arbitrate (bundleInPlace r idle) := by
    simp only [endRetract, hr]
    exact if_pos (by simp [htr])
  have hexec {t : State} (ht : bundleInPlace r idle = t) (hdue : (arbitrate t).lane.resetDue = false) :
      exec .retractMovementEnd s = .next (arbitrate t) :=
    next_finish_not_due (hend.trans (congrArg arbitrate ht)) hdue
  have hplace_dep (h : r.requester = .deposit) : bundleInPlace r idle = depositBundle u := by
    simp only [bundleInPlace, h]
    rfl
  refine ⟨?_, ?_, ?_, ?_, ?_, ?_⟩
  · intro o t hwho hdst ho h hdue
    refine hexec ?_ hdue
    simp only [bundleInPlace, hwho]
    refine (if_pos (show (s.disp.st == .retracting) = true by simp [hdst])).trans ?_
    subst ho
    exact endDispense_fits (by exact hq) h.1
  · intro o t hwho hdst ho h hdue
    refine hexec ((hplace_dep hwho).trans ?_) hdue
    refine (if_pos (show (s.dep.st == .returnRetracting) = true by simp [hdst])).trans ?_
    subst ho
    exact endDeposit_fits (by exact hq) h.1
  · intro t hwho hdst hcl hsec hdue
    refine hexec ((hplace_dep hwho).trans ?_) hdue
    refine (if_neg (show ¬(s.dep.st == .returnRetracting) = true by simp [hdst])).trans ?_
    refine (if_pos (show (s.dep.clearance == .retracting) = true by simp [hcl])).trans ?_
    exact depositSettled_of_not_stacked hsec fun h => nomatch hdst.symm.trans h.1
  · intro hwho hdst hcl hsec
    refine securingGoesOn fun t ht _ hdue => hexec ((hplace_dep hwho).trans ?_) hdue
    refine (if_neg (show ¬(s.dep.st == .returnRetracting) = true by simpa using hdst)).trans ?_
    refine (if_pos (show (s.dep.clearance == .retracting) = true by simp [hcl])).trans ?_
    exact (if_pos hsec).trans ht
  · intro o t hwho hph ho h hdue
    refine hexec ?_ hdue
    simp only [bundleInPlace, hwho]
    refine (if_pos (show (s.cal.phase == .retracting) = true by simp [hph])).trans ?_
    exact (endCalAs_of_some (s := u) ho).trans (endCal_fits (s := u) hub h.1)
  · intro t hwho hdue
    refine hexec ?_ hdue
    simp only [bundleInPlace, hwho]
    rfl
end Sys2Proof.Machine
end

