-- ==== Sys2Proof/Proofs/Answers.lean ====
section
/-! PROOFS. The approval answers that are taken, and the end of the approval timer (R158 to R162). -/

namespace Sys2Proof.Machine

/-! ### The owners of the slots under an answer -/

/-- `w` differs from `s` as a peer's frame and the closing of a slot allow: nothing that a waiting operation's owner
keeps is written. -/
def OwnersKept (s w : State) : Prop :=
  w = { s with
          bus := w.bus, fault := w.fault, approval := w.approval,
          peer :=
            { s.peer with entries := w.peer.entries, request := w.peer.request, orphan := w.peer.orphan,
                          periodMs := w.peer.periodMs },
          lane := { s.lane with resetDue := w.lane.resetDue } }

namespace OwnersKept
variable {s w : State}

theorem cash (h : OwnersKept s w) : w.cash = s.cash := by rw [h]
theorem disp (h : OwnersKept s w) : w.disp = s.disp := by rw [h]
theorem dep (h : OwnersKept s w) : w.dep = s.dep := by rw [h]
theorem capture (h : OwnersKept s w) : w.capture = s.capture := by rw [h]
theorem alarm (h : OwnersKept s w) : w.alarm = s.alarm := by rw [h]
theorem drives (h : OwnersKept s w) : w.drives = s.drives := by rw [h]
theorem board (h : OwnersKept s w) : w.board = s.board := by rw [h]
theorem duplicate (h : OwnersKept s w) : w.peer.duplicate = s.peer.duplicate := by rw [h]
theorem laneState (h : OwnersKept s w) : w.lane.state = s.lane.state := by rw [h]
theorem release (h : OwnersKept s w) : w.lane.release = s.lane.release := by rw [h]
theorem resetWait (h : OwnersKept s w) : w.lane.resetWait = s.lane.resetWait := by rw [h]

theorem seated (h : OwnersKept s w) (i : Nat) : seated w i = Machine.seated s i := by
  rw [Machine.seated, h.board, Machine.seated]

end OwnersKept

theorem slotClosed_ownersKept {i : Nat} {how : Settling} {s u : State} (h : FrameOnly s u) :
    OwnersKept s (slotClosed i how u) := by
  unfold OwnersKept slotClosed reported
  rw [h]

/-! ### What each owner does with the verdict (R5, R19, R51, R85, R108, R146) -/

section
variable {s t : State}

/-- The notice of a load, of the cassette as it stands. -/
theorem noticeLoad_fits {o : LoadOutcome} {x : LoadWait} {l : List Byte}
    (ht : toldBound .completion
      (be 1 4 ++ be 1 x.tag ++ be 1 (loadOutcomePos o) ++ be 1 (x.cassette + 1) ++
        be 1 (cassetteStatePos (cassetteAt s x.cassette).st) ++ l) s = t) (h : Room t) : noticeLoad o x l s = t := by
  subst ht
  exact noticeBound_fits h

/-- A load that ends unapplied takes its wait with it (R5). -/
theorem endLoad_fits {o : LoadOutcome} {x : LoadWait} {cash : CassetteUnit} (hcash : s.cash = cash)
    (ht : toldBound .completion
      (be 1 4 ++ be 1 x.tag ++ be 1 (loadOutcomePos o) ++ be 1 (x.cassette + 1) ++
        be 1 (cassetteStatePos (cash.cassettes.getD x.cassette {}).st))
      { s with cash := { cash with loads := cash.loads.filter fun y => y.slot != x.slot } } = t) (h : Room t) :
    endLoad o x s = t := by
  subst hcash
  refine noticeLoad_fits ?_ h
  rw [List.append_nil]
  exact ht

/-- A load that is applied rewrites the record of its cassette (R5). -/
theorem applyLoad_fits {x : LoadWait} {c : Cassette} {d : Denom} {cash : CassetteUnit} (hcash : s.cash = cash)
    (hstate : s.lane.state = .closed) (hseat : seated s x.cassette = true)
    (hc : cash.cassettes[x.cassette]? = some c) (hd : cash.denoms[x.den]? = some d)
    (ht : toldBound .completion
      (be 1 4 ++ be 1 x.tag ++ be 1 (loadOutcomePos .loaded) ++ be 1 (x.cassette + 1) ++
        be 1 (cassetteStatePos (loadedCassette d x.den x.count c).st) ++ if isLoaded c then cassetteFigures c else [])
      { s with
          cash :=
            { cash with
                cassettes := cash.cassettes.set x.cassette (loadedCassette d x.den x.count c),
                loads := cash.loads.filter fun y => y.slot != x.slot } } = t) (h : Room t) :
    applyLoad x s = t := by
  subst hcash
  have hold : cassetteAt s x.cassette = c := cassetteAt_eq hc
  have hden : denomAt s x.den = d := by simp [denomAt, List.getD, hd]
  have hlt : x.cassette < s.cash.cassettes.length := (List.getElem?_eq_some_iff.mp hc).1
  refine (if_pos (by simp [hstate, hseat])).trans ?_
  rw [hold, hden, modCassette_eq_set (c := c) _ (by exact hc)]
  refine noticeLoad_fits ?_ h
  rw [cassetteAt_eq (c := loadedCassette d x.den x.count c) (by simp [modCash, hlt])]
  exact ht

theorem applyLoad_abandons {x : LoadWait} (h : s.lane.state ≠ .closed ∨ seated s x.cassette = false) :
    applyLoad x s = endLoad .abandoned x s := by
  refine if_neg ?_
  rcases h with h | h <;> simp [h]

/-- An exchange that ends, with its wait removed (R19). -/
theorem endExchange_fits {o : ExchangeOutcome} {tag : Nat} {l : List Byte} {cash : CassetteUnit} (hcash : s.cash = cash)
    (ht : toldBound .completion (be 1 5 ++ be 1 tag ++ be 1 (exchangeOutcomePos o) ++ l)
      { s with cash := { cash with exchange := none } } = t) (h : Room t) : endExchange o tag l s = t := by
  subst hcash ht
  exact noticeBound_fits h

/-- A bin service that ends before it opens (R108). -/
theorem endBin_fits {o : BinOutcome} {c : Capture} (hc : s.capture = c)
    (ht : toldAll .completion (be 1 6 ++ be 1 (binOutcomePos o))
      (reshutter { s with capture := { c with bin := .none, binSlot := none } }) = t) (h : Room t) :
    endBin o s = t := by
  subst hc ht
  refine (noticeAll_fits (k := .completion) ?_).trans ?_ <;> rw [List.append_nil]
  · exact h
  · rfl

/-- A waiting accept that is declined or expires leaves the session HOLDING (R85). -/
theorem acceptFailed_fits {o : DepStatus} {d : Deposit} (hd : s.dep = d)
    (ht : toldBound .depositStatus
      (be 1 (depStatusPos o) ++ be 1 d.acceptTag ++ be 2 d.escrow.length ++ be 3 (d.escrow.map (·.face)).sum)
      { s with dep := { d with st := .holding, slot := none } } = t) (h : Room t) : acceptFailed o s = t := by
  subst hd ht
  exact noticeBound_fits h

/-- The stacking of an escrow that holds notes (R86). -/
theorem startStacking_stacks (hsec : s.dep.securing = false) (he : s.dep.escrow ≠ []) :
    startStacking s =
      { s with
          dep := { s.dep with st := .stacking, slot := none, move := .stacking },
          drives := { s.drives with throatTransport := true } } := by
  have hempty : s.dep.escrow.isEmpty = false := by simpa using he
  unfold startStacking modDrives modDep
  simp only [hempty]
  exact depositSettled_stays (by exact hsec) (.inl he)

/-! ### The clearing of a latch (R146) -/

/-- The wait of a latch is over. -/
def waitOver (l : Latch) (a : Alarm) : Alarm :=
  match l with
  | .duress => { a with duressClear := none }
  | .attack => { a with attackClear := none }

theorem setLatchWait_none (l : Latch) (s : State) : setLatchWait l none s = { s with alarm := waitOver l s.alarm } := by
  cases l <;> rfl

theorem latchZoneActive_waitOver (l m : Latch) (a : Alarm) : latchZoneActive
    (waitOver l a) m = latchZoneActive a m := by
  cases l <;> rfl

theorem latchZoneActive_eq_false_iff {a : Alarm} {l : Latch} :
    latchZoneActive a l = false ↔ ∀ z ∈ a.zones, z.type = latchType l → z.state = .quiet ∧ z.frozen = false :=
      by
  simp [latchZoneActive]

theorem latchZoneActive_iff {a : Alarm} {l : Latch} :
    latchZoneActive a l = true ↔ ∃ z ∈ a.zones, z.type = latchType l ∧
      (z.state ≠ .quiet ∨ z.frozen = true) := by
  simp [latchZoneActive]

/-- The notice of an ALARM_CLEAR (R146). -/
abbrev clearTold (o : ClearOutcome) (l : Latch) (requester answering : Option Nat) (s : State) : State :=
  toldAll .completion
    (be 1 7 ++ be 1 (clearOutcomePos o) ++ be 1 (latchPos l) ++ beOpt 1 requester ++ beOpt 1 answering) s

theorem settleClear_denied {l : Latch} {requester : Option Nat} {c : Nat} {a : Alarm} (ha : s.alarm = a)
    (h : Room (clearTold .declined l requester (some c) { s with alarm := waitOver l a })) :
    settleClear l requester (.denied c) s =
      clearTold .declined l requester (some c) { s with alarm := waitOver l a } := by
  subst ha
  simp only [settleClear, setLatchWait_none]
  exact noticeAll_fits h

theorem settleClear_expired {l : Latch} {requester : Option Nat} {a : Alarm} (ha : s.alarm = a)
    (h : Room (clearTold .expired l requester none { s with alarm := waitOver l a })) :
    settleClear l requester .expired s = clearTold .expired l requester none { s with alarm := waitOver l a } := by
  subst ha
  simp only [settleClear, setLatchWait_none]
  exact noticeAll_fits h

theorem settleClear_abandoned {l : Latch} {requester : Option Nat} {c : Nat} {a : Alarm} (ha : s.alarm = a)
    (hz : latchZoneActive a l = true)
    (h : Room (clearTold .abandoned l requester (some c) { s with alarm := waitOver l a })) :
    settleClear l requester (.given c) s =
      clearTold .abandoned l requester (some c) { s with alarm := waitOver l a } := by
  subst ha
  simp only [settleClear, setLatchWait_none]
  refine (if_pos (by rw [latchZoneActive_waitOver]; exact hz)).trans (noticeAll_fits h)

theorem settleClear_cleared {l : Latch} {requester : Option Nat} {c : Nat} {a : Alarm} (ha : s.alarm = a)
    (hz : latchZoneActive a l = false) {u : State} (hu : clearLatch l { s with alarm := waitOver l a } = u)
    (h : Room (clearTold .cleared l requester (some c) u)) :
    settleClear l requester (.given c) s = clearTold .cleared l requester (some c) u := by
  subst ha hu
  simp only [settleClear, setLatchWait_none]
  refine (if_neg (by rw [latchZoneActive_waitOver]; simp [hz])).trans (noticeAll_fits h)

/-- The duress latch is cleared, and the wall line follows the attack latch (R141, R146). -/
theorem clearLatch_duress (hs : s.lane.state ≠ .starting)
    (h : Room (positioned { s with alarm := { s.alarm with duress := false, drive := s.alarm.attack } })) :
    clearLatch .duress s = positioned { s with alarm := { s.alarm with duress := false, drive := s.alarm.attack } }
      := by
  refine (askPosition_fits (by exact hs) ?_).trans ?_ <;>
    simp only [followDrive, modAlarm, Bool.false_or]
  exact h

/-- The attack latch is cleared, and a lane in LOCKDOWN may leave it (R141, R146, R151). -/
theorem clearLatch_attack (hs : s.lane.state ≠ .starting)
    {u : State} (hu : positioned { s with alarm := { s.alarm with attack := false, drive := s.alarm.duress } } = u)
    (h : Room u) :
    clearLatch .attack s =
      { u with lane := { u.lane with release := s.lane.release || s.lane.state == .lockdown } } := by
  have hask : askPosition (followDrive (modAlarm (fun a => { a with attack := false }) s)) = u := by
    subst hu
    refine (askPosition_fits (by exact hs) ?_).trans ?_ <;>
      simp only [followDrive, modAlarm, Bool.or_false]
    exact h
  simp only [clearLatch, hask]
  have hstate : u.lane.state = s.lane.state := by rw [← hu]; rfl
  have hrel : u.lane.release = s.lane.release := by rw [← hu]; rfl
  rw [if_congr (by rw [hstate]) rfl rfl]
  by_cases hl : s.lane.state = .lockdown
  · rw [if_pos (by simpa using hl)]
    simp [hl, modLane]
  · rw [if_neg (by simpa using hl), show (s.lane.state == .lockdown) = false by simpa using hl, Bool.or_false, ←
    hrel]

end

/-! ### An answer that is taken (R160, R161) -/

/-- A WAITING slot is settled, and the owner told of the state it leaves. -/
theorem settleAndTell_fits {slot : Nat} {k : OpKind} {how : Settling} {u : State}
    (hk : (u.approval.slots.getD slot {}).kind = some k) (hw : how ≠ .withdrawn) (h : Room (slotClosed slot how u)) :
    settleAndTell slot how u =
      tellOwner { slot := slot, ask := (u.approval.slots.getD slot {}).ask } k
        (u.approval.slots.getD slot {}).requester how (slotClosed slot how u) := by
  simp only [settleAndTell, hk, settleSlot_fits (by rw [hk]; rfl) hw h]
  rfl

/-- The verdict of an answer, 1 for GIVE and 2 for DENY (12.2). -/
def verdictOf (src verdict : Nat) : Settling := if verdict == 1 then .given src else .denied src

theorem verdictOf_ne_withdrawn (src verdict : Nat) : verdictOf src verdict ≠ .withdrawn := by
  unfold verdictOf
  split <;> simp

/-- R160: an answer that none of its lines sets aside settles the slot. -/
theorem exec_answer_taken {src slot ask verdict amount : Nat} {k : OpKind} {s t : State}
    (ha : AnswerTaken src slot ask amount k s) (hv : verdict = 1 ∨ verdict = 2)
    (hroom : Room (slotClosed slot (verdictOf src verdict) (applyFrame src .console false id s)))
    (ht : tellOwner { slot := slot, ask := ask } k (s.approval.slots.getD slot {}).requester (verdictOf src verdict)
      (slotClosed slot (verdictOf src verdict) (applyFrame src .console false id s)) = t) (h : Fits t) :
    exec (.approvalAnswer src slot ask verdict (opKindPos k) amount) s = .next t := by
  obtain ⟨hp, h31, hs, hn, hlane, hslot, hkind, hask, hamount, hreq⟩ := ha
  refine next_finish ?_ h
  refine (receive_of_takesPart hp hs hn).trans ((takeAnswer_addressed h31).trans ?_)
  have hout : ¬((verdict != 1 && verdict != 2) || decide (3 < slot)) = true := by
    rcases hv with rfl | rfl <;> simpa using hslot
  subst hask
  have hslots := applyFrame_slots src .console false id s
  calc judgeAnswer src slot _ verdict (opKindPos k) amount (applyFrame src .console false id s)
      = settleAndTell slot (verdictOf src verdict) (applyFrame src .console false id s) := by
        simp only [judgeAnswer, hslots, hkind]
        rw [if_neg (by simpa [peerEntry] using hlane), if_neg hout, if_neg (by simpa using hamount),
          if_neg (by simpa using hreq)]
        rfl
    _ = _ := settleAndTell_fits (by rw [hslots]; exact hkind) (verdictOf_ne_withdrawn src verdict) hroom
    _ = t := by rw [hslots]; exact ht

/-- Settles O33: the closed slot leaves what its owner keeps, and the owner goes on or ends ABANDONED. -/
theorem givenApprovalsTakeEffect : Obligations.GivenApprovalsTakeEffect := by
  intro src slot ask amount s w give taken ref
  have hk : OwnersKept s w := slotClosed_ownersKept (applyFrame_frameOnly ..)
  have hgive {k : OpKind} {t : State} (ha : taken k) (h : Fits t) (hroom : Room w)
      (ht : tellOwner ref k (s.approval.slots.getD slot {}).requester (.given src) w = t) : give k = .next t :=
    exec_answer_taken (verdict := 1) ha (.inl rfl) hroom ht h
  have hrunning {k : OpKind} (ha : taken k) : w.lane.state ≠ .starting := by
    have hp : takesPart s = true := ha.1
    rw [hk.laneState]
    simp [takesPart] at hp
    exact hp.1
  have hslots : ∀ {x : SlotRef}, x = ref → (x == ref) = true := by simp
  clear_value w
  refine ⟨?_, ?_, ?_, ?_, ?_, ?_, ?_, ?_, ?_, ?_, ?_, ?_⟩
  · intro t ha hst hsl hdup h
    have hlt : w.bus.queue.length < 16 := by simpa [t, queued] using h.1
    refine hgive ha h hlt.le ?_
    refine (if_pos (by simp [hk.disp, hst, hsl])).trans ?_
    refine (awaitDispenseCeiling_fits (hk.duplicate.trans hdup) hlt).trans ?_
    rw [hk.disp]
  · intro t ha hst hsl he hsec h
    refine hgive ha h h.room ?_
    refine (if_pos (by simp [hk.dep, hst, hsl])).trans ?_
    refine (startStacking_stacks (by rw [hk.dep]; exact hsec) (by rw [hk.dep]; exact he)).trans ?_
    rw [hk.dep, hk.drives]
  · intro x c d loaded t ha hx hst hseat hc hd h
    refine hgive ha h (h.room.of_toldBound (s := { w with cash := _ })) ?_
    refine Eq.trans (b := applyLoad x w) (by simp only [tellOwner, hk.cash, hx]; rfl) ?_
    have hloaded : loadedCassette d x.den x.count c = loaded := by simp [loadedCassette, stateOfCount, loaded]
    refine applyLoad_fits hk.cash (hk.laneState.trans hst) ((hk.seated _).trans hseat) hc hd ?_ h.room
    rw [hloaded]
    rfl
  · intro x t zero ha hx hxr hst h
    have hroom : Room t := h.room
    refine hgive ha h hroom.of_toldBound ?_
    refine Eq.trans (b := settleExchange x.tag (.given src) w)
      (by simp only [tellOwner, hk.cash, hx]; exact if_pos (hslots hxr)) ?_
    refine (if_pos (by simp [hk.laneState, hst])).trans ?_
    rw [endExchange_fits hk.cash rfl (by rw [hk.cash]; exact hroom), hk.cash]
    rfl
  · intro t ha hbin hsl hst h
    refine hgive ha h h.room ?_
    refine (if_pos (by simp [hk.capture, hbin, hsl])).trans ?_
    refine (if_pos (by simpa [hk.laneState] using hst)).trans ?_
    rw [modCapture, hk.capture]
  · intro u t ha hsl hz h
    have hroom : Room u := h.room.of_toldAll
    refine hgive ha h hroom.of_positioned ?_
    refine (if_pos (by simp [hk.alarm, hsl])).trans ?_
    refine settleClear_cleared (l := .duress) hk.alarm (latchZoneActive_eq_false_iff.mpr hz) ?_ h.room
    exact clearLatch_duress (s := { w with alarm := waitOver .duress s.alarm }) (hrunning ha) hroom
  · intro u t ha hns hsl hz h
    have hroom : Room u := h.room.of_toldAll
    refine hgive ha h hroom.of_positioned ?_
    refine (if_neg (by simp [hk.alarm, hns])).trans ((if_pos (by simp [hk.alarm, hsl])).trans ?_)
    refine settleClear_cleared (l := .attack) hk.alarm (latchZoneActive_eq_false_iff.mpr hz) ?_ h.room
    rw [← hk.release, ← hk.laneState]
    exact clearLatch_attack (s := { w with alarm := waitOver .attack s.alarm }) (hrunning ha) rfl hroom
  · intro t ha hsl h
    refine hgive ha h h.room ?_
    simp [tellOwner, modLane, hk.resetWait, hsl, t]
  · intro x t ha hx hno h
    refine hgive ha h (h.room.of_toldBound (s := { w with cash := _ })) ?_
    refine Eq.trans (b := applyLoad x w) (by simp only [tellOwner, hk.cash, hx]; rfl) ?_
    refine (applyLoad_abandons (by rw [hk.laneState, hk.seated]; exact hno)).trans ?_
    exact endLoad_fits hk.cash rfl h.room
  · intro x t ha hx hxr hst h
    refine hgive ha h (h.room.of_toldBound (s := { w with cash := _ })) ?_
    refine Eq.trans (b := settleExchange x.tag (.given src) w)
      (by simp only [tellOwner, hk.cash, hx]; exact if_pos (hslots hxr)) ?_
    refine (if_neg (by simp [hk.laneState, hst])).trans ?_
    exact endExchange_fits hk.cash (by rw [List.append_nil]) h.room
  · intro t ha hbin hsl hc hr h
    refine hgive ha h (h.room.of_toldAll (s := reshutter { w with capture := _ })) ?_
    refine (if_pos (by simp [hk.capture, hbin, hsl])).trans ?_
    refine (if_neg (by simp [hk.laneState, hc, hr])).trans ?_
    exact endBin_fits hk.capture rfl h.room
  · intro abandoned ha
    refine ⟨?_, ?_⟩
    · intro t hsl hz h
      refine hgive ha h (h.room.of_toldAll (s := { w with alarm := _ })) ?_
      refine (if_pos (by simp [hk.alarm, hsl])).trans ?_
      exact settleClear_abandoned (l := .duress) hk.alarm (latchZoneActive_iff.mpr hz) h.room
    · intro t hns hsl hz h
      refine hgive ha h (h.room.of_toldAll (s := { w with alarm := _ })) ?_
      refine (if_neg (by simp [hk.alarm, hns])).trans ((if_pos (by simp [hk.alarm, hsl])).trans ?_)
      exact settleClear_abandoned (l := .attack) hk.alarm (latchZoneActive_iff.mpr hz) h.room

/-! ### What waited ends DECLINED or EXPIRED (R161, R162) -/

/-- A slot that is settled against its owner: by a DENY, or by its timer. -/
def against (denied : Bool) (src : Nat) : Settling := if denied then .denied src else .expired

section
variable {denied : Bool} {src : Nat} {x : SlotRef} {requester : Option Nat} {s w t : State}

theorem tellOwner_dispense_against (hst : w.disp.st = .awaitApproval) (hsl : w.disp.slot = some x) (hq : QuietEnd w)
    (ht : dispenseEnded (if denied then .declined else .expired) w = t) (h : Room t) :
    tellOwner x .dispense requester (against denied src) w = t := by
  subst ht
  refine (if_pos (by simp [hst, hsl])).trans ?_
  cases denied <;> exact endDispense_fits hq h

theorem tellOwner_accept_against (hk : OwnersKept s w) (hst : s.dep.st = .awaitApproval) (hsl : s.dep.slot = some x)
    (ht : toldBound .depositStatus
      (be 1 (if denied then 1 else 2) ++ be 1 s.dep.acceptTag ++ be 2 s.dep.escrow.length ++
        be 3 (s.dep.escrow.map (·.face)).sum) { w with dep := { s.dep with st := .holding, slot := none } } = t)
    (h : Room t) : tellOwner x .depositAccept requester (against denied src) w = t := by
  refine (if_pos (by simp [hk.dep, hst, hsl])).trans ?_
  cases denied
  · exact acceptFailed_fits (o := .expired) hk.dep ht h
  · exact acceptFailed_fits (o := .declined) hk.dep ht h

theorem tellOwner_load_against (hk : OwnersKept s w) {y : LoadWait}
    (hy : s.cash.loads.find? (fun y => y.slot == x) = some y)
    (ht : toldBound .completion
      (be 1 4 ++ be 1 y.tag ++ be 1 (loadOutcomePos (if denied then .declined else .expired)) ++
        be 1 (y.cassette + 1) ++ be 1 (cassetteStatePos (s.cash.cassettes.getD y.cassette {}).st))
      { w with cash := { s.cash with loads := s.cash.loads.filter fun z => z.slot != y.slot } } = t) (h : Room t) :
    tellOwner x .cassetteLoad requester (against denied src) w = t := by
  simp only [tellOwner, hk.cash, hy]
  cases denied
  · exact endLoad_fits (o := .expired) hk.cash ht h
  · exact endLoad_fits (o := .declined) hk.cash ht h

theorem tellOwner_exchange_against (hk : OwnersKept s w) {y : ExchangeWait} (hy : s.cash.exchange = some y)
    (hyx : y.slot = x)
    (ht : toldBound .completion
      (be 1 5 ++ be 1 y.tag ++ be 1 (exchangeOutcomePos (if denied then .declined else .expired)))
      { w with cash := { s.cash with exchange := none } } = t) (h : Room t) :
    tellOwner x .depositCassetteExchange requester (against denied src) w = t := by
  simp only [tellOwner, hk.cash, hy]
  refine (if_pos (by simp [hyx])).trans ?_
  cases denied
  · exact endExchange_fits (o := .expired) hk.cash (by rw [List.append_nil]; exact ht) h
  · exact endExchange_fits (o := .declined) hk.cash (by rw [List.append_nil]; exact ht) h

theorem tellOwner_bin_against (hk : OwnersKept s w) (hst : s.capture.bin = .awaitApproval)
    (hsl : s.capture.binSlot = some x)
    (ht : toldAll .completion (be 1 6 ++ be 1 (binOutcomePos (if denied then .declined else .expired)))
      (reshutter { w with capture := { s.capture with bin := .none, binSlot := none } }) = t) (h : Room t) :
    tellOwner x .binService requester (against denied src) w = t := by
  refine (if_pos (by simp [hk.capture, hst, hsl])).trans ?_
  cases denied
  · exact endBin_fits (o := .expired) hk.capture ht h
  · exact endBin_fits (o := .declined) hk.capture ht h

theorem settleClear_against {l : Latch} {a : Alarm} (ha : w.alarm = a)
    (ht : clearTold (if denied then .declined else .expired) l requester (if denied then some src else none)
      { w with alarm := waitOver l a } = t) (h : Room t) :
    settleClear l requester (against denied src) w = t := by
  subst ht
  cases denied
  · exact settleClear_expired ha h
  · exact settleClear_denied ha h

/-- The latch whose ALARM_CLEAR waits in the slot (R146). -/
def latchWaiting (x : SlotRef) (a : Alarm) : Latch := if a.duressClear == some x then .duress else .attack

theorem tellOwner_clear_against (hk : OwnersKept s w)
    (hsl : s.alarm.duressClear = some x ∨ s.alarm.attackClear = some x)
    (ht : clearTold (if denied then .declined else .expired) (latchWaiting x s.alarm) requester
      (if denied then some src else none) { w with alarm := waitOver (latchWaiting x s.alarm) s.alarm } = t)
        (h : Room t) :
    tellOwner x .alarmClear requester (against denied src) w = t := by
  refine Eq.trans (b := settleClear (latchWaiting x s.alarm) requester (against denied src) w) ?_
    (settleClear_against hk.alarm ht h)
  by_cases hd : s.alarm.duressClear = some x
  · simp [tellOwner, hk.alarm, hd, latchWaiting]
  · simp [tellOwner, hk.alarm, hd, latchWaiting, hsl.resolve_left hd]

end

/-- Settles O34: the owner that waits ends what waited, whoever or whatever closed its slot. -/
theorem deniedOrExpiredApprovalsEnd : Obligations.DeniedOrExpiredApprovalsEnd := by
  intro src slot ask amount k s t ref ofDuress ended waits hwaits h
  have htold : ∀ (denied : Bool) (w : State), OwnersKept s w → QuietEnd w → t = ended denied w →
      tellOwner ref k (s.approval.slots.getD slot {}).requester (against denied src) w = t ∧ Room w := by
    intro denied w hk hq ht
    have hroom : Room t := h.room
    cases k with
    | dispense =>
      obtain ⟨hst, hsl⟩ := hwaits
      exact ⟨tellOwner_dispense_against (by rw [hk.disp]; exact hst) (by rw [hk.disp]; exact hsl) hq ht.symm hroom,
        Room.of_dispenseEnded (ht ▸ hroom)⟩
    | depositAccept =>
      obtain ⟨hst, hsl⟩ := hwaits
      exact ⟨tellOwner_accept_against hk hst hsl ht.symm hroom,
        Room.of_toldBound (s := { w with dep := _ }) (ht ▸ hroom)⟩
    | cassetteLoad =>
      obtain ⟨x, hx⟩ := Option.isSome_iff_exists.mp hwaits
      simp only [ended, hx] at ht
      exact ⟨tellOwner_load_against hk hx ht.symm hroom, Room.of_toldBound (s := { w with cash := _ })
        (ht ▸ hroom)⟩
    | depositCassetteExchange =>
      obtain ⟨x, hx, hsl⟩ := Option.map_eq_some_iff.mp hwaits
      simp only [ended, hx, Option.map_some, Option.getD_some] at ht
      exact ⟨tellOwner_exchange_against hk hx hsl ht.symm hroom,
        Room.of_toldBound (s := { w with cash := _ }) (ht ▸ hroom)⟩
    | binService =>
      obtain ⟨hst, hsl⟩ := hwaits
      exact ⟨tellOwner_bin_against hk hst hsl ht.symm hroom,
        Room.of_toldAll (s := reshutter { w with capture := _ }) (ht ▸ hroom)⟩
    | alarmClear =>
      refine ⟨tellOwner_clear_against hk hwaits (Eq.trans ?_ ht.symm) hroom,
        Room.of_toldAll (s := { w with alarm := _ }) (ht ▸ hroom)⟩
      have hof : latchWaiting ref s.alarm = if ofDuress then .duress else .attack := rfl
      rw [hof]
      simp only [ended]
      cases ofDuress <;> rfl
    | resetLane =>
      have hsl : s.lane.resetWait = some ref := hwaits
      exact ⟨by simp [tellOwner, modLane, hk.resetWait, hsl, ended, ht], (ht ▸ hroom : Room (ended denied w))⟩
  refine ⟨?_, ?_⟩
  · intro u ha hq ht
    obtain ⟨-, -, -, -, -, -, -, hask, -⟩ := id ha
    obtain ⟨htell, hroom⟩ := htold true (slotClosed slot (.denied src) u)
      (slotClosed_ownersKept (applyFrame_frameOnly ..)) hq ht
    exact exec_answer_taken (verdict := 2) ha (.inr rfl) hroom (by rw [← hask]; exact htell) h
  · intro x hx hkind hq ht
    have hslot : s.approval.slots.getD slot {} = x := by simp [List.getD, hx]
    obtain ⟨htell, hroom⟩ := htold false (slotClosed slot .expired s) (slotClosed_ownersKept rfl) hq ht
    exact next_finish ((settleAndTell_fits (by rw [hslot]; exact hkind) (by simp) hroom).trans htell) h
end Sys2Proof.Machine
end

