-- ==== Sys2Proof/Proofs/Grants.lean ====
section
/-! PROOFS. The decision on the lane's own INTENT and the wall sum (R120, R125); stale peers and what a transaction
  leaves of the binding (R119, R156). -/

namespace Sys2Proof.Machine

/-! ### The decision on the lane's own INTENT (R125) -/

section
variable {s : State} {e : TxEntry}

/-- The frame on the medium completes, where the step means its owner (R175, R177). -/
theorem completeOwn_of_onMedium {p : TxEntry → Bool} (he : s.bus.queue.find? (·.inTx) = some e) (hp : p e = true) :
    completeOwn p s = tellCompleted e { s with bus := { s.bus with queue := s.bus.queue.eraseP (·.inTx) } } := by
  have hon : onMedium s = some e := he
  simp only [completeOwn, hon]
  exact if_pos hp

theorem decideIntent_grants {a : Nat} {r : IntentRequest} (hr : s.peer.request = some r)
    (hd : s.peer.duplicate = false) (ha : wallSum s + a ≤ s.config.wallCeiling) :
    decideIntent a s = intentGranted r.kind a r.amount s := by
  simp only [decideIntent, hr]
  exact if_pos (by simp [hd, ha])

theorem decideIntent_refuses {a : Nat} {r : IntentRequest} (hr : s.peer.request = some r)
    (h : s.peer.duplicate = true ∨ s.config.wallCeiling < wallSum s + a) : decideIntent a s = refuseIntent s := by
  simp only [decideIntent, hr]
  refine if_neg ?_
  rcases h with h | h <;> simp [h]

/-- A refused request is held back, and a POSITION is asked for (R126). -/
theorem refuseIntent_fits {r : IntentRequest} (hr : s.peer.request = some r) (hs : s.lane.state ≠ .starting)
    (h : Room (positioned { s with peer := { s.peer with request := some (holdBack s.lane.timeMs r) } })) :
    refuseIntent s = positioned { s with peer := { s.peer with request := some (holdBack s.lane.timeMs r) } } := by
  rw [refuseIntent, modPeer, hr, Option.map_some]
  exact askPosition_fits (by exact hs) h

/-- A dispense is granted no more than it asks (R53, R125). -/
theorem intentGranted_dispense {a wanted : Nat} (h : a ≤ wanted) :
    intentGranted .dispense a wanted s =
      { s with
          peer :=
            { s.peer with
                request := none, held := { s.peer.held with h := s.peer.held.h + a, dispense := a },
                kept := { s.peer.held with h := s.peer.held.h + a, dispense := a } },
          disp := { s.disp with st := .zeroCapture, ceilingMs := none },
          chP := { s.chP with capturing := true },
          drives := { s.drives with pickTransport := true, pickGate := none } } := by
  simp only [intentGranted, gt_iff_lt, Nat.not_lt.mpr h, if_false]
  rfl

end

/-! ### The wall sum (R120) -/

/-- Leaving a place out of a list is counting 0 for it. -/
theorem sum_map_eraseIdx {α : Type} (f : α → Nat) (d : α) (l : List α) (i : Nat) :
    ((l.eraseIdx i).map f).sum = ((List.range l.length).map fun n => if n = i then 0 else f (l.getD n d)).sum := by
  induction l generalizing i with
  | nil => simp
  | cons a l ih =>
    rw [List.length_cons, List.range_succ_eq_map, List.map_cons, List.sum_cons, List.map_map]
    cases i with
    | zero =>
      have hall : ((List.range l.length).map fun n => f (l.getD n d)) = l.map f := by
        refine List.ext_getElem (by simp) fun n h1 h2 => ?_
        simp [List.getD, List.getElem?_eq_getElem (show n < l.length by simpa using h1)]
      have hsucc : ((fun n => if n = 0 then 0 else f ((a :: l).getD n d)) ∘ Nat.succ) = fun n => f (l.getD n d) := by
        funext n
        simp
      rw [hsucc, hall]
      simp
    | succ i =>
      have hsucc : ((fun n => if n = i + 1 then 0 else f ((a :: l).getD n d)) ∘ Nat.succ) =
          fun n => if n = i then 0 else f (l.getD n d) := by
        funext n
        simp
      rw [hsucc, ← ih i]
      simp

theorem countedValue_eq (cap : Nat) (e : PeerEntry) :
    countedValue cap e =
      if e.status = .awaited then cap
      else if e.kind = some .lane ∧ e.status = .live then e.held
      else if e.kind = some .lane ∧ e.status = .stale ∧ ¬(e.laneState = some .night ∧ e.announced = some 0) then
        e.cap
      else 0 := by
  unfold countedValue
  cases e.status with
  | empty => simp
  | awaited => simp
  | live => simp
  | stale =>
    by_cases hk : e.kind = some .lane
    · by_cases hn : e.laneState = some .night ∧ e.announced = some 0 <;> simp [hk, hn]
    · simp [hk]

/-- Settles O38: the decision on what the completed INTENT carried, over the wall sum written out. -/
theorem ownIntentIsDecidedAtCompletion : Obligations.OwnIntentIsDecidedAtCompletion := by
  refine ⟨?_, ?_⟩
  · intro s e u a held he howner
    have hgo {t : State} (ht : tellCompleted e u = t) (h : t.lane.resetDue = false) :
        exec .intentCompletion s = .next t :=
      next_finish_not_due ((completeOwn_of_onMedium he (by simp [howner])).trans ht) h
    refine ⟨?_, ?_⟩
    · intro horphan r hr
      have htell : tellCompleted e u = decideIntent a u := by simp [tellCompleted, howner, horphan, a]
      refine ⟨?_, ?_⟩
      · intro hd hw h
        have hgrant : tellCompleted e u = intentGranted r.kind a r.amount u :=
          htell.trans (decideIntent_grants (s := u) hr hd hw)
        refine ⟨?_, ?_⟩
        · intro hk ha
          exact hgo (hgrant.trans (by rw [hk]; exact intentGranted_dispense (s := u) ha)) h
        · intro hk
          exact hgo (hgrant.trans (by rw [hk]; rfl)) h
      · intro t hover hs h
        exact hgo (htell.trans ((decideIntent_refuses (s := u) hr hover).trans
          (refuseIntent_fits (s := u) hr hs h.room))) h.2
    · intro t horphan hs h
      refine hgo ?_ h.2
      have htell : tellCompleted e u = orphanCompletion u := by simp [tellCompleted, howner, horphan]
      exact htell.trans (askPosition_fits (s := { u with peer := { s.peer with orphan := false } }) hs h.room)
  · intro s counted others hlen
    have hcounted : countedValue s.config.defaultPeerCap = counted := funext (countedValue_eq _)
    rw [wallSum, sat24, Nat.min_comm, hcounted, sum_map_eraseIdx counted {}, hlen]
    rfl

/-! ### Stale peers (R119, R156) -/

theorem peerEntry_eq {s : State} {n : Nat} {e : PeerEntry} (h : s.peer.entries[n]? = some e) : peerEntry s n = e := by
  simp [peerEntry, List.getD, h]

theorem dispenseEnded_approval (o : DispOutcome) (s : State) : (dispenseEnded o s).approval = s.approval :=
  released_approval ..

theorem depositEnded_approval (o : DepOutcome) (s : State) : (depositEnded o s).approval = s.approval :=
  released_approval ..

/-- The binding after a transaction's end, with the unbind pending mark set (R156). -/
theorem afterTransaction_marked {b : Nat} {s v : State} (ha : v.approval = s.approval)
    (hu : s.approval.unbindPending = true) (hb : s.approval.bound = some b)
    (h : Room (if txnOpen v = true then v else unboundStale b v)) :
    afterTransaction v = if txnOpen v = true then v else unboundStale b v := by
  rw [← ha] at hu hb
  by_cases ht : txnOpen v = true
  · simp [afterTransaction, ht]
  · rw [if_neg ht] at h
    exact afterTransaction_pending hu hb h

section
variable {s t : State}

theorem room_of_left {b : Nat} {v : State} (h : Room (if txnOpen v = true then v else unboundStale b v)) : Room v := by
  split at h
  · exact h
  · exact Room.of_toldAll (s := { v with approval := _ }) h

/-- The end of a dispense, before what it leaves of the binding (R72). -/
theorem endDispense_eq {o : DispOutcome} (hs : s.lane.state ≠ .starting) (hr : s.peer.request = none)
    (h : Room (dispenseEnded o s)) : endDispense o s = afterTransaction (dispenseEnded o s) := by
  have hl : Room (toldBound .completion (dispCompletion { s.disp with outcome := some o })
      (released .dispense { s with disp := { s.disp with outcome := some o } })) := h
  have e1 : releaseDispense (modDisp (fun d => { d with outcome := some o }) s) =
      released .dispense { s with disp := { s.disp with outcome := some o } } :=
    releaseDispense_fits (s := { s with disp := { s.disp with outcome := some o } }) hs hr hl.of_toldBound
  simp only [endDispense, e1, notifyDispense, released_disp, noticeBound_fits hl]
  rfl

/-- The end of a deposit session, before what it leaves of the binding (R92). -/
theorem endDeposit_eq {o : DepOutcome} (hs : s.lane.state ≠ .starting) (hr : s.peer.request = none)
    (h : Room (depositEnded o s)) : endDeposit o s = afterTransaction (depositEnded o s) := by
  have hl : Room (toldBound .completion (depCompletion s.peer.held.deposit { s.dep with outcome := some o })
      (released .deposit { s with dep := { s.dep with outcome := some o } })) := h
  have e1 : releaseDeposit (modDep (fun d => { d with outcome := some o }) s) =
      released .deposit { s with dep := { s.dep with outcome := some o } } :=
    releaseDeposit_fits (s := { s with dep := { s.dep with outcome := some o } }) hs hr hl.of_toldBound
  simp only [endDeposit, e1, released_dep, noticeBound_fits hl]
  rfl

/-- The end of a calibration, before what it leaves of the binding (R43). -/
theorem endCal_eq {o : CalOutcome} (h : Room (calEnded o s)) : endCal o s = afterTransaction (calEnded o s) := by
  have hl : Room (toldBound .completion
      (calCompletion { s.cal with outcome := some o, gainAfter := (chanAt s s.cal.channel).gain })
      { s with cal := { s.cal with outcome := some o, gainAfter := (chanAt s s.cal.channel).gain } }) := h
  have e1 := noticeBound_fits hl
  simp only [endCal, modCal] at e1 ⊢
  rw [e1]
  rfl

end

/-- Settles O39: an entry becomes STALE, a transaction ends with the mark set, and the lane's number is heard again. -/
theorem stalePeersPositionsAndDuplicates : Obligations.StalePeersPositionsAndDuplicates := by
  refine ⟨?_, ?_, ?_⟩
  · intro n s e u he hlive hr
    have hentry : peerEntry s n = e := peerEntry_eq he
    have hu : staleEntry n s = u := by simp only [staleEntry, modPeer, modifyAt_eq_set _ he]; rfl
    have hstale : peerStale n s = retestIntent (if e.kind == some .console && isBound s n then boundStale u else u)
      := by
      simp only [peerStale, hentry, hu]
      exact if_neg (by simp [hlive])
    refine ⟨?_, ?_⟩
    · intro hk h
      refine next_finish_not_due (hstale.trans ?_) h
      rw [if_neg (by simpa [isBound, ← not_and_or] using hk)]
      exact retestIntent_none hr
    · intro hk hb
      have hbound : peerStale n s = retestIntent (boundStale u) := by
        rw [hstale, if_pos (by simp [hk, isBound, hb])]
      refine ⟨?_, ?_⟩
      · intro ht h
        refine next_finish_not_due (hbound.trans ?_) h
        rw [boundStale, if_pos (show txnOpen u = true from ht)]
        exact retestIntent_none hr
      · intro ht h
        refine next_finish (hbound.trans ?_) h
        have hun : boundStale u = unboundStale n u := by
          rw [boundStale, if_neg (show ¬txnOpen u = true by rw [show txnOpen u = txnOpen s from rfl, ht]; simp),
            unbindStale]
          simp only [show u.approval.bound = some n from hb]
          exact noticeAll_fits h.room
        rw [hun]
        exact retestIntent_none (s := unboundStale n u) hr
  · intro s b left shut hu hb hr hs
    have hdisp {o : DispOutcome} {v : State} (ha : v.approval = s.approval) (hr : v.peer.request = none)
        (hs : v.lane.state ≠ .starting) (h : Room (left (dispenseEnded o v))) :
        endDispense o v = left (dispenseEnded o v) :=
      (endDispense_eq hs hr (room_of_left h)).trans
        (afterTransaction_marked ((dispenseEnded_approval o v).trans ha) hu hb h)
    have hdep {o : DepOutcome} {v : State} (ha : v.approval = s.approval) (hr : v.peer.request = none)
        (hs : v.lane.state ≠ .starting) (h : Room (left (depositEnded o v))) :
        endDeposit o v = left (depositEnded o v) :=
      (endDeposit_eq hs hr (room_of_left h)).trans
        (afterTransaction_marked ((depositEnded_approval o v).trans ha) hu hb h)
    have hcal {o : CalOutcome} {v : State} (ha : v.approval = s.approval) (h : Room (left (calEnded o v))) :
        endCal o v = left (calEnded o v) :=
      (endCal_eq (room_of_left h)).trans (afterTransaction_marked (v := calEnded o v) ha hu hb h)
    refine ⟨?_, ?_, ?_, ?_, ?_, ?_⟩
    · intro o t h
      exact hdisp rfl hr hs h
    · intro o t h
      exact hdep rfl hr hs h
    · intro o t h
      exact hcal rfl h
    · intro t hst hms h
      refine next_finish ?_ h
      rw [if_pos (by simp [dispensePresented, hst, hms])]
      exact hdisp (v := bundleTaken s) rfl hr hs h.room
    · intro t hst h
      refine next_finish ?_ h
      rw [if_pos (by simp [hst])]
      exact hdep (v := shut) rfl hr hs h.room
    · intro o t hph ho h
      refine next_finish ?_ h
      rw [if_pos (by simp [hph]), endCalAs_of_some (s := setShutter false s) ho]
      exact hcal (v := shut) rfl h.room
  · intro s hs
    refine ⟨?_, ?_⟩
    · intro h
      exact next_finish (askPosition_fits hs h.room) h
    · intro t hp h31 h
      refine next_finish ?_ h
      have hraise : raiseHard .duplicateStation .none none (some s.lane.station)
          (modPeer (fun p => { p with duplicate := true }) s) = faulted .duplicateStation .none none
            (some s.lane.station) { s with peer := { s.peer with duplicate := true } } :=
        raiseHard_fits (Room.of_positioned h.room)
      rw [if_neg (by simp [hp, h31]), foundDuplicate, hraise]
      exact askPosition_fits (by exact hs) h.room
end Sys2Proof.Machine
end

