-- ==== Sys2Proof/Proofs/Frames.lean ====
section
/-! PROOFS. The lane's own transmissions, a full transmit queue, and the idle point (R174, R176 to R178). -/

namespace Sys2Proof.Machine

/-! ### The weakest and the strongest pending frame (R177, R178) -/

theorem foldl_max_le_iff {α : Type} (f : α → Nat) (l : List α) (a n : Nat) :
    l.foldl (fun m x => max m (f x)) a ≤ n ↔ a ≤ n ∧ ∀ x ∈ l, f x ≤ n := by
  induction l generalizing a with
  | nil => simp
  | cons x l ih => simp [ih, and_assoc]

theorem le_foldl_min_iff {α : Type} (f : α → Nat) (l : List α) (a n : Nat) :
    n ≤ l.foldl (fun m x => min m (f x)) a ↔ n ≤ a ∧ ∀ x ∈ l, n ≤ f x := by
  induction l generalizing a with
  | nil => simp
  | cons x l ih => simp [ih, and_assoc]

theorem weakestPending_le_iff (q : List TxEntry) (n : Nat) :
    weakestPending q ≤ n ↔ ∀ x ∈ q, x.inTx = false → classNum x.frame.cls ≤ n := by
  simp [weakestPending, foldl_max_le_iff, isPending]

theorem le_strongestPending_iff (q : List TxEntry) (n : Nat) :
    n ≤ strongestPending q ↔ n ≤ 7 ∧ ∀ x ∈ q, x.inTx = false → n ≤ classNum x.frame.cls := by
  simp [strongestPending, le_foldl_min_iff, isPending]

theorem classNum_le (c : FrameClass) : classNum c ≤ 7 := by cases c <;> decide

section
variable {q before after : List TxEntry} {e old : TxEntry}

/-- The weakest class is that of a pending frame that none is weaker than. -/
theorem weakestPending_eq (hold : old ∈ q) (hp : old.inTx = false)
    (h : ∀ x ∈ q, x.inTx = false → classNum x.frame.cls ≤ classNum old.frame.cls) :
    weakestPending q = classNum old.frame.cls :=
  Nat.le_antisymm ((weakestPending_le_iff ..).mpr h) ((weakestPending_le_iff ..).mp le_rfl old hold hp)

/-- The strongest class is that of a pending frame that none is stronger than. -/
theorem strongestPending_eq (he : e ∈ q) (hp : e.inTx = false)
    (h : ∀ x ∈ q, x.inTx = false → classNum e.frame.cls ≤ classNum x.frame.cls) :
    strongestPending q = classNum e.frame.cls :=
  Nat.le_antisymm (((le_strongestPending_iff ..).mp le_rfl).2 e he hp)
    ((le_strongestPending_iff ..).mpr ⟨classNum_le _, h⟩)

theorem modFirst_append {α : Type} {p : α → Bool} (f : α → α) {b a : List α} {x : α}
    (hb : ∀ y ∈ b, p y = false)
    (hx : p x = true) : modFirst p f (b ++ x :: a) = b ++ f x :: a := by
  induction b with
  | nil => simp [modFirst, hx]
  | cons y b ih =>
    rw [List.forall_mem_cons] at hb
    simp [modFirst, hb.1, ih hb.2]

end

/-! ### A queue with one pending POSITION (R130, R177) -/

/-- What the positions behind `pre` keep of a queue. -/
theorem firstPosition_behind (pre l : List TxEntry) :
    (((l.zipIdx pre.length).filter fun p =>
        !(isPendingPosition p.1 && ((pre ++ l).take p.2).any isPendingPosition)).map (·.1)) =
      if pre.any isPendingPosition then l.filter (fun x => !isPendingPosition x) else onePosition l := by
  induction l generalizing pre with
  | nil => simp [onePosition]
  | cons e l ih =>
    have hnext := ih (pre ++ [e])
    rw [List.length_append, List.length_singleton, List.append_assoc, List.singleton_append] at hnext
    have htake : (pre ++ e :: l).take pre.length = pre := List.take_left ..
    rw [List.any_append, List.any_cons, List.any_nil, Bool.or_false] at hnext
    rw [List.zipIdx_cons, List.filter_cons]
    dsimp only
    rw [htake, onePosition, List.filter_cons]
    split
    · next hkeep =>
      rw [List.map_cons, hnext]
      cases hpre : pre.any isPendingPosition <;> cases he : isPendingPosition e <;> simp_all
    · next hgone =>
      rw [hnext]
      simp_all

theorem onePosition_eq (q : List TxEntry) : onePosition q = firstPositionOnly q :=
  (firstPosition_behind [] q).symm

/-! ### The owner of a lost frame (R178) -/

theorem frameLost_eq (e : TxEntry) (s : State) : frameLost e s = ownerTold e s := by
  unfold frameLost ownerTold
  cases e.owner <;> rfl

theorem ownerTold_lane {e : TxEntry} (s : State) (h : e.owner ≠ .resetNotice) : (ownerTold e s).lane = s.lane := by
  unfold ownerTold
  cases ho : e.owner with
  | intent => dsimp only; split <;> rfl
  | resetNotice => exact absurd ho h
  | querySegment | nobody | position | ask => rfl

section
variable {s : State} {e : TxEntry}

theorem enqueue_gives_way {before after : List TxEntry} {old : TxEntry} (hfull : 16 ≤ s.bus.queue.length)
    (hq : s.bus.queue = before ++ old :: after) (hp : old.inTx = false)
    (he : classNum e.frame.cls < classNum old.frame.cls)
    (hb : ∀ x ∈ before, x.inTx = false → classNum x.frame.cls ≤ classNum old.frame.cls)
    (ha : ∀ x ∈ after, x.inTx = false → classNum x.frame.cls < classNum old.frame.cls) :
    enqueue e s =
      ownerTold old
        { raiseSoft .txOverflow .none none none s with
            bus := { s.bus with queue := before ++ after ++ [e] } } := by
  have hw : weakestPending s.bus.queue = classNum old.frame.cls := by
    refine weakestPending_eq (by simp [hq]) hp fun x hx hxp => ?_
    rw [hq, List.mem_append, List.mem_cons] at hx
    rcases hx with hx | rfl | hx
    · exact hb x hx hxp
    · exact le_rfl
    · exact (ha x hx hxp).le
  have hyes : pendingOfClass (classNum old.frame.cls) old = true := by simp [pendingOfClass, isPending, hp]
  have hno : ∀ x ∈ after.reverse, ¬pendingOfClass (classNum old.frame.cls) x = true := by
    intro x hx hc
    simp only [pendingOfClass, isPending, Bool.and_eq_true, Bool.not_eq_true', beq_iff_eq] at hc
    exact (ha x (List.mem_reverse.mp hx) hc.1).ne hc.2
  have hrev : s.bus.queue.reverse = after.reverse ++ old :: before.reverse := by simp [hq]
  have hfind : s.bus.queue.reverse.find? (pendingOfClass (classNum old.frame.cls)) = some old := by
    rw [hrev, List.find?_append, List.find?_eq_none.mpr hno, Option.none_or, List.find?_cons, hyes]
  have herase : (s.bus.queue.reverse.eraseP (pendingOfClass (classNum old.frame.cls))).reverse = before ++ after := by
    rw [hrev, List.eraseP_append_right _ hno, List.eraseP_cons_of_pos hyes]
    simp
  rw [enqueue, if_neg (Nat.not_lt.mpr hfull)]
  simp only [hw, hfind, if_pos he, frameLost_eq]
  rw [← herase]
  rfl

theorem enqueue_drops (hfull : 16 ≤ s.bus.queue.length)
    (h : ∀ x ∈ s.bus.queue, x.inTx = false → classNum x.frame.cls ≤ classNum e.frame.cls) :
    enqueue e s = ownerTold e (raiseSoft .txOverflow .none none none s) := by
  have hw : ¬classNum e.frame.cls < weakestPending s.bus.queue := Nat.not_lt.mpr ((weakestPending_le_iff ..).mpr h)
  rw [enqueue, if_neg (Nat.not_lt.mpr hfull)]
  simp only [if_neg hw, frameLost_eq]
  split <;> rfl

/-! ### The ends of the lane's own transmissions (R174, R177) -/

theorem finishWith_not_due {b : Board} {t : State} (ht : s = t) (h : t.lane.resetDue = false) : finishWith b s = t := by
  subst ht
  exact if_neg (by simp [h])

theorem finishWith_due {b : Board} {t : State} (ht : s = t) (h : t.lane.resetDue = true) :
    finishWith b s = restart .commanded { t with board := b } := by
  subst ht
  exact if_pos h

theorem loseArbitration_requeues (he : s.bus.queue.find? (·.inTx) = some e) (ho : e.orphan = false) :
    loseArbitration s = requeue id s := by
  have hon : onMedium s = some e := he
  simp only [loseArbitration, hon]
  exact if_neg (by simp [ho])

theorem loseArbitration_orphan (he : s.bus.queue.find? (·.inTx) = some e) (ho : e.orphan = true) :
    loseArbitration s = { dropOnMedium s with peer := { s.peer with orphan := false } } := by
  have hon : onMedium s = some e := he
  simp only [loseArbitration, hon]
  exact if_pos ho

theorem complainOwn_requeues (he : s.bus.queue.find? (·.inTx) = some e) (ho : e.orphan = false)
    (hc : e.complaints ≤ 2) : complainOwn s = requeue (fun x => { x with complaints := x.complaints + 1 }) s := by
  have hon : onMedium s = some e := he
  simp only [complainOwn, hon]
  rw [if_neg (by omega), if_neg (by simp [ho])]

theorem complainOwn_discards (he : s.bus.queue.find? (·.inTx) = some e) (hc : 3 ≤ e.complaints) :
    complainOwn s =
      ownerTold e
        (raiseSoft .busComplained .none none (if e.frame.dst ≤ 30 then some e.frame.dst else none)
          (dropOnMedium s)) := by
  have hon : onMedium s = some e := he
  simp only [complainOwn, hon]
  rw [if_pos (by omega), frameLost_eq]

theorem requeue_eq (f : TxEntry → TxEntry) :
    requeue f s =
      { s with
          bus :=
            { s.bus with
                queue := firstPositionOnly
                  (s.bus.queue.map fun x => if x.inTx then f { x with inTx := false } else x) } } := by
  rw [← onePosition_eq]
  rfl

end

/-- Settles O40: what the owner of the frame on the medium is told, and what a full queue gives up. -/
theorem ownTransmissionsEnd : Obligations.OwnTransmissionsEnd := by
  refine ⟨?_, ?_⟩
  · intro s b e u again one he hdue
    have hfirst (p : TxEntry → Bool) (hp : p e = true) : completeOwn p s = tellCompleted e u :=
      completeOwn_of_onMedium he hp
    refine ⟨?_, ?_, ?_, ?_, ?_, ?_, ?_⟩
    · rintro ⟨hi, hq, hr⟩
      have htell : tellCompleted e u = u := by
        unfold tellCompleted
        cases ho : e.owner with
        | intent => exact absurd ho hi
        | querySegment => exact absurd ho hq
        | resetNotice => exact absurd ho hr
        | nobody | position | ask => rfl
      exact congrArg Host.Outcome.next (finishWith_not_due ((hfirst _ rfl).trans htell) hdue)
    · intro ho
      have htell : tellCompleted e u = { u with lane := { s.lane with resetDue := true } } := by
        simp only [tellCompleted, ho]
        rfl
      exact congrArg Host.Outcome.next (finishWith_due
        (t := { u with lane := { s.lane with resetDue := true } }) ((hfirst _ rfl).trans htell) rfl)
    · intro ho x hx
      have hgo {t : State} (ht : nextSegment u = t) (h : t.lane.resetDue = false) :
          exec .querySegmentCompleted s = .next t := by
        refine next_finish_not_due ((hfirst _ (by simp [ho])).trans ?_) h
        simp only [tellCompleted, ho]
        exact ht
      have hx' : u.bus.series = some x := hx
      refine ⟨?_, ?_⟩
      · intro hrest
        refine hgo ?_ hdue
        simp only [nextSegment, hx', hrest]
        rfl
      · intro p rest t hrest hlen
        refine hgo ?_ hdue
        have hmem : e ∈ s.bus.queue := List.mem_of_find?_eq_some he
        have hlt : u.bus.queue.length < 16 := by
          have hl : u.bus.queue.length = s.bus.queue.length - 1 :=
            List.length_eraseP_of_mem hmem (List.find?_some he)
          have hpos : 0 < s.bus.queue.length := List.length_pos_of_mem hmem
          omega
        simp only [nextSegment, hx', hrest]
        exact enqueue_room hlt
    · intro ho
      exact congrArg Host.Outcome.next ((loseArbitration_requeues he ho).trans (requeue_eq id))
    · intro ho
      exact congrArg Host.Outcome.next (loseArbitration_orphan he ho)
    · intro ho hc
      exact congrArg Host.Outcome.next
        (finishWith_not_due ((complainOwn_requeues he ho hc).trans (requeue_eq _)) hdue)
    · intro hc w
      have hw : complainOwn s = w := complainOwn_discards he hc
      refine ⟨?_, ?_⟩
      · intro ho
        exact congrArg Host.Outcome.next (finishWith_not_due hw (by rw [ownerTold_lane _ ho]; exact hdue))
      · intro ho
        refine congrArg Host.Outcome.next (finishWith_due hw ?_)
        simp only [w, ownerTold, ho]
  · intro e s full weaker
    refine ⟨enqueue_room, fun hfull => ⟨?_, ?_⟩⟩
    · intro before after old hq hp he hb ha
      exact enqueue_gives_way hfull hq hp he (fun x hx hxp => Nat.not_lt.mp (hb x hx hxp)) ha
    · intro h
      exact enqueue_drops hfull fun x hx hxp => Nat.not_lt.mp (h x hx hxp)

/-! ### The idle point (R176, R177) -/

/-- The oldest frame of the strongest class is filled and offered. -/
theorem offerFrame_offers {s : State} {before after : List TxEntry} {e : TxEntry} (hs : s.lane.state ≠ .starting)
    (hq : s.bus.queue = before ++ e :: after) (hp : ∀ x ∈ s.bus.queue, x.inTx = false)
    (hb : ∀ x ∈ before, classNum e.frame.cls < classNum x.frame.cls)
    (ha : ∀ x ∈ after, classNum e.frame.cls ≤ classNum x.frame.cls) :
    offerFrame s = { s with bus := { s.bus with queue := before ++ fillFrame s e :: after, part := true } } := by
  have he : e ∈ s.bus.queue := by simp [hq]
  have hstrong : strongestPending s.bus.queue = classNum e.frame.cls := by
    refine strongestPending_eq he (hp e he) fun x hx _ => ?_
    rw [hq, List.mem_append, List.mem_cons] at hx
    rcases hx with hx | rfl | hx
    · exact (hb x hx).le
    · exact le_rfl
    · exact ha x hx
  have hnone : onMedium s = none := List.find?_eq_none.mpr fun x hx => by simp [hp x hx]
  refine (if_neg (by simp [hs, hnone])).trans ?_
  rw [hstrong, hq, modFirst_append (fillFrame s) (fun y hy => ?_) (by simp [pendingOfClass, isPending, hp e he])]
  · rfl
  · simp [pendingOfClass, (hb y hy).ne']

/-- Settles O41: the frame offered takes its figures as `fillFrame` gives them. -/
theorem idlePointOffersTheStrongestFrame : Obligations.IdlePointOffersTheStrongestFrame := by
  refine ⟨?_, ?_⟩
  · intro s
    refine ⟨?_, ?_⟩
    · intro h
      refine congrArg Host.Outcome.next (if_pos ?_)
      simpa [onMedium, List.find?_isSome] using h
    · intro hs hq
      refine congrArg Host.Outcome.next ((if_neg (by simp [hs, onMedium, hq])).trans ?_)
      simp only [hq, modFirst, modBus]
  · intro s before after e offered hs hq hp hb ha
    have hgo {x : TxEntry} (hx : fillFrame s e = { x with inTx := true }) : exec .idlePoint s = .next (offered x) :=
      congrArg Host.Outcome.next ((offerFrame_offers hs hq hp hb ha).trans (by rw [hx]))
    refine ⟨?_, ?_, ?_⟩
    · rintro ⟨hpos, hint⟩
      refine hgo ?_
      unfold fillFrame
      cases ho : e.owner with
      | position => exact absurd ho hpos
      | intent => exact absurd ho hint
      | nobody | ask | querySegment | resetNotice => rfl
    · intro ho hf figures
      refine hgo ?_
      have hfig : positionPayload s = figures := by
        have hsum : summaryPos (alarmSummary s.alarm) =
            if s.alarm.attack then 3 else if s.alarm.duress then 2 else 1 := by
          unfold alarmSummary
          cases s.alarm.attack <;> cases s.alarm.duress <;> rfl
        simp only [positionPayload, show (s.lane.state == .configFault) = false by simpa using hf, slotsInUse,
          ← List.countP_eq_length_filter, hsum]
        rfl
      simp only [fillFrame, ho, hfig]
    · intro r ho hr
      refine hgo ?_
      simp only [fillFrame, ho, hr]
      rfl
end Sys2Proof.Machine
end

