-- ==== Sys2Proof/Proofs/Queries.lean ====
section
/-! PROOFS. QUERY and its records, the RETRY of a command, and unknown commands (R175, R180 to R182). -/

namespace Sys2Proof.Machine

/-! ### Records as figures (R180, R182) -/

section
variable {w v : Nat} {o : Option Nat} {b : Bool} {l m : List (Nat × Option Nat)}

@[simp] theorem sent_nil : sent [] = [] := rfl
@[simp] theorem sent_fig : sent (fig w v :: l) = be w v ++ sent l := rfl
@[simp] theorem sent_flagFig : sent (flagFig b :: l) = beFlag b ++ sent l := rfl
@[simp] theorem sent_timerFig : sent (timerFig o :: l) = secondsLeft o ++ sent l := rfl
@[simp] theorem sent_opt : sent ((w, o) :: l) = beOpt w o ++ sent l := rfl
@[simp] theorem sent_append : sent (l ++ m) = sent l ++ sent m := List.flatMap_append ..

theorem sent_flatMap {α : Type} (x : List α) (f : α → List (Nat × Option Nat)) :
    sent (x.flatMap f) = x.flatMap fun a => sent (f a) := by
  simp [sent, List.flatMap_assoc]

theorem sent_map_fig (x : List Nat) : sent (x.map (fig w)) = x.flatMap (be w) := by
  simp [sent, List.flatMap_map]
  rfl

/-- A record that is absent as a whole is all ones in every field. -/
theorem sent_absent (ws : List Nat) : sent (ws.map fun w => (w, none)) = ones ws.sum := by
  induction ws with
  | nil => rfl
  | cons w ws ih =>
    rw [List.map_cons, sent_opt, ih, List.sum_cons]
    exact List.replicate_append_replicate

theorem sent_orAbsent {α : Type} {ws : List Nat} {f : α → List (Nat × Option Nat)} {x : Option α} :
    sent (orAbsent ws f x) = match x with | none => ones ws.sum | some a => sent (f a) := by
  cases x with
  | none => exact sent_absent ws
  | some a => rfl

end

/-! ### The lane status record (R184) -/

theorem slotBytes_eq (x : ApprovalSlot) :
    slotBytes x = sent
      [fig 1 (if x.kind.isSome then 2 else 1), (1, x.kind.map opKindPos), (3, x.amount), (1, x.requester), fig 1 x.ask,
       (4, x.timeAsked), timerFig x.remainingMs] := by
  simp [slotBytes]

theorem requestBytes_eq (x : Option IntentRequest) :
    requestBytes x = sent (orAbsent [1, 1, 3, 1, 4, 1]
      (fun r =>
        [fig 1 (intentPos r.kind), fig 1 (intentPos r.kind), fig 3 r.amount, fig 1 (intentPhasePos r.phase),
         (4, r.refusedAt), fig 1 r.refusals]) x) := by
  rw [sent_orAbsent]
  cases x <;> simp [requestBytes]

theorem retractBytes_eq (x : Option RetractRequest) :
    retractBytes x = sent (orAbsent [1, 1, 1, 2, 3, 1, 1]
      (fun r =>
        [fig 1 (requesterPos r.requester), fig 1 (bundleKindPos r.kind), (1, r.tag), fig 2 r.count, fig 3 r.value,
         flagFig r.blocked, flagFig r.granted]) x) := by
  rw [sent_orAbsent]
  cases x <;> simp [retractBytes]

theorem statusFigures_sent (s : State) :
    laneBytes s ++ approvalBytes s ++ heldBytes s ++ alarmBytes s ++ captureBytes s = sent (statusFigures s) := by
  simp [laneBytes, approvalBytes, heldBytes, alarmBytes, captureBytes, statusFigures, laneTime, requestBytes_eq,
    retractBytes_eq, sent_flatMap, funext slotBytes_eq, noteEstimate]

theorem noteBytes_eq (x : Option NoteRecord) :
    noteBytes x = sent (orAbsent [2, 2, 2, 2, 2, 2, 1, 1, 1, 1]
      (fun r =>
        [fig 2 r.n, fig 2 r.length, (2, r.c), (2, r.t), (2, r.ref), (2, r.q), (1, r.den), fig 1 (noteClassPos r.cls),
         flagFig r.fragment, flagFig r.cutOff]) x) := by
  rw [sent_orAbsent]
  cases x <;> simp [noteBytes]

theorem channelBytes_eq (c : Channel) : channelBytes c = sent (channelFigures c) := by
  simp [channelBytes, channelFigures, noteBytes_eq]

theorem dispenseBytes_eq (s : State) : dispenseBytes s = sent (dispenseFigures s) := by
  unfold dispenseBytes dispenseFigures
  by_cases hi : s.disp.st = .idle
  · simp [hi]
  · cases hr : s.disp.request with
    | none => simp [hi, hr, dispRequestBytes, sent_flatMap, ones, beOpt]
    | some r =>
      cases r with
      | amount n => simp [hi, hr, dispRequestBytes, sent_flatMap]
      | pairs l => simp [hi, hr, dispRequestBytes, sent_flatMap]

theorem depositBytes_eq (s : State) : depositBytes s = sent (depositFigures s) := by
  unfold depositBytes depositFigures
  by_cases hc : s.dep.st = .closed
  · simp [hc]
  · have hentry : entryBytes = fun e => be 1 e.den ++ (be 3 e.face ++ be 2 e.thick) := by
      funext e
      simp [entryBytes]
    simp [hc, sent_flatMap, entriesValue, hentry]

theorem laneStatusBytes_eq (s : State) :
    laneStatusBytes s =
      sent (statusFigures s ++ channelFigures s.chP ++ channelFigures s.chQ ++ dispenseFigures s ++ depositFigures s)
        := by
  simp only [laneStatusBytes, statusFigures_sent, channelBytes_eq, dispenseBytes_eq, depositBytes_eq, sent_append]

/-! ### The other records (R182) -/

theorem indexed_of_getElem? {α : Type} {lo n i : Nat} {l : List α} {x : α} (f : α → List Byte) (hi : i < n)
    (hx : l[i]? = some x) : indexed lo n l f (i + lo) = some (f x) := by
  simp [indexed, hi, hx, Nat.add_comm lo n]

theorem indexed_of_not_lt {α : Type} {lo n i : Nat} {l : List α} (f : α → List Byte)
    (hi : i < lo ∨ lo + n ≤ i) :
    indexed lo n l f i = none := by
  refine if_neg ?_
  simp only [Bool.and_eq_true, decide_eq_true_eq]
  omega

theorem cassetteBytes_eq (c : Cassette) :
    cassetteBytes c = sent
      [fig 1 (cassetteStatePos c.st), (1, c.denom), (3, c.face), fig 2 c.count, fig 2 c.loaded, fig 2 c.accepted,
       fig 2 c.rejectEst, fig 2 c.setpoint, fig 2 c.ref, fig 2 c.restart, fig 2 c.misses] := by
  simp [cassetteBytes, cassetteFigures]

theorem denomBytes_eq (d : Denom) :
    denomBytes d = sent
      [flagFig d.used, fig 3 d.face, fig 2 d.nomLength, fig 2 d.window, fig 2 d.nomThick, fig 2 d.ref,
       fig 2 d.restart, fig 2 d.basis] := by
  simp [denomBytes]

theorem purgeBytes_eq (p : PurgeTray) :
    purgeBytes p = sent (fig 2 p.total :: p.perCassette.map (fig 2) ++
      [fig 2 p.notes, fig 3 p.value, flagFig p.full]) := by
  simp [purgeBytes, sent_map_fig]

theorem depositCassetteBytes_eq (d : DepositCassette) :
    depositCassetteBytes d = sent (fig 2 d.count :: d.perCount.map (fig 2) ++ d.perValue.map (fig 3) ++
      [fig 2 d.unconfCount, fig 3 d.unconfValue, fig 2 d.unidentified]) := by
  simp [depositCassetteBytes, sent_map_fig]

theorem journalBytes_eq (e : JournalEntry) :
    journalBytes e = sent [fig 3 e.seq, fig 2 e.startCount, fig 4 e.laneTime, fig 2 e.length, (1, e.bound)] := by
  simp [journalBytes]

theorem bundleBytes_eq (x : Bundle) :
    bundleBytes x = sent
      [fig 1 (bundleKindPos x.kind), (1, x.tag), fig 2 x.count, fig 3 x.value, fig 2 x.startCount, fig 4 x.laneTime,
       flagFig x.unverified] := by
  simp [bundleBytes]

theorem zoneBytes_eq (z : Zone) :
    zoneBytes z = sent
      [fig 1 (zoneTypePos z.type), flagFig z.report, (1, z.band.map bandPos), (1, candidatePos z.candidate),
       fig 2 z.count, fig 1 (zoneStatePos z.state), flagFig z.trouble, fig 2 z.restore, flagFig z.frozen, fig 2 z.hold,
       flagFig z.changed] := by
  simp [zoneBytes]

theorem peerBytes_eq (e : PeerEntry) :
    peerBytes e = sent
      [(1, e.kind.map peerKindPos), fig 1 (peerStatusPos e.status), fig 3 e.held, fig 3 e.cap, flagFig e.known,
       (1, e.laneState.map laneStatePos), (3, e.announced), fig 1 (summaryPos e.summary),
       (1, e.vehicle.map fun v => if v then 1 else 2), (1, e.slots), fig 2 e.age] := by
  simp [peerBytes]

/-- A flag's weight is the power of two at its place. -/
theorem flagBits_eq (l : List Bool) (k : Nat) :
    ((l.zipIdx k).map fun p => if p.1 then 2 ^ p.2 else 0).sum = 2 ^ k * flagBits l := by
  induction l generalizing k with
  | nil => rfl
  | cons b l ih =>
    rw [List.zipIdx_cons, List.map_cons, List.sum_cons, ih, flagBits]
    cases b <;> simp <;> ring

theorem faultBytes_eq (f : FaultUnit) :
    faultBytes f = sent ([fig 1 (faultHoldPos f.hold)] ++
      orAbsent [1, 1, 1, 1, 1, 2, 4]
        (fun r =>
          [fig 1 (faultKindIdx r.kind + 1), fig 1 (laneStatePos r.laneState), fig 1 (faultOpPos r.op),
           (1, r.place.map placePos), (1, r.station), fig 2 r.startCount, fig 4 r.laneTime]) f.latched ++
      [fig 3 ((f.flags ++ [f.second]).zipIdx.map fun p => if p.1 then 2 ^ p.2 else 0).sum]) := by
  rw [flagBits_eq, sent_append, sent_append, sent_orAbsent, pow_zero, one_mul]
  cases hl : f.latched <;> simp [faultBytes, hl]

theorem causeBytes_eq (c : ResetCause) :
    causeBytes c = sent
      [flagFig c.powerOn, flagFig c.supplyDip, flagFig c.resetLine, flagFig c.commanded, flagFig c.backupLost,
       fig 1 (resetKindPos c.last), fig 2 c.clearStart, fig 4 c.clearTime] := by
  simp [causeBytes]

theorem figureBytes_eq (t : ShiftTotals) : figureBytes t = sent (shiftFigures t) := by
  simp [figureBytes, shiftFigures, sent_map_fig]

theorem closedBytes_eq (x : ClosedShift) :
    closedBytes (some x) = sent ([fig 1 2] ++ shiftFigures x.totals ++
      [fig 2 x.totals.openStart, fig 4 x.totals.openTime, fig 2 x.closeStart, fig 4 x.closeTime, fig 1 x.closedBy,
       flagFig x.txnOpen]) := by
  simp [closedBytes, figureBytes_eq, openedBytes]

theorem closedBytes_none : closedBytes none = sent (fig 1 1 :: List.replicate 50 (1, none)) := by
  have hones : List.replicate 50 ((1, none) : Nat × Option Nat) = (List.replicate 50 1).map fun w => (w, none) := by
    rw [List.map_replicate]
  rw [sent_fig, hones, sent_absent]
  rfl

/-! ### QUERY (R182) -/

section
variable {h : Header} {s : State}

theorem refuse_query_fits {r : Reason}
    (hr : Room (queued [{ frame := replyFrame h .query false (be 1 3 ++ be 1 (reasonPos r)) }] s)) :
    refuse h .query r s = queued [{ frame := replyFrame h .query false (be 1 3 ++ be 1 (reasonPos r)) }] s := by
  have hlt : s.bus.queue.length + 1 ≤ 16 := by simpa using hr
  exact enqueue_room hlt

/-- A record or an index that names nothing (R182). -/
theorem queryRecord_unnamed {record index : Nat}
    (hn : record = 0 ∨ 13 < record ∨ (record = 2 ∧ (index = 0 ∨ 4 < index)) ∨ (record = 3 ∧ 7 < index) ∨
      (record = 6 ∧ s.capture.journal.length ≤ index) ∨ (record = 7 ∧ s.capture.bundles.length ≤ index) ∨
      (record = 8 ∧ (index = 0 ∨ 12 < index)) ∨ (record = 9 ∧ 30 < index)) : queryRecord s record index = none :=
        by
  unfold queryRecord
  rcases hn with rfl | hn | ⟨rfl, hn⟩ | ⟨rfl, hn⟩ | ⟨rfl, hn⟩ | ⟨rfl, hn⟩ | ⟨rfl, hn⟩ | ⟨rfl,
    hn⟩
  · rfl
  · split
    case h_14 => rfl
    all_goals omega
  all_goals exact indexed_of_not_lt _ (by omega)

/-! ### RETRY (R180, R181) -/

/-- A RETRY that no REPLY is remembered for is judged as a new command. -/
theorem takeCommand_unremembered {k : CmdKind} {inFault : Bool} {check check' : State → Option Reason}
    {effect effect' : State → State} (hc : Comes { h with retry := false } s)
    (hk : repeatedReply h k (heard h s) = none) (hcheck : check (heard h s) = check' (heard h s))
    (heffect : effect (heard h s) = effect' (heard h s)) :
    takeCommand h k inFault check effect s = takeCommand { h with retry := false } k inFault check' effect' s := by
  rw [takeCommand_comes hc]
  obtain ⟨h1, h2, h3, h4, -, hdue⟩ := hc
  obtain ⟨d1, d2, d3, d4⟩ := hdue
  have hd : settleDue s = s := by simp [settleDue, d1, d2, d3, d4]
  have hk' : repeatedReply h k (applyFrame h.src .console false id s) = none := hk
  have hsrc : ¬31 ≤ h.src := Nat.not_le.mpr (Nat.lt_succ_of_le h3)
  have hown : h.src ≠ s.lane.station := h4
  have htake : takeCommand h k inFault check effect s = judgeCommand h k inFault check effect (heard h s) := by
    simp [takeCommand, h1, h2, hown, hsrc, hd, heard]
  rw [htake, judgeCommand, hk]
  dsimp only
  refine ite_congr rfl (fun _ => rfl) fun _ => ?_
  rw [judge, judge, show check' (heard { h with retry := false } s) = check (heard h s) from hcheck.symm]
  cases check (heard h s) with
  | some r => rfl
  | none => exact heffect

/-- An accept that waited is decided alike for a RETRY and for a new command. -/
theorem lateAccept_retry (t : State) (b : Bool) :
    lateAccept t { header := h, duress := b } = lateAccept t { header := { h with retry := false }, duress := b } := by
  unfold lateAccept
  cases t.dep.st <;> rfl

/-- So is one taken, unless it waits for the throat, where its header is kept with it (R84). -/
theorem acceptDeposit_retry {raws : List Nat} (hno : s.dep.st ≠ .feeding ∨ ThroatEmpty s) :
    acceptDeposit h raws (heard h s) = acceptDeposit { h with retry := false } raws (heard h s) := by
  have hdep : (heard h s).dep = s.dep := heard_dep h s
  by_cases hst : s.dep.st = .feeding
  · have hempty : ThroatEmpty s := hno.resolve_left (not_not.mpr hst)
    rw [acceptDeposit, acceptDeposit, if_pos (by simp [hst]), if_pos (by simp [hst]), closeThroat_eq, closeThroat_eq,
      tryHolding_of_empty (by rw [← hst, ← hdep]; rfl) rfl
        ((throatEmpty_closing hdep (heard_chQ h s)).mpr hempty),
      tryHolding_of_empty (by rw [← hst, ← hdep]; rfl) rfl
        ((throatEmpty_closing hdep (heard_chQ h s)).mpr hempty),
      throatShut_throatClosing, throatShut_throatClosing]
    simp only [List.foldl_append, List.foldl_cons, List.foldl_nil]
    exact lateAccept_retry ..
  · rw [acceptDeposit, acceptDeposit, if_neg (by simp [hst]), if_neg (by simp [hst])]
    rfl

section
variable {req : Request} {raws : List Nat} {a k n : Nat} {b c : Bool}

/-- Every command is taken by its own check and effect. -/
theorem everyCommand_takes {x : CmdKind} {i : Instr} (hi : (x, i) ∈ everyCommand h req raws a k n b c) :
    x ≠ .query ∧ ∃ inFault check effect, ∀ s, exec i s = .next (finish
      (takeCommand h x inFault check effect s)) := by
  simp only [everyCommand, transactionCommands, serviceCommands, List.cons_append, List.nil_append, List.mem_cons,
    List.not_mem_nil, or_false, Prod.mk.injEq] at hi
  rcases hi with ⟨rfl, rfl⟩ | ⟨rfl, rfl⟩ | ⟨rfl, rfl⟩ | ⟨rfl, rfl⟩ | ⟨rfl, rfl⟩ | ⟨rfl, rfl⟩ | ⟨rfl, rfl⟩ | ⟨rfl,
    rfl⟩ |
    ⟨rfl, rfl⟩ | ⟨rfl, rfl⟩ | ⟨rfl, rfl⟩ | ⟨rfl, rfl⟩ | ⟨rfl, rfl⟩ | ⟨rfl, rfl⟩ | ⟨rfl, rfl⟩ | ⟨rfl, rfl⟩ | ⟨rfl,
      rfl⟩ |
    ⟨rfl, rfl⟩ | ⟨rfl, rfl⟩ | ⟨rfl, rfl⟩ | ⟨rfl, rfl⟩ | ⟨rfl, rfl⟩ | ⟨rfl, rfl⟩ | ⟨rfl, rfl⟩ | ⟨rfl,
      rfl⟩
  all_goals exact ⟨by decide, _, _, _, fun _ => rfl⟩

/-- Two steps that take a command alike. -/
theorem exec_retry {x : CmdKind} {i j : Instr} {inFault : Bool} {check check' : State → Option Reason}
    {effect effect' : State → State} (hc : Comes { h with retry := false } s)
    (hk : repeatedReply h x (heard h s) = none)
    (hi : exec i s = .next (finish (takeCommand h x inFault check effect s)))
    (hj : exec j s = .next (finish (takeCommand { h with retry := false } x inFault check' effect' s)))
    (hcheck : check (heard h s) = check' (heard h s)) (heffect : effect (heard h s) = effect' (heard h s)) :
    exec i s = exec j s := by
  rw [hi, hj, takeCommand_unremembered hc hk hcheck heffect]

/-- What makes a RETRY and the same command sent anew the same: nothing is kept of its header but its source and tag. -/
abbrev SameAnew (h : Header) (s : State) (p q : CmdKind × Instr) : Prop :=
  repeatedReply h p.1 (heard h s) = none → (p.1 ≠ .depositAccept ∨ s.dep.st ≠ .feeding ∨ ThroatEmpty s) →
    exec p.2 s = exec q.2 s

theorem everyCommand_sameAnew (hc : Comes { h with retry := false } s) :
    List.Forall₂ (SameAnew h s) (everyCommand h req raws a k n b c)
      (everyCommand { h with retry := false } req raws a k n b c) := by
  simp only [everyCommand, transactionCommands, serviceCommands, List.cons_append, List.nil_append,
    List.forall₂_cons, List.forall₂_nil_left_iff, and_true]
  refine ⟨?_, ?_, ?_, ?_, ?accept, ?_, ?_, ?_, ?_, ?_, ?_, ?_, ?_, ?_, ?_, ?_, ?_, ?_, ?_, ?_, ?_, ?_, ?_, ?_, ?_⟩
  case accept =>
    intro hk hno
    exact exec_retry hc hk rfl rfl rfl (acceptDeposit_retry (hno.resolve_left (not_not.mpr rfl)))
  all_goals exact fun hk _ => exec_retry hc hk rfl rfl rfl rfl

end
end

/-- Settles O42: queries by the records above, retries by what is remembered, and the rest by RANGE. -/
theorem queriesRetriesAndUnknownCommands : Obligations.QueriesRetriesAndUnknownCommands := by
  refine ⟨?_, ?_, ?_⟩
  · intro h s u refused
    have hquery {check : State → Option Reason} {effect : State → State} {r : Reason} (hc : Comes h s)
        (hn : check u = some r) (hf : Fits (refused r)) :
        (Host.Outcome.next (finish (takeCommand h .query true check effect s)) : Host.Outcome State Fault Refusal) =
          .next (refused r) :=
      next_finish ((takeCommand_refused hc (.inr rfl) hn).trans (refuse_query_fits hf.1)) hf
    refine ⟨?_, ?_, ?_, ?_, ?_, ?_, ?_, rfl⟩
    · intro record index content p rest t hc hser hrec hseg hf
      have hlt : u.bus.queue.length + 1 ≤ 16 := by simpa [t] using hf.1
      refine next_taken hc (.inr rfl) (show queryCheck record index u = none from ?_)
        (show startSeries h ((queryRecord u record index).getD []) u = t from ?_) hf
      · simp [queryCheck, firstOf, hser, hrec]
      · simp only [hrec, Option.getD_some, startSeries, hseg]
        exact enqueue_room (s := { u with bus := { u.bus with series := _ } }) hlt
    · intro record index hc hser hf
      refine hquery hc ?_ hf
      simp [queryCheck, firstOf, Option.isSome_iff_ne_none, hser]
    · intro record index unnamed hc hser hno hf
      have hcap : u.capture = s.capture := heard_capture h s
      refine hquery hc ?_ hf
      have hnone : queryRecord u record index = none := queryRecord_unnamed (by rw [hcap]; exact hno)
      simp [queryCheck, firstOf, hser, hnone]
    · intro record index
      have hk : ∀ t, repeatedReply h .query t = none := fun t => by simp [repeatedReply]
      simp only [exec, execQuery, takeCommand, judgeCommand, hk]
      rfl
    · intro kind t hc hk hf
      exact next_refused hc (.inr rfl) hk rfl hf
    · intro hc hf
      exact hquery hc rfl hf
    · have hk : ∀ t, repeatedReply h .query t = none := fun t => by simp [repeatedReply]
      simp only [exec, execUnknownCommand, takeCommand, judgeCommand, hk]
      rfl
  · intro h s req raws a k n b c u fresh kept again hc hr
    have hagain {x : CmdKind} {old : ReplyEntry} {inFault : Bool} {check : State → Option Reason}
        {effect : State → State} (hx : x ≠ .query) (hold : kept x = some old) (hf : Fits (again old)) :
        (Host.Outcome.next (finish (takeCommand h x inFault check effect s)) : Host.Outcome State Fault Refusal) =
          .next (again old) := by
      refine next_finish ((takeCommand_repeated hc hr hx hold).trans ?_) hf
      have hlt : u.bus.queue.length + 1 ≤ 16 := by simpa [again] using hf.1
      rw [resend, enqueue_room (s := u) hlt]
      rfl
    have hnew {x : CmdKind} (hx : kept x = none) : repeatedReply h x (heard h s) = none := by
      rw [repeatedReply]
      split
      · exact hx
      · rfl
    refine ⟨?_, ?_, ?_, ?_, ?_⟩
    · intro x i old hi hold hf
      obtain ⟨hx, inFault, check, effect, hexec⟩ := everyCommand_takes hi
      rw [hexec]
      exact hagain hx hold hf
    · intro x old hx hold hf
      exact hagain hx hold hf
    · intro m x i j hi hj hx hno
      have hsame := (everyCommand_sameAnew (req := req) (raws := raws) (a := a) (k := k) (n := n) (b := b) (c := c)
        hc).get
      obtain ⟨hm, hi⟩ := List.getElem?_eq_some_iff.mp hi
      obtain ⟨hm', hj⟩ := List.getElem?_eq_some_iff.mp hj
      have hj' : (everyCommand { h with retry := false } req raws a k n b c)[m] = (x, j) := hj
      have hthis := hsame hm hm'
      simp only [List.get_eq_getElem, hi, hj'] at hthis
      exact hthis (hnew hx) hno
    · intro x hx
      exact exec_retry hc (hnew hx) rfl rfl rfl rfl
    · intro waiting mark t hx hb hst hjam hbusy hf
      obtain ⟨-, hbound, hl, hcf⟩ := hb
      have htake : exec (.depositAccept h raws) s = .next (finish (acceptDeposit h raws u)) := by
        have hsame : takeCommand h .depositAccept false (acceptCheck h) (acceptDeposit h raws) s =
            takeCommand fresh .depositAccept false (acceptCheck fresh) (acceptDeposit h raws) s :=
          takeCommand_unremembered hc (hnew hx) rfl rfl
        exact congrArg (fun x => Host.Outcome.next (finish x)) (hsame.trans
          (takeCommand_taken hc (.inl hcf) (acceptCheck_open hbound hl (.inl hst) hjam)))
      exact htake.trans (next_finish (acceptDeposit_waits hst hbusy) hf)
  · intro s i cash f cause
    refine ⟨congrArg some (laneStatusBytes_eq s), ?_, ?_, congrArg some (purgeBytes_eq _),
      congrArg some (depositCassetteBytes_eq _), ?_, ?_, ?_, ?_, ⟨faultBytes_eq f, congrArg some (faultBytes_eq f)⟩,
      ⟨causeBytes_eq cause, congrArg some (causeBytes_eq cause)⟩, ?_, ?_, ?_⟩
    · intro x hi hx
      rw [← cassetteBytes_eq]
      exact indexed_of_getElem? cassetteBytes (Nat.lt_succ_of_le hi) hx
    · intro x hi hx
      rw [← denomBytes_eq]
      exact indexed_of_getElem? (lo := 0) denomBytes (Nat.lt_succ_of_le hi) hx
    · intro x hx
      rw [← journalBytes_eq]
      exact indexed_of_getElem? (lo := 0) journalBytes (List.getElem?_eq_some_iff.mp hx).1 hx
    · intro x hx
      rw [← bundleBytes_eq]
      exact indexed_of_getElem? (lo := 0) bundleBytes (List.getElem?_eq_some_iff.mp hx).1 hx
    · intro z hi hz candidate
      have hcand : candidatePos z.candidate = candidate := by
        unfold candidatePos
        cases hcz : z.candidate with
        | none => simp only [candidate, hcz]
        | some o => cases o <;> simp only [candidate, hcz]
      rw [← hcand, ← zoneBytes_eq]
      exact indexed_of_getElem? zoneBytes (Nat.lt_succ_of_le hi) hz
    · intro e hi he
      rw [← peerBytes_eq]
      exact indexed_of_getElem? (lo := 0) peerBytes (Nat.lt_succ_of_le hi) he
    · refine congrArg some ?_
      simp [shiftBytes, openedBytes, figureBytes_eq, f]
    · intro x record
      refine ⟨closedBytes_eq x, fun hx => ?_⟩
      exact (congrArg (fun y => some (closedBytes y)) hx).trans (congrArg some (closedBytes_eq x))
    · intro hx
      exact (congrArg (fun y => some (closedBytes y)) hx).trans (congrArg some closedBytes_none)
end Sys2Proof.Machine
end

