-- ==== Sys2Proof/Proofs/Scans.lean ====
section
/-! PROOFS. The scan of the alarm zones (R132 to R136, R142). -/

namespace Sys2Proof.Machine

/-! ### One zone under one reading (R133 to R136) -/

section
variable {z : Zone} {r : Nat} {b : Band} {o : ZoneState}

theorem scanZone_of_unused (h : z.type = .unused) : scanZone r z = z := if_pos (by simp [h])

theorem scanZone_observed (ht : z.type ≠ .unused) (ho : observe z.type (bandOf r) = some o) :
    scanZone r z = inBandZone o { z with band := some (bandOf r) } := by
  rw [scanZone, if_neg (by simpa using ht)]
  simp only [ho]

theorem scanZone_troubled (ht : z.type ≠ .unused) (ho : observe z.type (bandOf r) = none) :
    scanZone r z = troubleZone { z with band := some (bandOf r) } := by
  rw [scanZone, if_neg (by simpa using ht)]
  simp only [ho]

/-- An observation in band counts its candidate, and restores or holds a zone in trouble. -/
theorem inBandZone_eq :
    inBandZone o z =
      let count := if z.candidate = some o then min (integration z.type) (z.count + 1) else 1
      let x := { z with candidate := some o, count := count }
      if z.trouble then { x with restore := min (integration z.type) (z.restore + 1) }
      else if z.frozen then { x with hold := min 50 (z.hold + 1) }
      else x := by
  have hcounted : (if z.candidate == some o then { z with count := min (integration z.type) (z.count + 1) }
        else { z with candidate := some o, count := 1 }) =
      { z with
          candidate := some o,
          count := if z.candidate = some o then min (integration z.type) (z.count + 1) else 1 } := by
    by_cases hc : z.candidate = some o
    · rw [if_pos (by simpa using hc), if_pos hc, ← hc]
    · rw [if_neg (by simpa using hc), if_neg hc]
  unfold inBandZone
  rw [hcounted]

theorem observe_short_or_opened (hb : b = .short ∨ b = .opened) :
    observe z.type b = if z.type = .attack then some .active else none := by
  rcases hb with rfl | rfl <;> cases z.type <;> rfl

end

/-! ### A scan of all twelve (R132, R133, R142) -/

theorem getD_eq_default_or_mem {α : Type} (l : List α) (i : Nat) (d : α) : l.getD i d = d ∨ l.getD i d ∈ l := by
  cases h : l[i]? with
  | none => simp [List.getD, h]
  | some x => exact .inr (by simpa [List.getD, h] using List.mem_of_getElem? h)

/-- A zone with nothing left due from an earlier scan. -/
theorem settleZone_settled {s : State} (h : ∀ z ∈ s.alarm.zones, ZoneSettled z) (i : Nat) : settleZone s i = s := by
  have hz : ZoneSettled (zoneAt s i) := by
    rcases getD_eq_default_or_mem s.alarm.zones i {} with hd | hm
    · rw [zoneAt, hd]
      decide
    · exact h _ hm
  obtain ⟨ht, hr, hc⟩ := hz
  simp [settleZone, clearTrouble, restoreZone, changeIfDue, ht, hr, hc]

/-- The ZONE_TROUBLE of a zone in its first trouble observation (R135). -/
def troubleTold (a : Alarm) (read : Nat → Zone) (u : State) (i : Nat) : State :=
  let z := a.zones.getD i {}
  if (read i).trouble = true ∧ z.frozen = false then
    toldAll .zoneTrouble
      (be 1 (i + 1) ++ be 1 (zoneTypePos z.type) ++ beOpt 1 ((read i).band.map bandPos) ++ be 1
        (zoneStatePos z.state)) u
  else u

section
variable {a : Alarm} {read : Nat → Zone}

theorem troubleTold_withAlarm (x : Alarm) (u : State) (i : Nat) :
    troubleTold a read { u with alarm := x } i = { troubleTold a read u i with alarm := x } := by
  unfold troubleTold
  dsimp only
  split <;> rfl

theorem troubleTold_alarm (u : State) (i : Nat) : (troubleTold a read u i).alarm = u.alarm := by
  unfold troubleTold
  dsimp only
  split <;> rfl

theorem foldl_troubleTold_withAlarm (x : Alarm) (l : List Nat) (u : State) :
    l.foldl (troubleTold a read) { u with alarm := x } = { l.foldl (troubleTold a read) u with alarm := x } := by
  induction l generalizing u with
  | nil => rfl
  | cons i l ih => rw [List.foldl_cons, troubleTold_withAlarm, ih, List.foldl_cons]

theorem room_of_troubleTold {u : State} {i : Nat} (h : Room (troubleTold a read u i)) : Room u := by
  unfold troubleTold at h
  dsimp only at h
  split at h
  · exact h.of_toldAll
  · exact h

/-- The zones once the first `k` have been scanned. -/
def scannedZones (read : Nat → Zone) (zones : List Zone) (k : Nat) : List Zone :=
  zones.mapIdx fun i z => if i < k then read i else z

theorem scannedZones_zero (zones : List Zone) : scannedZones read zones 0 = zones := by
  refine List.ext_getElem? fun i => ?_
  simp [scannedZones]

theorem scannedZones_all (zones : List Zone) :
    scannedZones read zones zones.length = (List.range zones.length).map read := by
  refine List.ext_getElem (by simp [scannedZones]) fun i h _ => ?_
  have hi : i < zones.length := by simpa [scannedZones] using h
  simp [scannedZones, hi]

theorem scannedZones_modify (zones : List Zone) (k : Nat) :
    modifyAt (scannedZones read zones k) k (fun _ => read k) = scannedZones read zones (k + 1) := by
  refine List.ext_getElem? fun i => ?_
  rw [modifyAt, List.getElem?_modify, scannedZones, scannedZones, List.getElem?_mapIdx, List.getElem?_mapIdx]
  cases zones[i]? with
  | none => rfl
  | some z =>
    by_cases hik : k = i
    · simp [hik]
    · have hlt : i < k ↔ i < k + 1 := by omega
      simp [hik, hlt]

theorem scannedZones_getD (zones : List Zone) (k : Nat) :
    (scannedZones read zones k).getD k {} = zones.getD k {} := by
  simp only [List.getD, scannedZones, List.getElem?_mapIdx]
  cases zones[k]? <;> simp

/-- One zone is read, and its first trouble told. -/
theorem scanAt_fits {u : State} {readings : List Nat} {k : Nat} (hz : zoneAt u k = a.zones.getD k {})
    (hread : read k = scanZone (readings.getD k 0) (a.zones.getD k {})) (h : Room (troubleTold a read u k)) :
    scanAt readings u k = modZone k (fun _ => read k) (troubleTold a read u k) := by
  unfold troubleTold at h ⊢
  simp only [scanAt, hz, ← hread]
  dsimp only at h
  by_cases hc : (read k).trouble = true ∧ (a.zones.getD k {}).frozen = false
  · rw [if_pos hc] at h ⊢
    rw [if_pos (by simpa using hc)]
    exact noticeAll_fits (s := modZone k (fun _ => read k) u) h
  · rw [if_neg hc, if_neg (by simpa using hc)]

/-- The scan of the first `k` zones: they are read, and then each one's first trouble is told. -/
theorem foldl_scanAt {s : State} {readings : List Nat}
    (hread : ∀ i, read i = scanZone (readings.getD i 0) (s.alarm.zones.getD i {})) (k : Nat)
    (h : Room ((List.range k).foldl (troubleTold s.alarm read) s)) :
    (List.range k).foldl (scanAt readings) s =
      { (List.range k).foldl (troubleTold s.alarm read) s with
          alarm := { s.alarm with zones := scannedZones read s.alarm.zones k } } := by
  induction k with
  | zero => simp [scannedZones_zero]
  | succ k ih =>
    rw [List.range_succ, List.foldl_append, List.foldl_cons, List.foldl_nil] at h
    rw [List.range_succ, List.foldl_append, List.foldl_append, ih (room_of_troubleTold h), List.foldl_cons,
      List.foldl_cons, List.foldl_nil, List.foldl_nil]
    generalize (List.range k).foldl (troubleTold s.alarm read) s = u at h
    have hzone : zoneAt { u with alarm := { s.alarm with zones := scannedZones read s.alarm.zones k } } k =
        s.alarm.zones.getD k {} := scannedZones_getD ..
    refine (scanAt_fits hzone (hread k) ?_).trans ?_ <;> rw [troubleTold_withAlarm]
    · exact h
    · rw [modZone, modAlarm, ← scannedZones_modify]

end

theorem readLine_eq (others : Bool) (a : Alarm) :
    readLine others a =
      { a with
          asserted := if a.recognised then a.asserted else if others || a.drive then min 5 (a.asserted + 1) else 0,
          released :=
            if a.recognised then (if others || a.drive then 0 else min 50 (a.released + 1)) else a.released } := by
  unfold readLine
  dsimp only
  split <;> rfl

/-- Settles O43: one zone by its band; a scan by the zones scanned one after the other. -/
theorem scansFollowTheReadings : Obligations.ScansFollowTheReadings := by
  refine ⟨?_, ?_⟩
  · intro r z band limit inBand
    have hinBand {o : ZoneState} (ht : z.type ≠ .unused) (ho : observe z.type band = some o) :
        scanZone r z = inBand o := (scanZone_observed ht ho).trans inBandZone_eq
    refine ⟨scanZone_of_unused, fun ht => ⟨?_, ?_, ?_⟩⟩
    · intro hb
      exact hinBand ht (by rw [hb]; rfl)
    · intro hb
      exact hinBand ht (by rw [hb]; rfl)
    · intro hb
      have ho : observe z.type band = if z.type = .attack then some .active else none := observe_short_or_opened hb
      refine ⟨?_, ?_⟩
      · intro hattack
        exact hinBand ht (by rw [ho, if_pos hattack])
      · intro hattack
        exact scanZone_troubled ht (by rw [show bandOf r = band from rfl, ho, if_neg hattack])
  · intro readings others raws s asserted read a scanned t hs hlen hsettled hrec hrel h
    refine next_finish ((if_neg (by simpa using hs)).trans ?_) h
    let v := takeOpenSamples raws s
    have hsettle : (List.range 12).foldl settleZone v = v := List.foldl_fixed' (settleZone_settled (s := v) hsettled) _
    have hline : releaseLine (recogniseLine v) = v := by
      have hrec' : recogniseLine v = v := if_neg (by rw [show recogniseDue v.alarm = false from hrec]; decide)
      rw [hrec']
      exact if_neg (by rw [show releaseDue v.alarm = false from hrel]; decide)
    have hva : v.alarm = a := rfl
    have hread (i : Nat) : read i = scanZone (readings.getD i 0) (v.alarm.zones.getD i {}) := by rw [hva]
    have hroom : Room ((List.range 12).foldl (troubleTold v.alarm read) v) := by
      have ht : t = (List.range 12).foldl (troubleTold a read) { v with alarm := scanned.alarm } := rfl
      have hr : Room t := h.room
      rw [ht, foldl_troubleTold_withAlarm, ← hva] at hr
      exact hr
    calc modAlarm (readLine others) ((List.range 12).foldl (scanAt readings)
          (releaseLine (recogniseLine ((List.range 12).foldl settleZone v))))
        = modAlarm (readLine others) ((List.range 12).foldl (scanAt readings) v) := by rw [hsettle, hline]
      _ = modAlarm (readLine others) { (List.range 12).foldl (troubleTold a read) v with
            alarm := { a with zones := (List.range 12).map read } } := by
          have hzones : scannedZones read a.zones 12 = (List.range 12).map read := by
            rw [← hlen]
            exact scannedZones_all a.zones
          rw [foldl_scanAt hread 12 hroom, hva, hzones]
      _ = t := by
          have ht : t = (List.range 12).foldl (troubleTold a read) { v with alarm := scanned.alarm } := rfl
          rw [ht, foldl_troubleTold_withAlarm scanned.alarm, modAlarm, readLine_eq]

end Sys2Proof.Machine
end

