-- ==== Sys2Proof/Proofs/Changes.lean ====
section
/-! PROOFS. The changes of the alarm zones and what their latches reach (R52, R66, R85, R137, R140). -/

namespace Sys2Proof.Machine

/-! ### The report of a change (R137) -/

section
variable {i : Nat} {z : Zone} {new : ZoneState} {type : ZoneType} {s u : State}

theorem zoneAt_eq (hz : s.alarm.zones[i]? = some z) : zoneAt s i = z := by simp [zoneAt, List.getD, hz]

theorem modZone_eq (f : Zone → Zone) (hz : s.alarm.zones[i]? = some z) :
    modZone i f s = { s with alarm := { s.alarm with zones := s.alarm.zones.set i (f z) } } := by
  simp only [modZone, modAlarm, modifyAt_eq_set f hz]

/-- The place of the summary in a frame (R129). -/
theorem summaryPos_alarmSummary (a : Alarm) :
    summaryPos (alarmSummary a) = if a.attack then 3 else if a.duress then 2 else 1 := by
  unfold alarmSummary
  cases a.attack <;> cases a.duress <;> rfl

theorem zoneReport_eq (a : Alarm) :
    zoneReport i type new a =
      be 1 (i + 1) ++ be 1 (zoneTypePos type) ++ be 1 (zoneStatePos new) ++ be 1 (if a.duress then 1 else 2) ++
        be 1 (if a.attack then 1 else 2) ++ be 1 (if a.attack then 3 else if a.duress then 2 else 1) := by
  rw [zoneReport, summaryPos_alarmSummary]
  rfl

theorem isReported_iff (hc : u.capture = s.capture) : isReported u z new = true ↔ ChangeReported s z new := by
  simp [isReported, ChangeReported, hc, and_assoc, imp_iff_not_or]

/-- What a change that may be reported leaves (R137). -/
def changeTold (s : State) (i : Nat) (z : Zone) (type : ZoneType) (new : ZoneState) (u : State) : State :=
  if ChangeReported s z new then zoneTold i type new u else u

theorem room_of_zoneTold (h : Room (zoneTold i type new u)) : Room u := by
  unfold zoneTold at h
  dsimp only at h
  split at h
  · exact h.of_toldAll
  · exact h.of_reported

theorem room_of_changeTold (h : Room (changeTold s i z type new u)) : Room u := by
  unfold changeTold at h
  split at h
  · exact room_of_zoneTold h
  · exact h

theorem reportZone_fits (hc : u.capture = s.capture) (ht : z.type = type) (h : Room (changeTold s i z type new u)) :
    reportZone i z new u = changeTold s i z type new u := by
  subst ht
  unfold changeTold at h ⊢
  by_cases hr : ChangeReported s z new
  · rw [if_pos hr] at h ⊢
    rw [reportZone, if_pos ((isReported_iff hc).mpr hr), zoneReport_eq]
    unfold zoneTold at h ⊢
    dsimp only at h ⊢
    by_cases hv : z.type = .vehicle
    · rw [if_pos hv] at h ⊢
      rw [if_pos (by simpa using hv)]
      exact noticeAll_fits h
    · rw [if_neg hv] at h ⊢
      rw [if_neg (by simpa using hv)]
      exact report_fits h
  · rw [if_neg hr, reportZone, if_neg (mt (isReported_iff hc).mp hr)]

end

/-! ### A change of a zone (R134, R137) -/

section
variable {i : Nat} {z : Zone} {new : ZoneState} {occupied : Bool} {s : State}

/-- The change of a zone that sets no latch. -/
theorem changeZone_unlatched (hz : s.alarm.zones[i]? = some z) (hl : latchFor s.alarm z.type new = none) :
    changeZone i new occupied s =
      let t := reportZone i z new
        { s with
            alarm := { s.alarm with zones := s.alarm.zones.set i { z with state := new, changed := true } } }
      if z.type == .vehicle && z.state == .active && new == .quiet then vehicleDeparts occupied t else t := by
  simp only [changeZone, zoneAt_eq hz, hl, modZone_eq _ hz]

/-- The change of a zone that sets a latch, which then has its effects (R140). -/
theorem changeZone_latched {l : Latch} (hz : s.alarm.zones[i]? = some z) (hl : latchFor s.alarm z.type new = some l)
    (hv : z.type ≠ .vehicle) :
    changeZone i new occupied s =
      latchEffects l (reportZone i z new (setLatch l
        { s with
            alarm := { s.alarm with zones := s.alarm.zones.set i { z with state := new, changed := true } } })) := by
  simp only [changeZone, zoneAt_eq hz, hl, modZone_eq _ hz]
  exact if_neg (by simp [hv])

theorem changeIfDue_due (hz : s.alarm.zones[i]? = some z) (hd : changeDue z = true) (hc : z.candidate = some new) :
    changeIfDue i occupied s = changeZone i new occupied s := by
  simp only [changeIfDue, zoneAt_eq hz, hd, if_true, hc]

theorem changeIfDue_not_due (hz : s.alarm.zones[i]? = some z) (hd : changeDue z = false) :
    changeIfDue i occupied s = s := by
  simp [changeIfDue, zoneAt_eq hz, hd]

theorem withZone_succ (hi : i ≤ 11) (f : Nat → State → State) : withZone (i + 1) f s = f i s :=
  if_pos (by simp; omega)

theorem latchFor_duress (a : Alarm) : latchFor a .duress new = if new = .active ∧ a.duress = false then some .duress
    else none := by
  cases new <;> cases h : a.duress <;> simp [latchFor, h]

theorem latchFor_attack (a : Alarm) : latchFor a .attack new = if new = .active ∧ a.attack = false then some .attack
    else none := by
  cases new <;> cases h : a.attack <;> simp [latchFor, h]

end

/-! ### The duress latch over a waiting dispense (R52) -/

section
variable {t : State}

/-- What becomes of a waiting dispense: it is kept, stopped or planned again at the limit. -/
def replanned (limit value : Nat) (plan : Option (List PlanPair)) (keep : State) (stop : DispOutcome → State)
    (lower : List PlanPair → State) : State :=
  if value ≤ limit then keep
  else if limit = 0 then stop .clampedZero
  else match plan with
    | none => stop .noMix
    | some p => lower p

section
variable {limit value : Nat} {plan : Option (List PlanPair)} {keep : State} {stop : DispOutcome → State}
  {lower : List PlanPair → State}

theorem replanned_rich (h : value ≤ limit) : replanned limit value plan keep stop lower = keep := if_pos h

theorem replanned_lower {p : List PlanPair} (h : ¬value ≤ limit) (h0 : limit ≠ 0) (hp : plan = some p) :
    replanned limit value plan keep stop lower = lower p := by
  simp only [replanned, if_neg h, if_neg h0, hp]

theorem replanned_ends {o : DispOutcome} (h : ¬value ≤ limit)
    (ho : (limit = 0 ∧ o = .clampedZero) ∨ (limit ≠ 0 ∧ plan = none ∧ o = .noMix)) :
    replanned limit value plan keep stop lower = stop o := by
  rcases ho with ⟨h0, rfl⟩ | ⟨h0, hp, rfl⟩
  · simp only [replanned, if_neg h, if_pos h0]
  · simp only [replanned, if_neg h, if_neg h0, hp]

end

/-- The dispense with its duress mark. -/
def duressed (t : State) : State := { t with disp := { t.disp with duress := true } }

/-- The dispense planned again at the duress limit. -/
def planLowered (limit : Nat) (t : State) (p : List PlanPair) : State :=
  { t with disp := { t.disp with plan := p, planValue := limit, pair := 0 } }

theorem planAmount_of_cash_eq {s u : State} (h : u.cash = s.cash) (n : Nat) : planAmount u n = planAmount s n := by
  simp only [planAmount, pickingOrder_of_cash_eq h, denomAt_of_cash_eq h, availableCount_of_cash_eq h]

theorem replanUnderDuress_not_waiting (h1 : t.disp.st ≠ .awaitApproval) (h2 : t.disp.st ≠ .awaitCeiling)
    (h3 : t.disp.st ≠ .zeroCapture) : replanUnderDuress t = t := if_neg (by simp [h1, h2, h3])

theorem replanUnderDuress_approval {r : SlotRef} (hst : t.disp.st = .awaitApproval) (hr : t.disp.slot = some r)
    (hk : (t.approval.slots.getD r.slot {}).kind.isSome) (h : Room (slotClosed r.slot .withdrawn t)) {x : State}
    (hx : { slotWithdrawn r.slot t with disp := { t.disp with duress := true, slot := none } } = x) :
    replanUnderDuress t =
      replanned t.config.duressLimit t.disp.planValue (planAmount t t.config.duressLimit) (awaitDispenseCeiling x)
        (fun o => endDispense o x) (fun p => awaitDispenseCeiling (planLowered t.config.duressLimit x p)) := by
  have hsettle : settleSlot r.slot .withdrawn (duressed t) = slotWithdrawn r.slot (duressed t) :=
    settleSlot_withdrawn_fits (s := duressed t) hk h
  have hT : modDisp (fun d => { d with slot := none }) (settleSlot r.slot .withdrawn (duressed t)) = x := by
    rw [hsettle, ← hx]
    rfl
  have hcash : x.cash = t.cash := by rw [← hx]; rfl
  have hplan : planAmount x t.config.duressLimit = planAmount t t.config.duressLimit := planAmount_of_cash_eq hcash _
  have hdur : modDisp (fun d => { d with duress := true }) t = duressed t := rfl
  simp only [replanUnderDuress, hst, hr, hdur, hT, hplan, replanned]
  rw [if_pos (by simp)]
  simp only [beq_iff_eq]
  refine ite_congr rfl (fun _ => rfl) fun _ => ite_congr rfl (fun _ => rfl) fun _ => ?_
  cases planAmount t t.config.duressLimit <;> rfl

theorem replanUnderDuress_ceiling (hst : t.disp.st = .awaitCeiling) :
    replanUnderDuress t =
      replanned t.config.duressLimit t.disp.planValue (planAmount t t.config.duressLimit) (duressed t)
        (fun o => endDispense o (withdrawIntent (duressed t)))
        (fun p => modPeer
          (fun x => { x with request := x.request.map fun r => { r with amount := t.config.duressLimit } })
          (planLowered t.config.duressLimit (duressed t) p)) := by
  have hplan : planAmount (duressed t) t.config.duressLimit = planAmount t t.config.duressLimit :=
    planAmount_of_cash_eq (s := t) (u := duressed t) rfl _
  have hdur : modDisp (fun d => { d with duress := true }) t = duressed t := rfl
  simp only [replanUnderDuress, hst, hdur, hplan, replanned]
  rw [if_pos (by simp)]
  simp only [beq_iff_eq]
  refine ite_congr rfl (fun _ => rfl) fun _ => ite_congr rfl (fun _ => rfl) fun _ => ?_
  cases planAmount t t.config.duressLimit <;> rfl

theorem replanUnderDuress_capture (hst : t.disp.st = .zeroCapture) :
    replanUnderDuress t =
      replanned t.config.duressLimit t.disp.planValue (planAmount t t.config.duressLimit) (duressed t)
        (fun o => endDispense o (abandonCaptureP (duressed t)))
        (fun p => lowerDispense t.config.duressLimit (planLowered t.config.duressLimit (duressed t) p)) := by
  have hplan : planAmount (duressed t) t.config.duressLimit = planAmount t t.config.duressLimit :=
    planAmount_of_cash_eq (s := t) (u := duressed t) rfl _
  have hdur : modDisp (fun d => { d with duress := true }) t = duressed t := rfl
  simp only [replanUnderDuress, hst, hdur, hplan, replanned]
  rw [if_pos (by simp)]
  simp only [beq_iff_eq]
  refine ite_congr rfl (fun _ => rfl) fun _ => ite_congr rfl (fun _ => rfl) fun _ => ?_
  cases planAmount t t.config.duressLimit <;> rfl

/-- A reservation that is lowered gives H back, and a POSITION is asked for (R52, R115). -/
theorem lowerDispense_fits {v : Nat} (hv : v < t.peer.held.dispense) (hs : t.lane.state ≠ .starting)
    (hr : t.peer.request = none) {lower : HeldCash}
    (hl : { t.peer.held with h := t.peer.held.h - (t.peer.held.dispense - v), dispense := v } = lower)
    (h : Room (positioned { t with peer := { t.peer with held := lower, kept := lower } })) :
    lowerDispense v t = positioned { t with peer := { t.peer with held := lower, kept := lower } } := by
  subst hl
  refine (if_neg (by simp; omega)).trans ?_
  have hask := askPosition_fits
    (s := setHeld { t.peer.held with h := t.peer.held.h - (t.peer.held.dispense - v), dispense := v } t) hs h
  rw [heldFell, hask]
  exact retestIntent_none hr

/-- The capture of channel P is given up before its window has opened (R36, R54). -/
theorem abandonCaptureP_shut {c : Channel} {d : Drives} (hc : t.chP = c) (hd : t.drives = d) (h : c.window = false) :
    abandonCaptureP t =
      { t with
          chP := { c with window := false, flow := .none, capturing := false },
          drives := { d with pickTransport := false, pickGate := none } } := by
  subst hc hd
  exact closeWindow_of_shut (ch := .p) (s := stopPickTransport t) h

theorem acceptUnderDuress_not_waiting (h : t.dep.st ≠ .awaitApproval) : acceptUnderDuress t = t := by
  unfold acceptUnderDuress
  split
  · next hst _ => exact absurd hst h
  · rfl

theorem acceptUnderDuress_stacks {r : SlotRef} (hst : t.dep.st = .awaitApproval) (hr : t.dep.slot = some r)
    (hk : (t.approval.slots.getD r.slot {}).kind.isSome) (h : Room (slotClosed r.slot .withdrawn t))
    (hsec : t.dep.securing = false) (he : t.dep.escrow ≠ []) :
    acceptUnderDuress t =
      { slotWithdrawn r.slot t with
          dep := { t.dep with st := .stacking, slot := none, move := .stacking },
          drives := { t.drives with throatTransport := true } } := by
  simp only [acceptUnderDuress, hst, hr]
  rw [settleSlot_withdrawn_fits hk h]
  exact startStacking_stacks (s := slotWithdrawn r.slot t) hsec he

theorem dispenseEnded_dep (o : DispOutcome) (s : State) : (dispenseEnded o s).dep = s.dep := released_dep ..

end

/-! ### What a report and a POSITION leave -/

/-- `t` differs from `s` in what the lane has said, at most: the bus unit and the period of the POSITION. -/
def SaidOnly (s t : State) : Prop :=
  t = { s with bus := t.bus, peer := { s.peer with periodMs := t.peer.periodMs } }

theorem SaidOnly.trans {s t u : State} (h1 : SaidOnly s t) (h2 : SaidOnly t u) : SaidOnly s u := by
  unfold SaidOnly at *
  rw [h1] at h2
  exact h2

namespace SaidOnly
variable {s t : State}

theorem cash (h : SaidOnly s t) : t.cash = s.cash := by rw [h]
theorem config (h : SaidOnly s t) : t.config = s.config := by rw [h]
theorem chP (h : SaidOnly s t) : t.chP = s.chP := by rw [h]
theorem disp (h : SaidOnly s t) : t.disp = s.disp := by rw [h]
theorem dep (h : SaidOnly s t) : t.dep = s.dep := by rw [h]
theorem cal (h : SaidOnly s t) : t.cal = s.cal := by rw [h]
theorem capture (h : SaidOnly s t) : t.capture = s.capture := by rw [h]
theorem alarm (h : SaidOnly s t) : t.alarm = s.alarm := by rw [h]
theorem drives (h : SaidOnly s t) : t.drives = s.drives := by rw [h]
theorem approval (h : SaidOnly s t) : t.approval = s.approval := by rw [h]
theorem held (h : SaidOnly s t) : t.peer.held = s.peer.held := by rw [h]
theorem request (h : SaidOnly s t) : t.peer.request = s.peer.request := by rw [h]
theorem duplicate (h : SaidOnly s t) : t.peer.duplicate = s.peer.duplicate := by rw [h]
theorem lane (h : SaidOnly s t) : t.lane = s.lane := by rw [h]

end SaidOnly

theorem positioned_saidOnly (s : State) : SaidOnly s (positioned s) := rfl

theorem changeTold_saidOnly (s : State) (i : Nat) (z : Zone) (type : ZoneType) (new : ZoneState) (u : State) :
    SaidOnly u (changeTold s i z type new u) := by
  unfold changeTold zoneTold
  split
  · dsimp only
    split <;> rfl
  · rfl

theorem followDrive_latched {a : Alarm} {w : State} (hw : w.alarm = a) (hl : (a.duress || a.attack) = true) :
    followDrive w = { w with alarm := { a with drive := true } } := by
  subst hw
  simp only [followDrive, modAlarm, hl]

theorem attackReached_enters {t : State} (h1 : t.lane.state ≠ .lockdown) (h2 : t.lane.state ≠ .starting)
    (h3 : t.lane.state ≠ .configFault) : attackReached t = enterLockdown t := by
  unfold attackReached
  split
  · next h => exact absurd h h1
  · next h => exact absurd h h2
  · next h => exact absurd h h3
  · rfl

theorem attackReached_locked {t : State} (h : t.lane.state = .lockdown) :
    attackReached t = { t with lane := { t.lane with release := false } } := by
  have hmatch : attackReached t = modLane (fun l => { l with release := false }) t := by
    simp only [attackReached, h]
  exact hmatch

theorem attackReached_faulted {t : State} (h : t.lane.state = .configFault) : attackReached t = t := by
  simp only [attackReached, h]

/-! ### What the duress latch does to what waits -/

section
variable {t : State} {d : Dispense} {limit : Nat} {plan : Option (List PlanPair)}

/-- Neither a dispense nor an accept waits. -/
theorem duress_nothing_waits (h1 : t.disp.st ≠ .awaitApproval) (h2 : t.disp.st ≠ .awaitCeiling)
    (h3 : t.disp.st ≠ .zeroCapture) (h4 : t.dep.st ≠ .awaitApproval) :
    acceptUnderDuress (replanUnderDuress t) = t := by
  rw [replanUnderDuress_not_waiting h1 h2 h3, acceptUnderDuress_not_waiting h4]

/-- The dispense `d` asks the ceiling for its plan (R53). -/
def ceilingAsked (d : Dispense) (x : State) : State :=
  queued [intentFrame .dispense]
    { x with
        disp := { d with st := .awaitCeiling, slot := none, ceilingMs := some 10000 },
        peer := { x.peer with request := some { kind := .dispense, amount := d.planValue } } }

theorem awaitDispenseCeiling_asks {x : State} (hd : x.peer.duplicate = false) (h : Room (ceilingAsked d x)) :
    awaitDispenseCeiling { x with disp := { d with slot := none } } = ceilingAsked d x := by
  have hlt : x.bus.queue.length + 1 ≤ 16 := by simpa [ceilingAsked] using h
  exact awaitDispenseCeiling_fits (s := { x with disp := { d with slot := none } }) hd hlt

/-- The plan that the duress limit allows a dispense of `d`. -/
abbrev atLimit (limit : Nat) (d : Dispense) (p : List PlanPair) : Dispense :=
  { d with duress := true, plan := p, planValue := limit, pair := 0 }

/-- How a dispense ends that the duress limit leaves nothing to pick. -/
abbrev LimitEnds (limit : Nat) (plan : Option (List PlanPair)) (o : DispOutcome) : Prop :=
  (limit = 0 ∧ o = .clampedZero) ∨ (limit ≠ 0 ∧ plan = none ∧ o = .noMix)

/-- A dispense that waits for its approval goes on without it, or ends (R52). -/
theorem duress_over_approval {r : SlotRef} {x : State} (hdisp : t.disp = d) (hlim : t.config.duressLimit = limit)
    (hplan : planAmount t limit = plan) (hst : d.st = .awaitApproval) (hr : d.slot = some r)
    (hk : (t.approval.slots.getD r.slot {}).kind.isSome) (hdst : t.dep.st ≠ .awaitApproval)
    (hd0 : t.peer.duplicate = false) (h : Room (slotClosed r.slot .withdrawn t)) (hx : slotWithdrawn r.slot t = x) :
    (d.planValue ≤ limit → Room (ceilingAsked { d with duress := true } x) →
      acceptUnderDuress (replanUnderDuress t) = ceilingAsked { d with duress := true } x) ∧
    (∀ p, ¬d.planValue ≤ limit → limit ≠ 0 → plan = some p → Room (ceilingAsked (atLimit limit d p) x) →
      acceptUnderDuress (replanUnderDuress t) = ceilingAsked (atLimit limit d p) x) ∧
    (∀ o, let y := dispenseEnded o { x with disp := { d with duress := true, slot := none } };
      ¬d.planValue ≤ limit → LimitEnds limit plan o → QuietEnd t → Room y →
      acceptUnderDuress (replanUnderDuress t) = y) := by
  subst hdisp hx
  have hwait := replanUnderDuress_approval hst hr hk h rfl
  rw [hlim, hplan] at hwait
  rw [hwait]
  refine ⟨?_, ?_, ?_⟩
  · intro hrich hroom
    rw [replanned_rich hrich]
    exact (congrArg acceptUnderDuress (awaitDispenseCeiling_asks (d := { t.disp with duress := true })
      (x := slotWithdrawn r.slot t) hd0 hroom)).trans (acceptUnderDuress_not_waiting hdst)
  · intro p hrich h0 hp hroom
    rw [replanned_lower hrich h0 hp]
    exact (congrArg acceptUnderDuress (awaitDispenseCeiling_asks (d := atLimit limit t.disp p)
      (x := slotWithdrawn r.slot t) hd0 hroom)).trans (acceptUnderDuress_not_waiting hdst)
  · intro o y hrich ho hq hroom
    have hq' : QuietEnd { slotWithdrawn r.slot t with disp := { t.disp with duress := true, slot := none } } := hq
    rw [replanned_ends hrich ho, endDispense_fits hq' hroom]
    exact acceptUnderDuress_not_waiting (by rw [dispenseEnded_dep]; exact hdst)

/-- A dispense that waits for the ceiling goes on with the request it has, lowered, or ends (R52). -/
theorem duress_over_ceiling (hdisp : t.disp = d) (hlim : t.config.duressLimit = limit)
    (hplan : planAmount t limit = plan) (hst : d.st = .awaitCeiling) (hdst : t.dep.st ≠ .awaitApproval) :
    (d.planValue ≤ limit →
      acceptUnderDuress (replanUnderDuress t) = { t with disp := { d with duress := true } }) ∧
    (∀ p, ¬d.planValue ≤ limit → limit ≠ 0 → plan = some p →
      acceptUnderDuress (replanUnderDuress t) =
        { t with
            disp := atLimit limit d p,
            peer := { t.peer with request := t.peer.request.map fun r => { r with amount := limit } } }) ∧
    (∀ o, let y := dispenseEnded o (requestWithdrawn { t with disp := { d with duress := true } });
      ¬d.planValue ≤ limit → LimitEnds limit plan o → t.peer.request.isSome → t.approval.unbindPending = false
        →
      t.lane.state ≠ .starting → Room y → acceptUnderDuress (replanUnderDuress t) = y) := by
  subst hdisp
  have hwait := replanUnderDuress_ceiling hst
  rw [hlim, hplan] at hwait
  rw [hwait]
  refine ⟨?_, ?_, ?_⟩
  · intro hrich
    rw [replanned_rich hrich]
    exact acceptUnderDuress_not_waiting hdst
  · intro p hrich h0 hp
    rw [replanned_lower hrich h0 hp]
    exact acceptUnderDuress_not_waiting hdst
  · intro o y hrich ho hreq hu hs hroom
    have hq : QuietEnd (requestWithdrawn (duressed t)) := ⟨hu, rfl, hs⟩
    rw [replanned_ends hrich ho, withdrawIntent_of_isSome (s := duressed t) hreq, endDispense_fits hq hroom]
    exact acceptUnderDuress_not_waiting (by rw [dispenseEnded_dep]; exact hdst)

/-- A dispense whose reservation is granted gives back what the limit takes of it, or ends (R52). -/
theorem duress_over_capture {c : Channel} {dr : Drives} {held : HeldCash} (hdisp : t.disp = d)
    (hlim : t.config.duressLimit = limit) (hplan : planAmount t limit = plan) (hheld : t.peer.held = held)
    (hc : t.chP = c) (hdr : t.drives = dr) (hst : d.st = .zeroCapture) (hdst : t.dep.st ≠ .awaitApproval) :
    (d.planValue ≤ limit →
      acceptUnderDuress (replanUnderDuress t) = { t with disp := { d with duress := true } }) ∧
    (∀ p,
      let lower : HeldCash := { held with h := held.h - (held.dispense - limit), dispense := limit }
      let y := positioned { t with
        disp := atLimit limit d p, peer := { t.peer with held := lower, kept := lower } };
      ¬d.planValue ≤ limit → limit ≠ 0 → plan = some p → limit < held.dispense → t.lane.state ≠ .starting
        →
      t.peer.request = none → Room y → acceptUnderDuress (replanUnderDuress t) = y) ∧
    (∀ o,
      let y := dispenseEnded o
        { t with
            disp := { d with duress := true },
            chP := { c with window := false, flow := .none, capturing := false },
            drives := { dr with pickTransport := false, pickGate := none } };
      ¬d.planValue ≤ limit → LimitEnds limit plan o → c.window = false → QuietEnd t → Room y →
      acceptUnderDuress (replanUnderDuress t) = y) := by
  subst hdisp hheld hc hdr
  have hwait := replanUnderDuress_capture hst
  rw [hlim, hplan] at hwait
  rw [hwait]
  refine ⟨?_, ?_, ?_⟩
  · intro hrich
    rw [replanned_rich hrich]
    exact acceptUnderDuress_not_waiting hdst
  · intro p lower y hrich h0 hp hlt hs hr hroom
    have hlow : lowerDispense limit (planLowered limit (duressed t) p) = y :=
      lowerDispense_fits (t := planLowered limit (duressed t) p) (lower := lower) hlt hs hr rfl hroom
    rw [replanned_lower hrich h0 hp, hlow]
    exact acceptUnderDuress_not_waiting hdst
  · intro o y hrich ho hwin hq hroom
    have hq' : QuietEnd (duressed t) := hq
    have hend : endDispense o (abandonCaptureP (duressed t)) = y := by
      rw [abandonCaptureP_shut (t := duressed t) rfl rfl hwin]
      exact endDispense_fits (by exact hq') hroom
    rw [replanned_ends hrich ho, hend]
    exact acceptUnderDuress_not_waiting (by rw [dispenseEnded_dep]; exact hdst)

end

/-- Settles O44: the change by its latch, and the latch by what waits. -/
theorem zoneChangesAreFlaggedAndReported : Obligations.ZoneChangesAreFlaggedAndReported := by
  intro i occupied raws s z new v zones told go hi hz hd hc hdue
  have hgo {t : State} (ht : changeZone i new occupied v = t) (h : t.lane.resetDue = false) : go = .next t :=
    next_finish_not_due ((withZone_succ hi _).trans ((changeIfDue_due (s := v) hz hd hc).trans ht)) h
  refine ⟨?_, ?_, ?_, ?_⟩
  · intro u htype
    have hl : latchFor v.alarm z.type new = none := by
      rcases htype with e | e | ⟨e, hno⟩ | ⟨e, hno⟩ <;> rw [e]
      · rfl
      · rfl
      · rw [latchFor_duress, if_neg]
        rintro ⟨ha, hb⟩
        rcases hno with hno | hno
        · exact hno ha
        · exact absurd (hb.symm.trans hno) (by decide)
      · rw [latchFor_attack, if_neg]
        rintro ⟨ha, hb⟩
        rcases hno with hno | hno
        · exact hno ha
        · exact absurd (hb.symm.trans hno) (by decide)
    have hv : z.type ≠ .vehicle := by
      rcases htype with e | e | ⟨e, -⟩ | ⟨e, -⟩ <;> simp [e]
    have hchange : changeZone i new occupied v = reportZone i z new u :=
      (changeZone_unlatched (s := v) hz hl).trans (if_neg (by simp [hv]))
    refine ⟨?_, ?_⟩
    · intro hno
      refine hgo (hchange.trans (if_neg ?_)) hdue
      exact mt (isReported_iff (s := s) rfl).mp hno
    · intro hyes h
      have htold : changeTold s i z z.type new u = zoneTold i z.type new u := if_pos hyes
      refine hgo (hchange.trans ?_) h.2
      rw [← htold] at h ⊢
      exact reportZone_fits rfl rfl h.room
  · intro u cut t htype h
    have hl : latchFor v.alarm z.type new = none := by rw [htype]; rfl
    have ht : reportZone i z new u = t := reportZone_fits (s := s) rfl htype h.room
    have hsaid : SaidOnly u t := changeTold_saidOnly s i z .vehicle new u
    have hchange : changeZone i new occupied v =
        if z.type == .vehicle && z.state == .active && new == .quiet then vehicleDeparts occupied t else t :=
      (changeZone_unlatched (s := v) hz hl).trans (by rw [← ht])
    refine ⟨?_, ?_⟩
    · intro hno
      refine hgo (hchange.trans ?_) h.2
      split
      · next hdep =>
        simp only [Bool.and_eq_true, beq_iff_eq] at hdep
        obtain ⟨⟨-, hstate⟩, hquiet⟩ := hdep
        refine if_neg ?_
        rw [hsaid.drives]
        rcases hno with hno | hno | hno | hno
        · exact absurd hstate hno
        · exact absurd hquiet hno
        · simp [hno]
        · simp [u, v, hno]
      · rfl
    · intro hstate hquiet hocc hshut
      refine hgo (hchange.trans ?_) h.2
      have hopen : t.drives.pocketShutter = true := by rw [hsaid.drives]; exact hshut
      have hdisp : t.disp = s.disp := hsaid.disp
      have hdep : t.dep = s.dep := hsaid.dep
      have hcal : t.cal = s.cal := hsaid.cal
      rw [if_pos (by simp [htype, hstate, hquiet]), vehicleDeparts, if_pos (by simp [hocc, hopen]), ← hdisp, ← hdep,
        ← hcal]
      rfl
  · intro u w t limit rich kept goOn ends htype hnew hclear hs h
    have hl : latchFor v.alarm z.type new = some .duress := by
      rw [htype, latchFor_duress, if_pos ⟨hnew, hclear⟩]
    have hroom : Room t := h.room
    have hw : SaidOnly u w := changeTold_saidOnly s i z .duress new u
    have hroomw : Room w := Room.of_positioned (s := { w with alarm := { u.alarm with drive := true } }) hroom
    have hsaid : SaidOnly { u with alarm := { u.alarm with drive := true } } t := by
      have hw' : SaidOnly { u with alarm := { u.alarm with drive := true } }
          { w with alarm := { u.alarm with drive := true } } := by
        unfold SaidOnly at hw ⊢
        rw [hw]
      exact hw'.trans (positioned_saidOnly _)
    have hask : askPosition (followDrive w) = t := by
      rw [followDrive_latched hw.alarm rfl]
      exact askPosition_fits (by rw [show w.lane = s.lane from hw.lane]; exact hs) hroom
    have hchange : changeZone i new occupied v = acceptUnderDuress (replanUnderDuress t) := by
      refine (changeZone_latched (s := v) hz hl (by simp [htype])).trans ?_
      have hrep : reportZone i z new u = w := reportZone_fits (s := s) rfl htype hroomw
      rw [show setLatch .duress
        { v with alarm := { v.alarm with zones := zones } } = u from rfl, hrep, latchEffects, hask]
    have hdisp : t.disp = s.disp := hsaid.disp
    have hdep : t.dep = s.dep := hsaid.dep
    have hlim : t.config.duressLimit = limit := congrArg Configuration.duressLimit hsaid.config
    have hslots : t.approval = s.approval := hsaid.approval
    have hheld : t.peer.held = s.peer.held := hsaid.held
    have hreq : t.peer.request = s.peer.request := hsaid.request
    have hdup : t.peer.duplicate = s.peer.duplicate := hsaid.duplicate
    have hlane : t.lane = s.lane := hsaid.lane
    have hdrives : t.drives = s.drives := hsaid.drives
    have hchP : t.chP = samplesTaken raws s.chP := hsaid.chP
    have hcash : t.cash = s.cash := hsaid.cash
    have hplan : planAmount t limit = planAmount s limit := planAmount_of_cash_eq hcash limit
    have hrun : t.lane.state ≠ .starting := by rw [hlane]; exact hs
    have hquiet : QuietEnd s → QuietEnd t := by
      rw [QuietEnd, QuietEnd, hslots, hreq, hlane]
      exact id
    have hnext {y : State} (hy : acceptUnderDuress (replanUnderDuress t) = y) (hf : Fits y) : go = .next y :=
      hgo (hchange.trans hy) hf.2
    clear_value t
    refine ⟨?_, ?_, ?_, ?_, ?_⟩
    · intro h1 h2 h3 h4
      rw [← hdisp] at h1 h2 h3
      rw [← hdep] at h4
      exact hnext (duress_nothing_waits h1 h2 h3 h4) h
    · intro r x hst hr hk hdst hd0 hfits
      obtain ⟨hkeeps, hlowers, hends⟩ := duress_over_approval hdisp hlim hplan hst hr (by rw [hslots]; exact hk)
        (by rw [hdep]; exact hdst) (hdup.trans hd0) hfits.1 (show slotWithdrawn r.slot t = x from rfl)
      refine ⟨?_, ?_, ?_⟩
      · intro hrich hf
        exact hnext (hkeeps hrich hf.1) hf
      · intro plan d hrich h0 hp hf
        exact hnext (hlowers plan hrich h0 hp hf.1) hf
      · intro o y hrich ho hq hf
        exact hnext (hends o hrich ho (hquiet hq) hf.1) hf
    · intro hst hdst
      obtain ⟨hkeeps, hlowers, hends⟩ := duress_over_ceiling hdisp hlim hplan hst (by rw [hdep]; exact hdst)
      refine ⟨?_, ?_, ?_⟩
      · intro hrich
        exact hnext (hkeeps hrich) h
      · intro plan hrich h0 hp
        rw [← hreq]
        exact hnext (hlowers plan hrich h0 hp) h
      · intro o y hrich ho hsome hu hf
        exact hnext (hends o hrich ho (by rw [hreq]; exact hsome) (by rw [hslots]; exact hu) hrun hf.1) hf
    · intro hst hdst
      obtain ⟨hkeeps, hlowers, hends⟩ := duress_over_capture hdisp hlim hplan hheld hchP hdrives hst
        (by rw [hdep]; exact hdst)
      refine ⟨?_, ?_, ?_⟩
      · intro hrich
        exact hnext (hkeeps hrich) h
      · intro plan lower y hrich h0 hp hlt hr0 hf
        exact hnext (hlowers plan hrich h0 hp hlt hrun (hreq.trans hr0) hf.1) hf
      · intro o y hrich ho hwin hq hf
        exact hnext (hends o hrich ho hwin (hquiet hq) hf.1) hf
    · intro r x y hidle hst hr hk he hsec hfits hf
      rw [← hdisp] at hidle
      refine hnext ?_ hf
      rw [replanUnderDuress_not_waiting (by rw [hidle]; decide) (by rw [hidle]; decide) (by rw [hidle]; decide),
        acceptUnderDuress_stacks (by rw [hdep]; exact hst) (by rw [hdep]; exact hr) (by rw [hslots]; exact hk)
          hfits.1 (by rw [hdep]; exact hsec) (by rw [hdep]; exact he), hdep]
      rfl
  · intro u w t htype hnew hclear hs h
    have hl : latchFor v.alarm z.type new = some .attack := by
      rw [htype, latchFor_attack, if_pos ⟨hnew, hclear⟩]
    have hroom : Room t := h.room
    have hw : SaidOnly u w := changeTold_saidOnly s i z .attack new u
    have hroomw : Room w := Room.of_positioned (s := { w with alarm := { u.alarm with drive := true } }) hroom
    have hask : askPosition (followDrive w) = t := by
      rw [followDrive_latched hw.alarm (Bool.or_true _)]
      exact askPosition_fits (by rw [show w.lane = s.lane from hw.lane]; exact hs) hroom
    have hchange : changeZone i new occupied v = attackReached t := by
      refine (changeZone_latched (s := v) hz hl (by simp [htype])).trans ?_
      have hrep : reportZone i z new u = w := reportZone_fits (s := s) rfl htype hroomw
      rw [show setLatch .attack
        { v with alarm := { v.alarm with zones := zones } } = u from rfl, hrep, latchEffects, hask]
    have hlane : t.lane = s.lane := hw.lane
    refine ⟨?_, ?_, ?_⟩
    · intro hf hlock hdue'
      refine hgo (hchange.trans (attackReached_enters ?_ ?_ ?_)) hdue' <;> rw [hlane]
      · exact hlock
      · exact hs
      · exact hf
    · intro hf
      exact hgo (hchange.trans (attackReached_faulted (by rw [hlane]; exact hf))) h.2
    · intro hlock
      exact hgo (hchange.trans (attackReached_locked (by rw [hlane]; exact hlock))) h.2
end Sys2Proof.Machine
end

