-- ==== Sys2Proof/Proofs/Holds.lean ====
section
/-! PROOFS. The end of trouble and of the hold, the wall line, and QUERY_ZONES_CLEAR (R136, R138, R142). -/

namespace Sys2Proof.Machine

section
variable {i : Nat} {z : Zone} {new : ZoneState} {occupied : Bool} {s : State}

/-- A BIN or DOOR zone's change is flagged and reported, and nothing more follows (R137). -/
theorem changeZone_plain (hz : s.alarm.zones[i]? = some z) (ht : z.type = .door ∨ z.type = .bin) :
    changeZone i new occupied s =
      reportZone i z new
        { s with
            alarm := { s.alarm with zones := s.alarm.zones.set i { z with state := new, changed := true } } } := by
  have hl : latchFor s.alarm z.type new = none := by rcases ht with e | e <;> rw [e] <;> rfl
  exact (changeZone_unlatched hz hl).trans (if_neg (by rcases ht with e | e <;> simp [e]))

theorem clearTrouble_due (hz : s.alarm.zones[i]? = some z) (hd : troubleDue z = true) :
    clearTrouble i s =
      { s with alarm := { s.alarm with zones := s.alarm.zones.set i { z with trouble := false, hold := 0 } } } := by
  rw [clearTrouble, zoneAt_eq hz, if_pos hd, modZone_eq _ hz]

/-- A zone whose hold has ended is told restored, and then its candidate is looked at (R136). -/
theorem restoreZone_due (hz : s.alarm.zones[i]? = some z) (hd : restoredDue z = true) {t : State}
    (ht : toldAll .zoneRestored (be 1 (i + 1) ++ be 1 (zoneTypePos z.type) ++ be 1 (zoneStatePos z.state))
      { s with alarm := { s.alarm with zones := s.alarm.zones.set i { z with frozen := false } } } = t)
    (h : Room t) : restoreZone i occupied s = changeIfDue i occupied t := by
  subst ht
  simp only [restoreZone, zoneAt_eq hz, hd, if_true, modZone_eq _ hz]
  rw [noticeAll_fits h]

theorem takeOpenSamples_nil (s : State) : takeOpenSamples [] s = s := by
  rw [takeOpenSamples, takeSamples_p, takeSamples_q]
  simp

end

/-- The byte of QUERY_ZONES_CLEAR by its places (R138). -/
theorem summary_places : ∀ (p : Fin 4) (t f c : Bool),
    let b := (BitVec.ofNat 8 (p.val + (if t then 4 else 0) + (if f then 8 else 0) + (if c then 16 else 0))).toNat
    b % 4 = p.val ∧ b.testBit 2 = t ∧ b.testBit 3 = f ∧ b.testBit 4 = c ∧ b < 32 := by
  decide

/-- Settles O46: each end by its condition, and a restored zone's change as `changeIfDue` makes it. -/
theorem troubleHoldLineAndZonesQuery : Obligations.TroubleHoldLineAndZonesQuery := by
  refine ⟨?_, ?_, ?_⟩
  · intro raws s
    refine ⟨?_, ?_⟩
    · intro i z put hi hz
      refine ⟨?_, ?_⟩
      · intro htr hle
        have hd : troubleDue z = true := by simp [troubleDue, htr, hle]
        exact congrArg Host.Outcome.next ((withZone_succ hi _).trans (clearTrouble_due hz hd))
      · intro occupied t hfr htr hhold h
        have hd : restoredDue z = true := by simp [restoredDue, hfr, htr, hhold]
        have hexec : exec (.zoneRestored (i + 1) occupied raws) s = .next (finish (changeIfDue i occupied t)) := by
          refine congrArg (fun x => Host.Outcome.next (finish x)) ((withZone_succ hi _).trans ?_)
          exact restoreZone_due (s := takeOpenSamples raws s) hz hd rfl h.room
        have hlt : i < s.alarm.zones.length := (List.getElem?_eq_some_iff.mp hz).1
        have hzt : t.alarm.zones[i]? = some { z with frozen := false } := List.getElem?_set_self hlt
        refine ⟨?_, ?_⟩
        · intro hno
          rw [hexec]
          refine next_finish (changeIfDue_not_due hzt ?_) h
          rcases hno with hno | hno | hno <;> simp [changeDue, hno]
        · intro new hcand hne hcount hused told u
          have hdue : changeDue { z with frozen := false } = true := by simp [changeDue, hcand, hne, hcount, hused]
          have hchange : changeIfDue i occupied t = changeZone i new occupied t := changeIfDue_due hzt hdue hcand
          refine ⟨?_, ?_⟩
          · rw [hexec]
            refine congrArg (fun x => Host.Outcome.next (finish x)) (Eq.symm ?_)
            exact (withZone_succ hi _).trans (by rw [takeOpenSamples_nil])
          · intro htype
            have hu : changeZone i new occupied t = reportZone i { z with frozen := false } new u := by
              refine (changeZone_plain hzt htype).trans ?_
              rw [show t.alarm.zones = s.alarm.zones.set i { z with frozen := false } from rfl, List.set_set]
            refine ⟨?_, ?_⟩
            · intro hno
              rw [hexec, hchange, hu]
              refine next_finish (if_neg ?_) h
              exact mt (isReported_iff (s := s) rfl).mp hno
            · intro hyes hf
              have htold : changeTold s i { z with frozen := false } z.type new u = zoneTold i z.type new u :=
                if_pos hyes
              rw [hexec, hchange, hu]
              refine next_finish ?_ hf
              rw [← htold] at hf ⊢
              exact reportZone_fits rfl rfl hf.room
    · intro line
      refine ⟨?_, ?_⟩
      · intro hr ha
        exact congrArg Host.Outcome.next (if_pos (by simp [recogniseDue, hr, ha]))
      · intro hr ha
        exact congrArg Host.Outcome.next (if_pos (by simp [releaseDue, hr, ha]))
  · intro c s u t hc hf h
    refine next_taken hc (.inl hf) rfl ?_ h
    have hreply : replyDone c .queryZonesClear ((heard c s).alarm.zones.map zoneSummary) (heard c s) = u := by
      rw [heard_alarm]
      exact replyDone_fits (by decide) h.1
    have halarm : u.alarm = s.alarm := heard_alarm c s
    rw [clearZones, hreply, modAlarm, halarm]
  · intro z b
    have hpos : zoneStatePos z.state < 4 := by cases z.state <;> decide
    exact summary_places ⟨zoneStatePos z.state, hpos⟩ z.trouble z.frozen z.changed
end Sys2Proof.Machine
end

