-- ==== Sys2Proof/Proofs/Lockdown.lean ====
section
/-! PROOFS. The change to LOCKDOWN announced, and each block secured (R147, R148, R163). -/

namespace Sys2Proof.Machine

section
variable {s t : State}

theorem noticeBound_cash (k : NoticeKind) (c : List Byte) (s : State) : (noticeBound k c s).cash = s.cash :=
  (report_busOnly ..).cash

/-! ### The change to LOCKDOWN, and the slots (R147, R163) -/

theorem reshutter_lockdown (h : s.lane.state = .lockdown) :
    reshutter s = { s with capture := { s.capture with shutter := false } } := by
  simp [reshutter, shutterWanted, h]

/-- The lane as its change to LOCKDOWN has been announced and every opening shut (R147, R148). -/
def lockdownAnnounced (s : State) : State :=
  positioned { s with
    lane :=
      { s.lane with
          state := .lockdown, pending := none, target := none,
          power := if s.lane.state = .night ∨ s.lane.state = .waking then .off else s.lane.power,
          unpowered := if s.lane.state = .night ∨ s.lane.state = .waking then true else s.lane.unpowered },
    capture := { s.capture with shutter := false },
    drives := { s.drives with pocketShutter := false, throatGate := false } }

theorem lockdownPower_eq (l : Lane) :
    lockdownPower l =
      { l with
          target := none, power := if l.state = .night ∨ l.state = .waking then .off else l.power,
          unpowered := if l.state = .night ∨ l.state = .waking then true else l.unpowered } := by
  unfold lockdownPower
  by_cases h : l.state = .night ∨ l.state = .waking
  · rw [if_pos (by simpa using h), if_pos h, if_pos h]
  · rw [if_neg (by simpa using h), if_neg h, if_neg h]

theorem setLaneState_lockdown (h : Room (lockdownAnnounced s)) :
    modDrives (fun d => { d with pocketShutter := false, throatGate := false })
        (setLaneState .lockdown (modLane (fun l => { lockdownPower l with pending := none }) s)) =
      lockdownAnnounced s := by
  let v : State :=
    { s with
        lane :=
          { s.lane with
              state := .lockdown, pending := none, target := none,
              power := if s.lane.state = .night ∨ s.lane.state = .waking then .off else s.lane.power,
              unpowered := if s.lane.state = .night ∨ s.lane.state = .waking then true else s.lane.unpowered } }
  have hv : modLane (fun l => { l with state := .lockdown })
      (modLane (fun l => { lockdownPower l with pending := none }) s) = v := by
    simp only [modLane, lockdownPower_eq]
    rfl
  have hask : askPosition { v with capture := { s.capture with shutter := false } } =
      positioned { v with capture := { s.capture with shutter := false } } := askPosition_fits (by simp [v]) h
  rw [setLaneState, hv, reshutter_lockdown rfl, hask]
  rfl

/-- The securing that follows the announcement, block after block. -/
theorem enterLockdown_eq (h : Room (lockdownAnnounced s)) :
    enterLockdown s =
      lockdownCapture s (lockdownCal (lockdownDeposit (lockdownDispense (lockdownServices
        (lockdownSlot (lockdownSlot (lockdownSlot (lockdownSlot (lockdownAnnounced s) 0) 1) 2) 3))))) := by
  rw [enterLockdown, setLaneState_lockdown h]
  rfl

theorem lockdownSlot_stays {i : Nat}
    (h : (s.approval.slots.getD i {}).kind = none ∨ (s.approval.slots.getD i {}).kind = some .alarmClear) :
    lockdownSlot s i = s := by
  rcases h with h | h <;> simp only [lockdownSlot, h]

theorem lockdownSlot_withdraws {i : Nat} {k : OpKind} (hk : (s.approval.slots.getD i {}).kind = some k)
    (hne : k ≠ .alarmClear) (h : Room (slotClosed i .withdrawn s)) : lockdownSlot s i = slotWithdrawn i s := by
  rw [← settleSlot_withdrawn_fits (by rw [hk]; rfl) h]
  cases k with
  | alarmClear => exact absurd rfl hne
  | _ => simp only [lockdownSlot, hk]

/-! ### The services at lockdown (R5, R19, R108, R192) -/

/-- The services but the loads. -/
def servicesEnded (s : State) : State :=
  let s := match s.cash.exchange with
    | some w => endExchange .lockdown w.tag [] s
    | none => s
  let s := if s.capture.bin == .awaitApproval || s.capture.bin == .opening then endBin .lockdown s else s
  modLane (fun l => { l with resetWait := none }) s

theorem lockdownServices_unloaded (h : s.cash.loads = []) : lockdownServices s = servicesEnded s := by
  simp only [lockdownServices, h, List.foldl_nil]
  rfl

theorem filter_loads {loads : List LoadWait} {x : LoadWait} (h : s.cash.loads = x :: loads)
    (hne : ∀ y ∈ loads, y.slot ≠ x.slot) : s.cash.loads.filter (fun y => y.slot != x.slot) = loads := by
  rw [h, List.filter_cons_of_neg (by simp), List.filter_eq_self]
  simpa using hne

theorem endLoad_loads {o : LoadOutcome} {loads : List LoadWait} {x : LoadWait} (h : s.cash.loads = x :: loads)
    (hne : ∀ y ∈ loads, y.slot ≠ x.slot) : (endLoad o x s).cash.loads = loads := by
  rw [endLoad, noticeLoad, noticeBound_cash]
  exact filter_loads h hne

theorem lockdownServices_loaded {loads : List LoadWait} {x : LoadWait} (h : s.cash.loads = x :: loads)
    (hne : ∀ y ∈ loads, y.slot ≠ x.slot) : lockdownServices s = lockdownServices (endLoad .lockdown x s) := by
  simp only [lockdownServices, h, endLoad_loads h hne, List.foldl_cons]

theorem servicesEnded_none (he : s.cash.exchange = none) (hb : s.capture.bin = .none ∨ s.capture.bin = .opened) :
    servicesEnded s = { s with lane := { s.lane with resetWait := none } } := by
  have hno : ¬(s.capture.bin == .awaitApproval || s.capture.bin == .opening) = true := by
    rcases hb with e | e <;> simp [e]
  simp only [servicesEnded, he]
  rw [if_neg hno]
  rfl

theorem servicesEnded_bin (he : s.cash.exchange = none)
    (hb : s.capture.bin = .awaitApproval ∨ s.capture.bin = .opening) (hl : s.lane.state = .lockdown)
    (ht : toldAll .completion (be 1 6 ++ be 1 (binOutcomePos .lockdown))
      { s with
          capture := { s.capture with bin := .none, binSlot := none, shutter := false },
          lane := { s.lane with resetWait := none } } = t) (h : Room t) : servicesEnded s = t := by
  have hyes : (s.capture.bin == .awaitApproval || s.capture.bin == .opening) = true := by
    rcases hb with e | e <;> simp [e]
  simp only [servicesEnded, he]
  rw [if_pos hyes, endBin_fits (t := toldAll .completion (be 1 6 ++ be 1 (binOutcomePos .lockdown))
    { s with capture := { s.capture with bin := .none, binSlot := none, shutter := false } }) rfl ?_ ?_]
  · exact ht
  · rw [reshutter_lockdown (by exact hl)]
  · rw [← ht] at h
    exact h

theorem servicesEnded_exchange {x : ExchangeWait} (he : s.cash.exchange = some x) (hb : s.capture.bin = .none)
    (ht : toldBound .completion (be 1 5 ++ be 1 x.tag ++ be 1 (exchangeOutcomePos .lockdown))
      { s with cash := { s.cash with exchange := none }, lane := { s.lane with resetWait := none } } = t)
    (h : Room t) : servicesEnded s = t := by
  have hend : endExchange .lockdown x.tag [] s =
      toldBound .completion (be 1 5 ++ be 1 x.tag ++ be 1 (exchangeOutcomePos .lockdown))
        { s with cash := { s.cash with exchange := none } } := by
    refine endExchange_fits rfl (by rw [List.append_nil]) ?_
    rw [← ht] at h
    exact h
  simp only [servicesEnded, he, hend]
  rw [if_neg (by
    rw [show (toldBound .completion (be 1 5 ++ be 1 x.tag ++ be 1 (exchangeOutcomePos .lockdown))
      { s with cash := { s.cash with exchange := none } }).capture = s.capture from rfl, hb]
    decide)]
  exact ht

end

section
variable {s t : State}

theorem lockdownServices_none (hl : s.cash.loads = []) (he : s.cash.exchange = none)
    (hb : s.capture.bin = .none ∨ s.capture.bin = .opened) :
    lockdownServices s = { s with lane := { s.lane with resetWait := none } } :=
  (lockdownServices_unloaded hl).trans (servicesEnded_none he hb)

theorem lockdownServices_bin (hl : s.cash.loads = []) (he : s.cash.exchange = none)
    (hb : s.capture.bin = .awaitApproval ∨ s.capture.bin = .opening) (hs : s.lane.state = .lockdown)
    (ht : toldAll .completion (be 1 6 ++ be 1 (binOutcomePos .lockdown))
      { s with
          capture := { s.capture with bin := .none, binSlot := none, shutter := false },
          lane := { s.lane with resetWait := none } } = t) (h : Room t) : lockdownServices s = t :=
  (lockdownServices_unloaded hl).trans (servicesEnded_bin he hb hs ht h)

/-! ### The engines at lockdown (R41, R42, R70, R91) -/

theorem lockdownDispense_idle (h : s.disp.st = .idle) : lockdownDispense s = s := by
  simp [lockdownDispense, h]

theorem lockdownDeposit_closed (h : s.dep.st = .closed) : lockdownDeposit s = s := by
  simp only [lockdownDeposit, h]

theorem lockdownCal_none (h : s.cal.phase = .none) : lockdownCal s = s := by
  simp only [lockdownCal, h]

theorem lockdownSlots_stay (h : ∀ x ∈ s.approval.slots, x.kind = none ∨ x.kind = some .alarmClear) (i : Nat) :
    lockdownSlot s i = s := by
  refine lockdownSlot_stays ?_
  rw [List.getD_eq_getElem?_getD]
  cases hx : s.approval.slots[i]? with
  | none => exact .inl rfl
  | some x => exact h x (List.mem_of_getElem? hx)

theorem quiet_engines (h : txnOpen s = false) : s.disp.st = .idle ∧ s.dep.st = .closed ∧ s.cal.phase = .none := by
  simpa [txnOpen, and_assoc] using h

/-- A quiet lane's change to LOCKDOWN secures its services alone. -/
theorem enterLockdown_quiet (hq : txnOpen s = false)
    (hslots : ∀ x ∈ s.approval.slots, x.kind = none ∨ x.kind = some .alarmClear)
    (ht : lockdownServices (lockdownAnnounced s) = t) (hd : t.disp = s.disp) (hp : t.dep = s.dep)
    (hc : t.cal = s.cal) (h : Room (lockdownAnnounced s)) : enterLockdown s = lockdownCapture s t := by
  obtain ⟨hidle, hclosed, hnone⟩ := quiet_engines hq
  have hslot : ∀ i, lockdownSlot (lockdownAnnounced s) i = lockdownAnnounced s :=
    lockdownSlots_stay (s := lockdownAnnounced s) hslots
  calc enterLockdown s
    _ = lockdownCapture s (lockdownCal (lockdownDeposit (lockdownDispense t))) := by
      rw [enterLockdown_eq h, hslot, hslot, hslot, hslot, ht]
    _ = lockdownCapture s (lockdownCal (lockdownDeposit t)) := by rw [lockdownDispense_idle (by rw [hd, hidle])]
    _ = lockdownCapture s (lockdownCal t) := by rw [lockdownDeposit_closed (by rw [hp, hclosed])]
    _ = lockdownCapture s t := by rw [lockdownCal_none (by rw [hc, hnone])]

end
section
variable {s : State}

/-- A quiet lane is announced, and its bin service, where one waits for the transport, ended. -/
theorem enterLockdown_of_quiet (hq : txnOpen s = false) (hl : s.cash.loads = []) (he : s.cash.exchange = none)
    (hslots : ∀ x ∈ s.approval.slots, x.kind = none ∨ x.kind = some .alarmClear) :
    let a := lockdownAnnounced s;
    let u := { a with lane := { a.lane with resetWait := none } };
    (s.capture.bin = .none → Fits u → enterLockdown s = u) ∧
      (let t := toldAll .completion (be 1 6 ++ be 1 (binOutcomePos .lockdown))
          { u with capture := { s.capture with bin := .none, binSlot := none, shutter := false } };
        s.capture.bin = .opening → Fits t → enterLockdown s = arbitrate t) := by
  intro a u
  refine ⟨?_, ?_⟩
  · intro hb h
    have hserved : lockdownServices a = u := lockdownServices_none hl he (.inl hb)
    calc enterLockdown s
      _ = lockdownCapture s u := enterLockdown_quiet hq hslots hserved rfl rfl rfl h.room
      _ = u := if_neg (by simp [hb])
  · intro t hb h
    have hserved : lockdownServices a = t := lockdownServices_bin hl he (.inr hb) rfl rfl h.room
    calc enterLockdown s
      _ = lockdownCapture s t := enterLockdown_quiet hq hslots hserved rfl rfl rfl h.room.of_toldAll
      _ = arbitrate t := if_pos (by simp [hb])

theorem enterLockdown_secures (h : Room (lockdownAnnounced s)) :
    enterLockdown s =
      if s.capture.bin = .opening then
        arbitrate (lockdownCal (lockdownDeposit (lockdownDispense (lockdownServices
          (lockdownSlot (lockdownSlot (lockdownSlot (lockdownSlot (lockdownAnnounced s) 0) 1) 2) 3)))))
      else
        lockdownCal (lockdownDeposit (lockdownDispense (lockdownServices
          (lockdownSlot (lockdownSlot (lockdownSlot (lockdownSlot (lockdownAnnounced s) 0) 1) 2) 3)))) := by
  rw [enterLockdown_eq h, lockdownCapture]
  simp only [beq_iff_eq]

end

section
variable {s : State}

theorem lockdownPocket_eq : lockdownPocket s = refusalsSecured s := by
  unfold lockdownPocket refusalsSecured
  by_cases h : 0 < s.dep.pocketRefusals ∧ s.dep.clearance ≠ .retracting
  · rw [if_pos (by simpa using h), if_pos h]
    rfl
  · rw [if_neg (by simpa using h), if_neg h]

/-- The throat as lockdown leaves it: shut, the run discarded, and jammed where notes were bound for the pocket. -/
theorem lockdownFeeding_eq : lockdownFeeding s = refuseAccepts .lockdown (s.dep.closing.getD {}).accepts
    { closeWindow .q { s with drives := { s.drives with throatGate := false, throatTransport := false } } with
      dep :=
        { s.dep with
            throatHeld := s.dep.throatHeld + s.dep.toPocket, toPocket := 0, closing := none, idleMs := none },
      throatJam := s.throatJam || s.dep.toPocket != 0 } := by
  let w := closeWindow .q { s with drives := { s.drives with throatGate := false, throatTransport := false } }
  have hdep : w.dep = s.dep := closeWindow_dep ..
  have hjam : w.throatJam = s.throatJam := closeWindow_throatJam ..
  have hheld : (if s.dep.toPocket > 0 then
      { modDep (fun d => { d with
          throatHeld := d.throatHeld + d.toPocket, toPocket := 0, closing := none, idleMs := none }) w with
        throatJam := true }
      else modDep (fun d => { d with
        throatHeld := d.throatHeld + d.toPocket, toPocket := 0, closing := none, idleMs := none }) w) =
      { w with
        dep :=
          { s.dep with
              throatHeld := s.dep.throatHeld + s.dep.toPocket, toPocket := 0, closing := none, idleMs := none },
        throatJam := s.throatJam || s.dep.toPocket != 0 } := by
    rw [← hdep, ← hjam]
    split
    · next hpos =>
      have hne : (w.dep.toPocket != 0) = true := by simpa using Nat.ne_of_gt (hdep ▸ hpos)
      rw [hne, Bool.or_true]
      rfl
    · next hzero =>
      have heq : (w.dep.toPocket != 0) = false := by simpa [hdep] using hzero
      rw [heq, Bool.or_false]
      rfl
  exact congrArg (refuseAccepts .lockdown (s.dep.closing.getD {}).accepts) hheld

theorem lockdownFeeding_fits (h : Room (feedingSecured s)) : lockdownFeeding s = feedingSecured s :=
  lockdownFeeding_eq.trans (refuseAccepts_fits h)

/-- The escrow is secured: the session stands in HOLDING, and its securing goes on from there. -/
theorem secured_goesOn {v : State} (h : lockdownDeposit s = secureEscrow v) :
    SecuringGoesOn { v with dep := { v.dep with st := .holding, slot := none, securing := true } }
      (lockdownDeposit s = ·) :=
  securingGoesOn fun _ ht _ => h.trans ht

end

section
variable {s : State}

theorem lockdownDispense_secures :
    let d := s.disp;
     (d.stranded = true → lockdownDispense s = s) ∧
     (d.stranded = false →
       ((d.st = .idle ∨ d.st = .purging ∨ d.st = .retracting) → lockdownDispense s = s) ∧
       (d.st = .awaitApproval → QuietEnd s → Fits (dispenseEnded .lockdown s) →
         lockdownDispense s = dispenseEnded .lockdown s) ∧
       (let t := dispenseEnded .lockdown (requestWithdrawn s);
         d.st = .awaitCeiling → s.peer.request.isSome → s.approval.unbindPending = false →
         s.lane.state ≠ .starting → Fits t → lockdownDispense s = t) ∧
       (let t := dispenseEnded .lockdown
           { s with
               chP := { s.chP with window := false, flow := .none, capturing := false },
               drives := { s.drives with pickTransport := false, pickGate := none } };
         d.st = .zeroCapture → s.chP.window = false → QuietEnd s → Fits t → lockdownDispense s = t) ∧
       (d.st = .picking → lockdownDispense s = { s with disp := { d with stop := some (d.stop.getD .lockdown) } }) ∧
       (d.st = .presenting → d.move = .present →
         lockdownDispense s = { s with disp := { d with move := .reverse, decided := some .lockdown } }) ∧
       (d.st = .presenting → d.move = .none → d.takeMs.isSome →
         lockdownDispense s =
           arbitrate { s with
             disp := { d with st := .retracting, takeMs := none, decided := some .lockdown },
             drives := { s.drives with pocketShutter := false },
             capture :=
               { s.capture with
                   retract := some {
                     requester := .dispense, kind := .dispense, tag := some d.tag, count := d.presentedNotes,
                     value := d.presentedValue, blocked := false, granted := false } } })) := by
  intro d
  refine ⟨fun hstr => if_pos hstr, fun hstr => ?_⟩
  have hnot : ¬(s.disp.stranded = true) := by simp [show s.disp.stranded = false from hstr]
  refine ⟨?_, ?_, ?_, ?_, ?_, ?_, ?_⟩
  · rintro (hst | hst | hst) <;> exact (if_neg hnot).trans (by simp only [show s.disp.st = _ from hst])
  · intro hst hq h
    have hmatch : lockdownDispense s = endDispense .lockdown s :=
      (if_neg hnot).trans (by simp only [show s.disp.st = _ from hst])
    exact hmatch.trans (endDispense_fits hq h.1)
  · intro t hst hr hu hs h
    have hmatch : lockdownDispense s = endDispense .lockdown (withdrawIntent s) :=
      (if_neg hnot).trans (by simp only [show s.disp.st = _ from hst])
    rw [hmatch, withdrawIntent_of_isSome hr]
    exact endDispense_fits (s := requestWithdrawn s) ⟨hu, rfl, hs⟩ h.1
  · intro t hst hw hq h
    have hmatch : lockdownDispense s = endDispense .lockdown (abandonCaptureP s) :=
      (if_neg hnot).trans (by simp only [show s.disp.st = _ from hst])
    rw [hmatch, abandonCaptureP_shut rfl rfl hw]
    exact endDispense_fits hq h.1
  · intro hst
    have hmatch : lockdownDispense s = modDisp (fun d => { d with stop := some (d.stop.getD .lockdown) }) s :=
      (if_neg hnot).trans (by simp only [show s.disp.st = _ from hst])
    exact hmatch
  · intro hst hm
    have hmatch : lockdownDispense s = modDisp (fun d => { d with move := .reverse, decided := some .lockdown }) s :=
      (if_neg hnot).trans (by simp only [show s.disp.st = _ from hst, show s.disp.move = _ from hm])
    exact hmatch
  · intro hst hm ht
    have hmatch : lockdownDispense s = retractDispense (some .lockdown) s :=
      (if_neg hnot).trans (by
        simp only [show s.disp.st = _ from hst, show s.disp.move = _ from hm]
        exact if_pos ht)
    exact hmatch

end

section
variable {s : State}

theorem lockdownDeposit_secures :
     let d := s.dep;
     let secured := fun (v t : State) =>
       (SecuringGoesOn { v with dep := { v.dep with st := .holding, slot := none, securing := true } } (t = ·) : Prop);
     ((d.st = .closed ∨ d.st = .returnRetracting) → lockdownDeposit s = s) ∧
     (let t := depositEnded .lockdown (requestWithdrawn s);
       d.st = .awaitCeiling → s.peer.request.isSome → s.approval.unbindPending = false → s.lane.state ≠ .starting
         →
       Fits t → lockdownDeposit s = t) ∧
     (let t := depositEnded .lockdown
         { s with
             chQ := { s.chQ with window := false, flow := .none, capturing := false },
             drives := { s.drives with throatGate := false, throatTransport := false } };
       d.st = .zeroCapture → s.chQ.window = false → QuietEnd s → Fits t → lockdownDeposit s = t) ∧
     (d.st = .feeding → Fits (feedingSecured s) → secured (refusalsSecured (feedingSecured s))
       (lockdownDeposit s)) ∧
     ((d.st = .holding ∨ d.st = .awaitApproval) → secured (refusalsSecured s) (lockdownDeposit s)) ∧
     (d.st = .stacking → lockdownDeposit s = refusalsSecured s) ∧
     (d.st = .returning →
       lockdownDeposit s = refusalsSecured { s with dep := { d with securing := true, move := .reversing } }) ∧
     (d.st = .returnPresented →
       lockdownDeposit s = arbitrate { s with
         dep := { d with st := .returnRetracting, takeMs := none, decided := some .lockdown },
         drives := { s.drives with pocketShutter := false },
         capture :=
           { s.capture with
               retract := some {
                 requester := .deposit, kind := .depositReturn, tag := some d.tag, count := d.presentedNotes,
                 value := d.presentedValue, blocked := false, granted := false } } }) := by
  intro d secured
  refine ⟨?_, ?_, ?_, ?_, ?_, ?_, ?_, ?_⟩
  · rintro (hst | hst) <;> simp only [lockdownDeposit, show s.dep.st = _ from hst]
  · intro t hst hr hu hs h
    have hmatch : lockdownDeposit s = endDeposit .lockdown (withdrawIntent s) := by
      simp only [lockdownDeposit, show s.dep.st = _ from hst]
    rw [hmatch, withdrawIntent_of_isSome hr]
    exact endDeposit_fits (s := requestWithdrawn s) ⟨hu, rfl, hs⟩ h.1
  · intro t hst hw hq h
    have hmatch : lockdownDeposit s = endDeposit .lockdown (abandonCaptureQ s) := by
      simp only [lockdownDeposit, show s.dep.st = _ from hst]
    rw [hmatch, abandonCaptureQ, closeWindow_of_shut (ch := .q) (s := shutThroat s) hw]
    exact endDeposit_fits hq h.1
  · intro hst h
    have hmatch : lockdownDeposit s = secureEscrow (lockdownPocket (lockdownFeeding s)) := by
      simp only [lockdownDeposit, show s.dep.st = _ from hst]
    rw [lockdownFeeding_fits h.1, lockdownPocket_eq] at hmatch
    exact secured_goesOn hmatch
  · intro hst
    have hmatch : lockdownDeposit s = secureEscrow (lockdownPocket s) := by
      rcases hst with hst | hst <;> simp only [lockdownDeposit, show s.dep.st = _ from hst]
    rw [lockdownPocket_eq] at hmatch
    exact secured_goesOn hmatch
  · intro hst
    have hmatch : lockdownDeposit s = lockdownPocket s := by
      simp only [lockdownDeposit, show s.dep.st = _ from hst]
    exact hmatch.trans lockdownPocket_eq
  · intro hst
    have hmatch : lockdownDeposit s =
        lockdownPocket (modDep (fun d => { d with securing := true, move := .reversing }) s) := by
      simp only [lockdownDeposit, show s.dep.st = _ from hst]
    exact hmatch.trans lockdownPocket_eq
  · intro hst
    have hmatch : lockdownDeposit s = retractReturn (some .lockdown) s := by
      simp only [lockdownDeposit, show s.dep.st = _ from hst]
    exact hmatch

theorem closeWindow_withDrives (d : Drives) (ch : ChannelId) (s : State) :
    closeWindow ch { s with drives := d } = { closeWindow ch s with drives := d } := by
  calc closeWindow ch { s with drives := d }
    _ = overlay { s with drives := d } (closeWindow ch s) := closeWindow_of_same s { s with drives := d } rfl rfl rfl ch
    _ = { overlay s (closeWindow ch s) with drives := d } := rfl
    _ = { closeWindow ch s with drives := d } := by rw [← closeWindow_eq_overlay]

theorem stackCal_lockdown : stackCal .lockdown s = closeWindow .q { s with
    cal := { s.cal with phase := .stacking, outcome := some (s.cal.outcome.getD .lockdown) },
    drives := { s.drives with throatGate := false, throatTransport := true, toEscrow := true } } := by
  let v := { s with cal := { s.cal with phase := .stacking, outcome := some (s.cal.outcome.getD .lockdown) } }
  have hdrives : (closeWindow .q v).drives = s.drives := closeWindow_drives .q v
  calc stackCal .lockdown s
    _ = { closeWindow .q v with
          drives :=
            { (closeWindow .q v).drives with throatGate := false, throatTransport := true, toEscrow := true } } := rfl
    _ = { closeWindow .q v with
          drives := { s.drives with throatGate := false, throatTransport := true, toEscrow := true } } := by rw
            [hdrives]
    _ = _ := (closeWindow_withDrives _ .q v).symm

theorem stopCal_unbindPending : (stopCal s).approval.unbindPending = s.approval.unbindPending := by
  unfold stopCal
  split
  · rw [closeWindow_approval]
    rfl
  · rw [closeWindow_approval]
    rfl

theorem lockdownCal_secures :
     let k := s.cal;
     let stopped := fun (v : State) => match k.channel with
       | .p => closeWindow .p { v with drives := { v.drives with pickTransport := false, pickGate := none } }
       | .q => closeWindow .q { v with drives := { v.drives with throatGate := false, throatTransport := false } };
     let stacked := fun (v : State) => closeWindow .q { v with
       cal := { k with phase := .stacking, outcome := some (k.outcome.getD .lockdown) },
       drives := { v.drives with throatGate := false, throatTransport := true, toEscrow := true } };
     let t := calEnded .lockdown (stopped s);
     ((k.phase = .none ∨ k.phase = .retracting ∨ k.phase = .stacking) → lockdownCal s = s) ∧
     ((k.phase = .zeroCapture ∨ (k.phase = .waiting ∧ k.channel = .q)) → s.approval.unbindPending = false → Fits t
       →
       lockdownCal s = t) ∧
     ((k.phase = .waiting ∨ k.phase = .running) → k.channel = .p →
       lockdownCal s = { s with cal := { k with locked := true } }) ∧
     (k.phase = .tail → k.channel = .p → lockdownCal s = s) ∧
     ((k.phase = .running ∨ k.phase = .tail) → k.channel = .q → lockdownCal s = stacked s) ∧
     (k.phase = .toPocket → lockdownCal s = stacked s) ∧
     (k.phase = .inPocket →
       lockdownCal s = arbitrate { s with
         cal := { k with phase := .retracting, takeMs := none },
         drives := { s.drives with pocketShutter := false },
         capture :=
           { s.capture with
               retract := some {
                 requester := .calibration, kind := .depositReturn, tag := some k.tag, count := 1, value := 0,
                 blocked := false, granted := false } } }) := by
  intro k stopped stacked t
  refine ⟨?_, ?_, ?_, ?_, ?_, ?_, ?_⟩
  · rintro (hst | hst | hst) <;> simp only [lockdownCal, show s.cal.phase = _ from hst]
  · intro hst hu h
    have hmatch : lockdownCal s = endCal .lockdown (stopCal s) := by
      rcases hst with hst | ⟨hst, hch⟩
      · simp only [lockdownCal, show s.cal.phase = _ from hst]
      · simp only [lockdownCal, show s.cal.phase = _ from hst, show s.cal.channel = _ from hch]
    have hstop : stopCal s = stopped s := by
      show stopCal s = match s.cal.channel with | .p => _ | .q => _
      cases hch : s.cal.channel with
      | p => exact stopCal_p hch
      | q => exact stopCal_q hch
    have hquiet : (stopped s).approval.unbindPending = false := by rw [← hstop, stopCal_unbindPending, hu]
    rw [hmatch, hstop]
    exact endCal_fits hquiet h.1
  · rintro hst hch
    have hmatch : lockdownCal s = modCal (fun k => { k with locked := true }) s := by
      rcases hst with hst | hst <;>
        simp only [lockdownCal, show s.cal.phase = _ from hst, show s.cal.channel = _ from hch]
    exact hmatch
  · intro hst hch
    simp only [lockdownCal, show s.cal.phase = _ from hst, show s.cal.channel = _ from hch]
  · rintro hst hch
    have hmatch : lockdownCal s = stackCal .lockdown s := by
      rcases hst with hst | hst <;>
        simp only [lockdownCal, show s.cal.phase = _ from hst, show s.cal.channel = _ from hch]
    exact hmatch.trans stackCal_lockdown
  · intro hst
    have hmatch : lockdownCal s = stackCal .lockdown s := by
      simp only [lockdownCal, show s.cal.phase = _ from hst]
    exact hmatch.trans stackCal_lockdown
  · intro hst
    have hmatch : lockdownCal s = retractCal s := by
      simp only [lockdownCal, show s.cal.phase = _ from hst]
    exact hmatch

theorem lockdownServices_secures :
     let slot := fun (i : Nat) => s.approval.slots.getD i {};
     (∀ i, (slot i).kind = none ∨ (slot i).kind = some .alarmClear → lockdownSlot s i = s) ∧
     (∀ i k, (slot i).kind = some k → k ≠ .alarmClear → (slotClosed i .withdrawn s).bus.queue.length ≤ 16 →
       lockdownSlot s i = slotWithdrawn i s) ∧
     (∀ (loads : List LoadWait) (x : LoadWait),
       let t := toldBound .completion
         (be 1 4 ++ be 1 x.tag ++ be 1 (loadOutcomePos .lockdown) ++ be 1 (x.cassette + 1) ++
           be 1 (cassetteStatePos (s.cash.cassettes.getD x.cassette {}).st))
         { s with cash := { s.cash with loads := loads } };
       s.cash.loads = x :: loads → (∀ y ∈ loads, y.slot ≠ x.slot) → t.bus.queue.length ≤ 16 →
       endLoad .lockdown x s = t) ∧
     (∀ x,
       let t := toldBound .completion (be 1 5 ++ be 1 x.tag ++ be 1 (exchangeOutcomePos .lockdown))
         { s with cash := { s.cash with exchange := none }, lane := { s.lane with resetWait := none } };
       s.cash.loads = [] → s.cash.exchange = some x → s.capture.bin = .none → t.bus.queue.length ≤ 16 →
       lockdownServices s = t) ∧
     (∀ (loads : List LoadWait) (x : LoadWait),
       s.cash.loads = x :: loads → (∀ y ∈ loads, y.slot ≠ x.slot) →
       lockdownServices s = lockdownServices (endLoad .lockdown x s)) ∧
     (let t := toldAll .completion (be 1 6 ++ be 1 (binOutcomePos .lockdown))
         { s with
             capture := { s.capture with bin := .none, binSlot := none, shutter := false },
             lane := { s.lane with resetWait := none } };
       s.cash.loads = [] → s.cash.exchange = none → s.lane.state = .lockdown →
         ((s.capture.bin = .awaitApproval ∨ s.capture.bin = .opening) → t.bus.queue.length ≤ 16 →
           lockdownServices s = t) ∧
         ((s.capture.bin = .none ∨ s.capture.bin = .opened) →
           lockdownServices s = { s with lane := { s.lane with resetWait := none } })) := by
  intro slot
  refine ⟨?_, ?_, ?_, ?_, ?_, ?_⟩
  · intro i hkind
    exact lockdownSlot_stays hkind
  · intro i k hkind hne h
    exact lockdownSlot_withdraws hkind hne h
  · intro loads x t hl hne h
    exact endLoad_fits rfl (by rw [filter_loads hl hne]) h
  · intro x t hl he hb h
    exact (lockdownServices_unloaded hl).trans (servicesEnded_exchange he hb rfl h)
  · intro loads x hl hne
    exact lockdownServices_loaded hl hne
  · intro t hl he hs
    exact ⟨fun hb h => lockdownServices_bin hl he hb hs rfl h, lockdownServices_none hl he⟩

end

/-- Settles O45: the announcement, then the securing of each block by its state. -/
theorem lockdownAnnouncesAndSecures : Obligations.LockdownAnnouncesAndSecures := by
  unfold Obligations.LockdownAnnouncesAndSecures
  refine ⟨?_, ?_, ?_, ?_, ?_, ?_⟩
  · intro s dark u hq _ hl he hslots
    exact enterLockdown_of_quiet hq hl he hslots
  · intro s dark u served secured _ h
    exact enterLockdown_secures h
  · intro s
    exact lockdownServices_secures
  · intro s
    exact lockdownDispense_secures
  · intro s
    exact lockdownDeposit_secures
  · intro s
    exact lockdownCal_secures

end Sys2Proof.Machine
end

