-- ==== Sys2Proof/Proofs/Clears.lean ====
section
/-! PROOFS. CLEAR_FAULTS, CLEAR_CAUSE and SHIFT_CLOSE (R169, R172, R191). -/

namespace Sys2Proof.Machine

section
variable {h : Header} {s t v w : State}

/-! ### CLEAR_FAULTS (R169) -/

/-- The lane with the fault record as CLEAR_FAULTS leaves it. -/
def faultsCleared (s : State) : State :=
  { s with
      fault := { s.fault with flags := List.replicate 18 false, hold := .empty, latched := none, second := false } }

theorem clearFaultsCheck_passes (hs : v.fault.hold ≠ .empty ∨ v.fault.second = true ∨ true ∈ v.fault.flags) :
    clearFaultsCheck v = none := by
  have hno : (v.fault.hold == .empty && !v.fault.second && v.fault.flags.all (!·)) = false := by
    rcases hs with hs | hs | hs
    · simp [hs]
    · simp [hs]
    · have hall : v.fault.flags.all (!·) = false := List.all_eq_false.mpr ⟨true, hs, by decide⟩
      rw [hall, Bool.and_false]
  simp [clearFaultsCheck, firstOf, hno]

theorem frameLost_lane {e : TxEntry} (he : e.owner ≠ .resetNotice) : (frameLost e s).lane = s.lane := by
  unfold frameLost
  split
  · split <;> rfl
  · rfl
  · next hown => exact absurd hown he
  · rfl
  · rfl
  · rfl

/-- A full queue that takes a frame, or drops it, raises TX_OVERFLOW and makes no reset due (R178). -/
theorem enqueue_full {e : TxEntry} (hfull : 16 ≤ s.bus.queue.length) (he : e.owner ≠ .resetNotice)
    (hq : ∀ x ∈ s.bus.queue, x.owner ≠ .resetNotice) :
    (enqueue e s).fault = (raiseSoft .txOverflow .none none none s).fault ∧ (enqueue e s).lane = s.lane := by
  unfold enqueue
  rw [if_neg (Nat.not_lt.mpr hfull)]
  dsimp only
  split
  · next old hfind =>
    have hold : old ∈ s.bus.queue := List.mem_reverse.mp (List.mem_of_find?_eq_some hfind)
    split
    · exact ⟨frameLost_fault .., frameLost_lane (hq old hold)⟩
    · exact ⟨frameLost_fault .., frameLost_lane he⟩
  · exact ⟨frameLost_fault .., frameLost_lane he⟩

/-- The REPLY of CLEAR_FAULTS that meets a full queue leaves TX_OVERFLOW as the first fault. -/
theorem clearFaults_overflows (hfull : 16 ≤ v.bus.queue.length) (hq : ∀ x ∈ v.bus.queue, x.owner ≠ .resetNotice)
    :
    (clearFaults h v).fault.hold = .soft ∧
      (clearFaults h v).fault.flags = (List.replicate 18 false).set (faultKindIdx .txOverflow) true ∧
      (clearFaults h v).lane = v.lane := by
  obtain ⟨hfault, hlane⟩ := enqueue_full (s := faultsCleared v)
    (e := { frame := replyFrame h .clearFaults false (be 1 2 ++ faultBytes v.fault) }) hfull nofun hq
  have hsaid : (clearFaults h v).fault = (raiseSoft .txOverflow .none none none (faultsCleared v)).fault := hfault
  rw [hsaid]
  exact ⟨rfl, rfl, hlane⟩

/-! ### CLEAR_CAUSE and SHIFT_CLOSE (R172, R191) -/

theorem clearCauseCheck_passes {c : ResetCause} (hcause : v.lane.cause = c)
    (hs : c.powerOn = true ∨ c.supplyDip = true ∨ c.resetLine = true ∨ c.commanded = true ∨ c.backupLost = true)
      :
    clearCauseCheck v = none := by
  subst hcause
  rcases hs with hs | hs | hs | hs | hs <;> simp [clearCauseCheck, firstOf, hs]

theorem clearCause_fits {c : ResetCause} {n ms : Nat} (hcause : v.lane.cause = c) (hn : v.lane.startCount = n)
    (hms : v.lane.timeMs = ms)
    (ht : { doneReply h .clearCause (causeBytes c) v with
      lane :=
        { v.lane with
            cause :=
              { powerOn := false, supplyDip := false, resetLine := false, commanded := false, backupLost := false,
                last := c.last, clearStart := n, clearTime := ms / 1000 } } } = t) (hr : Room t) :
    clearCause h v = t := by
  subst hcause hn hms ht
  rw [clearCause, replyDone_fits (by decide) hr]
  rfl

theorem closeShift_fits {closed : ClosedShift}
    (hc : closed =
      { totals := v.fault.shift, closeStart := v.lane.startCount, closeTime := v.lane.timeMs / 1000, closedBy := h.src,
        txnOpen := txnOpen v })
    (hw : toldAll .shiftClosed (closedBytes (some closed)) { v with fault := { v.fault with closed := some closed } } =
      w)
    (ht : { w with
      fault :=
        { w.fault with shift := { openStart := v.lane.startCount, openTime := v.lane.timeMs / 1000 } } } = t)
    (hr : Room t) : closeShift h.src v = t := by
  subst hc hw ht
  rw [closeShift]
  exact congrArg (modShift fun _ => { openStart := v.lane.startCount, openTime := v.lane.timeMs / 1000 })
    (noticeAll_fits hr)

end

/-- Settles O48: each of the three answers with what it then clears. -/
theorem clearingCommandsReportWhatTheyClear : Obligations.ClearingCommandsReportWhatTheyClear := by
  unfold Obligations.ClearingCommandsReportWhatTheyClear
  intro c s hc v
  refine ⟨?_, ?_, ?_⟩
  · intro u t hs
    have hcheck : clearFaultsCheck v = none := clearFaultsCheck_passes hs
    refine ⟨fun h => ?_, fun hfull hdue hq => ?_⟩
    · refine next_taken hc (.inr rfl) hcheck ?_ h
      exact replyDone_fits (s := faultsCleared v) (by decide) h.1
    · obtain ⟨hhold, hflags, hlane⟩ := clearFaults_overflows (h := c) hfull hq
      refine ⟨clearFaults c v, ?_, hhold, hflags⟩
      refine next_finish_not_due (takeCommand_taken hc (.inr rfl) hcheck) ?_
      rw [hlane, hdue]
  · intro cause u t hs h
    have hcause : v.lane.cause = cause := heard_cause c s
    refine next_taken hc (.inr rfl) (clearCauseCheck_passes hcause hs) ?_ h
    exact clearCause_fits hcause (heard_startCount c s) (heard_timeMs c s) rfl h.1
  · intro u closed w t hl hf h
    have hcheck : shiftCloseCheck v = none := by simp [shiftCloseCheck, firstOf, v, hl]
    refine next_taken hc (.inl hf) hcheck ?_ h
    have hroom : Room u := Room.of_toldAll (s := { u with fault := { u.fault with closed := some closed } }) h.1
    have hreply : replyDone c .shiftClose [] v = u := replyDone_fits (by decide) hroom
    rw [hreply]
    have hn : u.lane.startCount = s.lane.startCount := heard_startCount c s
    have hms : u.lane.timeMs = s.lane.timeMs := heard_timeMs c s
    have htxn : txnOpen u = txnOpen s := by
      show txnOpen (heard c s) = txnOpen s
      simp [txnOpen]
    refine closeShift_fits (closed := closed) ?_ rfl ?_ h.1
    · rw [hn, hms, htxn]
      rfl
    · rw [hn, hms]

end Sys2Proof.Machine
end

