-- ==== Sys2Proof/Proofs/Unjams.lean ====
section
/-! PROOFS. CLEAR_JAM, and what each mark's clearing lets go on (R59, R91, R97, R187). -/

namespace Sys2Proof.Machine

/-! ### The slot shutter and the arbiter, with nothing in the transport (R94, R98) -/

section
variable {v x : State} {st : LaneState} {c : Capture} {r : RetractRequest}

theorem reshutter_of_wanted {b : Bool} (h : shutterWanted x = b) :
    reshutter x = { x with capture := { x.capture with shutter := b } } := by
  rw [reshutter, h]

theorem shutterWanted_of_same (hl : x.lane.state = v.lane.state) (hc : x.capture = v.capture) :
    shutterWanted x = shutterWanted v := by
  simp only [shutterWanted, hl, hc]

theorem shutterWanted_empty (hl : v.lane.state = st) (hc : v.capture = c) (hj : c.jam = false)
    (hw : c.waiting = false) (he : c.envelope = none) :
    shutterWanted v = (st == .opened && decide (c.journal.length < 400) && c.bin == .none) := by
  simp [shutterWanted, hl, hc, hj, hw, he]

theorem arbitrate_nothing_waits (hr : v.capture.retract = none) (hw : v.capture.waiting = false) :
    arbitrate v = v := by
  by_cases hbusy : v.capture.jam = true ∨ v.capture.transport ≠ .idle
  · exact arbitrate_busy hbusy
  · obtain ⟨hj, ht⟩ : v.capture.jam = false ∧ v.capture.transport = .idle := by simpa using hbusy
    rw [arbitrate_of_none hj ht hr, if_neg (by simp [hw])]

/-- A request that is blocked changes no condition of the slot shutter, and leaves an envelope waiting or not. -/
theorem blockRetract_kept :
    shutterWanted (blockRetract r v) = shutterWanted v ∧
      (blockRetract r v).capture.waiting = v.capture.waiting := by
  unfold blockRetract
  split
  · exact ⟨rfl, rfl⟩
  · let w := modCapture (fun c => { c with retract := some { r with blocked := true } }) v
    have hb := raiseHard_busOnly .retractBlocked (requesterOp r.requester) none none w
    exact ⟨shutterWanted_of_same (v := w) hb.laneState hb.capture, (congrArg Capture.waiting hb.capture).trans rfl⟩

/-- With no envelope waiting, what the arbiter decides leaves the slot shutter's conditions as they are. -/
theorem arbitrate_shutterWanted (hw : v.capture.waiting = false) :
    shutterWanted (arbitrate v) = shutterWanted v := by
  have htry : ∀ {y : State}, y.capture.waiting = false → tryEnvelope y = y := fun hy => if_neg (by simp [hy])
  unfold arbitrate
  dsimp only
  split
  · rfl
  · split
    · split
      · rw [htry hw]
      · split
        · rfl
        · rw [htry (blockRetract_kept.2.trans hw), blockRetract_kept.1]
    · rw [htry hw]

end

/-! ### What an ending leaves (R43, R72, R92) -/

section
variable (s : State)

theorem released_capture (k : IntentKind) : (released k s).capture = s.capture := by
  unfold released
  split <;> rfl

theorem dispenseEnded_capture (o : DispOutcome) : (dispenseEnded o s).capture = s.capture := released_capture ..
theorem depositEnded_capture (o : DepOutcome) : (depositEnded o s).capture = s.capture := released_capture ..
theorem dispenseEnded_lane (o : DispOutcome) : (dispenseEnded o s).lane = s.lane := released_lane ..
theorem depositEnded_lane (o : DepOutcome) : (depositEnded o s).lane = s.lane := released_lane ..

end

/-! ### CLEAR_JAM (R59, R97, R104, R187) -/

section
variable {h : Header} {stacker escrow : Bool} {s t u v x : State} {c : Capture} {r : RetractRequest}

/-- The lane with the marks of the dispenser and of the throat clear. -/
def jamsCleared (s : State) : State := { s with dispenserJam := false, throatJam := false }

theorem jamsCleared_unjammed (hj : v.throatJam = false) : jamsCleared v = { v with dispenserJam := false } :=
  congrArg (fun b => { v with dispenserJam := false, throatJam := b }) hj.symm

theorem clearJamCheck_passes (hj : s.dispenserJam = true ∨ s.throatJam = true ∨ s.capture.jam = true) :
    clearJamCheck (heard h s) = none := by
  rcases hj with hj | hj | hj <;> simp [clearJamCheck, firstOf, hj]

theorem next_clearJam (hc : Comes h s) (hj : s.dispenserJam = true ∨ s.throatJam = true ∨ s.capture.jam = true)
    (hu : doneReply h .clearJam [] (heard h s) = u) (hroom : Room u) (he : clearJams stacker escrow u = t)
    (hdue : t.lane.resetDue = false) : exec (.clearJam h stacker escrow) s = .next t := by
  refine next_finish_not_due ((takeCommand_taken hc (.inr rfl) (clearJamCheck_passes hj)).trans ?_) hdue
  subst hu
  rw [replyDone_fits (by decide) hroom, he]

theorem resumeRecovery_unjammed (hs : v.lane.recovery.stacker ≠ .jammed) (he : v.lane.recovery.escrow ≠ .jammed) :
    resumeRecovery stacker escrow v = v := by
  simp [resumeRecovery, hs, he]

theorem clearCaptureJam_unjammed (hj : v.capture.jam = false) : clearCaptureJam v = v := if_neg (by simp [hj])

/-- Without a capture jam and a jammed move of recovery, only the session may go on. -/
theorem clearJams_session (hx : (if v.throatJam then depositUnjammed (jamsCleared v) else jamsCleared v) = x)
    (hj : x.capture.jam = false) (hs : x.lane.recovery.stacker ≠ .jammed) (he : x.lane.recovery.escrow ≠ .jammed) :
    clearJams stacker escrow v = x := by
  calc clearJams stacker escrow v
    _ = clearCaptureJam (resumeRecovery stacker escrow x) := by rw [← hx]; rfl
    _ = clearCaptureJam x := by rw [resumeRecovery_unjammed hs he]
    _ = x := clearCaptureJam_unjammed hj

theorem depositUnjammed_stays {d : Deposit} (hd : v.dep = d) (hsec : d.securing = false)
    (hno : ¬(d.st = .holding ∧ 0 < d.pocketRefusals ∧ d.clearance = .none)) : depositUnjammed v = v := by
  subst hd
  rw [depositUnjammed, if_neg (by simp [hsec]), if_neg (by simpa [and_assoc] using hno)]

theorem depositUnjammed_opens {d : Deposit} {dr : Drives} {n : Nat} (hd : v.dep = d) (hdr : v.drives = dr)
    (hn : v.config.takeTimeout = n) (hsec : d.securing = false)
    (hyes : d.st = .holding ∧ 0 < d.pocketRefusals ∧ d.clearance = .none) :
    depositUnjammed v =
      { v with
          dep := { d with clearance := .opened, takeMs := some (n * 1000) },
          drives := { dr with pocketShutter := true } } := by
  subst hd hdr hn
  exact (if_neg (by simp [hsec])).trans (if_pos (by simpa [and_assoc] using hyes))

/-- The session's securing goes on, with the lane and the capture unit as they were. -/
theorem securingGoesOn_kept {is : State → Prop}
    (h : ∀ t, secureOn v = t → t.lane = v.lane → t.capture = v.capture → is t) : SecuringGoesOn v is := by
  refine ⟨?_, ?_⟩
  · intro hheld
    exact h v (secureOn_held hheld) rfl rfl
  · intro hj hm ht
    refine ⟨?_, ?_, ?_⟩
    · intro he
      exact h _ (secureOn_stacks hj hm ht he) rfl rfl
    · intro he hc
      exact h v (secureOn_clearance he hc) rfl rfl
    · intro he hc hq hfits
      exact h _ ((secureOn_ends rfl hj hm ht he hc).trans (endDeposit_fits hq hfits.1)) (depositEnded_lane ..)
        (depositEnded_capture ..)

/-! ### The moves of recovery (R16, R187) -/

/-- The stacker's move of recovery as CLEAR_JAM finds the stacker. -/
def recoveryStacker (x : RecoveryMove) (v : State) : State :=
  { v with lane := { v.lane with recovery := { v.lane.recovery with stacker := x } } }

/-- The stacker's purge tried again: it runs where the tray has room, and else waits with PURGE_FULL raised. -/
def purgeTried (cash : CassetteUnit) (v : State) : State :=
  if cash.purge.total + 40 ≤ 100 then recoveryStacker .running v
  else recoveryStacker .noRoom (faulted .purgeFull .recovery none none
    { v with cash := { cash with purge := { cash.purge with full := true } } })

theorem tryRecoveryPurge_fits {cash : CassetteUnit} (hcash : v.cash = cash) (h : Room (purgeTried cash v)) :
    tryRecoveryPurge v = purgeTried cash v := by
  subst hcash
  by_cases hroom : v.cash.purge.total + 40 ≤ 100
  · exact (if_pos (decide_eq_true hroom)).trans (if_pos hroom).symm
  · rw [purgeTried, if_neg hroom] at h
    refine (if_neg (by rw [trayHasRoom, decide_eq_true_iff]; exact hroom)).trans (Eq.trans ?_ (if_neg hroom).symm)
    exact congrArg (recoveryStacker .noRoom) (trayNoRoom_fits h)

theorem Room.of_purgeTried {cash : CassetteUnit} (h : Room (purgeTried cash v)) : Room v := by
  unfold purgeTried at h
  split at h
  · exact h
  · exact Room.of_faulted (s := { v with cash := { cash with purge := { cash.purge with full := true } } }) h

/-- The stacker's move of recovery goes on: a purge over an occupied stacker, the end of its move over a clear one. -/
def stackerResumed (r : Recovery) (cash : CassetteUnit) (stacker : Bool) (v : State) : State :=
  if r.stacker ≠ .jammed then v
  else if stacker = false then recoveryStacker .none v
  else purgeTried cash v

theorem stackerResumed_kept {rec : Recovery} {cash : CassetteUnit} :
    (stackerResumed rec cash stacker v).lane.recovery.escrow = v.lane.recovery.escrow ∧
      (stackerResumed rec cash stacker v).drives = v.drives ∧
      (stackerResumed rec cash stacker v).capture = v.capture := by
  unfold stackerResumed purgeTried
  split
  · exact ⟨rfl, rfl, rfl⟩
  · split
    · exact ⟨rfl, rfl, rfl⟩
    · split <;> exact ⟨rfl, rfl, rfl⟩

theorem Room.of_stackerResumed {rec : Recovery} {cash : CassetteUnit} (h : Room (stackerResumed rec cash stacker v)) :
    Room v := by
  unfold stackerResumed at h
  split at h
  · exact h
  · split at h
    · exact h
    · exact h.of_purgeTried

theorem stackerResumed_fits {rec : Recovery} {cash : CassetteUnit} (hrec : v.lane.recovery = rec)
    (hcash : v.cash = cash)
    (h : Room (stackerResumed rec cash stacker v)) :
    (if v.lane.recovery.stacker == .jammed then
      if stacker then tryRecoveryPurge v else modRecovery (fun x => { x with stacker := .none }) v
    else v) = stackerResumed rec cash stacker v := by
  subst hrec
  unfold stackerResumed at h ⊢
  by_cases hs : v.lane.recovery.stacker = .jammed
  · have hyes : ¬v.lane.recovery.stacker ≠ .jammed := by simp [hs]
    rw [if_neg hyes] at h ⊢
    rw [if_pos (by simp [hs])]
    cases stacker with
    | false => rfl
    | true => exact tryRecoveryPurge_fits hcash h
  · rw [if_neg (by simp [hs]), if_pos hs]

/-- The escrow's stacking goes on, or has ended. -/
def escrowResumed (r : Recovery) (dr : Drives) (escrow : Bool) (v : State) : State :=
  if r.escrow ≠ .jammed then v
  else
    { v with
        lane := { v.lane with recovery := { v.lane.recovery with escrow := if escrow then .running else .none } },
        drives := { dr with throatTransport := escrow } }

theorem escrowResumed_room {rec : Recovery} {dr : Drives} : Room (escrowResumed rec dr escrow v) ↔ Room v := by
  unfold escrowResumed
  split <;> rfl

theorem escrowResumed_capture {rec : Recovery} {dr : Drives} : (escrowResumed rec dr escrow v).capture = v.capture := by
  unfold escrowResumed
  split <;> rfl

theorem escrowResumed_eq {rec : Recovery} {dr : Drives} (hrec : v.lane.recovery.escrow = rec.escrow)
    (hdr : v.drives = dr) :
    (if v.lane.recovery.escrow == .jammed then runRecoveryStacking escrow v else v) =
      escrowResumed rec dr escrow v := by
  subst hdr
  unfold escrowResumed
  by_cases he : rec.escrow = .jammed
  · exact (if_pos (by simp [hrec, he])).trans (if_neg (by simp [he])).symm
  · exact (if_neg (by simp [hrec, he])).trans (if_pos he).symm

theorem resumeRecovery_fits {rec : Recovery} {cash : CassetteUnit} {dr : Drives} (hrec : v.lane.recovery = rec)
    (hcash : v.cash = cash) (hdr : v.drives = dr)
    (h : Room (escrowResumed rec dr escrow (stackerResumed rec cash stacker v))) :
    resumeRecovery stacker escrow v = escrowResumed rec dr escrow (stackerResumed rec cash stacker v) := by
  obtain ⟨hesc, hdrives, -⟩ := stackerResumed_kept (stacker := stacker) (v := v) (rec := rec) (cash := cash)
  unfold resumeRecovery
  dsimp only
  rw [stackerResumed_fits hrec hcash (escrowResumed_room.mp h)]
  exact escrowResumed_eq (hesc.trans (by rw [hrec])) (hdrives.trans hdr)

/-! ### A queue that takes a frame does not shrink (R177, R178) -/

theorem frameLost_queue (e : TxEntry) : (frameLost e v).bus.queue = v.bus.queue := by
  unfold frameLost
  split
  · split <;> rfl
  · rfl
  · rfl
  · rfl
  · rfl
  · rfl

theorem enqueue_grows (e : TxEntry) : v.bus.queue.length ≤ (enqueue e v).bus.queue.length := by
  unfold enqueue
  split
  · simp [modBus]
  · dsimp only
    split
    · next old hfind =>
      have hmem : old ∈ v.bus.queue.reverse := List.mem_of_find?_eq_some hfind
      have hclass := List.find?_some hfind
      have hlen := List.length_eraseP_of_mem hmem hclass
      have hpos : 0 < v.bus.queue.reverse.length := List.length_pos_of_mem hmem
      rw [List.length_reverse] at hlen hpos
      split
      · rw [frameLost_queue]
        simp only [modBus, raiseSoft, recordFault, List.length_append, List.length_reverse, List.length_cons,
          List.length_nil, hlen]
        omega
      · rw [frameLost_queue]
        exact le_rfl
    · rw [frameLost_queue]
      exact le_rfl

theorem foldl_enqueue_grows {α : Type} (f : α → TxEntry) (l : List α) (v : State) :
    v.bus.queue.length ≤ (l.foldl (fun t p => enqueue (f p) t) v).bus.queue.length := by
  induction l generalizing v with
  | nil => exact le_rfl
  | cons p l ih => exact (enqueue_grows (f p)).trans (ih _)

theorem report_grows (cls : FrameClass) (kind : FrameKind) (dst : Nat) (red : Bool) (owner : Owner) (l : List Byte)
    (v : State) : v.bus.queue.length ≤ (report cls kind dst red owner l v).bus.queue.length := by
  let w := modBus (fun b => { b with reportNo := (b.reportNo + 1) % 256 }) v
  have hw : w.bus.queue = v.bus.queue := rfl
  rw [report, ← hw]
  exact foldl_enqueue_grows _ _ w

theorem raiseHard_grows (k : FaultKind) (op : FaultOp) (place : Option FaultPlace) (n : Option Nat) (v : State) :
    v.bus.queue.length ≤ (raiseHard k op place n v).bus.queue.length := by
  have hw : (recordFault (faultReport k op place n v) v).bus.queue = v.bus.queue := rfl
  rw [raiseHard, noticeAll, ← hw]
  exact report_grows ..

theorem blockRetract_grows : v.bus.queue.length ≤ (blockRetract r v).bus.queue.length := by
  let w := modCapture (fun c => { c with retract := some { r with blocked := true } }) v
  have hw : w.bus.queue = v.bus.queue := rfl
  unfold blockRetract
  split
  · exact le_rfl
  · rw [← hw]
    exact raiseHard_grows ..

theorem arbitrate_grows : v.bus.queue.length ≤ (arbitrate v).bus.queue.length := by
  have htry : ∀ y : State, (tryEnvelope y).bus.queue = y.bus.queue := fun y => by
    unfold tryEnvelope
    split <;> rfl
  unfold arbitrate
  dsimp only
  split
  · exact le_rfl
  · split
    · split
      · rw [htry]
      · split
        · exact le_rfl
        · rw [htry]
          exact blockRetract_grows
    · rw [htry]

/-! ### The retract that a jam held (R96, R97) -/

/-- The slot shutter opened or shut as its conditions, found from the state and the capture unit of before, want it. -/
def slotReopened (st : LaneState) (c : Capture) (v : State) : State :=
  { v with
      capture :=
        { v.capture with
            shutter := st == .opened && decide (c.journal.length < 400) && c.bin == .none } }

/-- A granted retract counts as in place. -/
def retractSettled (w : State) : State :=
  match w.capture.retract with
  | some r => if r.granted then bundleInPlace r w else w
  | none => w

theorem retractSettled_none (hr : v.capture.retract = none) : retractSettled v = v := by
  simp only [retractSettled, hr]

theorem retractSettled_some (hr : v.capture.retract = some r) :
    retractSettled v = if r.granted then bundleInPlace r v else v := by
  simp only [retractSettled, hr]

theorem clearCaptureJam_jammed (hj : v.capture.jam = true) :
    clearCaptureJam v =
      reshutter (arbitrate (retractSettled { v with capture := { v.capture with jam := false } })) := if_pos hj

section
variable {st : LaneState} (hst : v.lane.state = st) (hcap : v.capture = c) (hj : c.jam = true)
  (hw : c.waiting = false) (he : c.envelope = none)
include hst hcap hj hw he

theorem clearCaptureJam_idle (hr : c.retract = none) :
    clearCaptureJam v = slotReopened st c { v with capture := { c with jam := false } } := by
  subst hcap
  let w : State := { v with capture := { v.capture with jam := false } }
  have hsettled : retractSettled w = w := retractSettled_none hr
  have harb : arbitrate w = w := arbitrate_nothing_waits hr hw
  have hwant := shutterWanted_empty (v := w) (c := { v.capture with jam := false }) hst rfl rfl hw he
  rw [clearCaptureJam_jammed hj, hsettled, harb]
  exact reshutter_of_wanted hwant

theorem clearCaptureJam_ungranted (hr : c.retract = some r) (hg : r.granted = false) :
    clearCaptureJam v = slotReopened st c (arbitrate { v with capture := { c with jam := false } }) := by
  subst hcap
  let w : State := { v with capture := { v.capture with jam := false } }
  have hsettled : retractSettled w = w := (retractSettled_some (v := w) hr).trans (if_neg (by simp [hg]))
  have hwant := shutterWanted_empty (v := w) (c := { v.capture with jam := false }) hst rfl rfl hw he
  rw [clearCaptureJam_jammed hj, hsettled]
  exact reshutter_of_wanted ((arbitrate_shutterWanted (v := w) hw).trans hwant)

theorem clearCaptureJam_granted (hr : c.retract = some r) (hg : r.granted = true)
    (hx : bundleInPlace r { v with capture := { c with jam := false } } = x)
    (hxc : x.capture = { c with jam := false, retract := none }) (hxl : x.lane.state = v.lane.state) :
    clearCaptureJam v = slotReopened st c x := by
  subst hcap
  let w : State := { v with capture := { v.capture with jam := false } }
  have hsettled : retractSettled w = x := ((retractSettled_some (v := w) hr).trans (if_pos hg)).trans hx
  have harb : arbitrate x = x := arbitrate_nothing_waits (by rw [hxc]) (by rw [hxc]; exact hw)
  have hwant := shutterWanted_empty (c := { v.capture with jam := false, retract := none })
    (hxl.trans hst) hxc rfl hw he
  rw [clearCaptureJam_jammed hj, hsettled, harb]
  exact reshutter_of_wanted hwant

end

section
variable {placed : State} (hp : { v with capture := { v.capture with retract := none } } = placed)
include hp

theorem bundleInPlace_dispense {o : DispOutcome} (hwho : r.requester = .dispense) (hst : placed.disp.st = .retracting)
    (ho : placed.disp.decided.getD .retracted = o) (hq : QuietEnd placed) (h : Room (dispenseEnded o placed)) :
    bundleInPlace r v = dispenseEnded o placed := by
  subst hp ho
  simp only [bundleInPlace, hwho]
  exact (if_pos (by simpa using hst)).trans (endDispense_fits hq h)

theorem bundleInPlace_deposit (hwho : r.requester = .deposit) : bundleInPlace r v = depositBundle placed := by
  subst hp
  simp only [bundleInPlace, hwho]
  rfl

theorem bundleInPlace_calibration {o : CalOutcome} (hwho : r.requester = .calibration)
    (hph : placed.cal.phase = .retracting) (ho : placed.cal.outcome = some o)
    (hub : placed.approval.unbindPending = false) (h : Room (calEnded o placed)) :
    bundleInPlace r v = calEnded o placed := by
  subst hp
  simp only [bundleInPlace, hwho]
  exact (if_pos (by simpa using hph)).trans ((endCalAs_of_some ho).trans (endCal_fits hub h))

theorem bundleInPlace_recovery {rec : Recovery} (hwho : r.requester = .recovery) (hrec : placed.lane.recovery = rec) :
    bundleInPlace r v = { placed with lane := { placed.lane with recovery := { rec with pocket := .none } } } := by
  subst hp hrec
  simp only [bundleInPlace, hwho]
  rfl

end

theorem depositBundle_ends {o : DepOutcome} (hst : v.dep.st = .returnRetracting)
    (ho : v.dep.decided.getD .returnedRetracted = o) (hq : QuietEnd v) (h : Room (depositEnded o v)) :
    depositBundle v = depositEnded o v := by
  subst ho
  exact (if_pos (by simp [hst])).trans (endDeposit_fits hq h)

theorem depositBundle_clears {d : Deposit} (hd : v.dep = d) (hst : d.st = .holding) (hcl : d.clearance = .retracting)
    (hsec : d.securing = false) :
    depositBundle v = { v with dep := { d with clearance := .none, pocketRefusals := 0 } } := by
  subst hd
  refine (if_neg (by simp [hst])).trans ((if_pos (by simp [hcl])).trans ?_)
  exact depositSettled_of_not_stacked hsec fun h => nomatch hst.symm.trans h.1

/-- With the throat clear and no jammed move of recovery, only what the capture jam held goes on. -/
theorem clearJams_capture (hth : v.throatJam = false) (hs : v.lane.recovery.stacker ≠ .jammed)
    (he : v.lane.recovery.escrow ≠ .jammed) :
    clearJams stacker escrow v = clearCaptureJam { v with dispenserJam := false } := by
  calc clearJams stacker escrow v
    _ = clearCaptureJam (resumeRecovery stacker escrow
          (if v.throatJam then depositUnjammed (jamsCleared v) else jamsCleared v)) := rfl
    _ = clearCaptureJam (resumeRecovery stacker escrow (jamsCleared v)) := by rw [if_neg (by simp [hth])]
    _ = clearCaptureJam (jamsCleared v) := congrArg clearCaptureJam (resumeRecovery_unjammed (v := jamsCleared v) hs he)
    _ = clearCaptureJam { v with dispenserJam := false } := by rw [jamsCleared_unjammed hth]

end

/-- Settles O49: each mark's clearing lets what waited on it go on. -/
theorem clearJamClearsTheMarks : Obligations.ClearJamClearsTheMarks := by
  unfold Obligations.ClearJamClearsTheMarks
  intro c stacker escrow s hc u
  have hdep : u.dep = s.dep := heard_dep c s
  have hdrives : u.drives = s.drives := heard_drives c s
  have hcash : u.cash = s.cash := heard_cash c s
  have hcap : u.capture = s.capture := heard_capture c s
  have hth : u.throatJam = s.throatJam := heard_throatJam c s
  have hrec : u.lane.recovery = s.lane.recovery := heard_recovery c s
  have hstate : u.lane.state = s.lane.state := heard_laneState c s
  have hconfig : u.config = s.config := heard_config c s
  have hdisp : u.disp = s.disp := heard_disp c s
  have hcal : u.cal = s.cal := heard_cal c s
  have hu : doneReply c .clearJam [] (heard c s) = u := rfl
  clear_value u
  refine ⟨?_, ?_, ?_, ?_, ?_⟩
  · intro t d clears hj hs he h
    have hsession {x : State} (hx : (if u.throatJam then depositUnjammed (jamsCleared u) else jamsCleared u) = x)
        (hxl : x.lane = u.lane) (hxc : x.capture = u.capture) (hmark : s.dispenserJam = true ∨ s.throatJam = true) :
        exec (.clearJam c stacker escrow) s = .next x := by
      refine next_clearJam hc (hmark.imp_right .inl) hu h.1 ?_ (by rw [hxl]; exact h.2)
      exact clearJams_session hx (by rw [hxc, hcap, hj]) (by rw [hxl, hrec]; exact hs) (by rw [hxl, hrec]; exact he)
    refine ⟨fun hdj hno => ?_, fun hyes => ⟨fun hsec hno => ?_, fun hsec hclears => ?_, fun hsec => ?_⟩⟩
    · exact hsession (if_neg (by simp [hth, hno])) rfl rfl (.inl hdj)
    · refine hsession ((if_pos (by rw [hth, hyes])).trans ?_) rfl rfl (.inr hyes)
      exact depositUnjammed_stays (v := jamsCleared u) hdep hsec hno
    · refine hsession ((if_pos (by rw [hth, hyes])).trans ?_) rfl rfl (.inr hyes)
      exact depositUnjammed_opens (v := jamsCleared u) hdep hdrives (congrArg Configuration.takeTimeout hconfig) hsec
        hclears
    · refine securingGoesOn_kept fun x hx hxl hxc => ?_
      refine hsession ((if_pos (by rw [hth, hyes])).trans ?_) hxl hxc (.inr hyes)
      exact (if_pos ((congrArg Deposit.securing hdep).trans hsec)).trans hx
  · intro r move freed purged t hmark hj hst hsec h
    let w := jamsCleared u
    have ht : t = escrowResumed s.lane.recovery s.drives escrow (stackerResumed s.lane.recovery s.cash stacker w) := rfl
    clear_value t
    subst ht
    have hroom : Room u := (escrowResumed_room.mp h.1).of_stackerResumed
    have hstays : (if u.throatJam then depositUnjammed w else w) = w := by
      rw [depositUnjammed_stays (v := w) hdep hsec (fun hold => nomatch hst.symm.trans hold.1), ite_self]
    obtain ⟨-, -, hkept⟩ := stackerResumed_kept (stacker := stacker) (v := w) (rec := s.lane.recovery)
      (cash := s.cash)
    refine next_clearJam hc (hmark.imp_right .inl) hu hroom ?_ h.2
    calc clearJams stacker escrow u
      _ = clearCaptureJam (resumeRecovery stacker escrow (if u.throatJam then depositUnjammed w else w)) := rfl
      _ = clearCaptureJam (resumeRecovery stacker escrow w) := by rw [hstays]
      _ = clearCaptureJam _ := congrArg clearCaptureJam (resumeRecovery_fits (v := w) hrec hcash hdrives h.1)
      _ = _ := clearCaptureJam_unjammed (by
        rw [escrowResumed_capture, hkept]
        exact (congrArg Capture.jam hcap).trans hj)
  · intro wanted t hj hno hr hw he hs hse h
    refine next_clearJam hc (.inr (.inr hj)) hu h.1 ?_ h.2
    rw [clearJams_capture (hth.trans hno) (by rw [hrec]; exact hs) (by rw [hrec]; exact hse)]
    exact clearCaptureJam_idle (v := { u with dispenserJam := false }) hstate hcap hj hw he hr
  · intro r wanted reopened freed placed hj hno hr hw he hs hse
    have hjams : clearJams stacker escrow u = clearCaptureJam { u with dispenserJam := false } :=
      clearJams_capture (hth.trans hno) (by rw [hrec]; exact hs) (by rw [hrec]; exact hse)
    have hends {x : State} (hroom : Room u)
        (hx : clearCaptureJam { u with dispenserJam := false } = slotReopened s.lane.state s.capture x)
        (hdue : x.lane.resetDue = false) : exec (.clearJam c stacker escrow) s = .next (reopened x) :=
      next_clearJam hc (.inr (.inr hj)) hu hroom (hjams.trans hx) hdue
    have hplaced {x : State} (hg : r.granted = true) (hx : bundleInPlace r freed = x)
        (hxc : x.capture = placed.capture) (hxl : x.lane.state = u.lane.state) :
        clearCaptureJam { u with dispenserJam := false } = slotReopened s.lane.state s.capture x :=
      clearCaptureJam_granted (v := { u with dispenserJam := false }) hstate hcap hj hw he hr hg hx hxc hxl
    refine ⟨fun hg h => ?_, fun hg => ⟨?_, ?_, ?_, ?_, ?_⟩⟩
    · exact hends (Nat.le_trans (arbitrate_grows (v := freed)) h.1)
        (clearCaptureJam_ungranted (v := { u with dispenserJam := false }) hstate hcap hj hw he hr hg) h.2
    · intro o t hwho hdst ho hq h
      have hroom : Room (dispenseEnded o placed) := h.1
      refine hends hroom.of_dispenseEnded (hplaced hg ?_ (dispenseEnded_capture ..) ?_) h.2
      · refine bundleInPlace_dispense (v := freed) (placed := placed) rfl hwho ?_ ?_ hq hroom
        · exact (congrArg Dispense.st hdisp).trans hdst
        · exact (congrArg (fun d => d.decided.getD .retracted) hdisp).trans ho
      · rw [dispenseEnded_lane]
    · intro o t hwho hdst ho hq h
      have hroom : Room (depositEnded o placed) := h.1
      refine hends hroom.of_depositEnded (hplaced hg ?_ (depositEnded_capture ..) ?_) h.2
      · refine (bundleInPlace_deposit (v := freed) (placed := placed) rfl hwho).trans ?_
        refine depositBundle_ends ?_ ?_ hq hroom
        · exact (congrArg Deposit.st hdep).trans hdst
        · exact (congrArg (fun d => d.decided.getD .returnedRetracted) hdep).trans ho
      · rw [depositEnded_lane]
    · intro t hwho hdst hcl hsec h
      refine hends h.1 (hplaced hg ?_ rfl rfl) h.2
      refine (bundleInPlace_deposit (v := freed) (placed := placed) rfl hwho).trans ?_
      exact depositBundle_clears (v := placed) hdep hdst hcl hsec
    · intro o t hwho hph ho hub h
      have hroom : Room (calEnded o placed) := h.1
      refine hends hroom.of_calEnded (hplaced hg ?_ rfl rfl) h.2
      refine bundleInPlace_calibration (v := freed) (placed := placed) rfl hwho ?_ ?_ hub hroom
      · exact (congrArg Calibration.phase hcal).trans hph
      · exact (congrArg Calibration.outcome hcal).trans ho
    · intro t hwho h
      refine hends h.1 (hplaced hg ?_ rfl rfl) h.2
      exact bundleInPlace_recovery (v := freed) (placed := placed) rfl hwho hrec
  · intro t h1 h2 h3 h
    refine next_refused hc (.inr rfl) (by decide) ?_ h
    simp [clearJamCheck, firstOf, h1, h2, h3]

end Sys2Proof.Machine
end

