-- ==== Sys2Proof/Proofs/Bins.lean ====
section
/-! PROOFS. The bin service opens and closes (R108, R110). -/

namespace Sys2Proof.Machine

section
variable {h : Header} {s t v : State} {c : Capture} {dr : Drives} {st : LaneState} {r : RetractRequest}

theorem openBin_fits (h : Room (toldAll .completion (be 1 6 ++ be 1 (binOutcomePos .opened) ++ binFigures s.capture)
      { s with
          capture := { s.capture with bin := .opened, transport := .stopped },
          drives := { s.drives with binUnlocked := true } })) :
    openBin s =
      toldAll .completion (be 1 6 ++ be 1 (binOutcomePos .opened) ++ binFigures s.capture)
        { s with
            capture := { s.capture with bin := .opened, transport := .stopped },
            drives := { s.drives with binUnlocked := true } } :=
  noticeAll_fits h

theorem binOpenDue_iff : binOpenDue s = true ↔
    s.capture.bin = .opening ∧
      s.capture.transport ≠ .carryingEnvelope ∧ s.capture.transport ≠ .carryingRetract ∧ s.capture.waiting = false :=
        by
  simp [binOpenDue, captureIdle, and_assoc]

/-- The bin and the compartment emptied, and the bin locked (R110). -/
def binClosed (c : Capture) (dr : Drives) (v : State) : State :=
  { v with
      capture := { c with journal := [], bundles := [], bin := .none, transport := .idle },
      drives := { dr with binUnlocked := false } }

theorem closeBin_fits (hcap : v.capture = c) (hdr : v.drives = dr)
    (h : Room (toldAll .binServiceClosed (binFigures c) v)) :
    closeBin v = reshutter (arbitrate (binClosed c dr (toldAll .binServiceClosed (binFigures c) v))) := by
  subst hcap hdr
  rw [closeBin, noticeAll_fits h]
  rfl

theorem binClosed_shutterWanted (hst : v.lane.state = st) (hw : c.waiting = false) (he : c.envelope = none) :
    shutterWanted (binClosed c dr v) = (st == .opened && !c.jam) := by
  simp [shutterWanted, binClosed, hst, hw, he]

theorem arbitrate_binClosed (hw : c.waiting = false) (hr : c.retract = none ∨ c.jam = true) :
    arbitrate (binClosed c dr v) = binClosed c dr v := by
  rcases hr with hr | hj
  · exact arbitrate_nothing_waits (v := binClosed c dr v) hr hw
  · exact arbitrate_busy (s := binClosed c dr v) (.inl hj)

/-- The emptied compartment takes the retract that waits. -/
theorem arbitrate_binClosed_grants (hr : c.retract = some r) (hg : r.granted = false) (hn : r.count ≤ 200)
    (hj : c.jam = false) : arbitrate (binClosed c dr v) = retractGranted r (binClosed c dr v) := by
  refine (arbitrate_of_some (s := binClosed c dr v) hj rfl hr hg nofun).trans (if_pos ?_)
  rw [compartmentTakes_iff]
  exact ⟨(Nat.zero_add r.count).trans_le hn, Nat.zero_lt_succ 31⟩

end

/-- Settles O50: the bin opens on an idle transport, and its close hands the arbiter an empty compartment. -/
theorem binServiceOpensAndCloses : Obligations.BinServiceOpensAndCloses := by
  unfold Obligations.BinServiceOpensAndCloses
  intro s c figures
  refine ⟨?_, ?_⟩
  · intro t hb h1 h2 hw h
    exact next_finish ((if_pos (binOpenDue_iff.mpr ⟨hb, h1, h2, hw⟩)).trans (openBin_fits h.1)) h
  · intro h u t hc hf hb hw he
    let v := doneReply h .binServiceClose [] (heard h s)
    have hcap : v.capture = c := heard_capture h s
    have hdr : v.drives = s.drives := heard_drives h s
    have hst : u.lane.state = s.lane.state := heard_laneState h s
    have hwant : shutterWanted (binClosed c s.drives u) = (s.lane.state == .opened && !c.jam) :=
      binClosed_shutterWanted hst hw he
    have hcheck : binCloseCheck true (heard h s) = none := by
      simp [binCloseCheck, firstOf, show s.capture.bin = .opened from hb]
    have hclose (hroom : Room u) : closeBin (replyDone h .binServiceClose [] (heard h s)) =
        reshutter (arbitrate (binClosed c s.drives u)) := by
      rw [replyDone_fits (by decide) hroom.of_toldAll]
      exact closeBin_fits hcap hdr hroom
    refine ⟨?_, ?_⟩
    · intro hr hfits
      refine next_taken hc (.inl hf) hcheck ((hclose hfits.1).trans ?_) hfits
      rw [arbitrate_binClosed hw hr]
      exact reshutter_of_wanted hwant
    · intro r hr hg hn hj hfits
      refine next_taken hc (.inl hf) hcheck ((hclose hfits.1).trans ?_) hfits
      rw [arbitrate_binClosed_grants hr hg hn hj]
      exact reshutter_of_wanted hwant

end Sys2Proof.Machine
end

