-- ==== Sys2Proof/Proofs/LaneRequests.lean ====
section
/-! PROOFS. LANE_OPEN, LANE_CLOSE and LANE_NIGHT (R188 to R190). -/

namespace Sys2Proof.Machine

/-! ### What a lane state request does (R188 to R190) -/

section
variable {h : Header} {k : CmdKind} {s v w : State} {t : LaneState} {e : LaneEffect}

@[simp] theorem txnOpen_heard : txnOpen (heard h s) = txnOpen s := by simp [txnOpen]

theorem pending_dropped (hp : w.lane.pending = none) : modLane (fun l => { l with pending := none }) w = w :=
  congrArg (fun p => { w with lane := { w.lane with pending := p } }) hp.symm

theorem applyLaneRequest_pends (he : laneEffect t w = .pending) :
    applyLaneRequest t w = { w with lane := { w.lane with pending := some t } } := by
  rw [applyLaneRequest, he]
  rfl

theorem applyLaneRequest_wakes (he : laneEffect t w = .target) (hn : w.lane.state = .night)
    (h : Room (laneEntered .waking { w with lane := { w.lane with target := some t, power := .warming } })) :
    applyLaneRequest t w =
      laneEntered .waking { w with lane := { w.lane with target := some t, power := .warming } } := by
  rw [applyLaneRequest, he]
  exact (if_pos (by simp [hn])).trans (setLaneState_fits (by decide) h)

theorem applyLaneRequest_targets (he : laneEffect t w = .target) (hn : w.lane.state ≠ .night) :
    applyLaneRequest t w = { w with lane := { w.lane with target := some t } } := by
  rw [applyLaneRequest, he]
  exact if_neg (by simpa using hn)

theorem applyLaneRequest_enters (he : laneEffect t w = .entered) (ht : t = .opened ∨ t = .closed)
    (hst : w.lane.state ≠ t) (hp : w.lane.pending = none) (h : Room (laneEntered t w)) :
    applyLaneRequest t w = laneEntered t w := by
  have hnight : ¬(t == .night) = true := by rcases ht with rfl | rfl <;> decide
  have hstart : t ≠ .starting := by rcases ht with rfl | rfl <;> decide
  rw [applyLaneRequest, he]
  refine (if_neg hnight).trans ((if_neg (by simpa using hst)).trans ?_)
  rw [pending_dropped hp]
  exact setLaneState_fits hstart h

theorem applyLaneRequest_clears (he : laneEffect .closed w = .entered) (hst : w.lane.state = .closed) :
    applyLaneRequest .closed w = { w with lane := { w.lane with pending := none } } := by
  rw [applyLaneRequest, he]
  exact (if_neg (by decide)).trans (if_pos (by simp [hst]))

/-- The lane with its mechanics off, and no zero on either channel (R190). -/
def mechanicsOff (p q : Channel) (w : State) : State :=
  { w with
      lane := { w.lane with power := .off },
      chP := { p with zero := none, flow := .none, capturing := false },
      chQ := { q with zero := none, flow := .none, capturing := false } }

theorem closeWindows_shut {p q : Channel} (hchP : w.chP = p) (hchQ : w.chQ = q) (hwp : p.window = false)
    (hwq : q.window = false) :
    closeWindow .q (closeWindow .p w) =
      { w with
          chP := { p with flow := .none, capturing := false }, chQ := { q with flow := .none, capturing := false } }
            := by
  subst hchP hchQ
  have hp : closeWindow .p w = { w with chP := { w.chP with flow := .none, capturing := false } } :=
    (closeWindow_of_shut (ch := .p) hwp).trans
      (congrArg (fun b => { w with chP := { w.chP with window := b, flow := .none, capturing := false } }) hwp.symm)
  rw [hp]
  refine (closeWindow_of_shut (ch := .q)
    (s := { w with chP := { w.chP with flow := .none, capturing := false } }) hwq).trans ?_
  exact congrArg (fun b =>
    { w with
        chP := { w.chP with flow := .none, capturing := false },
        chQ := { w.chQ with window := b, flow := .none, capturing := false } }) hwq.symm

theorem applyLaneRequest_night {p q : Channel} (he : laneEffect .night w = .entered) (hchP : w.chP = p)
    (hchQ : w.chQ = q) (hwp : p.window = false) (hwq : q.window = false) (hp : w.lane.pending = none)
    (h : Room (laneEntered .night (mechanicsOff p q w))) :
    applyLaneRequest .night w = laneEntered .night (mechanicsOff p q w) := by
  have hoff : modChan .q (fun c => { c with zero := none }) (modChan .p (fun c => { c with zero := none })
      (modLane (fun l => { l with power := .off, pending := none }) (closeWindow .q (closeWindow .p w)))) =
      mechanicsOff p q w := by
    rw [closeWindows_shut hchP hchQ hwp hwq]
    exact congrArg (fun x => mechanicsOff p q { w with lane := { w.lane with pending := x } }) hp.symm
  rw [applyLaneRequest, he]
  refine (if_pos rfl).trans ?_
  rw [enterNight, hoff]
  exact setLaneState_fits (by decide) h

theorem requestLane_said (hk : k ≠ .query) (he : laneEffect t v = e)
    (hroom : Room (doneReply h k (be 1 (laneEffectPos e)) v)) :
    requestLane h k t v = applyLaneRequest t (doneReply h k (be 1 (laneEffectPos e)) v) := by
  subst he
  rw [requestLane, replyDone_fits hk hroom]

end

/-- A lane with nothing pending and no operation open enters the state asked for, or sets the target of WAKING. -/
theorem laneRequests_free {c : Header} {s : State} (hc : Comes c s) (hb : s.capture.bin = .none)
    (hp : s.lane.pending = none) (hx : txnOpen s = false) :
    let u := heard c s;
    let said := fun (k : CmdKind) (n : Nat) => doneReply c k (be 1 n) u;
    (let t := laneEntered .opened (said .laneOpen 1);
      s.lane.state = .closed → Fits t → exec (.laneOpen c) s = .next t) ∧
    (let t := laneEntered .closed (said .laneClose 1);
      s.lane.state = .opened → Fits t → exec (.laneClose c) s = .next t) ∧
    (let w := said .laneNight 1;
      let t := laneEntered .night
        { w with
            lane := { w.lane with power := .off },
            chP := { s.chP with zero := none, flow := .none, capturing := false },
            chQ := { s.chQ with zero := none, flow := .none, capturing := false } };
      s.lane.state = .closed → s.peer.held.h = 0 → captureIdle s.capture = true → s.chP.window = false →
      s.chQ.window = false → Fits t → exec (.laneNight c) s = .next t) ∧
    (let w := said .laneOpen 3;
      let t := laneEntered .waking { w with lane := { w.lane with target := some .opened, power := .warming } };
      s.lane.state = .night → Fits t → exec (.laneOpen c) s = .next t) ∧
    (let w := said .laneClose 3;
      let t := laneEntered .waking { w with lane := { w.lane with target := some .closed, power := .warming } };
      s.lane.state = .night → Fits t → exec (.laneClose c) s = .next t) ∧
    (let w := said .laneClose 3;
      let t := { w with lane := { w.lane with target := some .closed } };
      s.lane.state = .waking → Fits t → exec (.laneClose c) s = .next t) ∧
    (let w := said .laneOpen 3;
      let t := { w with lane := { w.lane with target := some .opened } };
      s.lane.state = .waking → Fits t → exec (.laneOpen c) s = .next t) := by
  intro u said
  have hstate (k : CmdKind) (n : Nat) : (said k n).lane.state = s.lane.state := heard_laneState c s
  have hpend (k : CmdKind) (n : Nat) : (said k n).lane.pending = none := (heard_lanePending c s).trans hp
  refine ⟨?_, ?_, ?_, ?_, ?_, ?_, ?_⟩
  · intro t hst h
    have he : laneEffect .opened u = .entered := by simp [laneEffect, u, hst, hx]
    have hcheck : laneRequestRefused .opened u = none := by simp [laneRequestRefused, firstOf, u, hst, hb]
    refine next_taken hc (.inl (by simp [hst])) hcheck ?_ h
    refine (requestLane_said (by decide) he h.room.of_laneEntered).trans ?_
    exact applyLaneRequest_enters he (.inl rfl) (by rw [hstate, hst]; decide) (hpend ..) h.1
  · intro t hst h
    have he : laneEffect .closed u = .entered := by simp [laneEffect, u, hst, hx]
    have hcheck : laneRequestRefused .closed u = none := by simp [laneRequestRefused, firstOf, u, hst]
    refine next_taken hc (.inl (by simp [hst])) hcheck ?_ h
    refine (requestLane_said (by decide) he h.room.of_laneEntered).trans ?_
    exact applyLaneRequest_enters he (.inr rfl) (by rw [hstate, hst]; decide) (hpend ..) h.1
  · intro w t hst hh hidle hwp hwq h
    have he : laneEffect .night u = .entered := by simp [laneEffect, u, hst, hx, hidle]
    have hcheck : laneRequestRefused .night u = none := by simp [laneRequestRefused, firstOf, u, hst, hb, hh]
    have hroom : Room w := Room.of_laneEntered (s := mechanicsOff s.chP s.chQ w) h.1
    refine next_taken hc (.inl (by simp [hst])) hcheck ?_ h
    refine (requestLane_said (by decide) he hroom).trans ?_
    exact applyLaneRequest_night (w := w) he (heard_chP c s) (heard_chQ c s) hwp hwq (hpend ..) h.1
  · intro w t hst h
    have he : laneEffect .opened u = .target := by simp [laneEffect, u, hst, hx]
    have hcheck : laneRequestRefused .opened u = none := by simp [laneRequestRefused, firstOf, u, hst, hb]
    have hroom : Room w :=
      Room.of_laneEntered (s := { w with lane := { w.lane with target := some .opened, power := .warming } }) h.1
    refine next_taken hc (.inl (by simp [hst])) hcheck ?_ h
    refine (requestLane_said (by decide) he hroom).trans ?_
    exact applyLaneRequest_wakes he ((hstate ..).trans hst) h.1
  · intro w t hst h
    have he : laneEffect .closed u = .target := by simp [laneEffect, u, hst, hx]
    have hcheck : laneRequestRefused .closed u = none := by simp [laneRequestRefused, firstOf, u, hst]
    have hroom : Room w :=
      Room.of_laneEntered (s := { w with lane := { w.lane with target := some .closed, power := .warming } }) h.1
    refine next_taken hc (.inl (by simp [hst])) hcheck ?_ h
    refine (requestLane_said (by decide) he hroom).trans ?_
    exact applyLaneRequest_wakes he ((hstate ..).trans hst) h.1
  · intro w t hst h
    have he : laneEffect .closed u = .target := by simp [laneEffect, u, hst, hx]
    have hcheck : laneRequestRefused .closed u = none := by simp [laneRequestRefused, firstOf, u, hst]
    refine next_taken hc (.inl (by simp [hst])) hcheck ?_ h
    refine (requestLane_said (by decide) he h.1).trans ?_
    exact applyLaneRequest_targets he (by rw [hstate, hst]; decide)
  · intro w t hst h
    have he : laneEffect .opened u = .target := by simp [laneEffect, u, hst, hx]
    have hcheck : laneRequestRefused .opened u = none := by simp [laneRequestRefused, firstOf, u, hst, hb]
    refine next_taken hc (.inl (by simp [hst])) hcheck ?_ h
    refine (requestLane_said (by decide) he h.1).trans ?_
    exact applyLaneRequest_targets he (by rw [hstate, hst]; decide)

/-- Settles O51: what the request does by the state it finds, and the state it leaves. -/
theorem laneRequestsEnterPendOrTarget : Obligations.LaneRequestsEnterPendOrTarget := by
  unfold Obligations.LaneRequestsEnterPendOrTarget
  intro c s hc hb u said held
  have hstate (k : CmdKind) (n : Nat) : (said k n).lane.state = s.lane.state := heard_laneState c s
  refine ⟨laneRequests_free hc hb, ?_, ?_, ?_, ?_⟩
  · intro t hbusy hst hh h
    have he : laneEffect .night u = .pending := by
      rcases hbusy with hx | hidle
      · simp [laneEffect, u, hx]
      · by_cases hx : txnOpen s = true
        · simp [laneEffect, u, hx]
        · simp [laneEffect, u, hst, hx, hidle]
    have hcheck : laneRequestRefused .night u = none := by simp [laneRequestRefused, firstOf, u, hst, hb, hh]
    refine next_taken hc (.inl (by simp [hst])) hcheck ?_ h
    exact (requestLane_said (by decide) he h.1).trans (applyLaneRequest_pends he)
  · intro hx
    refine ⟨?_, ?_⟩
    · intro t hst h
      have he : laneEffect .closed u = .pending := by simp [laneEffect, u, hst, hx]
      have hcheck : laneRequestRefused .closed u = none := by simp [laneRequestRefused, firstOf, u, hst]
      refine next_taken hc (.inl (by simp [hst])) hcheck ?_ h
      exact (requestLane_said (by decide) he h.1).trans (applyLaneRequest_pends he)
    · intro t hst h
      have he : laneEffect .opened u = .pending := by simp [laneEffect, u, hst, hx]
      have hcheck : laneRequestRefused .opened u = none := by simp [laneRequestRefused, firstOf, u, hst, hb]
      refine next_taken hc (.inl (by simp [hst])) hcheck ?_ h
      exact (requestLane_said (by decide) he h.1).trans (applyLaneRequest_pends he)
  · intro w t hst hp h
    have hsome : s.lane.pending.isSome = true := Option.isSome_iff_ne_none.mpr hp
    have he : laneEffect .closed u = .entered := by simp [laneEffect, u, hst, hsome]
    have hcheck : laneRequestRefused .closed u = none := by simp [laneRequestRefused, firstOf, u, hst, hp]
    refine next_taken hc (.inl (by simp [hst])) hcheck ?_ h
    exact (requestLane_said (by decide) he h.1).trans (applyLaneRequest_clears he ((hstate ..).trans hst))
  · intro t hst hp htarget h
    have hcheck : laneRequestRefused .opened u = some .nothing := by
      simp [laneRequestRefused, firstOf, u, hst, hb, hp, htarget]
    exact next_refused hc (.inl (by simp [hst])) (by decide) hcheck h

end Sys2Proof.Machine
end

