-- ==== Sys2Proof/Proofs/LaneChanges.lean ====
section
/-! PROOFS. The changes of the lane state that no command makes (R150, R151, R187, R189, R190). -/

namespace Sys2Proof.Machine

/-! ### A pending request (R189) -/

section
variable {s t : State} {p : LaneState}

theorem firstOf_isSome {l : List (Bool × Reason)} {r : Reason} (h : (true, r) ∈ l) : (firstOf l).isSome = true := by
  induction l with
  | nil => cases h
  | cons x l ih =>
    obtain ⟨b, _⟩ := x
    cases b with
    | true => rfl
    | false => exact ih (by simpa using h)

theorem laneRequestRefused_isSome (hp : s.lane.pending = none)
    (h : s.lane.state = .configFault ∨ s.lane.state = .lockdown ∨ s.lane.state = .recovery ∨
      (p ≠ .closed ∧ s.capture.bin ≠ .none) ∨ (p = .night ∧ (s.lane.state ≠ .closed ∨ 0 < s.peer.held.h))
        ∨
      (s.lane.state = p ∧ s.lane.target = none)) :
    (laneRequestRefused p s).isSome = true := by
  rcases h with h | h | h | ⟨h, hb⟩ | ⟨h, hst | hh⟩ | ⟨h, ht⟩
  · exact firstOf_isSome (r := .configFault) (by simp [h])
  · exact firstOf_isSome (r := .lockdown) (by simp [h])
  · exact firstOf_isSome (r := .laneState) (by simp [h])
  · exact firstOf_isSome (r := .busy) (by simp [h, hb])
  · exact firstOf_isSome (r := .laneState) (by simp [h, hst])
  · exact firstOf_isSome (r := .laneState) (by simp [h, hh])
  · exact firstOf_isSome (r := .nothing) (by simp [h, ht, hp])

theorem pendingDue_of_some (hp : s.lane.pending = some p) (hx : txnOpen s = false)
    (hidle : p ≠ .night ∨ captureIdle s.capture = true) : pendingDue s = true := by
  rcases hidle with h | h <;> simp [pendingDue, hp, hx, h]

/-- A pending request whose moment has come is dropped where it would now be refused, and else takes effect. -/
theorem pendingSettled (hp : s.lane.pending = some p) (hx : txnOpen s = false)
    (hidle : p ≠ .night ∨ captureIdle s.capture = true) {freed : State}
    (hf : { s with lane := { s.lane with pending := none } } = freed) :
    (if pendingDue s then applyPending s else s) =
      if (laneRequestRefused p freed).isSome then freed else applyLaneRequest p freed := by
  subst hf
  rw [if_pos (pendingDue_of_some hp hx hidle)]
  simp only [applyPending, hp]
  rfl

theorem pendingRequests_apply (hp : s.lane.pending = some p) (hx : txnOpen s = false) :
    let freed := { s with lane := { s.lane with pending := none } };
    let refused : Prop := s.lane.state = .configFault ∨ s.lane.state = .lockdown ∨ s.lane.state = .recovery ∨
      (p ≠ .closed ∧ s.capture.bin ≠ .none) ∨ (p = .night ∧ (s.lane.state ≠ .closed ∨ 0 < s.peer.held.h))
        ∨
      (s.lane.state = p ∧ s.lane.target = none);
    ((p ≠ .night ∨ captureIdle s.capture = true) → refused → s.lane.resetDue = false →
      exec .pendingRequestApplied s = .next freed) ∧
    (let t := laneEntered .closed freed;
      p = .closed → s.lane.state = .opened → Fits t → exec .pendingRequestApplied s = .next t) ∧
    (let t := laneEntered .opened freed;
      p = .opened → s.lane.state = .closed → s.capture.bin = .none → Fits t →
      exec .pendingRequestApplied s = .next t) ∧
    (let t := laneEntered .night
        { freed with
            lane := { freed.lane with power := .off },
            chP := { s.chP with zero := none, flow := .none, capturing := false },
            chQ := { s.chQ with zero := none, flow := .none, capturing := false } };
      p = .night → s.lane.state = .closed → s.capture.bin = .none → s.peer.held.h = 0 →
      captureIdle s.capture = true → s.chP.window = false → s.chQ.window = false → Fits t →
      exec .pendingRequestApplied s = .next t) := by
  intro freed refused
  have hfree : txnOpen freed = false := hx
  have happly (hidle : p ≠ .night ∨ captureIdle s.capture = true) (hn : laneRequestRefused p freed = none) {t :
    State}
      (ht : applyLaneRequest p freed = t) : (if pendingDue s then applyPending s else s) = t := by
    rw [pendingSettled hp hx hidle (freed := freed) rfl, hn]
    exact (if_neg nofun).trans ht
  refine ⟨?_, ?_, ?_, ?_⟩
  · intro hidle hr hdue
    refine next_finish_not_due ?_ (t := freed) hdue
    rw [pendingSettled hp hx hidle (freed := freed) rfl]
    exact if_pos (laneRequestRefused_isSome (s := freed) rfl hr)
  · rintro t rfl hst h
    have hn : laneRequestRefused .closed freed = none := by simp [laneRequestRefused, firstOf, freed, hst]
    have he : laneEffect .closed freed = .entered := by
      simp [laneEffect, hfree, show freed.lane.state = .opened from hst]
    refine next_finish (happly (.inl (by decide)) hn ?_) h
    exact applyLaneRequest_enters he (.inr rfl) (by rw [show freed.lane.state = .opened from hst]; decide) rfl h.1
  · rintro t rfl hst hb h
    have hn : laneRequestRefused .opened freed = none := by simp [laneRequestRefused, firstOf, freed, hst, hb]
    have he : laneEffect .opened freed = .entered := by
      simp [laneEffect, hfree, show freed.lane.state = .closed from hst]
    refine next_finish (happly (.inl (by decide)) hn ?_) h
    exact applyLaneRequest_enters he (.inl rfl) (by rw [show freed.lane.state = .closed from hst]; decide) rfl h.1
  · rintro t rfl hst hb hh hidle hwp hwq h
    have hn : laneRequestRefused .night freed = none := by simp [laneRequestRefused, firstOf, freed, hst, hb, hh]
    have he : laneEffect .night freed = .entered := by
      simp [laneEffect, hfree, show freed.lane.state = .closed from hst,
        show captureIdle freed.capture = true from hidle]
    refine next_finish (happly (.inr hidle) hn ?_) h
    exact applyLaneRequest_night (w := freed) he rfl rfl hwp hwq rfl h.1

end

/-! ### The end of securing and the exit from LOCKDOWN (R150, R151) -/

section
variable {s : State}

theorem blockedRetract_iff {who : Requester} : blockedRetract s who = true ↔
    ∃ r ∈ s.capture.retract, r.requester = who ∧ r.blocked = true ∧ r.granted = false := by
  cases hr : s.capture.retract with
  | none => simp [blockedRetract, hr]
  | some r => simp [blockedRetract, hr, and_assoc]

theorem dispenseSecured_iff : dispenseSecured s = true ↔
    s.disp.st = .idle ∨ s.disp.stranded = true ∨ (s.disp.st = .retracting ∧ blockedRetract s .dispense = true) :=
      by
  simp [dispenseSecured, or_assoc]

theorem depositSecured_iff : depositSecured s = true ↔
    s.dep.st = .closed ∨ (blockedRetract s .deposit = true ∧
      (s.dep.st = .returnRetracting ∨
        (s.dep.clearance = .retracting ∧ s.dep.escrow = [] ∧ s.dep.toEscrow = [] ∧ s.dep.move = .none ∧
          s.throatJam = false))) := by
  simp [depositSecured, and_assoc]

theorem calSecured_iff : calSecured s = true ↔
    s.cal.phase = .none ∨ (s.cal.phase = .retracting ∧ blockedRetract s .calibration = true) := by
  simp [calSecured]

theorem retractJammed_iff : retractJammed s = true ↔
    s.capture.jam = true ∧ ∃ r ∈ s.capture.retract, r.granted = true := by
  cases hr : s.capture.retract <;> simp [retractJammed, hr]

theorem recoverySecured_iff : recoverySecured s = true ↔
    s.lane.recovery.active = false ∨
      (s.lane.recovery.stacker = .none ∧ s.lane.recovery.escrow = .none ∧
        (s.lane.recovery.pocket = .none ∨ blockedRetract s .recovery = true)) := by
  simp [recoverySecured, and_assoc]

theorem captureIdle_iff {c : Capture} : captureIdle c = true ↔
    c.transport ≠ .carryingEnvelope ∧ c.transport ≠ .carryingRetract ∧ c.waiting = false := by
  simp [captureIdle, and_assoc]

theorem securingEnded_iff : securingEnded s = true ↔
    dispenseSecured s = true ∧ depositSecured s = true ∧ calSecured s = true ∧ captureIdle s.capture = true ∧
      ¬retractJammed s = true ∧ recoverySecured s = true := by
  simp [securingEnded, and_assoc]

theorem exitDue_iff : exitDue s = true ↔
    s.lane.state = .lockdown ∧ s.lane.release = true ∧ s.alarm.attack = false ∧ securingEnded s = true := by
  simp [exitDue, and_assoc]

theorem recoveryDue_iff : recoveryDue s = true ↔
    (s.lane.state = .recovery ∨ s.lane.state = .lockdown) ∧ s.lane.recovery.active = true ∧
      s.lane.recovery.stacker = .none ∧ s.lane.recovery.pocket = .none ∧ s.lane.recovery.escrow = .none := by
  simp [recoveryDue, and_assoc]

theorem leaveLockdown_closes (ha : s.lane.recovery.active = false) (hu : s.lane.unpowered = false)
    (h : Room (laneEntered .closed { s with lane := { s.lane with release := false } })) :
    leaveLockdown s = laneEntered .closed { s with lane := { s.lane with release := false } } :=
  (if_neg (by simp [modLane, ha])).trans ((if_neg (by simp [modLane, hu])).trans (setLaneState_fits (by decide) h))

theorem leaveLockdown_recovers (ha : s.lane.recovery.active = true)
    (h : Room (laneEntered .recovery { s with lane := { s.lane with release := false, unpowered := false } })) :
    leaveLockdown s = laneEntered .recovery { s with lane := { s.lane with release := false, unpowered := false } } :=
  (if_pos ha).trans (setLaneState_fits (by decide) h)

theorem leaveLockdown_wakes (ha : s.lane.recovery.active = false) (hu : s.lane.unpowered = true)
    (h : Room (laneEntered .waking
      { s with
          lane := { s.lane with release := false, unpowered := false, power := .warming, target := some .closed } })) :
    leaveLockdown s = laneEntered .waking
      { s with
          lane := { s.lane with release := false, unpowered := false, power := .warming, target := some .closed } } :=
  (if_neg (by simp [modLane, ha])).trans ((if_pos hu).trans (setLaneState_fits (by decide) h))

/-! ### The end of recovery (R114, R187) -/

/-- The lane with its recovery over and H at 0. -/
def recoveryOver (s : State) : State :=
  positioned { s with
    lane := { s.lane with recovery := { active := false, stacker := .none, pocket := .none, escrow := .none,
                                        stackerValue := 0 } },
    peer :=
      { s.peer with
          held := { h := 0, dispense := 0, deposit := 0 }, kept := { h := 0, dispense := 0, deposit := 0 } } }

theorem heldFell_recoveryOver (hs : s.lane.state ≠ .starting) (hr : s.peer.request = none) (h : Room
    (recoveryOver s)) :
    heldFell (setHeld {} (modRecovery (fun _ => {}) s)) = recoveryOver s := by
  have hask : askPosition (setHeld {} (modRecovery (fun _ => {}) s)) = recoveryOver s :=
    askPosition_fits (s := setHeld {} (modRecovery (fun _ => {}) s)) hs h
  rw [heldFell, hask]
  exact retestIntent_none hr

theorem endRecovery_locked (hs : s.lane.state = .lockdown) (hr : s.peer.request = none) (h : Room (recoveryOver s)) :
    endRecovery s = recoveryOver s := by
  rw [endRecovery, heldFell_recoveryOver (by simp [hs]) hr h]
  exact if_neg (by simp [recoveryOver, positioned, hs])

theorem endRecovery_closes (hs : s.lane.state = .recovery) (hr : s.peer.request = none)
    (h : Room (laneEntered .closed (recoveryOver s))) : endRecovery s = laneEntered .closed (recoveryOver s) := by
  rw [endRecovery, heldFell_recoveryOver (by simp [hs]) hr h.of_laneEntered]
  exact (if_pos (by simp [recoveryOver, positioned, hs])).trans (setLaneState_fits (by decide) h)

end

/-! ### The end of WAKING (R112, R190) -/

section
variable {s : State} {x : CaptureSensors}

theorem jamPath_fits (h : Room (faulted .captureJam .recovery none none
      { s with capture := { s.capture with jam := true, shutter := false } })) :
    jamPath s = faulted .captureJam .recovery none none
      { s with capture := { s.capture with jam := true, shutter := false } } := by
  rw [jamPath, reshutter_of_jam (by rfl)]
  exact raiseHard_fits h

theorem wakingCheck_clear (hl : x.length = false) (hd : x.drop = false) (hr : x.retract = false)
    (hs : x.slot = false) : wakingCheck x s = s := by
  simp [wakingCheck, captureCheck, hl, hd, hr, hs]

theorem wakingCheck_path (h : x.length = true ∨ x.drop = true ∨ x.retract = true) :
    wakingCheck x s = jamPath s := by
  have hpath : (x.length || x.drop || x.retract) = true := by simpa [or_assoc] using h
  simp [wakingCheck, captureCheck, hpath]

theorem wakingCheck_slot (hl : x.length = false) (hd : x.drop = false) (hr : x.retract = false)
    (hs : x.slot = true) :
    wakingCheck x s = jamPath (reshutter { s with capture := { s.capture with returned := true } }) := by
  simp [wakingCheck, captureCheck, hl, hd, hr, hs, modCapture]

theorem endWaking_enters {v : State} (hst : s.lane.state = .waking) (ht : s.lane.target ≠ some .starting)
    (hv : wakingCheck x { s with lane := { s.lane with power := .on } } = v) (hvt : v.lane.target = s.lane.target)
    (h : Room (laneEntered (s.lane.target.getD .closed) { v with lane := { v.lane with target := none } })) :
    endWaking x s =
      laneEntered (s.lane.target.getD .closed) { v with lane := { v.lane with target := none } } := by
  have hstart : s.lane.target.getD .closed ≠ .starting := by
    cases htarget : s.lane.target with
    | none => decide
    | some q => simpa [htarget] using ht
  have hcheck : endWaking x s =
      setLaneState (v.lane.target.getD .closed) (modLane (fun l => { l with target := none }) v) := by
    rw [← hv]
    exact if_pos (by simp [hst])
  rw [hcheck, hvt]
  exact setLaneState_fits hstart h

end

/-- Settles O52: each change of the lane state by the moment it waits for. -/
theorem laneStateChangesOfItsOwn : Obligations.LaneStateChangesOfItsOwn := by
  unfold Obligations.LaneStateChangesOfItsOwn
  intro s
  refine ⟨fun _ => pendingRequests_apply, ?_, ?_, ?_, ?_⟩
  · intro blocked onlyBlocked r
    rw [securingEnded_iff, dispenseSecured_iff, depositSecured_iff, calSecured_iff, captureIdle_iff, retractJammed_iff,
      recoverySecured_iff, blockedRetract_iff, blockedRetract_iff, blockedRetract_iff, blockedRetract_iff]
  · intro hst hrel hatt hsec
    have hdue : exitDue s = true := exitDue_iff.mpr ⟨hst, hrel, hatt, hsec⟩
    have hexit {t : State} (h : Fits t) (hr : ¬recoveryDue s = true) (ht : leaveLockdown s = t) :
        exec .lockdownExit s = .next t := by
      refine next_finish ((if_pos hdue).trans ?_) h
      rw [if_neg hr, ht]
    refine ⟨?_, ?_, ?_, ?_⟩
    · intro t ha hu h
      exact hexit h (fun hr => nomatch ha.symm.trans (recoveryDue_iff.mp hr).2.1) (leaveLockdown_closes ha hu h.1)
    · intro t ha hpk h
      refine hexit h (fun hr => ?_) (leaveLockdown_recovers ha h.1)
      obtain ⟨-, -, -, hnone, -⟩ := recoveryDue_iff.mp hr
      exact hpk hnone
    · intro u t ha hpk hu hreq h
      obtain ⟨-, -, -, -, -, hrec⟩ := securingEnded_iff.mp hsec
      have hrecovery : recoveryDue s = true := by
        rcases recoverySecured_iff.mp hrec with hno | ⟨hs, he, -⟩
        · exact nomatch ha.symm.trans hno
        · exact recoveryDue_iff.mpr ⟨.inr hst, ha, hs, hpk, he⟩
      have hroom : Room u := Room.of_laneEntered (s := { u with lane := { u.lane with release := false } }) h.1
      refine next_finish ((if_pos hdue).trans ?_) h
      rw [if_pos hrecovery, endRecovery_locked hst hreq hroom]
      exact leaveLockdown_closes (s := u) rfl hu h.1
    · intro t ha hu h
      exact hexit h (fun hr => nomatch ha.symm.trans (recoveryDue_iff.mp hr).2.1) (leaveLockdown_wakes ha hu h.1)
  · intro r u ha hs hpk he hreq
    refine ⟨fun hst h => ?_, fun hst h => ?_⟩
    · refine next_finish ((if_pos (recoveryDue_iff.mpr ⟨.inl hst, ha, hs, hpk, he⟩)).trans ?_) h
      exact endRecovery_closes hst hreq h.1
    · refine next_finish ((if_pos (recoveryDue_iff.mpr ⟨.inr hst, ha, hs, hpk, he⟩)).trans ?_) h
      exact endRecovery_locked hst hreq h.1
  · intro x u enter jam hst ht
    have hjam {v : State} (hroom : Room (enter v)) : Room v :=
      Room.of_laneEntered (s := { v with lane := { v.lane with target := none } }) hroom
    refine ⟨?_, ?_, ?_⟩
    · intro hl hd hr hs h
      exact next_finish (endWaking_enters hst ht (wakingCheck_clear hl hd hr hs) rfl h.1) h
    · intro hpath h
      refine next_finish (endWaking_enters (v := jam) hst ht ?_ rfl h.1) h
      exact (wakingCheck_path hpath).trans (jamPath_fits (s := u) (hjam h.1))
    · intro both hl hd hr hs h
      refine next_finish (endWaking_enters (v := both) hst ht ?_ rfl h.1) h
      refine (wakingCheck_slot hl hd hr hs).trans ?_
      exact jamPath_fits (s := reshutter { u with capture := { u.capture with returned := true } }) (hjam h.1)

end Sys2Proof.Machine
end

