-- ==== Sys2Proof/Proofs/Refusals.lean ====
section
/-! PROOFS. The commands that the lane's state or the binding refuses (R149, R157, R186). -/

namespace Sys2Proof.Machine

section
variable {h : Header} {req : Request} {raws : List Nat} {a k n : Nat} {b : Bool} {s : State} {x : CmdKind} {c : Instr}
  {check : State → Option Reason} {effect : State → State} {r : Reason}

/-- CONFIG_FAULT refuses a command before its own checks (R186). -/
theorem next_faulted (hc : Comes h s) (hf : s.lane.state = .configFault) (hk : x ≠ .query)
    (hr : Fits (refusedReply h x .configFault (heard h s))) :
    (Host.Outcome.next (finish (takeCommand h x false check effect s)) : Host.Outcome State Fault Refusal) =
      .next (refusedReply h x .configFault (heard h s)) := by
  refine next_finish ?_ hr
  rw [takeCommand_comes hc, if_pos (by simp [hf])]
  exact refuse_fits hk hr.1

/-- The first two checks of every command of R157's first group but CLEAR_PURGE: LOCKDOWN, and the binding. -/
def boundCheck (h : Header) (rest : State → List (Bool × Reason)) (t : State) : Option Reason :=
  firstOf ((t.lane.state == .lockdown, .lockdown) :: (unbound h t, .notBound) :: rest t)

theorem boundCheck_lockdown {rest : State → List (Bool × Reason)} {t : State} (ht : t.lane.state = .lockdown) :
    boundCheck h rest t = some .lockdown := by
  simp [boundCheck, firstOf, ht]

theorem boundCheck_unbound {rest : State → List (Bool × Reason)} {t : State} (ht : t.lane.state ≠ .lockdown)
    (hb : unbound h t = true) : boundCheck h rest t = some .notBound := by
  simp [boundCheck, firstOf, ht, hb]

theorem transactionCommands_take (hm : (x, c) ∈ transactionCommands h req raws a k n b) :
    x ≠ .query ∧ ∃ rest effect, ∀ s, exec c s = .next (finish
      (takeCommand h x false (boundCheck h rest) effect s)) := by
  simp only [transactionCommands, List.mem_cons, List.not_mem_nil, or_false, Prod.mk.injEq] at hm
  rcases hm with ⟨rfl, rfl⟩ | ⟨rfl, rfl⟩ | ⟨rfl, rfl⟩ | ⟨rfl, rfl⟩ | ⟨rfl, rfl⟩ | ⟨rfl, rfl⟩ | ⟨rfl, rfl⟩
    |
    ⟨rfl, rfl⟩ | ⟨rfl, rfl⟩ | ⟨rfl, rfl⟩
  all_goals exact ⟨by decide, _, _, fun _ => rfl⟩

/-- LOCKDOWN refuses a lane state request before anything but CONFIG_FAULT (R188). -/
theorem laneRequestRefused_lockdown {p : LaneState} {t : State} (ht : t.lane.state = .lockdown) :
    laneRequestRefused p t = some .lockdown := by
  simp [laneRequestRefused, firstOf, ht]

theorem serviceCommands_take (hm : (x, c) ∈ serviceCommands h) :
    x ≠ .query ∧ ∃ check effect, (∀ t : State, t.lane.state = .lockdown → check t = some .lockdown) ∧
      ∀ s, exec c s = .next (finish (takeCommand h x false check effect s)) := by
  simp only [serviceCommands, List.mem_cons, List.not_mem_nil, or_false, Prod.mk.injEq] at hm
  rcases hm with ⟨rfl, rfl⟩ | ⟨rfl, rfl⟩ | ⟨rfl, rfl⟩ | ⟨rfl, rfl⟩ | ⟨rfl, rfl⟩ | ⟨rfl, rfl⟩ | ⟨rfl,
    rfl⟩
  · exact ⟨by decide, bindCheck h, _, fun t ht => by simp [bindCheck, firstOf, ht], fun _ => rfl⟩
  · exact ⟨by decide, unbindCheck h, _, fun t ht => by simp [unbindCheck, firstOf, ht], fun _ => rfl⟩
  · exact ⟨by decide, _, _, fun _ => laneRequestRefused_lockdown, fun _ => rfl⟩
  · exact ⟨by decide, _, _, fun _ => laneRequestRefused_lockdown, fun _ => rfl⟩
  · exact ⟨by decide, _, _, fun _ => laneRequestRefused_lockdown, fun _ => rfl⟩
  · exact ⟨by decide, binOpenCheck, _, fun t ht => by simp [binOpenCheck, firstOf, ht], fun _ => rfl⟩
  · exact ⟨by decide, shiftCloseCheck, _, fun t ht => by simp [shiftCloseCheck, firstOf, ht], fun _ => rfl⟩

theorem unbound_heard_of_ne (hb : s.approval.bound ≠ some h.src) : unbound h (heard h s) = true := by
  simpa [isBound] using hb

end

/-- Settles O53: the first check that applies refuses, CONFIG_FAULT before them all. -/
theorem stateAndBindingRefuse : Obligations.StateAndBindingRefuse := by
  unfold Obligations.StateAndBindingRefuse
  intro h req raws a k n b s hc no group refuses
  have hpurge {r : Reason} (hf : s.lane.state ≠ .configFault) (hcheck : clearPurgeCheck h (heard h s) = some r) :
      refuses [(.clearPurge, .clearPurge h)] r := by
    intro x c hm hr
    obtain ⟨rfl, rfl⟩ : x = .clearPurge ∧ c = .clearPurge h := by simpa using hm
    exact next_refused hc (.inl hf) (by decide) hcheck hr
  refine ⟨?_, ?_, ?_, ?_, ?_, ?_, ?_, ?_, ?_, ?_⟩
  · intro hst x c hm hr
    obtain ⟨hk, rest, effect, hexec⟩ := transactionCommands_take hm
    rw [hexec]
    exact next_faulted hc hst hk hr
  · intro hst x c hm hr
    obtain ⟨hk, check, effect, -, hexec⟩ := serviceCommands_take hm
    rw [hexec]
    exact next_faulted hc hst hk hr
  · intro hst x c hm hr
    simp only [List.mem_cons, List.not_mem_nil, or_false, Prod.mk.injEq] at hm
    rcases hm with ⟨rfl, rfl⟩ | ⟨rfl, rfl⟩ | ⟨rfl, rfl⟩ | ⟨rfl, rfl⟩
    all_goals exact next_faulted hc hst (by decide) hr
  · intro hst x c hm hr
    obtain ⟨hk, rest, effect, hexec⟩ := transactionCommands_take hm
    rw [hexec]
    exact next_refused hc (.inl (by simp [hst])) hk (boundCheck_lockdown (by simp [hst])) hr
  · intro hst x c hm hr
    obtain ⟨hk, check, effect, hlock, hexec⟩ := serviceCommands_take hm
    rw [hexec]
    exact next_refused hc (.inl (by simp [hst])) hk (hlock _ (by simp [hst])) hr
  · intro hst x c hm hr
    obtain ⟨rfl, rfl⟩ : x = .resetLane ∧ c = .resetLane h := by simpa using hm
    exact next_refused hc (.inl (by simp [hst])) (by decide) (by simp [resetLaneCheck, firstOf, hst]) hr
  · intro hst hb
    exact hpurge (by simp [hst]) (by simp [clearPurgeCheck, firstOf, hst, isBound, hb])
  · intro hf hl hb x c hm hr
    obtain ⟨hk, rest, effect, hexec⟩ := transactionCommands_take hm
    rw [hexec]
    exact next_refused hc (.inl hf) hk (boundCheck_unbound (by simpa using hl) (unbound_heard_of_ne hb)) hr
  · intro hf hb
    exact hpurge hf (by rw [clearPurgeCheck, unbound_heard_of_ne hb]; rfl)
  · intro other hf hl hb hne x c hm hr
    obtain ⟨rfl, rfl⟩ : x = .unbind ∧ c = .unbind h := by simpa using hm
    have hno : unbound h (heard h s) = true := unbound_heard_of_ne (by rw [hb]; simpa using hne)
    have hcheck : unbindCheck h (heard h s) = some .notBound := by
      rw [unbindCheck, hno]
      simp [firstOf, hl, hb]
    exact next_refused hc (.inl hf) (by decide) hcheck hr

end Sys2Proof.Machine
end

