-- ==== Sys2Proof/Proofs/Mechanics.lean ====
section
/-! PROOFS. The mechanics check, and the moves of recovery started (R112, R114, R187). -/

namespace Sys2Proof.Machine

section
variable {s v t : State} {x : StartSensors} {c : CaptureSensors}

/-! ### The capture path (R112) -/

/-- The lane as the check of the capture path leaves it, the slot shutter closed. -/
def pathChecked (c : CaptureSensors) (v : State) : State :=
  if c.length = true ∨ c.drop = true ∨ c.retract = true then
    faulted .captureJam .recovery none none { v with capture := { v.capture with jam := true, shutter := false } }
  else if c.slot = true then { v with capture := { v.capture with returned := true, shutter := false } }
  else v

theorem captureCheck_fits (hs : v.lane.state ≠ .opened) (h : Room (pathChecked c v)) :
    captureCheck c v = pathChecked c v := by
  unfold pathChecked at h ⊢
  by_cases hpath : c.length = true ∨ c.drop = true ∨ c.retract = true
  · rw [if_pos hpath] at h ⊢
    exact (if_pos (by simpa [or_assoc] using hpath)).trans (jamPath_fits h)
  · rw [if_neg hpath]
    refine (if_neg (by simpa [or_assoc] using hpath)).trans ?_
    by_cases hslot : c.slot = true
    · rw [if_pos hslot, if_pos hslot]
      exact reshutter_of_not_opened hs
    · rw [if_neg hslot, if_neg hslot]

theorem pathChecked_kept :
    (pathChecked c v).peer = v.peer ∧ (pathChecked c v).lane = v.lane ∧ (pathChecked c v).cash = v.cash := by
  unfold pathChecked
  split
  · exact ⟨rfl, rfl, rfl⟩
  · split <;> exact ⟨rfl, rfl, rfl⟩

/-! ### The moves of recovery (R187) -/

/-- The retract that recovery asks for over an occupied pocket: a dispense's where one was held, else a session's. -/
def recoveryRequest (kept : HeldCash) (escrow : Bool) : RetractRequest :=
  if 0 < kept.dispense then
    { requester := .recovery, kind := .dispense, tag := none, count := 40, value := kept.dispense,
      blocked := false, granted := false }
  else
    { requester := .recovery, kind := .depositReturn, tag := none, count := 60,
      value := if escrow then 0 else kept.deposit, blocked := false, granted := false }

/-- The lane with that request put, before the arbiter decides on it. -/
def pocketAsked (kept : HeldCash) (escrow : Bool) (v : State) : State :=
  { v with
      lane := { v.lane with recovery := { v.lane.recovery with pocket := .running } },
      capture := { v.capture with retract := some (recoveryRequest kept escrow) } }

theorem recoveryRetract_eq {kept : HeldCash} {escrow : Bool} (hheld : v.peer.held = kept) :
    recoveryRetract escrow v = arbitrate (pocketAsked kept escrow v) := by
  subst hheld
  unfold pocketAsked recoveryRequest
  by_cases h : 0 < v.peer.held.dispense
  · rw [if_pos h]
    exact if_pos h
  · rw [if_neg h]
    exact if_neg h

theorem purgeTried_held {cash : CassetteUnit} : (purgeTried cash v).peer.held = v.peer.held := by
  unfold purgeTried
  split <;> rfl

/-- The three moves of recovery start, each where its sensor reads occupied. -/
theorem startRecovery_fits {kept : HeldCash} {cash : CassetteUnit} {entered purged drawn : State}
    (hheld : v.peer.held = kept) (hcash : v.cash = cash)
    (hentered : entered =
      { v with
          lane :=
            { v.lane with
                recovery :=
                  { active := true, stacker := .none, pocket := .none, escrow := .none,
                    stackerValue := if x.pocket then 0 else kept.dispense } } })
    (hpurged : purged = if x.stacker = false then entered else purgeTried cash entered)
    (hdrawn : drawn = if x.pocket = false then purged else arbitrate (pocketAsked kept x.escrow purged))
    (ht : t = if x.escrow = false then drawn else runRecoveryStacking true drawn) (h : Room t) :
    startRecovery x v = t ∧ Room v := by
  have hdrawnRoom : Room drawn := by
    rw [ht] at h
    split at h
    · exact h
    · exact h
  have hpurgedRoom : Room purged := by
    rw [hdrawn] at hdrawnRoom
    split at hdrawnRoom
    · exact hdrawnRoom
    · exact Nat.le_trans (arbitrate_grows (v := pocketAsked kept x.escrow purged)) hdrawnRoom
  have henteredRoom : Room entered := by
    rw [hpurged] at hpurgedRoom
    split at hpurgedRoom
    · exact hpurgedRoom
    · exact hpurgedRoom.of_purgeTried
  have henteredCash : entered.cash = cash := by rw [hentered, hcash]
  have henteredHeld : entered.peer.held = kept := by rw [hentered, hheld]
  have hstacker : (if x.stacker then tryRecoveryPurge entered else entered) = purged := by
    rw [hpurged] at hpurgedRoom ⊢
    cases hs : x.stacker with
    | false => rfl
    | true =>
      rw [hs] at hpurgedRoom
      exact tryRecoveryPurge_fits henteredCash hpurgedRoom
  have hpurgedHeld : purged.peer.held = kept := by
    rw [hpurged]
    split
    · exact henteredHeld
    · exact purgeTried_held.trans henteredHeld
  have hpocket : (if x.pocket then recoveryRetract x.escrow purged else purged) = drawn := by
    rw [hdrawn]
    cases hp : x.pocket with
    | false => rfl
    | true => exact recoveryRetract_eq hpurgedHeld
  have hescrow : (if x.escrow then runRecoveryStacking true drawn else drawn) = t := by
    rw [ht]
    cases x.escrow <;> rfl
  have hbegun : modRecovery
      (fun _ => { active := true, stackerValue := if x.pocket then 0 else v.peer.held.dispense }) v = entered := by
    rw [hentered, hheld]
    rfl
  refine ⟨?_, by rw [hentered] at henteredRoom; exact henteredRoom⟩
  rw [startRecovery, hbegun, hstacker, hpocket, hescrow]

theorem leaveStarting_eq (hv : captureCheck x.capture { s with lane := { s.lane with power := .on } } = v) :
    leaveStarting x s =
      if v.peer.kept.h > 0 || x.stacker || x.pocket || x.escrow then
        startRecovery x (setLaneState .recovery (modPeer (fun p => { p with held := p.kept }) v))
      else setLaneState .closed (setHeld {} v) := by
  subst hv
  rfl

end

/-- Settles O55: the capture path, then CLOSED with H at 0 or the moves of recovery. -/
theorem mechanicsCheckEndsStarting : Obligations.MechanicsCheckEndsStarting := by
  unfold Obligations.MechanicsCheckEndsStarting
  intro x s u zero kept found checked move entered purged request drawn t hst hpow
  have hchecked : checked = pathChecked x.capture u := rfl
  obtain ⟨hpeer, hlane, hcash⟩ := pathChecked_kept (c := x.capture) (v := u)
  rw [← hchecked] at hpeer hlane hcash
  have hdue : (s.lane.state == .starting && s.lane.power == .warming) = true := by simp [hst, hpow]
  have hcheck (hroom : Room checked) : captureCheck x.capture u = checked :=
    captureCheck_fits (v := u) (by simp [u, hst]) hroom
  have hfound : (checked.peer.kept.h > 0 || x.stacker || x.pocket || x.escrow) = true ↔ 0 < kept.h ∨ found = true :=
    by
    rw [hpeer]
    simp [found, kept, u, or_assoc]
  have hleave (hroom : Room checked) : leaveStarting x s =
      if checked.peer.kept.h > 0 || x.stacker || x.pocket || x.escrow then
        startRecovery x (setLaneState .recovery (modPeer (fun p => { p with held := p.kept }) checked))
      else setLaneState .closed (setHeld {} checked) :=
    leaveStarting_eq (hcheck hroom)
  clear_value checked
  refine ⟨?_, ?_⟩
  · intro w h0 hnone h
    let v := { checked with peer := { s.peer with held := zero, kept := zero } }
    have hroom : Room checked := Room.of_laneEntered (s := v) h.1
    have hv : setHeld {} checked = v := congrArg (fun p => { checked with peer := { p with held := zero, kept := zero
      } }) hpeer
    refine next_finish ((if_pos hdue).trans ((hleave hroom).trans ((if_neg ?_).trans ?_))) h
    · rw [hfound]
      simp [h0, hnone]
    · rw [hv]
      exact setLaneState_fits (by decide) h.1
  · intro hyes h
    let v := { checked with peer := { s.peer with held := kept } }
    let e := laneEntered .recovery v
    obtain ⟨hstart, heRoom⟩ := startRecovery_fits (x := x) (v := e) (kept := kept) (cash := s.cash)
      (entered := entered)
      (purged := purged) (drawn := drawn) (t := t) rfl hcash rfl rfl rfl rfl h.1
    have hroom : Room checked := Room.of_laneEntered (s := v) heRoom
    have hv : modPeer (fun p => { p with held := p.kept }) checked = v :=
      congrArg (fun p => { checked with peer := { p with held := p.kept } }) hpeer
    have he : setLaneState .recovery v = e := setLaneState_fits (by decide) heRoom
    refine next_finish ((if_pos hdue).trans ((hleave hroom).trans ((if_pos (hfound.mpr hyes)).trans ?_))) h
    rw [hv, he, hstart]

end Sys2Proof.Machine
end

