-- ==== Sys2Proof/Proofs/Images.lean ====
section
/-! PROOFS. The image of the configuration memory, its CRC-16 and its clamps (R186, R194, 12.1, 12.3). -/

namespace Sys2Proof.Machine

/-! ### The CRC-16 as a number (12.1) -/

theorem toNat_div_of_msb (r : BitVec 16) : r.toNat / 32768 = r.msb.toNat := by
  have hlt : r.toNat < 65536 := r.isLt
  rw [BitVec.msb_eq_decide]
  by_cases h : 2 ^ (16 - 1) ≤ r.toNat
  · simp only [h, decide_true, Bool.toNat_true]
    omega
  · simp only [h, decide_false, Bool.toNat_false]
    omega

theorem toNat_div_mod_two (b : Byte) (i : Nat) : b.toNat / 2 ^ i % 2 = (b.getLsbD i).toNat := by
  rw [← BitVec.testBit_toNat, Nat.testBit_eq_decide_div_mod_eq]
  rcases Nat.mod_two_eq_zero_or_one (b.toNat / 2 ^ i) with h | h <;> simp [h]

/-- One bit taken by the register, on numbers. -/
theorem crcBit_toNat (r : BitVec 16) (b : Byte) (i : Nat) :
    ((2 * r.toNat % 65536) ^^^ (if r.toNat / 32768 = b.toNat / 2 ^ i % 2 then 0 else 0x1021)) =
      (crcBit r (b.getLsbD i)).toNat := by
  have hshift : (r <<< 1).toNat = 2 * r.toNat % 65536 := by
    rw [BitVec.toNat_shiftLeft, Nat.shiftLeft_eq, Nat.mul_comm]
  rw [toNat_div_of_msb, toNat_div_mod_two, crcBit]
  by_cases h : r.msb = b.getLsbD i
  · rw [if_pos (congrArg Bool.toNat h), if_neg (by simp [h]), Nat.xor_zero, hshift]
  · have hne : r.msb.toNat ≠ (b.getLsbD i).toNat := by
      cases hm : r.msb <;> cases hb : b.getLsbD i <;> simp_all
    rw [if_neg hne, if_pos (by simpa using h), BitVec.toNat_xor, hshift]
    rfl

theorem crcOf_eq (l : List Byte) : crcOf l = (crc16 l).toNat := by
  have hbyte (r : BitVec 16) (b : Byte) :
      ((List.range 8).map fun i => b.toNat / 2 ^ (7 - i) % 2).foldl
        (fun r bit => (2 * r % 65536) ^^^ (if r / 32768 = bit then 0 else 0x1021)) r.toNat = (crcByte r b).toNat := by
    have hbits : ((List.range 8).map fun i => b.toNat / 2 ^ (7 - i) % 2) =
        [7, 6, 5, 4, 3, 2, 1, 0].map fun i => b.toNat / 2 ^ i % 2 := rfl
    rw [hbits, List.foldl_map, crcByte]
    exact List.foldl_hom BitVec.toNat fun r i => crcBit_toNat r b i
  rw [crcOf, List.foldl_flatMap, crc16]
  exact List.foldl_hom (init := 0xFFFF#16) BitVec.toNat hbyte

/-! ### The figures of an image (12.3) -/

/-- The byte at an offset of an image, as a number. -/
def byteAt (l : List Byte) (o : Nat) : Nat := (l.getD o 0).toNat

theorem byteAt_lt (l : List Byte) (o : Nat) : byteAt l o < 256 := (l.getD o 0).isLt

theorem ofBytes_append (l : List Byte) (b : Byte) : ofBytes (l ++ [b]) = ofBytes l * 256 + b.toNat := by
  simp [ofBytes]

theorem field_zero (l : List Byte) (o : Nat) : field l o 0 = 0 := by simp [field, ofBytes]

theorem field_succ {l : List Byte} {o w : Nat} (h : o + w < l.length) :
    field l o (w + 1) = field l o w * 256 + byteAt l (o + w) := by
  have hget : (l.drop o)[w]? = some l[o + w] := by rw [List.getElem?_drop, List.getElem?_eq_getElem h]
  have hbyte : l.getD (o + w) 0 = l[o + w] := by rw [List.getD_eq_getElem?_getD, List.getElem?_eq_getElem h]; rfl
  rw [field, List.take_add_one, hget]
  simp only [Option.toList_some, ofBytes_append, byteAt, hbyte]
  rfl

section
variable {l : List Byte} {o : Nat}

theorem field_one (h : o < l.length) : field l o 1 = byteAt l o := by
  rw [field_succ (by omega), field_zero, Nat.zero_mul, Nat.zero_add, Nat.add_zero]

theorem field_two (h : o + 1 < l.length) : field l o 2 = 256 * byteAt l o + byteAt l (o + 1) := by
  rw [field_succ h, field_one (by omega), Nat.mul_comm]

theorem field_three (h : o + 2 < l.length) :
    field l o 3 = 65536 * byteAt l o + 256 * byteAt l (o + 1) + byteAt l (o + 2) := by
  rw [field_succ h, field_two (by omega)]
  ring

theorem field_four (h : o + 3 < l.length) :
    field l o 4 =
      16777216 * byteAt l o + (65536 * byteAt l (o + 1) + 256 * byteAt l (o + 2) + byteAt l (o + 3)) := by
  rw [field_succ h, field_three (by omega)]
  ring

end

/-! ### Clamping (6.2) -/

theorem clampTo_eq {lo hi n : Nat} (h : lo ≤ hi) : clampTo lo hi n = max lo (min hi n) := by
  unfold clampTo
  split
  · omega
  · split <;> omega

theorem clampFlag_snd {lo hi n : Nat} (h : lo ≤ hi) : (clampFlag lo hi n).2 = false ↔ lo ≤ n ∧ n ≤ hi := by
  simp only [clampFlag, bne_eq_false_iff_eq, clampTo_eq h]
  omega

/-! ### The reading of the configuration memory (R186, R194) -/

theorem readConfiguration_eq_some {b : Board} {l : List Byte} {x : ImageItems} (hl : b.image = some l)
    (h : readConfiguration b = some x) : l.length = 115 ∧ x = decodeImage l := by
  simp only [readConfiguration, hl, Option.ite_none_right_eq_some, Bool.and_eq_true, beq_iff_eq, Option.some.injEq] at h
  exact ⟨h.1.1.2, h.2.symm⟩

theorem readConfiguration_isSome (b : Board) :
    (readConfiguration b).isSome = true ↔
      b.straps < 31 ∧ ∃ l ∈ b.image, l.length = 115 ∧
        crcOf (l.take 113) = 256 * (l.getD 113 0).toNat + (l.getD 114 0).toNat := by
  cases hl : b.image with
  | none => simp [readConfiguration, hl]
  | some l =>
    by_cases hlen : l.length = 115
    · have hfield : field l 113 2 = 256 * (l.getD 113 0).toNat + (l.getD 114 0).toNat := field_two (by omega)
      simp only [Option.mem_def, Option.some.injEq, exists_eq_left', hlen, true_and, crcOf_eq, ← hfield]
      simp [readConfiguration, hl, hlen]
    · simp [readConfiguration, hl, hlen]

/-! ### What an image gives (12.3) -/

section
variable {l : List Byte}

theorem imageDenom_fst {i : Nat} (h : 29 + 8 * i + 7 < l.length) : (imageDenom l i).1 =
    { used := byteAt l (29 + 8 * i) != 0,
      face := max 1 (min 10000 (256 * byteAt l (29 + 8 * i + 1) + byteAt l (29 + 8 * i + 1 + 1))),
      nomLength := max 600 (min 2000 (256 * byteAt l (29 + 8 * i + 3) + byteAt l (29 + 8 * i + 3 + 1))),
      window := max 5 (min 100 (byteAt l (29 + 8 * i + 5))),
      nomThick := max 20 (min 400 (256 * byteAt l (29 + 8 * i + 6) + byteAt l (29 + 8 * i + 6 + 1))) } := by
  simp only [imageDenom, clampFlag]
  rw [field_one (by omega), field_two (by omega), field_two (by omega), field_one (by omega), field_two (by omega),
    clampTo_eq (by decide), clampTo_eq (by decide), clampTo_eq (by decide), clampTo_eq (by decide)]

theorem imageDenom_snd {i : Nat} (h : 29 + 8 * i + 7 < l.length) : (imageDenom l i).2 = false ↔
    (1 ≤ 256 * byteAt l (29 + 8 * i + 1) + byteAt l (29 + 8 * i + 1 + 1) ∧
        256 * byteAt l (29 + 8 * i + 1) + byteAt l (29 + 8 * i + 1 + 1) ≤ 10000) ∧
      (600 ≤ 256 * byteAt l (29 + 8 * i + 3) + byteAt l (29 + 8 * i + 3 + 1) ∧
        256 * byteAt l (29 + 8 * i + 3) + byteAt l (29 + 8 * i + 3 + 1) ≤ 2000) ∧
      (5 ≤ byteAt l (29 + 8 * i + 5) ∧ byteAt l (29 + 8 * i + 5) ≤ 100) ∧
      (20 ≤ 256 * byteAt l (29 + 8 * i + 6) + byteAt l (29 + 8 * i + 6 + 1) ∧
        256 * byteAt l (29 + 8 * i + 6) + byteAt l (29 + 8 * i + 6 + 1) ≤ 400) := by
  simp only [imageDenom, Bool.or_eq_false_iff, clampFlag_snd (show 1 ≤ 10000 by decide),
    clampFlag_snd (show 600 ≤ 2000 by decide), clampFlag_snd (show 5 ≤ 100 by decide),
    clampFlag_snd (show 20 ≤ 400 by decide), and_assoc]
  rw [field_two (by omega), field_two (by omega), field_one (by omega), field_two (by omega)]

theorem zoneTypeOf_eq {n : Nat} (h : n < 8) :
    zoneTypeOf n =
      ([ZoneType.unused, .duress, .attack, .door, .bin, .vehicle].getD n .unused, decide (5 < n)) := by
  interval_cases n <;> rfl

theorem imageZone_eq {i : Nat} (h : 101 + i < l.length) : imageZone l i =
    (([ZoneType.unused, .duress, .attack, .door, .bin, .vehicle].getD (byteAt l (101 + i) % 8) .unused,
      decide (128 ≤ byteAt l (101 + i))), decide (5 < byteAt l (101 + i) % 8)) := by
  have hbit : (byteAt l (101 + i)).testBit 7 = decide (128 ≤ byteAt l (101 + i)) := by
    have hlt := byteAt_lt l (101 + i)
    rw [Nat.testBit_eq_decide_div_mod_eq, decide_eq_decide]
    omega
  simp only [imageZone, field_one h, zoneTypeOf_eq (Nat.mod_lt _ (by decide)), hbit]

end

theorem clampTo_least_zero {hi n : Nat} : clampTo 0 hi n = min hi n := (clampTo_zero hi n).trans (Nat.min_comm ..)

theorem clampFlag_zero_snd {hi n : Nat} : (clampFlag 0 hi n).2 = false ↔ n ≤ hi := by
  simp [clampFlag_snd (Nat.zero_le hi)]

section
variable {l : List Byte}

/-- A figure was out of its range where the clamp of one of the items changed it. -/
theorem decodeImage_clamped : (decodeImage l).clamped = false ↔
    (clampFlag 1 16000000 (field l 0 3)).2 = false ∧
      (clampFlag 0 (decodeImage l).config.wallCeiling (field l 3 3)).2 = false ∧
      (clampFlag 0 (decodeImage l).config.wallCeiling (field l 6 3)).2 = false ∧
      (clampFlag 0 (decodeImage l).config.wallCeiling (field l 13 3)).2 = false ∧
      (clampFlag 0 (decodeImage l).config.laneCap (field l 16 3)).2 = false ∧
      (clampFlag 1 (max 1 (decodeImage l).config.laneCap) (field l 19 3)).2 = false ∧
      (clampFlag 5 90 (field l 22 1)).2 = false ∧ (clampFlag 5 120 (field l 23 1)).2 = false ∧
      (clampFlag 1 8191 (field l 24 2)).2 = false ∧ (clampFlag 1 8191 (field l 26 2)).2 = false ∧
      (clampFlag 4 255 (field l 28 1)).2 = false ∧ (∀ i < 8, (imageDenom l i).2 = false) ∧
      (∀ i < 4, (clampFlag 0 2500 (field l (93 + 2 * i) 2)).2 = false) ∧ ∀ i < 12, (imageZone l i).2 = false := by
  have hsnd {α : Type} (f : Nat → α × Bool) (n : Nat) :
      (((List.range n).map f).any (·.2)) = false ↔ ∀ i < n, (f i).2 = false := by
    simp [List.any_eq_false]
  simp only [decodeImage, Bool.or_eq_false_iff, hsnd, and_assoc]

/-- The denominations, setpoints and zones that an image gives. -/
theorem decodeImage_tables (h : l.length = 115) :
    ((decodeImage l).denoms = (List.range 8).map fun i =>
      { used := byteAt l (29 + 8 * i) != 0,
        face := max 1 (min 10000 (256 * byteAt l (29 + 8 * i + 1) + byteAt l (29 + 8 * i + 1 + 1))),
        nomLength := max 600 (min 2000 (256 * byteAt l (29 + 8 * i + 3) + byteAt l (29 + 8 * i + 3 + 1))),
        window := max 5 (min 100 (byteAt l (29 + 8 * i + 5))),
        nomThick := max 20 (min 400 (256 * byteAt l (29 + 8 * i + 6) + byteAt l (29 + 8 * i + 6 + 1))) }) ∧
    ((decodeImage l).setpoints = (List.range 4).map fun i =>
      min 2500 (256 * byteAt l (93 + 2 * i) + byteAt l (93 + 2 * i + 1))) ∧
    ((decodeImage l).zones = (List.range 12).map fun i =>
      ([ZoneType.unused, .duress, .attack, .door, .bin, .vehicle].getD (byteAt l (101 + i) % 8) .unused,
        decide (128 ≤ byteAt l (101 + i)))) := by
  refine ⟨?_, ?_, ?_⟩
  · refine (List.map_map ..).trans (List.map_congr_left fun i hi => ?_)
    exact imageDenom_fst (by have := List.mem_range.mp hi; omega)
  · refine (List.map_map ..).trans (List.map_congr_left fun i hi => ?_)
    have hi' := List.mem_range.mp hi
    exact clampTo_least_zero.trans (congrArg (min 2500) (field_two (by omega)))
  · refine (List.map_map ..).trans (List.map_congr_left fun i hi => ?_)
    have hi' := List.mem_range.mp hi
    exact congrArg Prod.fst (imageZone_eq (by omega))

theorem decodeImage_clamped_iff (h : l.length = 115) : (decodeImage l).clamped = false ↔
    let two := fun (o : Nat) => 256 * byteAt l o + byteAt l (o + 1);
    let three := fun (o : Nat) => 65536 * byteAt l o + 256 * byteAt l (o + 1) + byteAt l (o + 2);
    let inside := fun (lo hi n : Nat) => (lo ≤ n ∧ n ≤ hi : Prop);
    let c := (decodeImage l).config;
    inside 1 16000000 (three 0) ∧ three 3 ≤ c.wallCeiling ∧ three 6 ≤ c.wallCeiling ∧ three 13 ≤ c.wallCeiling
      ∧
      three 16 ≤ c.laneCap ∧ inside 1 (max 1 c.laneCap) (three 19) ∧ inside 5 90 (byteAt l 22) ∧
      inside 5 120 (byteAt l 23) ∧ inside 1 8191 (two 24) ∧ inside 1 8191 (two 26) ∧ 4 ≤ byteAt l 28 ∧
      (∀ i < 8,
        let o := 29 + 8 * i;
        inside 1 10000 (two (o + 1)) ∧ inside 600 2000 (two (o + 3)) ∧ inside 5 100 (byteAt l (o + 5)) ∧
          inside 20 400 (two (o + 6))) ∧
      (∀ i < 4, two (93 + 2 * i) ≤ 2500) ∧ ∀ i < 12, byteAt l (101 + i) % 8 ≤ 5 := by
  have hband : (clampFlag 4 255 (byteAt l 28)).2 = false ↔ 4 ≤ byteAt l 28 := by
    have hlt := byteAt_lt l 28
    rw [clampFlag_snd (by decide)]
    omega
  have hdenoms : (∀ i < 8, (imageDenom l i).2 = false) ↔ _ :=
    forall₂_congr fun i hi => imageDenom_snd (l := l) (i := i) (by omega)
  have hsetpoints : (∀ i < 4, (clampFlag 0 2500 (field l (93 + 2 * i) 2)).2 = false) ↔
      ∀ i < 4, 256 * byteAt l (93 + 2 * i) + byteAt l (93 + 2 * i + 1) ≤ 2500 :=
    forall₂_congr fun i hi => by rw [clampFlag_zero_snd, field_two (by omega)]
  have hzones : (∀ i < 12, (imageZone l i).2 = false) ↔ ∀ i < 12, byteAt l (101 + i) % 8 ≤ 5 :=
    forall₂_congr fun i hi => by simp [imageZone_eq (show 101 + i < l.length by omega)]
  rw [decodeImage_clamped, hdenoms, hsetpoints, hzones, field_three (by omega), field_three (by omega),
    field_three (by omega), field_three (by omega), field_three (by omega), field_three (by omega),
    field_one (by omega), field_one (by omega), field_two (by omega), field_two (by omega), field_one (by omega), hband,
    clampFlag_zero_snd, clampFlag_zero_snd, clampFlag_zero_snd, clampFlag_zero_snd, clampFlag_snd (by decide),
    clampFlag_snd (le_max_left ..), clampFlag_snd (by decide), clampFlag_snd (by decide), clampFlag_snd (by decide),
    clampFlag_snd (by decide)]

theorem decodeImage_expected (h : l.length = 115) : (decodeImage l).config.expected =
    16777216 * (byteAt l 9 % 128) + (65536 * byteAt l 10 + 256 * byteAt l 11 + byteAt l 12) := by
  have h9 := byteAt_lt l 9
  have h10 := byteAt_lt l 10
  have h11 := byteAt_lt l 11
  have h12 := byteAt_lt l 12
  have hfield : (decodeImage l).config.expected = field l 9 4 % 2 ^ 31 := rfl
  have hfour : field l 9 4 =
      16777216 * byteAt l 9 + (65536 * byteAt l 10 + 256 * byteAt l 11 + byteAt l 12) := field_four (by omega)
  rw [hfield, hfour]
  omega

theorem imageGives (h : l.length = 115) : ImageGives l (decodeImage l) := by
  obtain ⟨hdenoms, hsetpoints, hzones⟩ := decodeImage_tables h
  refine ⟨?_, ?_, ?_, decodeImage_expected h, ?_, ?_, ?_, ?_, ?_, ?_, ?_, ?_, hdenoms, hsetpoints, hzones,
    decodeImage_clamped_iff h⟩
  · exact (clampTo_eq (by decide)).trans (congrArg (fun n => max 1 (min 16000000 n)) (field_three (by omega)))
  · exact clampTo_least_zero.trans (congrArg (min _) (field_three (by omega)))
  · exact clampTo_least_zero.trans (congrArg (min _) (field_three (by omega)))
  · exact clampTo_least_zero.trans (congrArg (min _) (field_three (by omega)))
  · exact clampTo_least_zero.trans (congrArg (min _) (field_three (by omega)))
  · exact (clampTo_eq (le_max_left ..)).trans (congrArg (fun n => max 1 (min _ n)) (field_three (by omega)))
  · exact (clampTo_eq (by decide)).trans (congrArg (fun n => max 5 (min 90 n)) (field_one (by omega)))
  · exact (clampTo_eq (by decide)).trans (congrArg (fun n => max 5 (min 120 n)) (field_one (by omega)))
  · exact (clampTo_eq (by decide)).trans (congrArg (fun n => max 1 (min 8191 n)) (field_two (by omega)))
  · exact (clampTo_eq (by decide)).trans (congrArg (fun n => max 1 (min 8191 n)) (field_two (by omega)))
  · exact (clampTo_eq (by decide)).trans (congrArg (fun n => max 4 (min 255 n)) (field_one (by omega)))

end
end Sys2Proof.Machine
end

