-- ==== Sys2Proof/Proofs/Resets.lean ====
section
/-! PROOFS. What each reset keeps, clears and reads, and the cassettes settled against a good reading
  (R14, R185, R186, R193). -/

namespace Sys2Proof.Machine

section
variable {k : ResetKind} {b : Board} {s t u v : State} {x : ImageItems} {lost : Bool}

/-! ### What a reset keeps, before its configuration is read (R185, R191, R193) -/

theorem noteCause_eq {c : ResetCause} (hk : k ≠ .backupLost) : noteCause k c =
    { c with
        powerOn := c.powerOn || k == .powerOn, supplyDip := c.supplyDip || k == .supplyDip,
        resetLine := c.resetLine || k == .resetLine, commanded := c.commanded || k == .commanded, last := k } := by
  cases k with
  | backupLost => exact absurd rfl hk
  | _ => simp [noteCause]

theorem keepRetained_eq (hk : k ≠ .backupLost) :
    modLane (fun l => { l with station := b.straps, cause := noteCause k l.cause })
        (keepRetained { s with board := b }) = restarted k b s := by
  simp only [noteCause_eq hk]
  rfl

theorem positioned_queue_le : (positioned v).bus.queue.length ≤ v.bus.queue.length + 1 := by
  simp only [positioned]
  split
  · exact Nat.le_succ _
  · simp

theorem enterConfigFault (h : v.bus.queue.length ≤ 15) : setLaneState .configFault v = laneEntered .configFault v :=
  setLaneState_fits (by decide) (Nat.le_trans positioned_queue_le (Nat.succ_le_succ h))

theorem forgotten_queue_length : (forgotten b s).bus.queue.length = 1 := by
  rw [forgotten, faulted, toldAll_queue_length]
  rfl

theorem forgotten_raised :
    raiseHard .retentionLost .none none none
        { lane := { station := b.straps }, board := b, free := s.free, pending := s.pending } = forgotten b s :=
  raiseHard_fits (Nat.le_trans (Nat.le_of_eq (forgotten_queue_length (b := b) (s := s))) (by decide))

/-- A reset with retention intact, by what the configuration memory gives. -/
theorem restart_intact (hk : k ≠ .backupLost) (hret : b.retentionOk = true) :
    restart k { s with board := b } =
      match readConfiguration b with
      | none => setLaneState .configFault (restarted k b s)
      | some x => takeConfiguration false x (restarted k b s) := by
  simp only [restart, hret, Bool.not_true, Bool.false_eq_true, if_false]
  rw [← keepRetained_eq hk]
  rfl

/-- A reset with retention lost. -/
theorem restart_lost (hret : b.retentionOk = false) :
    restart k { s with board := b } =
      match readConfiguration b with
      | none => setLaneState .configFault (forgotten b s)
      | some x => takeConfiguration true x (forgotten b s) := by
  rw [← forgotten_raised]
  simp only [restart, hret, Bool.not_false, if_true]
  rfl

/-! ### A good reading taken (R1, R14, R20, R116, R132) -/

/-- CONFIG_CLAMPED raised where an item was clamped. -/
def clampTold (x : ImageItems) (v : State) : State :=
  if x.clamped = true then raiseSoft .configClamped .none none none v else v

theorem clampTold_kept : clampTold x v = { v with fault := (clampTold x v).fault } := by
  unfold clampTold
  split <;> rfl

/-- The lane with its configuration taken, its cassettes not yet settled. -/
def configured (lost : Bool) (x : ImageItems) (v : State) : State :=
  { v with
      config := x.config,
      chP := settleGain lost x.config.gainP v.chP,
      chQ := settleGain lost x.config.gainQ v.chQ,
      peer := { v.peer with entries := startPeers x.config v.lane.station },
      alarm := { v.alarm with zones := x.zones.map fun z => { type := z.1, report := z.2 } },
      cash := { v.cash with denoms := (x.denoms.zip v.cash.denoms).map fun p => settleDenom lost p.1 p.2 } }

theorem takeConfiguration_eq :
    takeConfiguration lost x v =
      modLane (fun l => { l with power := .warming })
        (settleCassettes lost x.setpoints (configured lost x (clampTold x v))) := rfl

theorem startPeers_eq (c : Configuration) (station : Nat) : startPeers c station = peersAwaited c station := by
  unfold startPeers peersAwaited
  simp only [Bool.and_eq_true, bne_iff_ne]

theorem settleCassettes_lost {l : List Nat} (h : v.cash.cassettes = List.replicate 4 {}) :
    settleCassettes true l v =
      { v with
          cash := { v.cash with cassettes := (List.range 4).map fun i => { setpoint := l.getD i 0 } } } := by
  simp [settleCassettes, modCassette, modCash, modifyAt, h, List.range, List.range.loop, List.replicate, List.modify,
    countAt]

theorem settleDenoms_lost {l : List Denom} (h : l.length = 8) :
    ((l.zip (List.replicate 8 {})).map fun p => settleDenom true p.1 p.2) =
      l.map fun d => { d with ref := d.nomThick, restart := 0, basis := d.nomThick } := by
  have hmap : (fun p : Denom × Denom => settleDenom true p.1 p.2) =
      (fun d : Denom => ({ d with ref := d.nomThick, restart := 0, basis := d.nomThick } : Denom)) ∘ Prod.fst := rfl
  rw [hmap, ← List.map_map, List.map_fst_zip (by simp [h])]

theorem configured_lost {n : Nat} (hcash : v.cash = {}) (hP : v.chP = {}) (hQ : v.chQ = {})
    (hn : v.lane.station = n) (hd : x.denoms.length = 8) :
    configured true x v =
      { v with
          config := x.config,
          chP := { gain := x.config.gainP, gainBasis := x.config.gainP },
          chQ := { gain := x.config.gainQ, gainBasis := x.config.gainQ },
          peer := { v.peer with entries := peersAwaited x.config n },
          alarm := { v.alarm with zones := x.zones.map fun z => ({ type := z.1, report := z.2 } : Zone) },
          cash :=
            { v.cash with
                denoms := x.denoms.map fun d => { d with ref := d.nomThick, restart := 0, basis := d.nomThick } } }
                  := by
  have hdenoms : v.cash.denoms = List.replicate 8 {} := by rw [hcash]
  have hgain (g : Nat) : settleGain true g {} = { gain := g, gainBasis := g } := rfl
  simp only [configured, hP, hQ, hgain, hn, startPeers_eq, hdenoms, settleDenoms_lost hd]

/-- A good reading at a start with retention lost. -/
theorem takeConfiguration_lost (hd : x.denoms.length = 8) :
    let u := clampTold x (forgotten b s);
    takeConfiguration true x (forgotten b s) =
      { u with
          config := x.config,
          cash :=
            { u.cash with
                denoms := x.denoms.map fun d => { d with ref := d.nomThick, restart := 0, basis := d.nomThick },
                cassettes := (List.range 4).map fun i => { setpoint := x.setpoints.getD i 0 } },
          chP := { gain := x.config.gainP, gainBasis := x.config.gainP },
          chQ := { gain := x.config.gainQ, gainBasis := x.config.gainQ },
          peer := { u.peer with entries := peersAwaited x.config b.straps },
          alarm := { u.alarm with zones := x.zones.map fun z => ({ type := z.1, report := z.2 } : Zone) },
          lane := { u.lane with power := .warming } } := by
  intro u
  have hkept : u = { forgotten b s with fault := u.fault } := clampTold_kept
  have hcash : u.cash = {} := by rw [hkept]; rfl
  have hP : u.chP = {} := by rw [hkept]; rfl
  have hQ : u.chQ = {} := by rw [hkept]; rfl
  have hn : u.lane.station = b.straps := by rw [hkept]; rfl
  have hcassettes : (configured true x u).cash.cassettes = List.replicate 4 {} := congrArg CassetteUnit.cassettes hcash
  rw [takeConfiguration_eq, settleCassettes_lost hcassettes, configured_lost hcash hP hQ hn hd]
  rfl

/-! ### The cassettes settled (R3, R6, R7, R14) -/

/-- What the settling of a cassette changes: the cassettes, the faults and the notices, with `n` frames more at most. -/
structure SettledFrom (n : Nat) (s t : State) : Prop where
  same : t = { s with cash := { s.cash with cassettes := t.cash.cassettes }, fault := t.fault, bus := t.bus }
  queue : t.bus.queue.length ≤ s.bus.queue.length + n
  shift : t.fault.shift = s.fault.shift
  closed : t.fault.closed = s.fault.closed
  flags : ∀ i : Nat, s.fault.flags[i]? = some true → t.fault.flags[i]? = some true
  hold : s.fault.hold ≠ .empty → t.fault.hold ≠ .empty

theorem SettledFrom.refl : SettledFrom 0 s s := ⟨rfl, le_rfl, rfl, rfl, fun _ => id, id⟩

theorem SettledFrom.trans {n m : Nat} (h1 : SettledFrom n s t) (h2 : SettledFrom m t u) : SettledFrom (n + m) s u := by
  refine ⟨?_, ?_, h2.shift.trans h1.shift, h2.closed.trans h1.closed, fun i hi => h2.flags i (h1.flags i hi),
    fun hs => h2.hold (h1.hold hs)⟩
  · rw [h2.same, h1.same]
  · have := h1.queue
    have := h2.queue
    omega

theorem SettledFrom.mono {n m : Nat} (h : SettledFrom n s t) (hm : n ≤ m) : SettledFrom m s t :=
  { h with queue := h.queue.trans (Nat.add_le_add_left hm _) }

theorem modCassette_settled (i : Nat) (f : Cassette → Cassette) : SettledFrom 0 v (modCassette i f v) :=
  ⟨rfl, le_rfl, rfl, rfl, fun _ => id, id⟩

theorem toldAll_one {kind : NoticeKind} {content : List Byte} (hc : content.length ≤ 16) :
    (toldAll kind content v).bus.queue.length = v.bus.queue.length + 1 := by
  rw [toldAll_queue_length, reportPayloads, if_pos hc]
  rfl

theorem noticeAll_one {kind : NoticeKind} {content : List Byte} (hc : content.length ≤ 16)
    (hq : v.bus.queue.length < 16) : noticeAll kind content v = toldAll kind content v :=
  noticeAll_fits (by rw [toldAll_one hc]; omega)

theorem toldAll_settled {kind : NoticeKind} {content : List Byte} (hc : content.length ≤ 16) :
    SettledFrom 1 v (toldAll kind content v) :=
  ⟨rfl, (toldAll_one hc).le, rfl, rfl, fun _ => id, id⟩

theorem noticeAll_settled {kind : NoticeKind} {content : List Byte} (hc : content.length ≤ 16)
    (hq : v.bus.queue.length < 16) : SettledFrom 1 v (noticeAll kind content v) := by
  rw [noticeAll_one hc hq]
  exact toldAll_settled hc

theorem latchFault_hold (r : FaultReport) (u : FaultUnit) : (latchFault r u).hold ≠ .empty := by
  unfold latchFault
  split
  · nofun
  · nofun
  · next h _ => simp [h]
  · nofun
  · next h _ => simp [h]
  · next h _ => simp [h]

theorem latchFault_flags (r : FaultReport) (u : FaultUnit) : (latchFault r u).flags = u.flags := by
  unfold latchFault
  split <;> rfl

theorem latchFault_shift (r : FaultReport) (u : FaultUnit) :
    (latchFault r u).shift = u.shift ∧ (latchFault r u).closed = u.closed := by
  unfold latchFault
  split <;> exact ⟨rfl, rfl⟩

theorem recordFault_settled (r : FaultReport) : SettledFrom 0 v (recordFault r v) := by
  let u : FaultUnit := { v.fault with flags := v.fault.flags.set (faultKindIdx r.kind) true }
  obtain ⟨hshift, hclosed⟩ := latchFault_shift r u
  refine ⟨rfl, le_rfl, hshift, hclosed, fun i hi => ?_, fun _ => ?_⟩
  · show (latchFault r _).flags[i]? = some true
    rw [latchFault_flags, List.getElem?_set]
    split
    · next he =>
      subst he
      obtain ⟨hlt, -⟩ := List.getElem?_eq_some_iff.mp hi
      rw [if_pos hlt]
    · exact hi
  · exact latchFault_hold r u

theorem faultContent_length (r : FaultReport) (hold : FaultHold) : (faultContent r hold).length ≤ 16 := by
  cases hp : r.place <;> cases hs : r.station <;> simp [faultContent, be, beOpt, hp, hs]

theorem raiseHard_settled {kind : FaultKind} {op : FaultOp} {place : Option FaultPlace} {n : Option Nat}
    (hq : v.bus.queue.length < 16) : SettledFrom 1 v (raiseHard kind op place n v) :=
  (recordFault_settled (faultReport kind op place n v)).trans
    (noticeAll_settled (v := recordFault (faultReport kind op place n v) v) (faultContent_length ..) hq)

theorem cassetteFigures_length (c : Cassette) : (cassetteFigures c).length = 8 := by simp [cassetteFigures, be]

theorem followCount_settled (i : Nat) (hq : v.bus.queue.length < 16) : SettledFrom 1 v (followCount i v) := by
  unfold followCount
  dsimp only
  split
  · have hmod := modCassette_settled (v := v) i
      (fun c => { c with st := stateOfCount (cassetteAt v i).count (cassetteAt v i).setpoint })
    split
    · exact hmod.trans (noticeAll_settled (by simp [be, cassetteFigures_length]) hq)
    · split
      · exact hmod.trans (noticeAll_settled (by simp [be]) hq)
      · exact hmod.mono (by decide)
  · exact SettledFrom.refl.mono (by decide)

theorem removeCassette_settled (i : Nat) (hq : v.bus.queue.length < 16) : SettledFrom 1 v (removeCassette i v) :=
  (modCassette_settled i _).trans (noticeAll_settled (by simp [be, cassetteFigures_length]) hq)

/-! ### One cassette at a start with retention intact (R14) -/

section
variable {p i : Nat} {c : Cassette}

/-- The record as the switch leaves it, its setpoint taken and its misses cleared (R7, R8, R14). -/
def switched (p i : Nat) (v : State) : State :=
  let w := modCassette i (fun c => { c with misses := 0, setpoint := p }) v
  if !seated w i then removeCassette i w
  else if (cassetteAt w i).st == .removed then modCassette i clearedCassette w
  else w

theorem settleCassette_eq : settleCassette p i v =
    if misfits (switched p i v) (cassetteAt (switched p i v) i) then
      raiseHard .cassetteSuspect .none (some (.cassette i)) none
        (modCassette i (fun c => { c with st := .suspect }) (switched p i v))
    else followCount i (switched p i v) := rfl

/-- The entry of a denomination that a cassette stands for is in use, at the face value it was loaded with. -/
def fitsConfig (denoms : List Denom) (c : Cassette) : Bool :=
  match c.denom with
  | some d => (denoms.getD d {}).used && c.face == some (denoms.getD d {}).face
  | none => true

theorem misfits_eq : misfits v c = ((serves c || c.st == .empty || c.st == .suspect) && !fitsConfig v.cash.denoms c)
    := by
  unfold misfits fitsConfig
  cases c.denom with
  | none => rfl
  | some d => simp [denomAt, bne]

/-- The state of a record that has been removed, at any place of the list. -/
theorem cassetteAt_removed (hw : (cassetteAt v i).st ≠ .removed → (cassetteAt v i).st = .unloaded) :
    misfits v (cassetteAt v i) = false ∧ followCount i v = v := by
  have hst : (cassetteAt v i).st = .removed ∨ (cassetteAt v i).st = .unloaded := by
    by_cases h : (cassetteAt v i).st = .removed
    · exact .inl h
    · exact .inr (hw h)
  refine ⟨?_, ?_⟩
  · rw [misfits_eq]
    rcases hst with h | h <;> simp [serves, h]
  · unfold followCount
    exact if_neg (by rcases hst with h | h <;> simp [serves, h])

theorem cassetteAt_removeCassette :
    (cassetteAt (removeCassette i v) i).st = .removed ∨ cassetteAt (removeCassette i v) i = {} := by
  have hcash : (removeCassette i v).cash.cassettes =
      modifyAt v.cash.cassettes i fun c => { c with st := .removed, misses := 0, restart := 0 } :=
    congrArg CassetteUnit.cassettes (noticeAll_busOnly ..).cash
  rw [cassetteAt, hcash, modifyAt, List.getD_eq_getElem?_getD, List.getElem?_modify_eq]
  cases v.cash.cassettes[i]? with
  | none => exact .inr rfl
  | some c => exact .inl rfl

/-- An open switch leaves nothing to settle behind the removal. -/
theorem settleCassette_open (ho : seated v i = false) :
    settleCassette p i v = removeCassette i (modCassette i (fun c => { c with misses := 0, setpoint := p }) v) := by
  have hsw : switched p i v = removeCassette i (modCassette i (fun c => { c with misses := 0, setpoint := p }) v) := by
    refine if_pos ?_
    rw [Bool.not_eq_true']
    exact ho
  have hst := cassetteAt_removeCassette (i := i) (v := modCassette i (fun c => { c with misses := 0, setpoint := p }) v)
  obtain ⟨hfit, hfollow⟩ := cassetteAt_removed (i := i)
    (v := removeCassette i (modCassette i (fun c => { c with misses := 0, setpoint := p }) v)) fun hne => by
      rcases hst with h | h
      · exact absurd h hne
      · rw [h]
  rw [settleCassette_eq, hsw, hfit, hfollow]
  rfl

theorem settleCassette_settled (hq : v.bus.queue.length < 16) : SettledFrom 1 v (settleCassette p i v) := by
  have hfresh := modCassette_settled (v := v) i (fun c => { c with misses := 0, setpoint := p })
  by_cases ho : seated v i = true
  · have hsw : SettledFrom 0 v (switched p i v) := by
      unfold switched
      rw [if_neg (by rw [Bool.not_eq_true', Bool.not_eq_false]; exact ho)]
      split
      · exact hfresh.trans (modCassette_settled i _)
      · exact hfresh
    have hroom : (switched p i v).bus.queue.length < 16 := Nat.lt_of_le_of_lt hsw.queue hq
    rw [settleCassette_eq]
    split
    · exact hsw.trans ((modCassette_settled i _).trans (raiseHard_settled hroom))
    · exact hsw.trans (followCount_settled i hroom)
  · rw [settleCassette_open (by simpa using ho)]
    exact hfresh.trans (removeCassette_settled i hq)

theorem noticeAll_record {kind : NoticeKind} {content : List Byte} (hc : content.length ≤ 16)
    (hq : v.bus.queue.length < 16) :
    (noticeAll kind content v).cash.cassettes = v.cash.cassettes ∧ (noticeAll kind content v).fault = v.fault := by
  rw [noticeAll_one hc hq]
  exact ⟨rfl, rfl⟩

/-- The record of a cassette in its place, once its state has followed its count (R3). -/
def followed (c : Cassette) : Cassette :=
  if serves c then { c with st := stateOfCount c.count c.setpoint } else c

theorem followCount_record (hi : v.cash.cassettes[i]? = some c) (hq : v.bus.queue.length < 16) :
    (followCount i v).cash.cassettes = v.cash.cassettes.set i (followed c) ∧ (followCount i v).fault = v.fault := by
  have hat : cassetteAt v i = c := cassetteAt_eq hi
  have hlt : i < v.cash.cassettes.length := (List.getElem?_eq_some_iff.mp hi).1
  unfold followCount followed
  rw [hat]
  by_cases hs : serves c = true
  · have hmod := modCassette_eq_set (fun c' => { c' with st := stateOfCount c.count c.setpoint }) hi
    rw [if_pos hs, if_pos hs]
    dsimp only
    rw [hmod]
    split
    · exact noticeAll_record (by simp [be, cassetteFigures_length]) hq
    · split
      · exact noticeAll_record (by simp [be]) hq
      · exact ⟨rfl, rfl⟩
  · rw [if_neg hs, if_neg hs]
    refine ⟨?_, rfl⟩
    obtain ⟨_, hget⟩ := List.getElem?_eq_some_iff.mp hi
    rw [← hget, List.set_getElem_self]

theorem removeCassette_record (hi : v.cash.cassettes[i]? = some c) (hq : v.bus.queue.length < 16) :
    (removeCassette i v).cash.cassettes =
        v.cash.cassettes.set i { c with st := .removed, misses := 0, restart := 0 } ∧
      (removeCassette i v).fault = v.fault := by
  rw [removeCassette, modCassette_eq_set _ hi]
  exact noticeAll_record (by simp [be, cassetteFigures_length]) hq

/-- The record as a closed switch leaves it: one that was REMOVED is UNLOADED (R7). -/
def reseated (p : Nat) (c : Cassette) : Cassette :=
  if c.st = .removed then { setpoint := p } else { c with misses := 0, setpoint := p }

theorem cassetteSettled_closed {denoms : List Denom} : cassetteSettled denoms p true c =
    if (serves (reseated p c) || (reseated p c).st == .empty || (reseated p c).st == .suspect) &&
        !fitsConfig denoms (reseated p c) then { reseated p c with st := .suspect }
    else followed (reseated p c) := by
  have hopen : cassetteSettled denoms p true c = match c.st with
      | .removed => { setpoint := p }
      | .unloaded | .suspect => { c with misses := 0, setpoint := p }
      | .empty =>
          if fitsConfig denoms c then { c with misses := 0, setpoint := p }
          else { c with misses := 0, setpoint := p, st := .suspect }
      | .active | .low =>
          if fitsConfig denoms c then
            { c with misses := 0, setpoint := p, st := if c.count = 0 then .empty else if c.count ≤ p then .low else
              .active }
          else { c with misses := 0, setpoint := p, st := .suspect } := by
    unfold cassetteSettled fitsConfig
    cases c.st <;> rfl
  have hfits (st : CassetteState) :
      fitsConfig denoms { c with st := st, misses := 0, setpoint := p } = fitsConfig denoms c := rfl
  rw [hopen, reseated]
  cases hst : c.st with
  | removed => simp [followed, serves]
  | unloaded => simp [followed, serves]
  | suspect => cases hf : fitsConfig denoms c <;> simp [followed, serves, hfits, hf]
  | empty => cases hf : fitsConfig denoms c <;> simp [followed, serves, hfits, hf]
  | active => cases hf : fitsConfig denoms c <;> simp [followed, serves, stateOfCount_eq, hfits, hf]
  | low => cases hf : fitsConfig denoms c <;> simp [followed, serves, stateOfCount_eq, hfits, hf]

/-- The settling of a cassette gives its record, and raises no fault where it does not make it SUSPECT. -/
theorem settleCassette_record (hi : v.cash.cassettes[i]? = some c) (hq : v.bus.queue.length < 16) :
    (settleCassette p i v).cash.cassettes =
        v.cash.cassettes.set i (cassetteSettled v.cash.denoms p (seated v i) c) ∧
      ((cassetteSettled v.cash.denoms p (seated v i) c).st ≠ .suspect →
        (settleCassette p i v).fault = v.fault) := by
  have hlt : i < v.cash.cassettes.length := (List.getElem?_eq_some_iff.mp hi).1
  have hget {a : Cassette} : (v.cash.cassettes.set i a)[i]? = some a := List.getElem?_set_self hlt
  have hfresh := modCassette_eq_set (fun c => { c with misses := 0, setpoint := p }) hi
  cases ho : seated v i with
  | false =>
    rw [settleCassette_open ho, hfresh]
    obtain ⟨hrec, hfault⟩ := removeCassette_record (v := { v with cash := { v.cash with
      cassettes := v.cash.cassettes.set i { c with misses := 0, setpoint := p } } }) hget hq
    refine ⟨hrec.trans (List.set_set ..), fun _ => hfault⟩
  | true =>
    let w : State := { v with cash := { v.cash with cassettes := v.cash.cassettes.set i (reseated p c) } }
    have hsw : switched p i v = w := by
      unfold switched
      rw [hfresh]
      refine (if_neg (by rw [Bool.not_eq_true', Bool.not_eq_false]; exact ho)).trans ?_
      rw [cassetteAt_eq (s := { v with cash := { v.cash with
        cassettes := v.cash.cassettes.set i { c with misses := 0, setpoint := p } } }) hget]
      by_cases hst : c.st = .removed
      · have hw : reseated p c = { setpoint := p } := if_pos hst
        refine (if_pos (by simp [hst])).trans ((modCassette_eq_set clearedCassette hget).trans ?_)
        simp only [w, hw, List.set_set, clearedCassette]
      · have hw : reseated p c = { c with misses := 0, setpoint := p } := if_neg hst
        refine (if_neg (by simp [hst])).trans ?_
        simp only [w, hw]
    have hat : cassetteAt w i = reseated p c := cassetteAt_eq hget
    rw [settleCassette_eq, hsw, hat, misfits_eq, cassetteSettled_closed]
    split
    · have hmod := modCassette_eq_set (s := w) (fun c' => { c' with st := .suspect }) hget
      refine ⟨?_, fun hne => absurd rfl hne⟩
      rw [hmod, (raiseHard_busOnly ..).cash]
      exact List.set_set ..
    · obtain ⟨hrec, hfault⟩ := followCount_record (v := w) hget hq
      exact ⟨hrec.trans (List.set_set ..), fun _ => hfault⟩

/-- A cassette settled after others: what they left of the denominations and the switches is what stood before. -/
theorem settleCassette_next {n : Nat} (hv : SettledFrom n s v) (hn : s.bus.queue.length + n < 16)
    (hi : v.cash.cassettes[i]? = some c) :
    (settleCassette p i v).cash.cassettes =
        v.cash.cassettes.set i (cassetteSettled s.cash.denoms p (seated s i) c) ∧
      ((cassetteSettled s.cash.denoms p (seated s i) c).st ≠ .suspect → (settleCassette p i v).fault = v.fault) ∧
      SettledFrom (n + 1) s (settleCassette p i v) := by
  have hq : v.bus.queue.length < 16 := Nat.lt_of_le_of_lt hv.queue hn
  have hdenoms : v.cash.denoms = s.cash.denoms := by rw [hv.same]
  have hseat : seated v i = seated s i := by rw [seated, hv.same]; rfl
  obtain ⟨hrec, hfault⟩ := settleCassette_record (p := p) hi hq
  rw [hdenoms, hseat] at hrec hfault
  exact ⟨hrec, hfault, hv.trans (settleCassette_settled hq)⟩

end

section
variable {l : List Nat}

theorem settleCassettes_kept : settleCassettes false l v =
    settleCassette (countAt l 3) 3 (settleCassette (countAt l 2) 2
      (settleCassette (countAt l 1) 1 (settleCassette (countAt l 0) 0 v))) := by
  rw [settleCassettes]
  simp only [List.foldl_cons, List.foldl_nil, Bool.false_eq_true, if_false]

theorem settleCassettes_settled (hq : v.bus.queue.length ≤ 12) : SettledFrom 4 v (settleCassettes false l v) := by
  have hnext {n i p : Nat} {w : State} (hn : n ≤ 3) (hw : SettledFrom n v w) :
      SettledFrom (n + 1) v (settleCassette p i w) :=
    hw.trans (settleCassette_settled (by have := hw.queue; omega))
  have s0 : SettledFrom 1 v (settleCassette (countAt l 0) 0 v) := hnext (by decide) .refl
  rw [settleCassettes_kept]
  generalize settleCassette (countAt l 0) 0 v = v0 at s0 ⊢
  have s1 : SettledFrom 2 v (settleCassette (countAt l 1) 1 v0) := hnext (by decide) s0
  generalize settleCassette (countAt l 1) 1 v0 = v1 at s1 ⊢
  have s2 : SettledFrom 3 v (settleCassette (countAt l 2) 2 v1) := hnext (by decide) s1
  exact hnext (by decide) s2

/-- The four cassettes, each settled over what stood in it. -/
theorem settleCassettes_records {c0 c1 c2 c3 : Cassette} (hl : v.cash.cassettes = [c0, c1, c2, c3])
    (hq : v.bus.queue.length ≤ 12) :
    let settled := fun (i : Nat) (c : Cassette) => cassetteSettled v.cash.denoms (l.getD i 0) (seated v i) c;
    let t := settleCassettes false l v;
    t.cash.cassettes = [settled 0 c0, settled 1 c1, settled 2 c2, settled 3 c3] ∧
      ((∀ c ∈ t.cash.cassettes, c.st ≠ .suspect) → t.fault = v.fault) := by
  intro settled t
  have ht : t = settleCassette (countAt l 3) 3 (settleCassette (countAt l 2) 2
      (settleCassette (countAt l 1) 1 (settleCassette (countAt l 0) 0 v))) := settleCassettes_kept
  clear_value t
  obtain ⟨h0, f0, s0⟩ := settleCassette_next (i := 0) (p := countAt l 0) (c := c0) (SettledFrom.refl (s := v))
    (by omega)
    (by rw [hl]; rfl)
  generalize settleCassette (countAt l 0) 0 v = v0 at h0 f0 s0 ht
  obtain ⟨h1, f1, s1⟩ := settleCassette_next (i := 1) (p := countAt l 1) (c := c1) s0 (by omega)
    (by rw [h0, hl]; rfl)
  generalize settleCassette (countAt l 1) 1 v0 = v1 at h1 f1 s1 ht
  obtain ⟨h2, f2, s2⟩ := settleCassette_next (i := 2) (p := countAt l 2) (c := c2) s1 (by omega)
    (by rw [h1, h0, hl]; rfl)
  generalize settleCassette (countAt l 2) 2 v1 = v2 at h2 f2 s2 ht
  obtain ⟨h3, f3, -⟩ := settleCassette_next (i := 3) (p := countAt l 3) (c := c3) s2 (by omega)
    (by rw [h2, h1, h0, hl]; rfl)
  have hrec : t.cash.cassettes = [settled 0 c0, settled 1 c1, settled 2 c2, settled 3 c3] := by
    rw [ht, h3, h2, h1, h0, hl]
    rfl
  refine ⟨hrec, fun hno => ?_⟩
  rw [hrec] at hno
  rw [ht, f3 (hno (settled 3 c3) (by simp)), f2 (hno (settled 2 c2) (by simp)), f1 (hno (settled 1 c1) (by simp)),
    f0 (hno (settled 0 c0) (by simp))]

end

/-! ### A good reading at a start with retention intact (R2, R14, R20) -/

theorem clampTold_settled : SettledFrom 0 v (clampTold x v) := by
  unfold clampTold
  split
  · exact recordFault_settled _
  · exact .refl

theorem clampTold_flagged (hc : x.clamped = true) (hf : v.fault.flags.length = 18) :
    (clampTold x v).fault.flags[faultKindIdx .configClamped]? = some true ∧
      (clampTold x v).fault.hold ≠ .empty := by
  have hflags : (clampTold x v).fault.flags = v.fault.flags.set (faultKindIdx .configClamped) true := by
    rw [clampTold, if_pos hc]
    exact latchFault_flags ..
  refine ⟨?_, ?_⟩
  · rw [hflags]
    exact List.getElem?_set_self (by rw [hf]; decide)
  · rw [clampTold, if_pos hc]
    exact latchFault_hold (faultReport .configClamped .none none none v)
      { v.fault with flags := v.fault.flags.set (faultKindIdx .configClamped) true }

theorem settleGain_kept (g : Nat) (c : Channel) : settleGain false g (keepGain c) =
    if g = c.gainBasis then { gain := c.gain, gainBasis := c.gainBasis } else { gain := g, gainBasis := g } := by
  by_cases h : g = c.gainBasis
  · simp [settleGain, keepGain, h]
  · simp [settleGain, keepGain, h]

theorem settleDenoms_kept (new old : List Denom) :
    ((new.zip (old.map keepLearned)).map fun p => settleDenom false p.1 p.2) =
      (new.zip old).map fun p =>
        if p.1.nomThick = p.2.basis then { p.1 with ref := p.2.ref, restart := p.2.restart, basis := p.1.nomThick }
        else { p.1 with ref := p.1.nomThick, restart := 0, basis := p.1.nomThick } := by
  rw [List.zip_map_right, List.map_map]
  refine List.map_congr_left fun p _ => ?_
  by_cases h : p.1.nomThick = p.2.basis
  · simp [settleDenom, keepLearned, h]
  · simp [settleDenom, keepLearned, h]

theorem exists_of_length_four {α : Type} {l : List α} (h : l.length = 4) : ∃ a b c d, l = [a, b, c, d] := by
  match l, h with
  | [a, b, c, d], _ => exact ⟨a, b, c, d, rfl⟩

theorem takeConfiguration_intact {kept : State} (hk : restarted k b s = kept)
    (ht : takeConfiguration false x kept = t) :
    t.config = x.config ∧ t.lane = { kept.lane with power := .warming } ∧
      t.chP = (if x.config.gainP = s.chP.gainBasis then { gain := s.chP.gain, gainBasis := s.chP.gainBasis }
        else { gain := x.config.gainP, gainBasis := x.config.gainP }) ∧
      t.chQ = (if x.config.gainQ = s.chQ.gainBasis then { gain := s.chQ.gain, gainBasis := s.chQ.gainBasis }
        else { gain := x.config.gainQ, gainBasis := x.config.gainQ }) ∧
      (t.cash.denoms = (x.denoms.zip s.cash.denoms).map fun p =>
        if p.1.nomThick = p.2.basis then
          { p.1 with ref := p.2.ref, restart := p.2.restart, basis := p.1.nomThick }
        else { p.1 with ref := p.1.nomThick, restart := 0, basis := p.1.nomThick }) ∧
      (s.cash.cassettes.length = 4 →
        t.cash.cassettes = s.cash.cassettes.zipIdx.map fun p =>
          cassetteSettled t.cash.denoms (x.setpoints.getD p.2 0) (b.presence.getD p.2 false) p.1) ∧
      (s.fault.flags.length = 18 → x.clamped = true →
        t.fault.flags[faultKindIdx .configClamped]? = some true ∧ t.fault.hold ≠ .empty) ∧
      (s.cash.cassettes.length = 4 → (∀ c ∈ t.cash.cassettes, c.st ≠ .suspect) →
        t.fault = (clampTold x kept).fault) ∧
      t.cash.purge = s.cash.purge ∧ t.cash.deposit = s.cash.deposit ∧
      t.peer = { kept := s.peer.kept, entries := peersAwaited x.config b.straps } ∧
      t.alarm = { zones := x.zones.map fun z => ({ type := z.1, report := z.2 } : Zone) } ∧
      t.capture = { journal := s.capture.journal, lastSeq := s.capture.lastSeq, bundles := s.capture.bundles } ∧
      t.fault.shift = s.fault.shift ∧ t.fault.closed = s.fault.closed ∧ t.disp = {} ∧ t.dep = {} ∧ t.cal = {}
        ∧
      t.approval = {} ∧ t.drives = {} ∧ t.board = b ∧ t.pending = s.pending := by
  subst hk
  rw [takeConfiguration_eq] at ht
  let kept := restarted k b s
  have htold : clampTold x kept = { kept with fault := (clampTold x kept).fault } := clampTold_kept
  have hs := clampTold_settled (x := x) (v := kept)
  have hflag := clampTold_flagged (x := x) (v := kept)
  generalize clampTold x kept = u at ht htold hs hflag ⊢
  have hempty : u.bus.queue.length ≤ 12 := Nat.le_trans hs.queue (by simp [kept, restarted])
  let w := configured false x u
  have hz : SettledFrom 4 w (settleCassettes false x.setpoints w) := settleCassettes_settled hempty
  have hrecords {c0 c1 c2 c3 : Cassette} (hl : w.cash.cassettes = [c0, c1, c2, c3]) :=
    settleCassettes_records (l := x.setpoints) hl hempty
  have hcash : u.cash = kept.cash := by rw [htold]
  have hboard : u.board = b := by rw [htold]; rfl
  have hcassettes : w.cash.cassettes = s.cash.cassettes := by
    show u.cash.cassettes = kept.cash.cassettes
    rw [hcash]
  have hseat (i : Nat) : seated w i = b.presence.getD i false := congrArg (fun d => d.presence.getD i false) hboard
  generalize settleCassettes false x.setpoints (configured false x u) = z at ht hz hrecords
  subst ht
  have hsame := hz.same
  have hdenoms : z.cash.denoms = w.cash.denoms := congrArg (fun v => v.cash.denoms) hsame
  have hlane : u.lane = kept.lane := by rw [htold]
  have hP : u.chP = keepGain s.chP := by rw [htold]; rfl
  have hQ : u.chQ = keepGain s.chQ := by rw [htold]; rfl
  have hold : u.cash.denoms = s.cash.denoms.map keepLearned := by rw [hcash]; rfl
  have hpeer : u.peer = { kept := s.peer.kept } := by rw [htold]; rfl
  have hstation : u.lane.station = b.straps := by rw [htold]; rfl
  have halarm : u.alarm = {} := by rw [htold]; rfl
  refine ⟨congrArg State.config hsame, ?_, ?_, ?_, ?_, ?_, ?_, ?_, ?_, ?_, ?_, ?_, ?_, ?_, ?_, ?_, ?_, ?_, ?_, ?_, ?_,
    ?_⟩
  · exact congrArg (fun l => { l with power := .warming }) ((congrArg State.lane hsame).trans hlane)
  · refine (congrArg State.chP hsame).trans ?_
    show settleGain false x.config.gainP u.chP = _
    rw [hP, settleGain_kept]
  · refine (congrArg State.chQ hsame).trans ?_
    show settleGain false x.config.gainQ u.chQ = _
    rw [hQ, settleGain_kept]
  · refine hdenoms.trans ?_
    show ((x.denoms.zip u.cash.denoms).map fun p => settleDenom false p.1 p.2) = _
    rw [hold, settleDenoms_kept]
  · intro hlen
    obtain ⟨c0, c1, c2, c3, hl⟩ := exists_of_length_four hlen
    obtain ⟨hrec, -⟩ := hrecords (hcassettes.trans hl)
    refine hrec.trans ?_
    show _ = s.cash.cassettes.zipIdx.map fun p =>
      cassetteSettled z.cash.denoms (x.setpoints.getD p.2 0) (b.presence.getD p.2 false) p.1
    simp only [hdenoms, hl, hseat]
    rfl
  · intro hlen hclamped
    obtain ⟨hset, hhold⟩ := hflag hclamped hlen
    exact ⟨hz.flags _ hset, hz.hold hhold⟩
  · intro hlen hno
    obtain ⟨c0, c1, c2, c3, hl⟩ := exists_of_length_four hlen
    obtain ⟨-, hfault⟩ := hrecords (hcassettes.trans hl)
    exact hfault hno
  · exact (congrArg (fun v => v.cash.purge) hsame).trans (congrArg CassetteUnit.purge hcash)
  · exact (congrArg (fun v => v.cash.deposit) hsame).trans (congrArg CassetteUnit.deposit hcash)
  · refine (congrArg State.peer hsame).trans ?_
    show { u.peer with entries := startPeers x.config u.lane.station } = _
    rw [hpeer, hstation, startPeers_eq]
  · refine (congrArg State.alarm hsame).trans ?_
    exact congrArg
      (fun a : Alarm => { a with zones := x.zones.map fun (p : ZoneType × Bool) =>
        ({ type := p.1, report := p.2 } : Zone) }) halarm
  · exact (congrArg State.capture hsame).trans (show u.capture = kept.capture by rw [htold])
  · exact hz.shift.trans hs.shift
  · exact hz.closed.trans hs.closed
  · exact (congrArg State.disp hsame).trans (show u.disp = kept.disp by rw [htold])
  · exact (congrArg State.dep hsame).trans (show u.dep = kept.dep by rw [htold])
  · exact (congrArg State.cal hsame).trans (show u.cal = kept.cal by rw [htold])
  · exact (congrArg State.approval hsame).trans (show u.approval = kept.approval by rw [htold])
  · exact (congrArg State.drives hsame).trans (show u.drives = kept.drives by rw [htold])
  · exact (congrArg State.board hsame).trans hboard
  · exact (congrArg State.pending hsame).trans (show u.pending = kept.pending by rw [htold])

end

/-- Settles O54: the reading, and what each kind of reset makes of it with retention intact or lost. -/
theorem resetsKeepAndClear : Obligations.ResetsKeepAndClear := by
  unfold Obligations.ResetsKeepAndClear
  intro b s
  refine ⟨readConfiguration_isSome b, ?_, ?_⟩
  · intro l x hl hx
    obtain ⟨hlen, rfl⟩ := readConfiguration_eq_some hl hx
    exact imageGives hlen
  · intro k hk rows starts kept
    have hstarts {t : State} (ht : restart k { s with board := b } = t) : starts t := by
      refine ⟨ht, ?_⟩
      rintro e (⟨rfl, rfl⟩ | ⟨rfl, rfl⟩ | ⟨rfl, rfl⟩)
      all_goals exact congrArg Host.Outcome.next ht
    refine ⟨?_, ?_, ?_⟩
    · intro hret hnone
      refine hstarts ((restart_intact hk hret).trans ?_)
      rw [hnone]
      exact enterConfigFault (by simp [restarted])
    · intro hret hnone
      refine hstarts ((restart_lost hret).trans ?_)
      rw [hnone]
      exact enterConfigFault (by rw [forgotten_queue_length]; decide)
    · intro x hx told peers zones
      refine ⟨?_, ?_⟩
      · intro u hret
        have hd : x.denoms.length = 8 := by
          cases hl : b.image with
          | none => simp [readConfiguration, hl] at hx
          | some l =>
            obtain ⟨-, rfl⟩ := readConfiguration_eq_some hl hx
            simp [decodeImage]
        refine hstarts ((restart_lost hret).trans ?_)
        rw [hx]
        exact takeConfiguration_lost hd
      · intro hret
        have hrestart : restart k { s with board := b } = takeConfiguration false x kept := by
          rw [restart_intact hk hret, hx]
        generalize ht : takeConfiguration false x kept = t at hrestart
        exact ⟨t, hstarts hrestart, takeConfiguration_intact (k := k) (s := s) rfl ht⟩

end Sys2Proof.Machine
end
